-- ==== Sys2Proof/Word.lean ====
section
/-! DEFINITION. The word types of the BitStream block (spec: 00_scope.md R8, R10; 10_state.md R21).

The machine word has `W` bits, `W` being 32 or 64 (R8). One carrier of 64 bits holds it for both: with `W = 32`
only the low 32 bits are in use (log 15). -/

namespace Sys2Proof

/-- One byte of the sink, the source or a raw memory (R71). -/
abbrev Byte := BitVec 8

/-- A 32-bit register: `CW`, `A`, and every 32-bit CSR (R21, R39). -/
abbrev U32 := BitVec 32

/-- A machine word: `B`, `V` and the words of the two buffers; its low `W` bits are in use (R21, R23, R26). -/
abbrev Word := BitVec 64

end Sys2Proof
end

