-- ==== Sys2Proof/Config.lean ====
section
/-! DEFINITION. The parameter record of 00_scope.md R8 and the free values: what an implementation fixes and what the
spec leaves open.

The record is an ordinary value, so that every statement about the machine can be made for every legal record; the
machine carries it in its state and never changes it (log 1). A free value is an `opaque` constant: nothing can be
proved of it, and a statement that holds, holds whatever it is (log 7 to 14). -/

namespace Sys2Proof

/-- Which function `CRC32` is (20_memory.md R88: "The model takes `CRC32` as a configuration function"): the default
bitwise definition of R88, or a function of the platform's of which nothing is known (log 14). -/
inductive CrcChoice where
  | ieee8023
  | platform
deriving DecidableEq, Repr

/-- The parameters of R8 that are not derived from others. -/
structure Config where
  /-- `W`, bits in one machine word of the bit buffers. -/
  wordBits : Nat
  /-- `BUF_WORDS`, words in each word buffer. -/
  bufWords : Nat
  /-- `UNARY_MAX`, the largest legal unary value. -/
  unaryMax : Nat
  /-- `SECT_SIZE_BITS`, width of `section_size_bytes`. -/
  sectSizeBits : Nat
  /-- `NUM_CHAN_BITS`, width of `num_channels`. -/
  numChanBits : Nat
  /-- `REPS_BITS`, width of `repetitions`. -/
  repsBits : Nat
  /-- `NBITS_BITS`, width of `bit_rotation` and of `nbits-1`. -/
  nbitsBits : Nat
  /-- `ALG_BITS`, width of `algorithm_code`. -/
  algBits : Nat
  /-- `TYPE_BITS`, width of `data_type_code`. -/
  typeBits : Nat
  /-- `MAGIC0`, the first magic byte. -/
  magic0 : Byte
  /-- `MAGIC1`, the second magic byte. -/
  magic1 : Byte
  /-- `MAX_SECTION_LENGTH`, the largest section size in bytes. -/
  maxSectionLength : Nat
  /-- `MAX_GHOST_BYTES`, padding bytes after the section in raw memory. -/
  maxGhostBytes : Nat
  /-- `MAX_CHANNELS`, size of each channel context file. -/
  maxChannels : Nat
  /-- `NAME_MAX`, size of the `NAME` register array, terminator included. -/
  nameMax : Nat
  /-- `CRC32`. -/
  crc : CrcChoice
deriving DecidableEq, Repr

/-- The defaults of R8. -/
def Config.default : Config :=
  { wordBits := 32, bufWords := 256, unaryMax := 1024, sectSizeBits := 32, numChanBits := 16, repsBits := 32,
    nbitsBits := 5, algBits := 4, typeBits := 4, magic0 := 0x53, magic1 := 0x4C, maxSectionLength := 16777216,
    maxGhostBytes := 3, maxChannels := 256, nameMax := 256, crc := .ieee8023 }

/-- `WB`, bytes per machine word (R8). -/
def Config.wordBytes (K : Config) : Nat := K.wordBits / 8

/-- `RAW_BYTES = MAX_SECTION_LENGTH + MAX_GHOST_BYTES` (20_memory.md R71). -/
def Config.rawBytes (K : Config) : Nat := K.maxSectionLength + K.maxGhostBytes

/-- The constraints column of R8. -/
structure Config.Legal (K : Config) : Prop where
  wordBits : K.wordBits = 32 ∨ K.wordBits = 64
  bufWords : 1 ≤ K.bufWords
  unaryMax : K.wordBits ≤ K.unaryMax
  sectSizeBits : 1 ≤ K.sectSizeBits ∧ K.sectSizeBits ≤ 32
  numChanBits : 1 ≤ K.numChanBits ∧ K.numChanBits ≤ 32
  repsBits : 1 ≤ K.repsBits ∧ K.repsBits ≤ 32
  nbitsBits : 5 ≤ K.nbitsBits ∧ K.nbitsBits ≤ 32
  algBits : 2 ≤ K.algBits ∧ K.algBits ≤ 32
  typeBits : 3 ≤ K.typeBits ∧ K.typeBits ≤ 32
  maxSectionLength : 1 ≤ K.maxSectionLength ∧ K.maxSectionLength < 2 ^ K.sectSizeBits
  maxGhostBytes : 3 ≤ K.maxGhostBytes
  maxChannels : 1 ≤ K.maxChannels ∧ K.maxChannels < 2 ^ K.numChanBits ∧ K.maxChannels ≤ 65535
  nameMax : 1 ≤ K.nameMax

/-- FREE VALUE: the byte at an address of an unspecified span of raw memory; the first argument is the tag of the draw
the span was made by, even for TX and odd for RX (20_memory.md R86; 44_codec_decode.md R230; 46_container_parser.md
R275; log 9 to 13). -/
opaque Config.freeByte : Nat → Nat → Byte

/-- FREE VALUE: what an unspecified register of RX holds after a fault past the check phase, and the `V` of a count that
does not fit in it; the first argument is the draw, the second says which register (41_bitstream_reader.md R171; R230;
R275; log 8 to 10; R21, log 27). -/
opaque Config.freeReg : Nat → Nat → Nat

/-- FREE VALUE: what a 64-bit counter reads as once its exact count has reached `2^64` (10_state.md R24;
93_implementation_defined.md U12; log 7). -/
opaque Config.counterPast : Nat → BitVec 64

/-- FREE VALUE: the CRC function of a platform that does not take the default (20_memory.md R88; log 14). -/
opaque Config.platformCrc32 : List Byte → U32

end Sys2Proof
end

