-- ==== Sys2Proof/Syntax.lean ====
section
/-! DEFINITION. The command set: one constructor for each of the 37 rows of spec/opcode_table.json, in the table's
order, with the operands 30_encoding.md R103 and R106 give it; and the command triple that carries one (R100).

An operand a row does not name is don't-care (R100) and is no field of its constructor. -/

namespace Sys2Proof

/-- A command as the host issues it: the triple `(CW, A, B)` (R100). -/
structure Command where
  cw : U32
  a : U32
  b : Word
deriving DecidableEq, Repr

/-- The commands of 30_encoding.md R103. -/
inductive Instr where
  /-- `TX.RESET`, R300. -/
  | txReset
  /-- `TX.CSRR addr`, R302. -/
  | txCsrr (addr : U32)
  /-- `TX.CSRW addr, value`, R303. -/
  | txCsrw (addr : U32) (value : Word)
  /-- `TX.RAWLD addr, size`, R306. -/
  | txRawld (addr : U32) (size : Byte)
  /-- `TX.RAWST addr, value, size`, R307. -/
  | txRawst (addr : U32) (value : Word) (size : Byte)
  /-- `W.BITS value, n`, R145. -/
  | wBits (value : Word) (n : Byte)
  /-- `W.UNARY v`, R146. -/
  | wUnary (v : Word)
  /-- `W.STR addr, cap`, R147. -/
  | wStr (addr : U32) (cap : Word)
  /-- `W.WINDUP`, R148. -/
  | wWindup
  /-- `W.FLUSH discard`, R149. -/
  | wFlush (discard : Byte)
  /-- `W.CLOSE`, R150. -/
  | wClose
  /-- `E.MEXPG u, k`, R202. -/
  | eMexpg (u : Word) (k : Byte)
  /-- `E.WORD ch, value`, R211. -/
  | eWord (ch : BitVec 16) (value : Word)
  /-- `E.VEC ch, addr, nbytes`, R212. -/
  | eVec (ch : BitVec 16) (addr : U32) (nbytes : Word)
  /-- `E.HRESET ch`, R213. -/
  | eHreset (ch : BitVec 16)
  /-- `G.ADDCH reps, desc`, R241. -/
  | gAddch (reps : U32) (desc : Word)
  /-- `G.RESETCH`, R242. -/
  | gResetch
  /-- `G.RESTORE ch`, R243. -/
  | gRestore (ch : BitVec 16)
  /-- `G.SECTION len`, R244. -/
  | gSection (len : Word)
  /-- `G.FINAL`, R254. -/
  | gFinal
  /-- `RX.RESET`, R301. -/
  | rxReset
  /-- `RX.CSRR addr`, R304. -/
  | rxCsrr (addr : U32)
  /-- `RX.CSRW addr, value`, R305. -/
  | rxCsrw (addr : U32) (value : Word)
  /-- `RX.RAWLD addr, size`, R308. -/
  | rxRawld (addr : U32) (size : Byte)
  /-- `RX.RAWST addr, value, size`, R309. -/
  | rxRawst (addr : U32) (value : Word) (size : Byte)
  /-- `R.BITS n`, R166. -/
  | rBits (n : Byte)
  /-- `R.UNARY`, R167. -/
  | rUnary
  /-- `R.STR addr, cap`, R168. -/
  | rStr (addr : U32) (cap : Word)
  /-- `R.WINDUP`, R169. -/
  | rWindup
  /-- `D.MEXPG k`, R203. -/
  | dMexpg (k : Byte)
  /-- `D.WORD ch`, R226. -/
  | dWord (ch : BitVec 16)
  /-- `D.VEC ch, addr, nbytes`, R227. -/
  | dVec (ch : BitVec 16) (addr : U32) (nbytes : Word)
  /-- `D.HRESET ch`, R228. -/
  | dHreset (ch : BitVec 16)
  /-- `P.HEADER`, R271. -/
  | pHeader
  /-- `P.SECTION`, R275. -/
  | pSection
  /-- `P.ADDCH reps, desc`, R273. -/
  | pAddch (reps : U32) (desc : Word)
  /-- `P.RESETCH`, R274. -/
  | pResetch
deriving DecidableEq, Repr

end Sys2Proof
end

