-- ==== Sys2Proof/WellFormed.lean ====
section
/-! DEFINITION. Which commands exist on a block with a given parameter record: a `B` operand is a `W`-bit number
(30_encoding.md R100, R106). Nothing else is ill-formed: a used field outside its command's range matches its row and
the command's own rule faults `BadOperand` (R104). -/

namespace Sys2Proof

/-- `x` is a number of at most `W` bits. -/
def Word.fits (K : Config) (x : Word) : Bool := x.toNat < 2 ^ K.wordBits

/-- The command's `B` operand, where it has one, has at most `W` bits (R106). -/
def Instr.wellFormed (K : Config) : Instr → Bool
  | .txReset => true
  | .txCsrr _ => true
  | .txCsrw _ value => Word.fits K value
  | .txRawld _ _ => true
  | .txRawst _ value _ => Word.fits K value
  | .wBits value _ => Word.fits K value
  | .wUnary v => Word.fits K v
  | .wStr _ cap => Word.fits K cap
  | .wWindup => true
  | .wFlush _ => true
  | .wClose => true
  | .eMexpg u _ => Word.fits K u
  | .eWord _ value => Word.fits K value
  | .eVec _ _ nbytes => Word.fits K nbytes
  | .eHreset _ => true
  | .gAddch _ desc => Word.fits K desc
  | .gResetch => true
  | .gRestore _ => true
  | .gSection len => Word.fits K len
  | .gFinal => true
  | .rxReset => true
  | .rxCsrr _ => true
  | .rxCsrw _ value => Word.fits K value
  | .rxRawld _ _ => true
  | .rxRawst _ value _ => Word.fits K value
  | .rBits _ => true
  | .rUnary => true
  | .rStr _ cap => Word.fits K cap
  | .rWindup => true
  | .dMexpg _ => true
  | .dWord _ => true
  | .dVec _ _ nbytes => Word.fits K nbytes
  | .dHreset _ => true
  | .pHeader => true
  | .pSection => true
  | .pAddch _ desc => Word.fits K desc
  | .pResetch => true

end Sys2Proof
end

