-- ==== Sys2Proof/Decode.lean ====
section
/-! DEFINITION. Command encoding, Part A of spec/30_encoding.md: the decoder, total on every triple and rejecting by
name, then the encoder, the opcode table's match and mask of each command, and the assembler's operand order. -/

namespace Sys2Proof

/-- Why a command word matches no row of the opcode table (R104, R105). Either way the command is illegal and the
engine `CW[7]` selects raises `IllegalCommand(CW, 0)` (60_exceptions.md R343). -/
inductive DecodeError where
  /-- `CW[7:0]` is none of the 37 opcodes. -/
  | unassignedOpcode
  /-- The opcode is assigned and a field its format does not use is not zero. -/
  | reservedFieldNotZero
deriving DecidableEq, Repr

/-- `OP = CW[7:0]` (R101). -/
def Command.op (c : Command) : Nat := (c.cw.extractLsb' 0 8).toNat

/-- `N = CW[15:8]` (R101). -/
def Command.n (c : Command) : Byte := c.cw.extractLsb' 8 8

/-- `CH = CW[31:16]` (R101). -/
def Command.ch (c : Command) : BitVec 16 := c.cw.extractLsb' 16 16

/-- Whether `CW` selects the RX engine: `OP[7]` (R101). -/
def Command.selectsRx (c : Command) : Bool := c.cw.getLsbD 7

/-- Format `Z`: neither `N` nor `CH` is used, so both must be zero (R102). -/
def Command.formatZ (c : Command) (i : Instr) : Except DecodeError Instr :=
  if c.n = 0 ∧ c.ch = 0 then .ok i else .error .reservedFieldNotZero

/-- Format `N`: `N` is used and `CH` must be zero (R102). -/
def Command.formatN (c : Command) (i : Instr) : Except DecodeError Instr :=
  if c.ch = 0 then .ok i else .error .reservedFieldNotZero

/-- Format `C`: `CH` is used and `N` must be zero (R102). -/
def Command.formatC (c : Command) (i : Instr) : Except DecodeError Instr :=
  if c.n = 0 then .ok i else .error .reservedFieldNotZero

/-- The command a triple stands for: the opcode map of R103, operands taken as R106 assembles them. -/
def decode (c : Command) : Except DecodeError Instr :=
  match c.op with
  | 0x00 => c.formatZ .txReset
  | 0x01 => c.formatZ (.txCsrr c.a)
  | 0x02 => c.formatZ (.txCsrw c.a c.b)
  | 0x03 => c.formatN (.txRawld c.a c.n)
  | 0x04 => c.formatN (.txRawst c.a c.b c.n)
  | 0x10 => c.formatN (.wBits c.b c.n)
  | 0x11 => c.formatZ (.wUnary c.b)
  | 0x12 => c.formatZ (.wStr c.a c.b)
  | 0x13 => c.formatZ .wWindup
  | 0x14 => c.formatN (.wFlush c.n)
  | 0x15 => c.formatZ .wClose
  | 0x20 => c.formatN (.eMexpg c.b c.n)
  | 0x21 => c.formatC (.eWord c.ch c.b)
  | 0x22 => c.formatC (.eVec c.ch c.a c.b)
  | 0x23 => c.formatC (.eHreset c.ch)
  | 0x30 => c.formatZ (.gAddch c.a c.b)
  | 0x31 => c.formatZ .gResetch
  | 0x32 => c.formatC (.gRestore c.ch)
  | 0x33 => c.formatZ (.gSection c.b)
  | 0x34 => c.formatZ .gFinal
  | 0x80 => c.formatZ .rxReset
  | 0x81 => c.formatZ (.rxCsrr c.a)
  | 0x82 => c.formatZ (.rxCsrw c.a c.b)
  | 0x83 => c.formatN (.rxRawld c.a c.n)
  | 0x84 => c.formatN (.rxRawst c.a c.b c.n)
  | 0x90 => c.formatN (.rBits c.n)
  | 0x91 => c.formatZ .rUnary
  | 0x92 => c.formatZ (.rStr c.a c.b)
  | 0x93 => c.formatZ .rWindup
  | 0xA0 => c.formatN (.dMexpg c.n)
  | 0xA1 => c.formatC (.dWord c.ch)
  | 0xA2 => c.formatC (.dVec c.ch c.a c.b)
  | 0xA3 => c.formatC (.dHreset c.ch)
  | 0xB0 => c.formatZ .pHeader
  | 0xB1 => c.formatZ .pSection
  | 0xB2 => c.formatZ (.pAddch c.a c.b)
  | 0xB3 => c.formatZ .pResetch
  | _ => .error .unassignedOpcode

/-- A command word of format `Z` (R102). -/
def cwZ (op : Byte) : U32 := op.setWidth 32

/-- A command word of format `N` (R102). -/
def cwN (op n : Byte) : U32 := op.setWidth 32 ||| (n.setWidth 32 <<< 8)

/-- A command word of format `C` (R102). -/
def cwC (op : Byte) (ch : BitVec 16) : U32 := op.setWidth 32 ||| (ch.setWidth 32 <<< 16)

/-- The triple of a command, an operand the command does not name being zero (R100, R103, R106). -/
def encode : Instr → Command
  | .txReset => ⟨cwZ 0x00, 0, 0⟩
  | .txCsrr addr => ⟨cwZ 0x01, addr, 0⟩
  | .txCsrw addr value => ⟨cwZ 0x02, addr, value⟩
  | .txRawld addr size => ⟨cwN 0x03 size, addr, 0⟩
  | .txRawst addr value size => ⟨cwN 0x04 size, addr, value⟩
  | .wBits value n => ⟨cwN 0x10 n, 0, value⟩
  | .wUnary v => ⟨cwZ 0x11, 0, v⟩
  | .wStr addr cap => ⟨cwZ 0x12, addr, cap⟩
  | .wWindup => ⟨cwZ 0x13, 0, 0⟩
  | .wFlush discard => ⟨cwN 0x14 discard, 0, 0⟩
  | .wClose => ⟨cwZ 0x15, 0, 0⟩
  | .eMexpg u k => ⟨cwN 0x20 k, 0, u⟩
  | .eWord ch value => ⟨cwC 0x21 ch, 0, value⟩
  | .eVec ch addr nbytes => ⟨cwC 0x22 ch, addr, nbytes⟩
  | .eHreset ch => ⟨cwC 0x23 ch, 0, 0⟩
  | .gAddch reps desc => ⟨cwZ 0x30, reps, desc⟩
  | .gResetch => ⟨cwZ 0x31, 0, 0⟩
  | .gRestore ch => ⟨cwC 0x32 ch, 0, 0⟩
  | .gSection len => ⟨cwZ 0x33, 0, len⟩
  | .gFinal => ⟨cwZ 0x34, 0, 0⟩
  | .rxReset => ⟨cwZ 0x80, 0, 0⟩
  | .rxCsrr addr => ⟨cwZ 0x81, addr, 0⟩
  | .rxCsrw addr value => ⟨cwZ 0x82, addr, value⟩
  | .rxRawld addr size => ⟨cwN 0x83 size, addr, 0⟩
  | .rxRawst addr value size => ⟨cwN 0x84 size, addr, value⟩
  | .rBits n => ⟨cwN 0x90 n, 0, 0⟩
  | .rUnary => ⟨cwZ 0x91, 0, 0⟩
  | .rStr addr cap => ⟨cwZ 0x92, addr, cap⟩
  | .rWindup => ⟨cwZ 0x93, 0, 0⟩
  | .dMexpg k => ⟨cwN 0xA0 k, 0, 0⟩
  | .dWord ch => ⟨cwC 0xA1 ch, 0, 0⟩
  | .dVec ch addr nbytes => ⟨cwC 0xA2 ch, addr, nbytes⟩
  | .dHreset ch => ⟨cwC 0xA3 ch, 0, 0⟩
  | .pHeader => ⟨cwZ 0xB0, 0, 0⟩
  | .pSection => ⟨cwZ 0xB1, 0, 0⟩
  | .pAddch reps desc => ⟨cwZ 0xB2, reps, desc⟩
  | .pResetch => ⟨cwZ 0xB3, 0, 0⟩

/-- The command word of a command. -/
def Instr.commandWord (i : Instr) : U32 := (encode i).cw

/-- `(match, mask)` of the command's row of the opcode table; a word `CW` matches the row iff `CW and mask = match`
(R102). -/
def Instr.tableRow : Instr → U32 × U32
  | .txReset => (0x00000000, 0xFFFFFFFF)
  | .txCsrr _ => (0x00000001, 0xFFFFFFFF)
  | .txCsrw _ _ => (0x00000002, 0xFFFFFFFF)
  | .txRawld _ _ => (0x00000003, 0xFFFF00FF)
  | .txRawst _ _ _ => (0x00000004, 0xFFFF00FF)
  | .wBits _ _ => (0x00000010, 0xFFFF00FF)
  | .wUnary _ => (0x00000011, 0xFFFFFFFF)
  | .wStr _ _ => (0x00000012, 0xFFFFFFFF)
  | .wWindup => (0x00000013, 0xFFFFFFFF)
  | .wFlush _ => (0x00000014, 0xFFFF00FF)
  | .wClose => (0x00000015, 0xFFFFFFFF)
  | .eMexpg _ _ => (0x00000020, 0xFFFF00FF)
  | .eWord _ _ => (0x00000021, 0x0000FFFF)
  | .eVec _ _ _ => (0x00000022, 0x0000FFFF)
  | .eHreset _ => (0x00000023, 0x0000FFFF)
  | .gAddch _ _ => (0x00000030, 0xFFFFFFFF)
  | .gResetch => (0x00000031, 0xFFFFFFFF)
  | .gRestore _ => (0x00000032, 0x0000FFFF)
  | .gSection _ => (0x00000033, 0xFFFFFFFF)
  | .gFinal => (0x00000034, 0xFFFFFFFF)
  | .rxReset => (0x00000080, 0xFFFFFFFF)
  | .rxCsrr _ => (0x00000081, 0xFFFFFFFF)
  | .rxCsrw _ _ => (0x00000082, 0xFFFFFFFF)
  | .rxRawld _ _ => (0x00000083, 0xFFFF00FF)
  | .rxRawst _ _ _ => (0x00000084, 0xFFFF00FF)
  | .rBits _ => (0x00000090, 0xFFFF00FF)
  | .rUnary => (0x00000091, 0xFFFFFFFF)
  | .rStr _ _ => (0x00000092, 0xFFFFFFFF)
  | .rWindup => (0x00000093, 0xFFFFFFFF)
  | .dMexpg _ => (0x000000A0, 0xFFFF00FF)
  | .dWord _ => (0x000000A1, 0x0000FFFF)
  | .dVec _ _ _ => (0x000000A2, 0x0000FFFF)
  | .dHreset _ => (0x000000A3, 0x0000FFFF)
  | .pHeader => (0x000000B0, 0xFFFFFFFF)
  | .pSection => (0x000000B1, 0xFFFFFFFF)
  | .pAddch _ _ => (0x000000B2, 0xFFFFFFFF)
  | .pResetch => (0x000000B3, 0xFFFFFFFF)

/-- The command's name in the opcode table (R103). -/
def Instr.mnemonic : Instr → String
  | .txReset => "TX.RESET"
  | .txCsrr _ => "TX.CSRR"
  | .txCsrw _ _ => "TX.CSRW"
  | .txRawld _ _ => "TX.RAWLD"
  | .txRawst _ _ _ => "TX.RAWST"
  | .wBits _ _ => "W.BITS"
  | .wUnary _ => "W.UNARY"
  | .wStr _ _ => "W.STR"
  | .wWindup => "W.WINDUP"
  | .wFlush _ => "W.FLUSH"
  | .wClose => "W.CLOSE"
  | .eMexpg _ _ => "E.MEXPG"
  | .eWord _ _ => "E.WORD"
  | .eVec _ _ _ => "E.VEC"
  | .eHreset _ => "E.HRESET"
  | .gAddch _ _ => "G.ADDCH"
  | .gResetch => "G.RESETCH"
  | .gRestore _ => "G.RESTORE"
  | .gSection _ => "G.SECTION"
  | .gFinal => "G.FINAL"
  | .rxReset => "RX.RESET"
  | .rxCsrr _ => "RX.CSRR"
  | .rxCsrw _ _ => "RX.CSRW"
  | .rxRawld _ _ => "RX.RAWLD"
  | .rxRawst _ _ _ => "RX.RAWST"
  | .rBits _ => "R.BITS"
  | .rUnary => "R.UNARY"
  | .rStr _ _ => "R.STR"
  | .rWindup => "R.WINDUP"
  | .dMexpg _ => "D.MEXPG"
  | .dWord _ => "D.WORD"
  | .dVec _ _ _ => "D.VEC"
  | .dHreset _ => "D.HRESET"
  | .pHeader => "P.HEADER"
  | .pSection => "P.SECTION"
  | .pAddch _ _ => "P.ADDCH"
  | .pResetch => "P.RESETCH"

/-- The command's operands in the assembler's order `ch`, `A`, `B`, `N` (R108). -/
def Instr.asmOperands : Instr → List Nat
  | .txReset => []
  | .txCsrr addr => [addr.toNat]
  | .txCsrw addr value => [addr.toNat, value.toNat]
  | .txRawld addr size => [addr.toNat, size.toNat]
  | .txRawst addr value size => [addr.toNat, value.toNat, size.toNat]
  | .wBits value n => [value.toNat, n.toNat]
  | .wUnary v => [v.toNat]
  | .wStr addr cap => [addr.toNat, cap.toNat]
  | .wWindup => []
  | .wFlush discard => [discard.toNat]
  | .wClose => []
  | .eMexpg u k => [u.toNat, k.toNat]
  | .eWord ch value => [ch.toNat, value.toNat]
  | .eVec ch addr nbytes => [ch.toNat, addr.toNat, nbytes.toNat]
  | .eHreset ch => [ch.toNat]
  | .gAddch reps desc => [reps.toNat, desc.toNat]
  | .gResetch => []
  | .gRestore ch => [ch.toNat]
  | .gSection len => [len.toNat]
  | .gFinal => []
  | .rxReset => []
  | .rxCsrr addr => [addr.toNat]
  | .rxCsrw addr value => [addr.toNat, value.toNat]
  | .rxRawld addr size => [addr.toNat, size.toNat]
  | .rxRawst addr value size => [addr.toNat, value.toNat, size.toNat]
  | .rBits n => [n.toNat]
  | .rUnary => []
  | .rStr addr cap => [addr.toNat, cap.toNat]
  | .rWindup => []
  | .dMexpg k => [k.toNat]
  | .dWord ch => [ch.toNat]
  | .dVec ch addr nbytes => [ch.toNat, addr.toNat, nbytes.toNat]
  | .dHreset ch => [ch.toNat]
  | .pHeader => []
  | .pSection => []
  | .pAddch reps desc => [reps.toNat, desc.toNat]
  | .pResetch => []

/-- One assembler line: the mnemonic, then the operands in decimal, separated by commas (R108). -/
def Instr.asm (i : Instr) : String :=
  match i.asmOperands with
  | [] => i.mnemonic
  | x :: xs => xs.foldl (fun line y => line ++ ", " ++ toString y) (i.mnemonic ++ " " ++ toString x)

/-- The command triple whose bits are `w`: `CW` in bits 31..0, `A` in bits 63..32, `B` from bit 64 on; only the low
`nbits` bits of `w` count, the rest being 0. -/
def commandOfTableWord (nbits w : Nat) : Command :=
  let x := w % 2 ^ nbits
  ⟨BitVec.ofNat 32 x, BitVec.ofNat 32 (x / 2 ^ 32), BitVec.ofNat 64 (x / 2 ^ 64)⟩

/-- What the decoder reads from an instruction whose bits are `w`, numbered as spec/opcode_table.json numbers them. -/
def decodeTableWord (nbits w : Nat) : Option Instr :=
  match decode (commandOfTableWord nbits w) with
  | .ok i => some i
  | .error _ => none

end Sys2Proof
end

