-- ==== Sys2Proof/Machine/State.lean ====
section
/-! DEFINITION. The state of the block (spec/10_state.md), its reset value (R50), and the reasons a step could stop.

Every piece of state R20 to R51 name has a field here. Raw memories and ports stand with the engine that alone reaches
them (20_memory.md R70). -/

namespace Sys2Proof.Machine

/-! ## Names of the spec -/

/-- The faults a command can raise (60_exceptions.md R341). Codes 6 and 8 are reserved and never raised, code 14 is a
response and no fault, so none of the three is here. Safe: each is taken as R345 says, in a next state. -/
inductive FaultCode where
  | notASlimFile
  | crcMismatch
  | endOfStream
  | truncatedFile
  | unsupportedFeature
  | bufferSizeExceeded
  | unaryOverrun
  | corruptStream
  | badOperand
  | illegalState
  | illegalCommand
deriving DecidableEq, Repr

/-- `GSTATE`, the generator's state machine (10_state.md R31); its codes 5 to 7 never occur. -/
inductive GState where
  | notStarted
  | headerWritten
  | sectionOpen
  | sectionClosed
  | finalized
deriving DecidableEq, Repr

/-- `PSTATE`, the parser's state machine (10_state.md R32); its codes 3 to 7 never occur. -/
inductive PState where
  | noHeader
  | headerRead
  | exhausted
deriving DecidableEq, Repr

/-- The four algorithm codes (30_encoding.md R123). -/
inductive Alg where
  | default
  | reducedBinary
  | runLength
  | constant
deriving DecidableEq, Repr, Inhabited

/-- The six integer data types (30_encoding.md R124); the float types are refused wherever they appear. -/
inductive DType where
  | u8
  | i8
  | u16
  | i16
  | u32
  | i32
deriving DecidableEq, Repr, Inhabited

/-- A fault with its two information words, as a rule raises it (60_exceptions.md R345). -/
structure Raise where
  code : FaultCode
  i0 : Nat
  i1 : Nat
deriving DecidableEq, Repr

/-! ## Pieces of state -/

/-- The command interface of one engine (10_state.md R21). -/
structure Port where
  cw : U32
  a : U32
  b : Word
  st : BitVec 8
  v : Word
deriving DecidableEq, Repr

/-- The fault record `FAULT`, `FINFO0`, `FINFO1` of one engine (10_state.md R30). -/
structure FaultRecord where
  fault : BitVec 8
  info0 : U32
  info1 : U32
deriving DecidableEq, Repr

/-- One registered entry `REG[c]` of a channel context file (10_state.md R40 to R46). -/
structure Channel where
  /-- `REPS`, field 0 (R41). -/
  reps : U32
  /-- `TYPE`, field 1 (R42). -/
  dtype : DType
  /-- `CALG`, field 2, the configured algorithm (R43). -/
  calg : Alg
  /-- `CDELTA`, field 3 (R43). -/
  cdelta : Bool
  /-- `PERMROT`, field 4 (R43). -/
  permrot : Bool
  /-- `ALG`, field 5, the algorithm in force (R44). -/
  alg : Alg
  /-- `DELTA`, field 6 (R44). -/
  delta : Bool
  /-- `ROT`, field 7, 0 to 31 (R44). -/
  rot : BitVec 5
  /-- `OFFSET`, field 8 (R44). -/
  offset : U32
  /-- `NBITS`, field 9, 1 to 32 (R44). -/
  nbits : BitVec 6
  /-- `CONST`, field 10 (R44). -/
  const : U32
  /-- `PREV`, field 11, the delta history (R46). -/
  prev : U32
deriving DecidableEq, Repr, Inhabited

/-- FREE VALUE: the channel context file after a fault inside `P.SECTION`, whose argument is the draw
(46_container_parser.md R275: "`NCHAN`, `REG[*]` ... are unspecified"; log 10). -/
opaque freeChannels : Nat → List Channel

/-- A span of raw memory whose bytes the spec leaves unspecified: `len` addresses from `lo` on, drawn by `tag`
(20_memory.md R86; 93_implementation_defined.md U5, U7, U8; log 9 to 13). -/
structure Span where
  lo : Nat
  len : Nat
  tag : Nat
deriving DecidableEq, Repr

/-- A raw section memory (20_memory.md R71): the written bytes, addresses strictly rising and none equal to what an
unlisted address reads as, and the spans of unspecified bytes. -/
structure RawMem where
  cells : List Host.Cell
  free : List Span
deriving DecidableEq, Repr

/-- The TX engine, with its sink. -/
structure Tx where
  /-- `CW`, `A`, `B`, `ST`, `V` (R21). -/
  port : Port
  /-- `wbuf[0 .. BUF_WORDS-1]` (R23). -/
  wbuf : List Word
  /-- `wptr` (R23). -/
  wptr : Nat
  /-- `woff` (R23). -/
  woff : Nat
  /-- `CLOSED` (R23). -/
  closed : Bool
  /-- `SUNK`, the exact count (R25, log 7). -/
  sunk : Nat
  /-- `BITPOS`, the exact count (R25, log 7). -/
  bitpos : Nat
  /-- `GSTATE` (R31). -/
  gstate : GState
  /-- `LAYOUT_OPEN` (R31). -/
  layoutOpen : Bool
  /-- `FAULT`, `FINFO0`, `FINFO1` (R30). -/
  flt : FaultRecord
  /-- `FLAGS` (R33). -/
  flags : BitVec 8
  /-- `MTIME` (R34). -/
  mtime : U32
  /-- `RAW_SIZE` (R34). -/
  rawSize : U32
  /-- `NAME[0 .. NAME_MAX-1]` (R35). -/
  name : List Byte
  /-- `REG[0 .. NCHAN-1]`; its length is `NCHAN` (R37, R40). -/
  chans : List Channel
  /-- `NSECT` (R38). -/
  nsect : U32
  /-- `TOTAL`, the exact count (R38, log 7). -/
  total : Nat
  /-- `SECT_SIZE` (R38). -/
  sectSize : U32
  /-- `SECT_CRC` (R38). -/
  sectCrc : U32
  /-- `RAWTX` (20_memory.md R71). -/
  raw : RawMem
  /-- The bytes the environment's sink holds (20_memory.md R73). -/
  sink : List Byte
  /-- The model's own: how many free values the engine has drawn (log 13). -/
  freeTick : Nat
deriving DecidableEq, Repr

/-- The RX engine, with its source. -/
structure Rx where
  /-- `CW`, `A`, `B`, `ST`, `V` (R21). -/
  port : Port
  /-- `rbuf[0 .. BUF_WORDS-1]` (R26). -/
  rbuf : List Word
  /-- `rcount` (R26). -/
  rcount : Nat
  /-- `rptr` (R26). -/
  rptr : Nat
  /-- `roff` (R26). -/
  roff : Nat
  /-- `src_eof` (R26). -/
  srcEof : Bool
  /-- `PULLED`, the exact count (R27, log 7). -/
  pulled : Nat
  /-- `BITPOS`, the exact count (R27, log 7). -/
  bitpos : Nat
  /-- `PSTATE` (R32). -/
  pstate : PState
  /-- `CTRL.IGNORE_CRC` (R36). -/
  ignoreCrc : Bool
  /-- `FAULT`, `FINFO0`, `FINFO1` (R30). -/
  flt : FaultRecord
  /-- `FLAGS` (R33). -/
  flags : BitVec 8
  /-- `MTIME` (R34). -/
  mtime : U32
  /-- `RAW_SIZE` (R34). -/
  rawSize : U32
  /-- `XTRA_LEN` (R34). -/
  xtraLen : BitVec 16
  /-- `NAME[0 .. NAME_MAX-1]` (R35). -/
  name : List Byte
  /-- `REG[0 .. NCHAN-1]`; its length is `NCHAN` (R37, R40). -/
  chans : List Channel
  /-- `NSECT` (R38). -/
  nsect : U32
  /-- `TOTAL`, the exact count (R38, log 7). -/
  total : Nat
  /-- `SECT_SIZE` (R38). -/
  sectSize : U32
  /-- `SECT_CRC` (R38). -/
  sectCrc : U32
  /-- `STORED_CRC` (R38). -/
  storedCrc : U32
  /-- `RAWRX` (20_memory.md R71). -/
  raw : RawMem
  /-- The bytes of the environment's source (20_memory.md R74). -/
  src : List Byte
  /-- `srcpos`, how many of them the source has given (20_memory.md R74). -/
  srcpos : Nat
  /-- The model's own: how many free values the engine has drawn (log 13). -/
  freeTick : Nat
deriving DecidableEq, Repr

/-- The whole block: the parameter record (log 1), the two engines, which share nothing (R20), and the commands the
host has still to issue (log 2). -/
structure State where
  cfg : Config
  tx : Tx
  rx : Rx
  pending : List Command
deriving DecidableEq, Repr

/-- Why the machine could stop with a fault: never. Every fault of the spec is recorded and answered in a next state
(60_exceptions.md R340, R345), so no step ends in one. Safe. -/
inductive Fault where
deriving DecidableEq, Repr

/-- Why a step could be refused. -/
inductive Refusal where
  /-- Raised by an arm of `exec` for a command that has no meaning yet; no arm raises it. Safe. -/
  | notModelled (mnemonic : String)
deriving DecidableEq, Repr

/-! ## Reset (10_state.md R50) -/

/-- The command interface before the first command: "unspecified" in R50, zero here (DESIGN CHOICE, log 4). -/
def Port.reset : Port := { cw := 0, a := 0, b := 0, st := 0, v := 0 }

/-- No fault recorded (R50). -/
def FaultRecord.reset : FaultRecord := { fault := 0, info0 := 0, info1 := 0 }

/-- A raw memory at power-on: nothing listed, no unspecified span (DESIGN CHOICE, log 3). -/
def RawMem.reset : RawMem := { cells := [], free := [] }

/-- The TX engine after power-on (R50). -/
def Tx.reset (K : Config) : Tx :=
  { port := Port.reset, wbuf := List.replicate K.bufWords 0, wptr := 0, woff := 0, closed := false, sunk := 0,
    bitpos := 0, gstate := .notStarted, layoutOpen := true, flt := FaultRecord.reset, flags := 0, mtime := 0,
    rawSize := 0, name := List.replicate K.nameMax 0, chans := [], nsect := 0, total := 0, sectSize := 0,
    sectCrc := 0, raw := RawMem.reset, sink := [], freeTick := 0 }

/-- The RX engine after power-on (R50), its source empty (DESIGN CHOICE, log 17). -/
def Rx.reset (K : Config) : Rx :=
  { port := Port.reset, rbuf := List.replicate K.bufWords 0, rcount := 0, rptr := 0, roff := 0, srcEof := false,
    pulled := 0, bitpos := 0, pstate := .noHeader, ignoreCrc := false, flt := FaultRecord.reset, flags := 0,
    mtime := 0, rawSize := 0, xtraLen := 0, name := List.replicate K.nameMax 0, chans := [], nsect := 0, total := 0,
    sectSize := 0, sectCrc := 0, storedCrc := 0, raw := RawMem.reset, src := [], srcpos := 0, freeTick := 0 }

/-- The block right after power-on, for a given parameter record. -/
def State.powerOn (K : Config) : State := { cfg := K, tx := Tx.reset K, rx := Rx.reset K, pending := [] }

/-- The block right after power-on, with the default parameters of R8 and no command issued (log 1, log 2). -/
def State.reset : State := State.powerOn Config.default

end Sys2Proof.Machine
end

