-- ==== Sys2Proof/Machine/Arith.lean ====
section
/-! DEFINITION. Numbers, codes and byte orders the rules share: the code values of 60_exceptions.md R341,
10_state.md R31 and R32, 30_encoding.md R123 and R124; the arithmetic of 42_codec_primitives.md R180, R181, R196, R197;
the byte order of 20_memory.md R77 and R79. Channel words are natural numbers, narrowed where the rule narrows. -/

namespace Sys2Proof.Machine

/-! ## Code values -/

/-- The number a fault has in `ST` and in `FAULT` (R341). -/
def FaultCode.code : FaultCode → BitVec 8
  | .notASlimFile => 1
  | .crcMismatch => 2
  | .endOfStream => 3
  | .truncatedFile => 4
  | .unsupportedFeature => 5
  | .bufferSizeExceeded => 7
  | .unaryOverrun => 9
  | .corruptStream => 10
  | .badOperand => 11
  | .illegalState => 12
  | .illegalCommand => 13

/-- `ST` of a command to an engine that already holds a fault (R341, code 14; never stored in `FAULT`). -/
def stFaulted : BitVec 8 := 14

/-- The code of `GSTATE` (R31). -/
def GState.code : GState → Nat
  | .notStarted => 0
  | .headerWritten => 1
  | .sectionOpen => 2
  | .sectionClosed => 3
  | .finalized => 4

/-- The code of `PSTATE` (R32). -/
def PState.code : PState → Nat
  | .noHeader => 0
  | .headerRead => 1
  | .exhausted => 2

/-- The algorithm code (R123). -/
def Alg.code : Alg → Nat
  | .default => 0
  | .reducedBinary => 1
  | .runLength => 2
  | .constant => 3

/-- The algorithm of a code; codes 4 and above are undefined (R123). -/
def Alg.ofCode : Nat → Option Alg
  | 0 => some .default
  | 1 => some .reducedBinary
  | 2 => some .runLength
  | 3 => some .constant
  | _ => none

/-- The data type code (R124). -/
def DType.code : DType → Nat
  | .u8 => 0
  | .i8 => 1
  | .u16 => 2
  | .i16 => 3
  | .u32 => 4
  | .i32 => 5

/-- The integer type of a code; 6 and 7 are the refused float types, 8 and above undefined (R124). -/
def DType.ofCode : Nat → Option DType
  | 0 => some .u8
  | 1 => some .i8
  | 2 => some .u16
  | 3 => some .i16
  | 4 => some .u32
  | 5 => some .i32
  | _ => none

/-- `ws`, the raw word size in bytes (R124; 00_scope.md R13). -/
def DType.size : DType → Nat
  | .u8 => 1
  | .i8 => 1
  | .u16 => 2
  | .i16 => 2
  | .u32 => 4
  | .i32 => 4

/-- `w = 8 * ws`, the data width in bits (R13). -/
def DType.width (d : DType) : Nat := 8 * d.size

/-- `ws` of a channel. -/
def Channel.size (ch : Channel) : Nat := ch.dtype.size

/-- `w` of a channel. -/
def Channel.width (ch : Channel) : Nat := ch.dtype.width

/-- A 1-bit field as a number. -/
def bit (b : Bool) : Nat := if b then 1 else 0

/-! ## Arithmetic -/

/-- `bit_size(u)`, the number of significant bits of `u`, 0 at 0 (R180). -/
def bitSize (u : Nat) : Nat := if u = 0 then 0 else Nat.log2 u + 1

/-- `(a - b) mod 2^w` (R181). -/
def subMod (w a b : Nat) : Nat := (a % 2 ^ w + (2 ^ w - b % 2 ^ w)) % 2 ^ w

/-- `(a + b) mod 2^w` (R181). -/
def addMod (w a b : Nat) : Nat := (a + b) % 2 ^ w

/-- `ror_w(v, s)`: the low `s` bits of `v` become the high `s` bits (R196). -/
def rorW (w v s : Nat) : Nat := if s = 0 then v else ((v >>> s) ||| (v <<< (w - s))) % 2 ^ w

/-- `rol_w(v, s)`, the inverse (R197). -/
def rolW (w v s : Nat) : Nat := if s = 0 then v else ((v <<< s) ||| (v >>> (w - s))) % 2 ^ w

/-- `ceil(a / b)` (R10). -/
def ceilDiv (a b : Nat) : Nat := (a + b - 1) / b

/-! ## Byte order -/

/-- Byte `j` of a machine word: `x[8j+7 : 8j]` (R77). -/
def wordByte (x : Word) (j : Nat) : Byte := x.extractLsb' (8 * j) 8

/-- The first `n` bytes of a machine word, least significant first (R77). -/
def wordBytesLE (n : Nat) (x : Word) : List Byte := (List.range n).map (wordByte x)

/-- The number whose little-endian bytes these are (R77, R79). -/
def bytesValue : List Byte → Nat
  | [] => 0
  | b :: bs => b.toNat + 256 * bytesValue bs

/-- The machine words of a byte string, `wb` bytes a word, the last completed with zero bytes above
(41_bitstream_reader.md R161, R162). -/
def packWords (wb : Nat) (bytes : List Byte) : List Word :=
  (List.range (ceilDiv bytes.length wb)).map fun i =>
    BitVec.ofNat 64 (bytesValue ((bytes.drop (i * wb)).take wb))

/-! ## Counters -/

/-- What a 64-bit counter reads as: its count below `2^64`, a free value from there on (10_state.md R24; U12; log 7). -/
def counter64 (n : Nat) : BitVec 64 := if n < 2 ^ 64 then BitVec.ofNat 64 n else Config.counterPast n

/-- Bits 31 to 0 of a 64-bit counter (R39). -/
def counterLo (n : Nat) : U32 := (counter64 n).extractLsb' 0 32

/-- Bits 63 to 32 of a 64-bit counter (R39). -/
def counterHi (n : Nat) : U32 := (counter64 n).extractLsb' 32 32

/-! ## CRC-32 -/

/-- One of the eight bit steps of the default `CRC32` (20_memory.md R88). -/
def crcBit (c : U32) : U32 := if c.getLsbD 0 then (c >>> 1) ^^^ 0xEDB88320 else c >>> 1

/-- One byte of the default `CRC32` (R88). -/
def crcByte (c : U32) (b : Byte) : U32 :=
  crcBit (crcBit (crcBit (crcBit (crcBit (crcBit (crcBit (crcBit (c ^^^ b.setWidth 32))))))))

/-- The default `CRC32` of R88 (PRESUMED, from general knowledge as R88 itself marks it; log 14). -/
def crc32Default (bytes : List Byte) : U32 := bytes.foldl crcByte 0xFFFFFFFF ^^^ 0xFFFFFFFF

/-- `CRC32(bytes)` under a parameter record (R88). -/
def crc32 (K : Config) (bytes : List Byte) : U32 :=
  match K.crc with
  | .ieee8023 => crc32Default bytes
  | .platform => Config.platformCrc32 bytes

end Sys2Proof.Machine
end

