-- ==== Sys2Proof/Machine/Ops.lean ====
section
/-! DEFINITION. The named operations over state that every family shares: raw memory (20_memory.md R71, R79 to R82,
R86), taking a fault (60_exceptions.md R345) and the one way out of it, RESET (47_system_commands.md R300, R301), the
response (10_state.md R21), the command preamble (60_exceptions.md R348), and the free values of a command that ends in
mid-stream (log 8 to 12). -/

namespace Sys2Proof.Machine

/-! ## Raw memory -/

/-- What an unlisted address of a raw memory reads as: the spec gives raw memory no content at power-on, the model
takes zero (DESIGN CHOICE, unsafe, log 3). -/
def rawDefault : Byte := 0

/-- Whether address `a` lies in a span. -/
def Span.covers (p : Span) (a : Nat) : Bool := p.lo ≤ a && a < p.lo + p.len

/-- What is left of a span once the addresses `lo .. hi-1` are taken out of it. -/
def Span.without (lo hi : Nat) (p : Span) : List Span :=
  (if p.lo < min lo (p.lo + p.len) then [{ p with len := min lo (p.lo + p.len) - p.lo }] else []) ++
  (if max hi p.lo < p.lo + p.len then
    [{ lo := max hi p.lo, len := p.lo + p.len - max hi p.lo, tag := p.tag }] else [])

/-- A list of spans without the addresses `lo .. hi-1`. -/
def carveSpans (lo hi : Nat) (ps : List Span) : List Span := ps.flatMap (Span.without lo hi)

/-- Put a span into a list ordered by address. -/
def insertSpan (p : Span) : List Span → List Span
  | [] => [p]
  | q :: qs => if p.lo ≤ q.lo then p :: q :: qs else q :: insertSpan p qs

/-- Set the byte at one address in the list of written bytes, keeping it ordered and free of default bytes. -/
def setCell (a : Nat) (b : Byte) : List Host.Cell → List Host.Cell
  | [] => if b = rawDefault then [] else [(a, b)]
  | (x, y) :: rest =>
    if a < x then (if b = rawDefault then (x, y) :: rest else (a, b) :: (x, y) :: rest)
    else if a = x then (if b = rawDefault then rest else (a, b) :: rest)
    else (x, y) :: setCell a b rest

/-- The byte an ordered list of cells gives for an address. -/
def cellAt (a : Nat) : List Host.Cell → Byte
  | [] => rawDefault
  | (x, y) :: rest => if a = x then y else cellAt a rest

/-- Read one byte: a free value inside an unspecified span, else the written byte, else the default. -/
def RawMem.readByte (m : RawMem) (a : Nat) : Byte :=
  match m.free.find? (·.covers a) with
  | some p => Config.freeByte p.tag a
  | none => cellAt a m.cells

/-- Write one byte; the address is specified from then on. -/
def RawMem.writeByte (m : RawMem) (a : Nat) (b : Byte) : RawMem :=
  { cells := setCell a b m.cells, free := carveSpans a (a + 1) m.free }

/-- Make `len` bytes from `lo` on unspecified, under the draw `tag` (R86, R230, R275; log 9 to 13). -/
def RawMem.forget (m : RawMem) (lo len tag : Nat) : RawMem :=
  if len = 0 then m
  else
    { cells := m.cells.filter fun c => !(Span.covers ⟨lo, len, tag⟩ c.1)
      free := insertSpan ⟨lo, len, tag⟩ (carveSpans lo (lo + len) m.free) }

/-- The canonical form of a raw memory: written addresses strictly rising, none holding the default byte, unspecified
spans non-empty, in order and disjoint, and no written byte inside one. -/
abbrev RawMem.Wf (m : RawMem) : Prop :=
  m.cells.Pairwise (fun c d => c.1 < d.1) ∧ (∀ c ∈ m.cells, c.2 ≠ rawDefault) ∧
  m.free.Pairwise (fun p q => p.lo + p.len ≤ q.lo) ∧ (∀ p ∈ m.free, 0 < p.len) ∧
  (∀ c ∈ m.cells, ∀ p ∈ m.free, p.covers c.1 = false)

/-- The `n` bytes from `addr` on. -/
def RawMem.bytes (m : RawMem) (addr n : Nat) : List Byte := (List.range n).map fun j => m.readByte (addr + j)

/-- `MemRead(space, addr, n)` once the range is checked: the little-endian value (R80). -/
def RawMem.read (m : RawMem) (addr n : Nat) : Nat := bytesValue (m.bytes addr n)

/-- `MemWrite(space, addr, n, v)` once the range is checked: byte `j` takes `v[8j+7 : 8j]` (R81). -/
def RawMem.write (m : RawMem) (addr n v : Nat) : RawMem :=
  (List.range n).foldl (fun m j => m.writeByte (addr + j) (BitVec.ofNat 8 (v >>> (8 * j)))) m

/-! ## Faults and responses -/

/-- `e` where the condition holds: one line of a command's list of checks. -/
def refuseIf (c : Prop) [Decidable c] (e : Raise) : Option Raise := if c then some e else none

/-- The checks in order, then the result (R347: a command raises at most one fault, the first met). -/
@[inline] def afterCheck {α : Type} (check : Option Raise) (ok : α) : Except Raise α :=
  match check with
  | some e => .error e
  | none => .ok ok

/-- The record after a fault: written by the first fault only (R345, R346). -/
def FaultRecord.record (f : FaultRecord) (e : Raise) : FaultRecord :=
  if f.fault = 0 then { fault := e.code.code, info0 := BitVec.ofNat 32 e.i0, info1 := BitVec.ofNat 32 e.i1 } else f

/-- The response `ST = code, V = 0` of a command that ends in a fault (R345). -/
def Port.failed (p : Port) (st : BitVec 8) : Port := { p with st := st, v := 0 }

/-- The response `ST = 0, V = zext_W(v)` (R21). What a rule returns has at most `W` bits (log 15); the one count that could
have more goes through `fitCount` first. -/
def Port.answered (p : Port) (v : Nat) : Port := { p with st := 0, v := BitVec.ofNat 64 v }

/-- The host's `CW`, `A`, `B` on the interface; `B` has `W` bits (R21, log 18). -/
def Port.latched (p : Port) (K : Config) (c : Command) : Port :=
  { p with cw := c.cw, a := c.a, b := BitVec.ofNat 64 (c.b.toNat % 2 ^ K.wordBits) }

/-- Taking a fault on TX: `raise F(i0, i1)` (R345). -/
def Tx.raise (t : Tx) (e : Raise) : Tx := { t with flt := t.flt.record e, port := t.port.failed e.code.code }

/-- Taking a fault on RX: `raise F(i0, i1)` (R345). -/
def Rx.raise (r : Rx) (e : Raise) : Rx := { r with flt := r.flt.record e, port := r.port.failed e.code.code }

/-- `respond(v)` on TX (R21). -/
def Tx.respond (t : Tx) (v : Nat) : Tx := { t with port := t.port.answered v }

/-- `respond(v)` on RX (R21). -/
def Rx.respond (r : Rx) (v : Nat) : Rx := { r with port := r.port.answered v }

/-- Whether TX is Faulted (R346). -/
def Tx.faulted (t : Tx) : Bool := t.flt.fault != 0

/-- Whether RX is Faulted (R346). -/
def Rx.faulted (r : Rx) : Bool := r.flt.fault != 0

/-- The answer of a Faulted TX engine: `ST = 14`, `V = 0`, no state change (R346). -/
def Tx.answerFaulted (t : Tx) : Tx := { t with port := t.port.failed stFaulted }

/-- The answer of a Faulted RX engine: `ST = 14`, `V = 0`, no state change (R346). -/
def Rx.answerFaulted (r : Rx) : Rx := { r with port := r.port.failed stFaulted }

/-- The end of a TX command: a fault leaves the engine as it was before the command (R345: every TX fault is raised in
a check phase), success gives the new engine and its result. -/
def Tx.finish (t : Tx) : Except Raise (Nat × Tx) → Tx
  | .error e => t.raise e
  | .ok (v, t') => t'.respond v

/-- A TX command behind the preamble of R348. -/
def Tx.command (body : Tx → Except Raise (Nat × Tx)) (t : Tx) : Tx :=
  if t.faulted then t.answerFaulted else t.finish (body t)

/-- What an RX command does past its checks: it may raise with part of its work done, and that work stands (R345). -/
abbrev RxM (α : Type) := EStateM Raise Rx α

/-- An RX command behind the preamble of R348: its checks, which change nothing, then its work; `onFault` is what the
command's rule says of the state after a fault raised in that work. -/
def Rx.command (check : Rx → Option Raise) (work : RxM Nat) (onFault : Raise → Rx → Rx) (r : Rx) : Rx :=
  if r.faulted then r.answerFaulted
  else
    match check r with
    | some e => r.raise e
    | none =>
      match work r with
      | .ok v r' => r'.respond v
      | .error e r' => onFault e r'

/-- An RX command that cannot fault past its checks. -/
def Rx.simpleCommand (body : Rx → Except Raise (Nat × Rx)) (r : Rx) : Rx :=
  if r.faulted then r.answerFaulted
  else
    match body r with
    | .error e => r.raise e
    | .ok (v, r') => r'.respond v

/-- The command word matches no row (60_exceptions.md R343, R348). -/
def illegalCommand (cw : U32) : Raise := ⟨.illegalCommand, cw.toNat, 0⟩

/-! ## Reset: the only way out of a fault (R346) -/

/-- `TX.RESET`: every item of TX state takes its reset value but `RAWTX` and the sink (47_system_commands.md R300);
the latched command and the count of free values drawn are no items of it. -/
def Tx.afterReset (K : Config) (t : Tx) : Tx :=
  { Tx.reset K with port := t.port, raw := t.raw, sink := t.sink, freeTick := t.freeTick }

/-- `RX.RESET`: every item of RX state takes its reset value but `RAWRX` and the source, which is not rewound
(47_system_commands.md R301). -/
def Rx.afterReset (K : Config) (r : Rx) : Rx :=
  { Rx.reset K with port := r.port, raw := r.raw, src := r.src, srcpos := r.srcpos, freeTick := r.freeTick }

/-! ## Free values of a command that ends in mid-stream -/

/-- The tag of TX's next draw of unspecified bytes: even, so that no draw of TX is one of RX (log 13). -/
def Tx.drawTag (t : Tx) : Nat := 2 * t.freeTick

/-- The tag of RX's next draw of unspecified bytes: odd (log 13). -/
def Rx.drawTag (r : Rx) : Nat := 2 * r.freeTick + 1

/-- The cursor registers after a fault past the check phase: free values (41_bitstream_reader.md R171; D13; U5;
log 8). -/
def Rx.forgetCursor (r : Rx) : Rx :=
  { r with
    rptr := Config.freeReg r.freeTick 0, roff := Config.freeReg r.freeTick 1, rcount := Config.freeReg r.freeTick 2,
    bitpos := Config.freeReg r.freeTick 3, freeTick := r.freeTick + 1 }

/-- The number of bytes from `lo` on, at most `len`, that lie in the raw memory. -/
def clipLen (K : Config) (lo len : Nat) : Nat := min len (K.rawBytes - lo)

/-- `REG[ch].PREV` after a fault in mid-decode: a free value (44_codec_decode.md R230; log 9). -/
def forgetPrev (tick ch : Nat) (chans : List Channel) : List Channel :=
  chans.modify ch fun c => { c with prev := BitVec.ofNat 32 (Config.freeReg tick 4) }

/-- After a fault in a `D.WORD` or `D.VEC` past its checks: the cursor, `PREV` of the channel and `len` bytes of
`RAWRX` from `lo` on (R230; log 9). -/
def Rx.forgetDecode (K : Config) (ch lo len : Nat) (r : Rx) : Rx :=
  { r.forgetCursor with
    chans := forgetPrev r.freeTick ch r.chans
    raw := r.raw.forget lo (clipLen K lo len) r.drawTag }

/-- After a fault in a `P.SECTION` past its `PSTATE` checks: the cursor, `NCHAN`, `REG[*]`, `RAWRX[*]`, `SECT_CRC`,
`STORED_CRC` (46_container_parser.md R275; log 10). -/
def Rx.forgetSection (K : Config) (r : Rx) : Rx :=
  { r.forgetCursor with
    chans := freeChannels r.freeTick
    raw := r.raw.forget 0 K.rawBytes r.drawTag
    sectCrc := BitVec.ofNat 32 (Config.freeReg r.freeTick 5)
    storedCrc := BitVec.ofNat 32 (Config.freeReg r.freeTick 6) }

/-- The up to `MAX_GHOST_BYTES` bytes of `RAWRX` after decoded data that ends at `stop` (20_memory.md R86; U8;
log 12). -/
def Rx.forgetGhost (K : Config) (stop : Nat) (r : Rx) : Rx :=
  { r with raw := r.raw.forget stop (clipLen K stop K.maxGhostBytes) r.drawTag, freeTick := r.freeTick + 1 }

/-- `RAWTX[0 .. len-1+MAX_GHOST_BYTES]` after `G.SECTION len` (20_memory.md R86; U7; log 11). The draw is no draw of RX:
the two engines' unspecified bytes have nothing to do with one another (log 13). -/
def Tx.forgetSource (K : Config) (len : Nat) (t : Tx) : Tx :=
  { t with raw := t.raw.forget 0 (clipLen K 0 (len + K.maxGhostBytes)) t.drawTag, freeTick := t.freeTick + 1 }

/-! ## The two ways a command acts on the whole block -/

/-- A command of the TX engine: nothing else changes (10_state.md R20; 60_exceptions.md R346). -/
def onTx (f : Config → Tx → Tx) (s : State) : Host.Outcome State Fault Refusal := .next { s with tx := f s.cfg s.tx }

/-- A command of the RX engine: nothing else changes (R20, R346). -/
def onRx (f : Config → Rx → Rx) (s : State) : Host.Outcome State Fault Refusal := .next { s with rx := f s.cfg s.rx }

end Sys2Proof.Machine
end

