-- ==== Sys2Proof/Machine/Flags.lean ====
section
/-! DEFINITION. The flags: the two `STATUS` registers (10_state.md R28, R29) and the bits of the header's flag byte
(30_encoding.md R117). No data-processing command writes a condition code (R28), so these are all the flags there are;
each is computed from the state that holds it. -/

namespace Sys2Proof.Machine

/-- `TX.STATUS` (R28). -/
def Tx.status (t : Tx) : Nat :=
  bit t.faulted + 2 * bit t.closed + 4 * bit t.layoutOpen + 16 * t.gstate.code

/-- `RX.STATUS` (R29). -/
def Rx.status (r : Rx) : Nat := bit r.faulted + 2 * bit r.srcEof + 16 * r.pstate.code

/-- `FLAGS.SIZE` (R117). -/
def flagSize (flags : BitVec 8) : Bool := flags.getLsbD 0

/-- `FLAGS.NAME` (R117). -/
def flagName (flags : BitVec 8) : Bool := flags.getLsbD 1

/-- `FLAGS.XTRA` (R117). -/
def flagXtra (flags : BitVec 8) : Bool := flags.getLsbD 2

/-- `FLAGS.TOC`, which must never be set (R117). -/
def flagToc (flags : BitVec 8) : Bool := flags.getLsbD 3

/-- `FLAGS.ONECHAN` (R117). -/
def flagOneChan (flags : BitVec 8) : Bool := flags.getLsbD 4

/-- `FLAGS.NOREPS` (R117). -/
def flagNoReps (flags : BitVec 8) : Bool := flags.getLsbD 5

/-- `FLAGS.CRC` (R117). -/
def flagCrc (flags : BitVec 8) : Bool := flags.getLsbD 6

/-- Bit 7 of the flag byte, which is reserved (R117). -/
def flagReserved (flags : BitVec 8) : Bool := flags.getLsbD 7

/-- The flag byte asks for something no build supports: TOC or the reserved bit (R117; 46_container_parser.md R272). -/
def flagsUnsupported (flags : BitVec 8) : Bool := flagToc flags || flagReserved flags

end Sys2Proof.Machine
end

