-- ==== Sys2Proof/Machine/Operands.lean ====
section
/-! DEFINITION. Operand forms: the `ADDCH` descriptor (30_encoding.md R106), the access size, address ranges
(20_memory.md R80, R81, R94), the CSR address map with its reads, writes and legal values (10_state.md R39, R48;
47_system_commands.md R302 to R305, R310), and the check every codec command makes on its channel
(42_codec_primitives.md R201). -/

namespace Sys2Proof.Machine

/-! ## The channel layout -/

/-- The bytes of a frame that belong to a channel: `REPS * ws` (20_memory.md R93). -/
def Channel.share (ch : Channel) : Nat := ch.reps.toNat * ch.size

/-- `fs`, the frame size, as an unbounded natural (R93; 10_state.md R37). -/
def frameSize (chans : List Channel) : Nat := (chans.map Channel.share).sum

/-- `foff(c)`, the offset of a channel in a frame, as an unbounded natural (R93; 10_state.md R47). -/
def frameOffset (chans : List Channel) (c : Nat) : Nat := frameSize (chans.take c)

/-- A 32-bit register that shows a natural number, stuck at all ones above its range (R37, R47). -/
def saturate32 (n : Nat) : U32 := BitVec.ofNat 32 (min n 0xFFFFFFFF)

/-- `REG[c]`; the rules reach it for registered channels only. -/
def channelAt (chans : List Channel) (c : Nat) : Channel := chans.getD c default

/-! ## Descriptors, sizes, ranges -/

/-- `type = B[7:0]` (R106). -/
def descType (desc : Word) : Nat := (desc.extractLsb' 0 8).toNat

/-- `alg = B[15:8]` (R106). -/
def descAlg (desc : Word) : Nat := (desc.extractLsb' 8 8).toNat

/-- `delta = B[16]` (R106). -/
def descDelta (desc : Word) : Bool := desc.getLsbD 16

/-- `permit_rot = B[17]` (R106). -/
def descPermit (desc : Word) : Bool := desc.getLsbD 17

/-- `DESC(type, alg, delta, permit)` (R108). -/
def descOf (type alg : Nat) (delta permit : Bool) : Word :=
  BitVec.ofNat 64 (type + 256 * alg + 65536 * bit delta + 131072 * bit permit)

/-- The checks of an `ADDCH` descriptor, in order (45_container_generator.md R241; 46_container_parser.md R273). -/
def descCheck (K : Config) (reps : U32) (desc : Word) (nchan : Nat) : Option Raise :=
  refuseIf (desc.toNat / 2 ^ 18 ≠ 0) ⟨.badOperand, desc.toNat % 2 ^ 32, 0⟩ <|>
  refuseIf (8 ≤ descType desc) ⟨.badOperand, descType desc, 1⟩ <|>
  refuseIf (descType desc = 6 ∨ descType desc = 7) ⟨.unsupportedFeature, descType desc, 1⟩ <|>
  refuseIf (4 ≤ descAlg desc) ⟨.badOperand, descAlg desc, 2⟩ <|>
  refuseIf (reps = 0) ⟨.badOperand, 0, 3⟩ <|>
  refuseIf (nchan = K.maxChannels) ⟨.bufferSizeExceeded, nchan, K.maxChannels⟩

/-- The channel an `ADDCH` registers (R241, R273). -/
def descChannel (reps : U32) (desc : Word) : Channel :=
  let dtype := (DType.ofCode (descType desc)).getD default
  let alg := (Alg.ofCode (descAlg desc)).getD default
  { reps := reps, dtype := dtype, calg := alg, cdelta := descDelta desc, permrot := descPermit desc, alg := alg,
    delta := descDelta desc, rot := 0, offset := 0, nbits := BitVec.ofNat 6 dtype.width, const := 0, prev := 0 }

/-- The access sizes `RAWLD` and `RAWST` offer (47_system_commands.md R306, R307). -/
def sizeCheck (size : Byte) : Option Raise :=
  refuseIf (¬(size = 1 ∨ size = 2 ∨ size = 4)) ⟨.badOperand, size.toNat, 0⟩

/-- The whole access must lie in `0 .. RAW_BYTES-1` (20_memory.md R80, R81, R94). -/
def rangeCheck (K : Config) (addr n : Nat) : Option Raise :=
  refuseIf (K.rawBytes < addr + n) ⟨.badOperand, addr, n % 2 ^ 32⟩

/-- `ChanCheck(c)` of a command whose word is `cw`, in order (42_codec_primitives.md R201). -/
def chanCheck (cw : U32) (chans : List Channel) (c : Nat) : Option Raise :=
  refuseIf (chans.length ≤ c) ⟨.badOperand, c, chans.length⟩ <|>
  refuseIf ((channelAt chans c).width ≤ (channelAt chans c).rot.toNat)
    ⟨.badOperand, (channelAt chans c).rot.toNat, (channelAt chans c).width⟩ <|>
  refuseIf ((channelAt chans c).rot ≠ 0 ∧ (channelAt chans c).permrot = false) ⟨.illegalState, cw.toNat, c⟩ <|>
  refuseIf ((channelAt chans c).alg = .reducedBinary ∧ (channelAt chans c).width < (channelAt chans c).nbits.toNat)
    ⟨.badOperand, (channelAt chans c).nbits.toNat, (channelAt chans c).width⟩

/-- The channel must be registered (43_codec_encode.md R213; 44_codec_decode.md R228; R243). -/
def registeredCheck (chans : List Channel) (c : Nat) : Option Raise :=
  refuseIf (chans.length ≤ c) ⟨.badOperand, c, chans.length⟩

/-- The checks of `E.VEC` and `D.VEC`, in order (R212, R227). -/
def vecCheck (K : Config) (cw : U32) (chans : List Channel) (c addr nbytes : Nat) : Option Raise :=
  chanCheck cw chans c <|> refuseIf (nbytes = 0) ⟨.badOperand, 0, 0⟩ <|> rangeCheck K addr nbytes

/-! ## The CSR map -/

/-- The fields of a channel context (10_state.md R41 to R47). -/
inductive ChanField where
  | reps
  | dtype
  | calg
  | cdelta
  | permrot
  | alg
  | delta
  | rot
  | offset
  | nbits
  | const
  | prev
  | foff
deriving DecidableEq, Repr

/-- The registers of the CSR map (10_state.md R39). -/
inductive Csr where
  | status
  | fault
  | finfo0
  | finfo1
  | bitposLo
  | bitposHi
  | ptr
  | off
  | count
  | iobytesLo
  | iobytesHi
  | flags
  | mtime
  | rawSize
  | xtraLen
  | ctrl
  | nchan
  | frameSize
  | nsect
  | totalLo
  | totalHi
  | sectSize
  | sectCrc
  | storedCrc
  | name (i : Nat)
  | chan (c : Nat) (f : ChanField)
deriving DecidableEq, Repr

/-- The field of a number; 13 to 15 are unimplemented (R48). -/
def ChanField.ofNat? : Nat → Option ChanField
  | 0 => some .reps
  | 1 => some .dtype
  | 2 => some .calg
  | 3 => some .cdelta
  | 4 => some .permrot
  | 5 => some .alg
  | 6 => some .delta
  | 7 => some .rot
  | 8 => some .offset
  | 9 => some .nbits
  | 10 => some .const
  | 11 => some .prev
  | 12 => some .foff
  | _ => none

/-- The number of a field (R41 to R47). -/
def ChanField.toNat : ChanField → Nat
  | .reps => 0
  | .dtype => 1
  | .calg => 2
  | .cdelta => 3
  | .permrot => 4
  | .alg => 5
  | .delta => 6
  | .rot => 7
  | .offset => 8
  | .nbits => 9
  | .const => 10
  | .prev => 11
  | .foff => 12

/-- `CH(c, f)`: the CSR address of a channel field (R48; 30_encoding.md R108). -/
def chanAddress (c : Nat) (f : ChanField) : Nat := 0x1000 + 16 * c + f.toNat

/-- The register at a CSR address, where there is one (R39, R48). Should `NAME_MAX` be so large that the `NAME` rows
reach `0x1000`, an address of both is read as `NAME` (DESIGN CHOICE, log 16). -/
def csrAt (K : Config) (nchan addr : Nat) : Option Csr :=
  match addr with
  | 0x000 => some .status
  | 0x001 => some .fault
  | 0x002 => some .finfo0
  | 0x003 => some .finfo1
  | 0x004 => some .bitposLo
  | 0x005 => some .bitposHi
  | 0x006 => some .ptr
  | 0x007 => some .off
  | 0x008 => some .count
  | 0x009 => some .iobytesLo
  | 0x00A => some .iobytesHi
  | 0x010 => some .flags
  | 0x011 => some .mtime
  | 0x012 => some .rawSize
  | 0x013 => some .xtraLen
  | 0x014 => some .ctrl
  | 0x015 => some .nchan
  | 0x016 => some .frameSize
  | 0x017 => some .nsect
  | 0x018 => some .totalLo
  | 0x019 => some .totalHi
  | 0x01A => some .sectSize
  | 0x01B => some .sectCrc
  | 0x01C => some .storedCrc
  | addr =>
    if 0x100 ≤ addr ∧ addr < 0x100 + K.nameMax then some (.name (addr - 0x100))
    else if 0x1000 ≤ addr ∧ (addr - 0x1000) / 16 < nchan then
      (ChanField.ofNat? ((addr - 0x1000) % 16)).map (Csr.chan ((addr - 0x1000) / 16))
    else none

/-- What a channel field reads as (R41 to R47). -/
def chanFieldValue (chans : List Channel) (c : Nat) : ChanField → U32
  | .reps => (channelAt chans c).reps
  | .dtype => BitVec.ofNat 32 (channelAt chans c).dtype.code
  | .calg => BitVec.ofNat 32 (channelAt chans c).calg.code
  | .cdelta => BitVec.ofNat 32 (bit (channelAt chans c).cdelta)
  | .permrot => BitVec.ofNat 32 (bit (channelAt chans c).permrot)
  | .alg => BitVec.ofNat 32 (channelAt chans c).alg.code
  | .delta => BitVec.ofNat 32 (bit (channelAt chans c).delta)
  | .rot => (channelAt chans c).rot.setWidth 32
  | .offset => (channelAt chans c).offset
  | .nbits => (channelAt chans c).nbits.setWidth 32
  | .const => (channelAt chans c).const
  | .prev => (channelAt chans c).prev
  | .foff => saturate32 (frameOffset chans c)

/-- What a TX register reads as (R28 to R38). `BUF_WORDS` has no upper bound: should `wptr` reach `2^32`, `PTR` shows it
modulo `2^32` (DESIGN CHOICE, log 26). -/
def Tx.csrValue (t : Tx) : Csr → U32
  | .status => BitVec.ofNat 32 t.status
  | .fault => t.flt.fault.setWidth 32
  | .finfo0 => t.flt.info0
  | .finfo1 => t.flt.info1
  | .bitposLo => counterLo t.bitpos
  | .bitposHi => counterHi t.bitpos
  | .ptr => BitVec.ofNat 32 t.wptr
  | .off => BitVec.ofNat 32 t.woff
  | .count => 0
  | .iobytesLo => counterLo t.sunk
  | .iobytesHi => counterHi t.sunk
  | .flags => t.flags.setWidth 32
  | .mtime => t.mtime
  | .rawSize => t.rawSize
  | .xtraLen => 0
  | .ctrl => 0
  | .nchan => BitVec.ofNat 32 t.chans.length
  | .frameSize => saturate32 (frameSize t.chans)
  | .nsect => t.nsect
  | .totalLo => counterLo t.total
  | .totalHi => counterHi t.total
  | .sectSize => t.sectSize
  | .sectCrc => t.sectCrc
  | .storedCrc => 0
  | .name i => (t.name.getD i 0).setWidth 32
  | .chan c f => chanFieldValue t.chans c f

/-- What an RX register reads as (R28 to R38). `BUF_WORDS` has no upper bound: should `rptr` or `rcount` reach `2^32`,
`PTR` or `COUNT` shows it modulo `2^32`; so it does with an unspecified cursor (DESIGN CHOICE, log 26). -/
def Rx.csrValue (r : Rx) : Csr → U32
  | .status => BitVec.ofNat 32 r.status
  | .fault => r.flt.fault.setWidth 32
  | .finfo0 => r.flt.info0
  | .finfo1 => r.flt.info1
  | .bitposLo => counterLo r.bitpos
  | .bitposHi => counterHi r.bitpos
  | .ptr => BitVec.ofNat 32 r.rptr
  | .off => BitVec.ofNat 32 r.roff
  | .count => BitVec.ofNat 32 r.rcount
  | .iobytesLo => counterLo r.pulled
  | .iobytesHi => counterHi r.pulled
  | .flags => r.flags.setWidth 32
  | .mtime => r.mtime
  | .rawSize => r.rawSize
  | .xtraLen => r.xtraLen.setWidth 32
  | .ctrl => BitVec.ofNat 32 (bit r.ignoreCrc)
  | .nchan => BitVec.ofNat 32 r.chans.length
  | .frameSize => saturate32 (frameSize r.chans)
  | .nsect => r.nsect
  | .totalLo => counterLo r.total
  | .totalHi => counterHi r.total
  | .sectSize => r.sectSize
  | .sectCrc => r.sectCrc
  | .storedCrc => r.storedCrc
  | .name i => (r.name.getD i 0).setWidth 32
  | .chan c f => chanFieldValue r.chans c f

/-- The channel fields `CSRW` may write: 5 to 10 (R48). -/
def ChanField.writable : ChanField → Bool
  | .alg | .delta | .rot | .offset | .nbits | .const => true
  | .reps | .dtype | .calg | .cdelta | .permrot | .prev | .foff => false

/-- The header registers of TX, writable in `NotStarted` only (R33 to R35). -/
def Csr.isHeader : Csr → Bool
  | .flags | .mtime | .rawSize | .name _ => true
  | _ => false

/-- The registers `TX.CSRW` may write (R39). -/
def Csr.txWritable : Csr → Bool
  | .chan _ f => f.writable
  | reg => reg.isHeader

/-- The registers `RX.CSRW` may write (R39, R305). -/
def Csr.rxWritable : Csr → Bool
  | .chan _ f => f.writable
  | .ctrl => true
  | _ => false

/-- The channel after a write of a writable field, where the value is legal (R310). -/
def chanStore (ch : Channel) (f : ChanField) (value : Nat) : Option Channel :=
  match f with
  | .alg => (Alg.ofCode value).map fun a => { ch with alg := a }
  | .delta => if value ≤ 1 then some { ch with delta := value == 1 } else none
  | .rot => if value ≤ 31 then some { ch with rot := BitVec.ofNat 5 value } else none
  | .offset => some { ch with offset := BitVec.ofNat 32 value }
  | .nbits => if 1 ≤ value ∧ value ≤ 32 then some { ch with nbits := BitVec.ofNat 6 value } else none
  | .const => some { ch with const := BitVec.ofNat 32 value }
  | _ => none

/-- The channel file after a write of a writable field of `REG[c]`, where the value is legal. -/
def chansStore (chans : List Channel) (c : Nat) (f : ChanField) (value : Nat) : Option (List Channel) :=
  (chanStore (channelAt chans c) f value).map fun ch => chans.set c ch

/-- The TX engine after a write of a writable register, where the value is legal (R303, R310). -/
def Tx.csrStore (t : Tx) (reg : Csr) (value : Nat) : Option Tx :=
  match reg with
  | .flags => if value ≤ 255 then some { t with flags := BitVec.ofNat 8 value } else none
  | .mtime => some { t with mtime := BitVec.ofNat 32 value }
  | .rawSize => some { t with rawSize := BitVec.ofNat 32 value }
  | .name i => if value ≤ 255 then some { t with name := t.name.set i (BitVec.ofNat 8 value) } else none
  | .chan c f => (chansStore t.chans c f value).map fun cs => { t with chans := cs }
  | _ => none

/-- The RX engine after a write of a writable register, where the value is legal (R305, R310). -/
def Rx.csrStore (r : Rx) (reg : Csr) (value : Nat) : Option Rx :=
  match reg with
  | .ctrl => if value ≤ 1 then some { r with ignoreCrc := value == 1 } else none
  | .chan c f => (chansStore r.chans c f value).map fun cs => { r with chans := cs }
  | _ => none

/-- `TX.CSRW addr, value`, its checks in order, then the write (R303). -/
def Tx.csrWrite (K : Config) (cw : U32) (addr value : Nat) (t : Tx) : Except Raise (Nat × Tx) :=
  match csrAt K t.chans.length addr with
  | none => .error ⟨.badOperand, addr, 0⟩
  | some reg =>
    if reg.txWritable = false then .error ⟨.badOperand, addr, 1⟩
    else if 2 ^ 32 ≤ value then .error ⟨.badOperand, addr, 2⟩
    else if reg.isHeader ∧ t.gstate ≠ .notStarted then .error ⟨.illegalState, cw.toNat, t.status⟩
    else
      match t.csrStore reg value with
      | none => .error ⟨.badOperand, addr, 3⟩
      | some t' => .ok (0, t')

/-- `RX.CSRW addr, value`, its checks in order, then the write (R305). -/
def Rx.csrWrite (K : Config) (addr value : Nat) (r : Rx) : Except Raise (Nat × Rx) :=
  match csrAt K r.chans.length addr with
  | none => .error ⟨.badOperand, addr, 0⟩
  | some reg =>
    if reg.rxWritable = false then .error ⟨.badOperand, addr, 1⟩
    else if 2 ^ 32 ≤ value then .error ⟨.badOperand, addr, 2⟩
    else
      match r.csrStore reg value with
      | none => .error ⟨.badOperand, addr, 3⟩
      | some r' => .ok (0, r')

/-- `TX.CSRR addr`: legal in every condition, Faulted included (R302). -/
def Tx.csrRead (K : Config) (addr : Nat) (t : Tx) : Tx :=
  match csrAt K t.chans.length addr with
  | none => t.raise ⟨.badOperand, addr, 0⟩
  | some reg => t.respond (t.csrValue reg).toNat

/-- `RX.CSRR addr`: legal in every condition, Faulted included (R304). -/
def Rx.csrRead (K : Config) (addr : Nat) (r : Rx) : Rx :=
  match csrAt K r.chans.length addr with
  | none => r.raise ⟨.badOperand, addr, 0⟩
  | some reg => r.respond (r.csrValue reg).toNat

end Sys2Proof.Machine
end

