-- ==== Sys2Proof/Machine/StreamOps.lean ====
section
/-! DEFINITION. The internal procedures of the bit writer (40_bitstream_writer.md R140 to R144) and of the bit reader
(41_bitstream_reader.md R160 to R165), used by every other family. -/

namespace Sys2Proof.Machine

/-! ## The writer -/

/-- A TX bit-stream, codec or container command whose word is `cw`: the preamble of R348, then the `CLOSED` check, then
its own rule (R152). -/
def Tx.streamCommand (cw : U32) (body : Tx → Except Raise (Nat × Tx)) (t : Tx) : Tx :=
  t.command fun t => if t.closed then .error ⟨.illegalState, cw.toNat, t.status⟩ else body t

/-- The `i`-th word of a buffer. -/
def wordAt (ws : List Word) (i : Nat) : Word := ws.getD i 0

/-- `wbuf[i] <- wbuf[i] or x`. -/
def orWord (ws : List Word) (i x : Nat) : List Word := ws.set i (wordAt ws i ||| BitVec.ofNat 64 x)

/-- `EmitWords(m)`: the first `m` words go to the sink, least significant byte first, and are zeroed (R141). -/
def Tx.emitWords (K : Config) (m : Nat) (t : Tx) : Tx :=
  { t with
    sink := t.sink ++ (t.wbuf.take m).flatMap (wordBytesLE K.wordBytes)
    wbuf := List.replicate m 0 ++ t.wbuf.drop m
    sunk := t.sunk + m * K.wordBytes }

/-- `NextWordW()`: on to the next word; a full buffer goes to the sink at once (R141). -/
def Tx.nextWord (K : Config) (t : Tx) : Tx :=
  if t.wptr + 1 = K.bufWords then { Tx.emitWords K K.bufWords t with wptr := 0, woff := 0 }
  else { t with wptr := t.wptr + 1, woff := 0 }

/-- `PutBits(v, n)` for `0 ≤ n ≤ W`: append the low `n` bits of `v`, bit 0 first (R140). -/
def Tx.putBits (K : Config) (v n : Nat) (t : Tx) : Tx :=
  if n = 0 then t
  else
    let v := v % 2 ^ n
    let room := K.wordBits - t.woff
    if n < room then
      { t with wbuf := orWord t.wbuf t.wptr (v <<< t.woff), woff := t.woff + n, bitpos := t.bitpos + n }
    else
      let t1 := Tx.nextWord K { t with wbuf := orWord t.wbuf t.wptr ((v % 2 ^ room) <<< t.woff) }
      if room < n then
        { t1 with
          wbuf := t1.wbuf.set t1.wptr (BitVec.ofNat 64 (v >>> room)), woff := n - room, bitpos := t.bitpos + n }
      else { t1 with bitpos := t.bitpos + n }

/-- `m` whole words of one-bits. -/
def Tx.putOnes (K : Config) : Nat → Tx → Tx
  | 0, t => t
  | m + 1, t => Tx.putOnes K m (Tx.putBits K (2 ^ K.wordBits - 1) K.wordBits t)

/-- `PutUnary(v)` for `v ≤ UNARY_MAX`: `v` one-bits, then a zero-bit (R142). -/
def Tx.putUnary (K : Config) (v : Nat) (t : Tx) : Tx :=
  Tx.putBits K (2 ^ (v % K.wordBits) - 1) (v % K.wordBits + 1) (Tx.putOnes K (v / K.wordBits) t)

/-- The check of `PutUnary`, made before any bit is written (R142). -/
def unaryCheck (K : Config) (v : Nat) : Option Raise :=
  refuseIf (K.unaryMax < v) ⟨.badOperand, v % 2 ^ 32, K.unaryMax⟩

/-- `PutWindup()`: zero-bits up to the next byte boundary (R143). -/
def Tx.putWindup (K : Config) (t : Tx) : Tx := Tx.putBits K 0 ((8 - t.woff % 8) % 8) t

/-- `CloseW()`: the end of the stream; every appended bit reaches the sink as whole bytes (R144). -/
def Tx.close (K : Config) (t : Tx) : Tx :=
  let t1 := Tx.putWindup K t
  let t2 := Tx.emitWords K t1.wptr t1
  let nb := t2.woff / 8
  { t2 with
    sink := t2.sink ++ wordBytesLE nb (wordAt t2.wbuf t2.wptr)
    sunk := t2.sunk + nb, wbuf := t2.wbuf.set t2.wptr 0, wptr := 0, woff := 0, closed := true }

/-- `W.FLUSH`: the complete words go to the sink; the partial word stays, at the base of the buffer, or is dropped
(R149). -/
def Tx.flush (K : Config) (discard : Bool) (t : Tx) : Tx :=
  let p := wordAt t.wbuf t.wptr
  let t1 := Tx.emitWords K t.wptr t
  if discard then
    { t1 with wbuf := t1.wbuf.set t1.wptr 0, wptr := 0, bitpos := t.bitpos - t.woff, woff := 0 }
  else { t1 with wbuf := (t1.wbuf.set t1.wptr 0).set 0 p, wptr := 0 }

/-- The first pass of `W.STR`: how many characters go out, at most `left` more, the next one at `addr`; none when the
scan runs off the memory before a zero byte (R147). -/
def Tx.strCount (K : Config) (raw : RawMem) : Nat → Nat → Nat → Option Nat
  | _, 0, n => some n
  | addr, left + 1, n =>
    if K.rawBytes ≤ addr then none
    else if raw.readByte addr = 0 then some (n + 1)
    else Tx.strCount K raw (addr + 1) left (n + 1)

/-- Append bytes as 8-bit fields. -/
def Tx.putBytes (K : Config) (bytes : List Byte) (t : Tx) : Tx :=
  bytes.foldl (fun t b => Tx.putBits K b.toNat 8 t) t

/-! ## The reader -/

/-- `EndOfStream(BITPOS[31:0], BITPOS[63:32])` (R161). -/
def Rx.endOfStream (r : Rx) : Raise := ⟨.endOfStream, (counterLo r.bitpos).toNat, (counterHi r.bitpos).toNat⟩

/-- What `SrcGet(BUF_WORDS*WB)` returns (20_memory.md R74). -/
def Rx.srcGet (K : Config) (r : Rx) : List Byte := (r.src.drop r.srcpos).take (K.bufWords * K.wordBytes)

/-- The engine after it has taken bytes from the source (R161; 20_memory.md R74). -/
def Rx.pull (K : Config) (bytes : List Byte) (r : Rx) : Rx :=
  { r with
    srcpos := r.srcpos + bytes.length, pulled := r.pulled + bytes.length
    srcEof := r.srcEof || decide (bytes.length < K.bufWords * K.wordBytes) }

/-- `Fill()`: the next bytes of the source into the empty buffer, the last word a ghost word when the source ran short
inside it (R161, R162). -/
def fill (K : Config) : RxM Unit := fun r =>
  if r.srcEof then .error r.endOfStream r
  else
    let bytes := r.srcGet K
    let words := packWords K.wordBytes bytes
    if bytes.length = 0 then .error r.endOfStream (r.pull K bytes)
    else .ok () { r.pull K bytes with rbuf := words ++ r.rbuf.drop words.length, rcount := words.length }

/-- `NextWordR()` (R163). -/
def Rx.nextWord (r : Rx) : Rx :=
  if r.rptr + 1 = r.rcount then { r with roff := 0, rptr := 0, rcount := 0 }
  else { r with roff := 0, rptr := r.rptr + 1 }

/-- Fill the buffer if it is empty (R160). -/
def fillIfEmpty (K : Config) : RxM Unit := fun r => if r.rcount = 0 then fill K r else .ok () r

/-- `GetBits(n)` for `0 ≤ n ≤ W`: remove the next `n` bits, the first in bit 0 of the result (R160). -/
def getBits (K : Config) (n : Nat) : RxM Nat :=
  if n = 0 then pure 0
  else do
    fillIfEmpty K
    let r ← get
    let avail := K.wordBits - r.roff
    let rest := (wordAt r.rbuf r.rptr).toNat >>> r.roff
    if n < avail then do
      set { r with roff := r.roff + n, bitpos := r.bitpos + n }
      pure (rest % 2 ^ n)
    else if n = avail then do
      set { r.nextWord with bitpos := r.bitpos + n }
      pure rest
    else do
      set r.nextWord
      fillIfEmpty K
      let r2 ← get
      set { r2 with roff := n - avail, bitpos := r2.bitpos + n }
      pure (rest ||| (((wordAt r2.rbuf r2.rptr).toNat % 2 ^ (n - avail)) <<< avail))

/-- The loop of `GetUnary()`: `c` one-bits are consumed and `left` more are allowed (R164). -/
def getUnaryFrom (K : Config) : Nat → Nat → RxM Nat
  | 0, c => do
    let b ← getBits K 1
    if b = 0 then pure c else throw ⟨.unaryOverrun, c + 1, K.unaryMax⟩
  | left + 1, c => do
    let b ← getBits K 1
    if b = 0 then pure c else getUnaryFrom K left (c + 1)

/-- `GetUnary()` (R164). -/
def getUnary (K : Config) : RxM Nat := getUnaryFrom K K.unaryMax 0

/-- The count that goes to `V`, which has `W` bits (R21, R100): the count itself where it fits. R8 puts no upper bound on
`UNARY_MAX`, so a count may reach `2^W`; the spec states no `V` there, and a FREE VALUE of `W` bits stands for it (DESIGN
CHOICE, log 27). -/
def fitCount (K : Config) (v : Nat) : RxM Nat := fun r =>
  if v < 2 ^ K.wordBits then .ok v r
  else .ok (Config.freeReg r.freeTick 7 % 2 ^ K.wordBits) { r with freeTick := r.freeTick + 1 }

/-- `GetWindup()`: skip to the next byte boundary, never filling and never faulting (R165). -/
def Rx.windup (K : Config) (r : Rx) : Rx :=
  let s := (8 - r.roff % 8) % 8
  if s = 0 then r
  else
    let r1 := { r with roff := r.roff + s, bitpos := r.bitpos + s }
    if r1.roff = K.wordBits then r1.nextWord else r1

/-- `GetWindup()` inside a longer command. -/
def getWindup (K : Config) : RxM Unit := modify (Rx.windup K)

/-- The characters of `R.STR`, at most `left` more, the next one to `addr`, `n` being stored already; the result is
how many were stored, the terminator included (R168). -/
def getStr (K : Config) : Nat → Nat → Nat → RxM Nat
  | _, 0, n => pure n
  | addr, left + 1, n => do
    let ch ← getBits K 8
    modify fun r => { r with raw := r.raw.writeByte addr (BitVec.ofNat 8 ch) }
    if ch = 0 then pure (n + 1) else getStr K (addr + 1) left (n + 1)

/-- What becomes of an engine whose bit-stream command faults past its checks: the fault is taken, the cursor
registers are unspecified (R171, U5; log 8). -/
def cursorLost (e : Raise) (r : Rx) : Rx := r.forgetCursor.raise e

end Sys2Proof.Machine
end

