-- ==== Sys2Proof/Machine/CodecOps.lean ====
section
/-! DEFINITION. The codec procedures of spec/42_codec_primitives.md, 43_codec_encode.md R210 and 44_codec_decode.md R225:
the modified exponential-Golomb code, the four codecs, the delta and rotation stages, and the vector pipelines. -/

namespace Sys2Proof.Machine

/-! ## The modified exponential-Golomb code -/

/-- `MexpgPut(u, k)` (R183). -/
def Tx.mexpgPut (K : Config) (u k : Nat) (t : Tx) : Tx :=
  if k < bitSize u then
    Tx.putBits K (u % 2 ^ (bitSize u - 1)) (bitSize u - 1) (Tx.putUnary K (bitSize u - k) t)
  else Tx.putBits K u k (Tx.putUnary K 0 t)

/-- `MexpgGet(k)` (R184). -/
def mexpgGet (K : Config) (k : Nat) : RxM Nat := do
  let q ← getUnary K
  if q = 0 then getBits K k
  else if K.wordBits < q + k then throw ⟨.corruptStream, q, k⟩
  else do
    let low ← getBits K (q + k - 1)
    pure (low ||| 2 ^ (q + k - 1))

/-- The check of `E.MEXPG` and `D.MEXPG` on the order (R202, R203). -/
def orderCheck (k : Nat) : Option Raise := refuseIf (31 < k) ⟨.badOperand, k, 31⟩

/-! ## The delta and rotation stages -/

/-- The delta stage on the encode side: from the history and the rotated words, the codec stage inputs and the new
history (R194). -/
def deltaOut (w : Nat) : Nat → List Nat → List Nat × Nat
  | prev, [] => ([], prev)
  | prev, x :: xs => (subMod w x prev :: (deltaOut w x xs).1, (deltaOut w x xs).2)

/-- The delta stage on the decode side: from the history and the codec's words, the rotated words and the new history
(R195). -/
def deltaIn (w : Nat) : Nat → List Nat → List Nat × Nat
  | prev, [] => ([], prev)
  | prev, y :: ys =>
    (addMod w y prev :: (deltaIn w (addMod w y prev) ys).1, (deltaIn w (addMod w y prev) ys).2)

/-- The words of a vector as the codec is handed them, and the channel with its history brought forward (R194, R196,
R198, R200). -/
def stageOut (ch : Channel) (rs : List Nat) : List Nat × Channel :=
  let xs := rs.map fun r => rorW ch.width r ch.rot.toNat
  if ch.delta then
    let d := deltaOut ch.width ch.prev.toNat xs
    (d.1, { ch with prev := BitVec.ofNat 32 d.2 })
  else (xs, ch)

/-- The raw words of a vector from what the codec yields, and the channel with its history brought forward (R195, R197,
R199, R200). -/
def stageIn (ch : Channel) (ys : List Nat) : List Nat × Channel :=
  if ch.delta then
    let d := deltaIn ch.width ch.prev.toNat ys
    (d.1.map fun x => rolW ch.width x ch.rot.toNat, { ch with prev := BitVec.ofNat 32 d.2 })
  else (ys.map fun x => rolW ch.width x ch.rot.toNat, ch)

/-- The raw word a Constant channel decodes to: `rol_w(CONST mod 2^w, ROT)` (R193). -/
def constantWord (ch : Channel) : Nat := rolW ch.width (ch.const.toNat % 2 ^ ch.width) ch.rot.toNat

/-! ## The codecs -/

/-- The Reduced-Binary sentinel `S = 2^nbits - 1` (R186). -/
def rbSentinel (ch : Channel) : Nat := 2 ^ ch.nbits.toNat - 1

/-- `RbPut(y)` (R186). -/
def Tx.rbPut (K : Config) (ch : Channel) (y : Nat) (t : Tx) : Tx :=
  let d := subMod ch.width y (ch.offset.toNat % 2 ^ ch.width)
  if d < rbSentinel ch then Tx.putBits K d ch.nbits.toNat t
  else Tx.putBits K y ch.width (Tx.putBits K (rbSentinel ch) ch.nbits.toNat t)

/-- `RbGet()` (R187). -/
def rbGet (K : Config) (ch : Channel) : RxM Nat := do
  let c ← getBits K ch.nbits.toNat
  if c = rbSentinel ch then getBits K ch.width
  else pure (addMod ch.width c (ch.offset.toNat % 2 ^ ch.width))

/-- The maximal runs of a vector as (value, run-length) pairs (R189). -/
def runs : List Nat → List (Nat × Nat)
  | [] => []
  | y :: ys =>
    match runs ys with
    | [] => [(y, 1)]
    | (v, c) :: rest => if v = y then (v, c + 1) :: rest else (y, 1) :: (v, c) :: rest

/-- `RlPut(y[0 .. m-1])`: each run's value, then its length, both at order 1 (R189). -/
def Tx.rlPut (K : Config) (ys : List Nat) (t : Tx) : Tx :=
  (runs ys).foldl (fun t p => Tx.mexpgPut K p.2 1 (Tx.mexpgPut K p.1 1 t)) t

/-- The loop of `RlGet`: `left` words are still wanted; every pair yields at least one, so `fuel = left` is enough
(R190). -/
def rlGetFrom (K : Config) (w : Nat) : Nat → Nat → RxM (List Nat)
  | 0, _ => pure []
  | fuel + 1, left =>
    if left = 0 then pure []
    else do
      let v ← mexpgGet K 1
      if 2 ^ w ≤ v then throw ⟨.corruptStream, v % 2 ^ 32, w⟩
      else do
        let c ← mexpgGet K 1
        if c = 0 ∨ left < c then throw ⟨.corruptStream, c % 2 ^ 32, left⟩
        else do
          let rest ← rlGetFrom K w fuel (left - c)
          pure (List.replicate c v ++ rest)

/-- `RlGet(m)` (R190). -/
def rlGet (K : Config) (w m : Nat) : RxM (List Nat) := rlGetFrom K w m m

/-- Run a reading procedure `m` times and collect what it yields. -/
def repeatGet (get1 : RxM Nat) : Nat → RxM (List Nat)
  | 0 => pure []
  | m + 1 => do
    let y ← get1
    let ys ← repeatGet get1 m
    pure (y :: ys)

/-- The code of a vector of codec stage inputs, by the algorithm in force (R192, R186, R189, R193, R198). -/
def Tx.codecPut (K : Config) (ch : Channel) (ys : List Nat) (t : Tx) : Tx :=
  match ch.alg with
  | .default => ys.foldl (fun t y => Tx.putBits K y ch.width t) t
  | .reducedBinary => ys.foldl (fun t y => Tx.rbPut K ch y t) t
  | .runLength => Tx.rlPut K ys t
  | .constant => t

/-! ## The pipelines -/

/-- `EncWords(c, r[0 .. m-1])` (R198): nothing at all for Constant, `PREV` untouched. -/
def Tx.encWords (K : Config) (c : Nat) (rs : List Nat) (t : Tx) : Tx :=
  let ch := channelAt t.chans c
  if ch.alg = .constant then t
  else
    let out := stageOut ch rs
    Tx.codecPut K ch out.1 { t with chans := t.chans.set c out.2 }

/-- What the codec in force yields for `m` words, before the delta and rotation stages (R199); Constant reads
nothing. -/
def codecGet (K : Config) (ch : Channel) (m : Nat) : RxM (List Nat) :=
  match ch.alg with
  | .default => repeatGet (getBits K ch.width) m
  | .reducedBinary => repeatGet (rbGet K ch) m
  | .runLength => rlGet K ch.width m
  | .constant => pure (List.replicate m 0)

/-- `DecWords(c, m)` (R199): for Constant, `m` copies of its word, `PREV` neither read nor written. -/
def decWords (K : Config) (c m : Nat) : RxM (List Nat) := do
  let ch := channelAt (← get).chans c
  if ch.alg = .constant then pure (List.replicate m (constantWord ch))
  else do
    let ys ← codecGet K ch m
    modify fun r => { r with chans := r.chans.set c (stageIn ch ys).2 }
    pure (stageIn ch ys).1

/-- The raw words of `nbytes` bytes from `addr` on, `ws` bytes a word; a last partial word has zero ghost bytes above
(R210; 20_memory.md R84). -/
def readWords (raw : RawMem) (addr ws nbytes : Nat) : List Nat :=
  ((List.range (nbytes / ws)).map fun i => raw.read (addr + i * ws) ws) ++
  (if nbytes % ws = 0 then [] else [raw.read (addr + nbytes / ws * ws) (nbytes % ws)])

/-- The words `i, i+1, ...` of a vector into raw memory (R225). -/
def writeWholeWords (ws : Nat) : Nat → List Nat → RawMem → RawMem
  | _, [], m => m
  | addr, r :: rs, m => writeWholeWords ws (addr + ws) rs (m.write addr ws r)

/-- The raw words of a vector of `nbytes` bytes into raw memory; of a last partial word only the real, low bytes (R225;
R84). -/
def writeWords (raw : RawMem) (addr ws nbytes : Nat) (rs : List Nat) : RawMem :=
  let whole := writeWholeWords ws addr (rs.take (nbytes / ws)) raw
  if nbytes % ws = 0 then whole
  else whole.write (addr + nbytes / ws * ws) (nbytes % ws) (rs.getD (nbytes / ws) 0)

/-- `EncVec(c, addr, nbytes)` (R210). -/
def Tx.encVec (K : Config) (c addr nbytes : Nat) (t : Tx) : Tx :=
  Tx.encWords K c (readWords t.raw addr (channelAt t.chans c).size nbytes) t

/-- `DecVec(c, addr, nbytes)` (R225). -/
def decVec (K : Config) (c addr nbytes : Nat) : RxM Unit := do
  let ws := (channelAt (← get).chans c).size
  let rs ← decWords K c (ceilDiv nbytes ws)
  modify fun r => { r with raw := writeWords r.raw addr ws nbytes rs }

end Sys2Proof.Machine
end

