-- ==== Sys2Proof/Machine/Codec.lean ====
section
/-! DEFINITION. The codec commands: `E.MEXPG`, `D.MEXPG` of spec/42_codec_primitives.md, the encode commands of
43_codec_encode.md and the decode commands of 44_codec_decode.md. -/

namespace Sys2Proof.Machine

/-- `E.MEXPG u, k` (R202). -/
def execEMexpg (u : Word) (k : Byte) (s : State) : Host.Outcome State Fault Refusal :=
  onTx (fun K t => t.streamCommand (cwN 0x20 k) fun t =>
    afterCheck (orderCheck k.toNat) (0, t.mexpgPut K u.toNat k.toNat)) s

/-- `E.WORD ch, value` (R211). -/
def execEWord (ch : BitVec 16) (value : Word) (s : State) : Host.Outcome State Fault Refusal :=
  onTx (fun K t => t.streamCommand (cwC 0x21 ch) fun t =>
    afterCheck (chanCheck (cwC 0x21 ch) t.chans ch.toNat)
      (0, t.encWords K ch.toNat [value.toNat % 2 ^ (channelAt t.chans ch.toNat).width])) s

/-- `E.VEC ch, addr, nbytes` (R212). -/
def execEVec (ch : BitVec 16) (addr : U32) (nbytes : Word) (s : State) : Host.Outcome State Fault Refusal :=
  onTx (fun K t => t.streamCommand (cwC 0x22 ch) fun t =>
    afterCheck (vecCheck K (cwC 0x22 ch) t.chans ch.toNat addr.toNat nbytes.toNat)
      (nbytes.toNat, t.encVec K ch.toNat addr.toNat nbytes.toNat)) s

/-- `E.HRESET ch` (R213). -/
def execEHreset (ch : BitVec 16) (s : State) : Host.Outcome State Fault Refusal :=
  onTx (fun _ t => t.streamCommand (cwC 0x23 ch) fun t =>
    afterCheck (registeredCheck t.chans ch.toNat)
      (0, { t with chans := t.chans.modify ch.toNat fun c => { c with prev := 0 } })) s

/-- `D.MEXPG k` (R203). -/
def execDMexpg (k : Byte) (s : State) : Host.Outcome State Fault Refusal :=
  onRx (fun K r => r.command (fun _ => orderCheck k.toNat) (mexpgGet K k.toNat) cursorLost) s

/-- `D.WORD ch` (R226); the state after a fault in mid-decode is R230's. -/
def execDWord (ch : BitVec 16) (s : State) : Host.Outcome State Fault Refusal :=
  onRx (fun K r => r.command
    (fun r => chanCheck (cwC 0xA1 ch) r.chans ch.toNat)
    (do
      let rs ← decWords K ch.toNat 1
      pure (rs.getD 0 0))
    (fun e r => (r.forgetDecode K ch.toNat 0 0).raise e)) s

/-- `D.VEC ch, addr, nbytes` (R227); the state after a fault in mid-decode is R230's, the bytes behind the data are
R225's. -/
def execDVec (ch : BitVec 16) (addr : U32) (nbytes : Word) (s : State) : Host.Outcome State Fault Refusal :=
  onRx (fun K r => r.command
    (fun r => vecCheck K (cwC 0xA2 ch) r.chans ch.toNat addr.toNat nbytes.toNat)
    (do
      decVec K ch.toNat addr.toNat nbytes.toNat
      modify (Rx.forgetGhost K (addr.toNat + nbytes.toNat))
      pure nbytes.toNat)
    (fun e r => (r.forgetDecode K ch.toNat addr.toNat (nbytes.toNat + K.maxGhostBytes)).raise e)) s

/-- `D.HRESET ch` (R228). -/
def execDHreset (ch : BitVec 16) (s : State) : Host.Outcome State Fault Refusal :=
  onRx (fun _ r => r.simpleCommand fun r =>
    afterCheck (registeredCheck r.chans ch.toNat)
      (0, { r with chans := r.chans.modify ch.toNat fun c => { c with prev := 0 } })) s

end Sys2Proof.Machine
end

