-- ==== Sys2Proof/Machine/ContainerOps.lean ====
section
/-! DEFINITION. The container procedures: the generator's of spec/45_container_generator.md R244 to R253 and the
parser's of spec/46_container_parser.md R271 to R284. -/

namespace Sys2Proof.Machine

/-! ## The generator -/

/-- The `NAME` bytes that are written: up to and including the first zero (R246). -/
def nameField : List Byte → List Byte
  | [] => []
  | b :: bs => if b = 0 then [b] else b :: nameField bs

/-- `PutFileHeader()` (R246). -/
def Tx.putFileHeader (K : Config) (t : Tx) : Tx :=
  let t1 := Tx.putBits K K.magic1.toNat 8 (Tx.putBits K K.magic0.toNat 8 t)
  let t2 := Tx.putBits K t.flags.toNat 8 (Tx.putBits K t.mtime.toNat 32 t1)
  let t3 := if flagSize t.flags then Tx.putBits K t.rawSize.toNat 32 t2 else t2
  let t4 := if flagName t.flags then Tx.putBytes K (nameField t.name) t3 else t3
  if flagXtra t.flags then Tx.putBits K 0 16 t4 else t4

/-- Whether a section header carries the repetitions field: "present iff num_channels>1 && !flags.NOREPS"
(30_encoding.md R119). -/
def repsPresent (flags : BitVec 8) (nchan : Nat) : Bool := 1 < nchan && !flagNoReps flags

/-- One channel's fields of a section header, from the active fields (R247). -/
def Tx.putChanHeader (K : Config) (withReps : Bool) (ch : Channel) (t : Tx) : Tx :=
  let t1 := if withReps then Tx.putBits K ch.reps.toNat K.repsBits t else t
  let t2 := Tx.putBits K ch.rot.toNat K.nbitsBits (Tx.putBits K (bit ch.delta) 1 t1)
  let t3 := Tx.putBits K ch.dtype.code K.typeBits (Tx.putBits K ch.alg.code K.algBits t2)
  match ch.alg with
  | .reducedBinary =>
    Tx.putBits K (ch.nbits.toNat - 1) K.nbitsBits (Tx.putBits K (ch.offset.toNat % 2 ^ ch.width) ch.width t3)
  | .constant => Tx.putBits K (ch.const.toNat % 2 ^ ch.width) ch.width t3
  | .default | .runLength => t3

/-- `write_section_header`, from windup to windup (R247). -/
def Tx.putSectionHeader (K : Config) (len : Nat) (t : Tx) : Tx :=
  let t1 := Tx.putBits K len K.sectSizeBits (Tx.putWindup K t)
  let t2 := if flagOneChan t.flags then t1 else Tx.putBits K t.chans.length K.numChanBits t1
  let t3 := t.chans.foldl (fun u ch => Tx.putChanHeader K (repsPresent t.flags t.chans.length) ch u) t2
  { Tx.putWindup K t3 with gstate := .sectionOpen }

/-- Every channel's history back to 0 (R248; 10_state.md R46). -/
def resetHistories (chans : List Channel) : List Channel := chans.map fun ch => { ch with prev := 0 }

/-- One frame at address `base`: the channels in order, each its whole share (R250). -/
def Tx.encFrame (K : Config) (base : Nat) (t : Tx) : Tx :=
  (List.range t.chans.length).foldl
    (fun u c => Tx.encVec K c (base + frameOffset u.chans c) (channelAt u.chans c).share u) t

/-- Whole frames `f, f+1, ..., f+n-1` (R250). -/
def Tx.encFrames (K : Config) : Nat → Nat → Tx → Tx
  | _, 0, t => t
  | f, n + 1, t => Tx.encFrames K (f + 1) n (Tx.encFrame K (f * frameSize t.chans) t)

/-- The partial frame at `base`: channels `c, c+1, ...`, each what bytes are left for it (R251). -/
def Tx.encPartial (K : Config) (base : Nat) : List Nat → Nat → Tx → Tx
  | [], _, t => t
  | c :: cs, rem, t =>
    if rem = 0 then t
    else
      let a := min rem (channelAt t.chans c).share
      Tx.encPartial K base cs (rem - a) (Tx.encVec K c (base + frameOffset t.chans c) a t)

/-- The frame data of a section of `len` bytes (R250, R251). -/
def Tx.encSection (K : Config) (len : Nat) (t : Tx) : Tx :=
  let fs := frameSize t.chans
  Tx.encPartial K (len / fs * fs) (List.range t.chans.length) (len % fs) (Tx.encFrames K 0 (len / fs) t)

/-- `G.RESTORE` of one channel: the configured codec back in force (R243, R253). -/
def Channel.restored (ch : Channel) : Channel := { ch with alg := ch.calg, delta := ch.cdelta }

/-- The first channel with a property, with its index. -/
def firstChannel (p : Channel → Bool) (chans : List Channel) : Option Nat := chans.findIdx? p

/-- Check 4 of R244, made for the first section only. -/
def headerCheck (cw : U32) (t : Tx) : Option Raise :=
  if t.gstate = .notStarted then
    refuseIf (flagsUnsupported t.flags) ⟨.unsupportedFeature, t.flags.toNat, 0⟩ <|>
    refuseIf (flagName t.flags ∧ ∀ b ∈ t.name, b ≠ 0) ⟨.illegalState, cw.toNat, 1⟩
  else none

/-- The repetitions part of check 5 of R244. DESIGN CHOICE, unsafe (log 28): where the counts of several channels do not fit
in the field, R244 says "some `REG[c].REPS`" and not which `c` the fault names; the model names the lowest. -/
def repsCheck (K : Config) (cw : U32) (flags : BitVec 8) (chans : List Channel) : Option Raise :=
  if repsPresent flags chans.length then
    (firstChannel (fun ch => 2 ^ K.repsBits ≤ ch.reps.toNat) chans).map fun c =>
      ⟨.badOperand, (channelAt chans c).reps.toNat, c⟩
  else refuseIf (∃ ch ∈ chans, ch.reps ≠ 1) ⟨.illegalState, cw.toNat, 3⟩

/-- Check 6 of R244: `ChanCheck(c)` for every channel, in order. -/
def allChanCheck (cw : U32) (chans : List Channel) : Option Raise :=
  (List.range chans.length).findSome? fun c => chanCheck cw chans c

/-- The checks of `G.SECTION len` after the preamble, in order (R244). -/
def sectionCheck (K : Config) (cw : U32) (len : Nat) (t : Tx) : Option Raise :=
  refuseIf (len = 0) ⟨.badOperand, 0, 0⟩ <|>
  refuseIf (K.maxSectionLength < len) ⟨.bufferSizeExceeded, len % 2 ^ 32, K.maxSectionLength⟩ <|>
  refuseIf (t.chans.length = 0) ⟨.illegalState, cw.toNat, t.status⟩ <|>
  headerCheck cw t <|>
  refuseIf (flagOneChan t.flags ∧ t.chans.length ≠ 1) ⟨.illegalState, cw.toNat, 2⟩ <|>
  repsCheck K cw t.flags t.chans <|>
  allChanCheck cw t.chans

/-- Step 1 of a section: the file header, or the tag of the previous section (R245). -/
def Tx.beginSection (K : Config) (t : Tx) : Tx :=
  if t.gstate = .notStarted then { Tx.putFileHeader K t with gstate := .headerWritten } else Tx.putBits K 0x8 4 t

/-- Steps 3c and 4: histories to 0, and the CRC of the raw bytes before anything is encoded (R248, R249). -/
def Tx.prepareSection (K : Config) (len : Nat) (t : Tx) : Tx :=
  { t with
    chans := resetHistories t.chans
    sectCrc := if flagCrc t.flags then crc32 K (t.raw.bytes 0 len) else t.sectCrc }

/-- Completion (R253); the section's raw bytes are unspecified from here on (20_memory.md R86, log 11). -/
def Tx.finishSection (K : Config) (len : Nat) (t : Tx) : Tx :=
  Tx.forgetSource K len
    { t with
      gstate := .sectionClosed, layoutOpen := false, nsect := t.nsect + 1, total := t.total + len
      sectSize := BitVec.ofNat 32 len, chans := t.chans.map Channel.restored }

/-- Rules R245 to R253 in order. -/
def Tx.writeSection (K : Config) (len : Nat) (t : Tx) : Tx :=
  let t1 := Tx.prepareSection K len (Tx.putSectionHeader K len (Tx.beginSection K t))
  let t2 := Tx.encSection K len t1
  let t3 := if flagCrc t.flags then Tx.putBits K t2.sectCrc.toNat 32 t2 else t2
  Tx.finishSection K len t3

/-! ## The parser -/

/-- A check inside a reading procedure. -/
def raiseIf (c : Option Raise) : RxM Unit :=
  match c with
  | some e => throw e
  | none => pure ()

/-- The name of the file header, from `NAME[i]` on, `left` entries being left; a name with no terminator is too long
(46_container_parser.md R271). -/
def getName (K : Config) : Nat → Nat → RxM Unit
  | _, 0 => throw ⟨.corruptStream, K.nameMax, 0⟩
  | i, left + 1 => do
    let b ← getBits K 8
    modify fun r => { r with name := r.name.set i (BitVec.ofNat 8 b) }
    if b = 0 then pure () else getName K (i + 1) left

/-- The two magic bytes (R271). -/
def getMagic (K : Config) : RxM Unit := do
  let m0 ← getBits K 8
  let m1 ← getBits K 8
  raiseIf (refuseIf (m0 ≠ K.magic0.toNat ∨ m1 ≠ K.magic1.toNat)
    ⟨.notASlimFile, m0 + 256 * m1, K.magic0.toNat + 256 * K.magic1.toNat⟩)

/-- The time stamp and the flag byte, both registers loaded before the flags are judged (R271, R272). -/
def getMtimeFlags (K : Config) : RxM Nat := do
  let mtime ← getBits K 32
  modify fun r => { r with mtime := BitVec.ofNat 32 mtime }
  let fl ← getBits K 8
  modify fun r => { r with flags := BitVec.ofNat 8 fl }
  raiseIf (refuseIf (flagsUnsupported (BitVec.ofNat 8 fl)) ⟨.unsupportedFeature, fl, 0⟩)
  pure fl

/-- The raw size, where the flags announce it (R271). -/
def getRawSize (K : Config) (flags : BitVec 8) : RxM Unit :=
  if flagSize flags then do
    let size ← getBits K 32
    modify fun r => { r with rawSize := BitVec.ofNat 32 size }
  else pure ()

/-- The name, where the flags announce one (R271). -/
def getNameField (K : Config) (flags : BitVec 8) : RxM Unit :=
  if flagName flags then getName K 0 K.nameMax else pure ()

/-- The length of the extra field, where the flags announce one; only 0 is supported (R271). -/
def getXtra (K : Config) (flags : BitVec 8) : RxM Unit :=
  if flagXtra flags then do
    let x ← getBits K 16
    modify fun r => { r with xtraLen := BitVec.ofNat 16 x }
    raiseIf (refuseIf (x ≠ 0) ⟨.unsupportedFeature, x, 1⟩)
  else pure ()

/-- `P.HEADER` past its check (R271). -/
def getFileHeader (K : Config) : RxM Nat := do
  getMagic K
  let fl ← getMtimeFlags K
  getRawSize K (BitVec.ofNat 8 fl)
  getNameField K (BitVec.ofNat 8 fl)
  getXtra K (BitVec.ofNat 8 fl)
  modify fun r => { r with pstate := .headerRead }
  pure fl

/-- Validation of a channel's fields as read, in order (R277). -/
def chanFieldsCheck (c reps rot alg type : Nat) : Option Raise :=
  refuseIf (reps = 0) ⟨.corruptStream, c, 2⟩ <|>
  refuseIf (type = 6 ∨ type = 7) ⟨.unsupportedFeature, type, c⟩ <|>
  refuseIf (8 ≤ type) ⟨.corruptStream, type, 3⟩ <|>
  refuseIf (4 ≤ alg) ⟨.corruptStream, alg, 4⟩ <|>
  refuseIf (((DType.ofCode type).getD default).width ≤ rot) ⟨.corruptStream, rot, 5⟩

/-- The algorithm's parameters as they stand in the stream: `(offset, nbits, const)` (R276; 30_encoding.md R120). -/
def getParams (K : Config) (alg : Alg) (w : Nat) : RxM (Nat × Nat × Nat) :=
  match alg with
  | .reducedBinary => do
    let offset ← getBits K w
    let nb ← getBits K K.nbitsBits
    raiseIf (refuseIf (w < nb + 1) ⟨.corruptStream, nb + 1, 6⟩)
    pure (offset, nb + 1, 0)
  | .constant => do
    let const ← getBits K w
    pure (0, w, const)
  | .default | .runLength => pure (0, w, 0)

/-- The channel the parser registers from the fields of a section header (R276). -/
def channelOfFields (reps delta rot : Nat) (dtype : DType) (alg : Alg) (params : Nat × Nat × Nat) : Channel :=
  { reps := BitVec.ofNat 32 reps, dtype := dtype, calg := alg, cdelta := delta == 1, permrot := true, alg := alg,
    delta := delta == 1, rot := BitVec.ofNat 5 rot, offset := BitVec.ofNat 32 params.1,
    nbits := BitVec.ofNat 6 params.2.1, const := BitVec.ofNat 32 params.2.2, prev := 0 }

/-- One channel of a section header, registered as `REG[c]` (R276). -/
def getChannel (K : Config) (withReps : Bool) (c : Nat) : RxM Unit := do
  let reps ← (if withReps then getBits K K.repsBits else pure 1)
  let delta ← getBits K 1
  let rot ← getBits K K.nbitsBits
  let alg ← getBits K K.algBits
  let type ← getBits K K.typeBits
  raiseIf (chanFieldsCheck c reps rot alg type)
  let params ← getParams K ((Alg.ofCode alg).getD default) ((DType.ofCode type).getD default).width
  modify fun r =>
    { r with
      chans := r.chans ++
        [channelOfFields reps delta rot ((DType.ofCode type).getD default) ((Alg.ofCode alg).getD default) params] }

/-- Channels `c, c+1, ...`, `n` of them (R276). -/
def getChannels (K : Config) (withReps : Bool) : Nat → Nat → RxM Unit
  | _, 0 => pure ()
  | c, n + 1 => do
    getChannel K withReps c
    getChannels K withReps (c + 1) n

/-- The size of a section, checked (R276). -/
def getSectionSize (K : Config) : RxM Nat := do
  let size ← getBits K K.sectSizeBits
  raiseIf (refuseIf (size = 0) ⟨.corruptStream, 0, 0⟩ <|>
    refuseIf (K.maxSectionLength < size) ⟨.bufferSizeExceeded, size, K.maxSectionLength⟩)
  pure size

/-- The number of channels, checked; a one-channel file does not carry it (R276). -/
def getChannelCount (K : Config) (flags : BitVec 8) : RxM Nat := do
  let n ← (if flagOneChan flags then pure 1 else getBits K K.numChanBits)
  raiseIf (refuseIf (n = 0) ⟨.corruptStream, 0, 1⟩ <|>
    refuseIf (K.maxChannels < n) ⟨.bufferSizeExceeded, n, K.maxChannels⟩)
  pure n

/-- The fields of a section header, its channels replacing those registered (R276). -/
def getSectionFields (K : Config) : RxM Nat := do
  let size ← getSectionSize K
  let flags := (← get).flags
  let n ← getChannelCount K flags
  modify fun r => { r with chans := [] }
  getChannels K (repsPresent flags n) 0 n
  pure size

/-- `GetSectionHeader()`, from windup to windup (R276). -/
def getSectionHeader (K : Config) : RxM Nat := do
  getWindup K
  let size ← getSectionFields K
  getWindup K
  pure size

/-- Channels `c :: cs` of the frame at `base`, each its whole share (R278). -/
def decFrame (K : Config) (base : Nat) : List Nat → RxM Unit
  | [] => pure ()
  | c :: cs => do
    let chans := (← get).chans
    decVec K c (base + frameOffset chans c) (channelAt chans c).share
    decFrame K base cs

/-- Whole frames `f, f+1, ..., f+n-1` (R278). -/
def decFrames (K : Config) : Nat → Nat → RxM Unit
  | _, 0 => pure ()
  | f, n + 1 => do
    let chans := (← get).chans
    decFrame K (f * frameSize chans) (List.range chans.length)
    decFrames K (f + 1) n

/-- The partial frame at `base`: channels `c :: cs`, each what bytes are left for it (R279). -/
def decPartial (K : Config) (base : Nat) : List Nat → Nat → RxM Unit
  | [], _ => pure ()
  | c :: cs, rem =>
    if rem = 0 then pure ()
    else do
      let chans := (← get).chans
      let a := min rem (channelAt chans c).share
      decVec K c (base + frameOffset chans c) a
      decPartial K base cs (rem - a)

/-- The CRC word, where there is one: both CRC registers are loaded before they are compared (R280). -/
def getCrc (K : Config) (size : Nat) : RxM Unit := do
  if flagCrc (← get).flags then do
    let stored ← getBits K 32
    modify fun r =>
      { r with storedCrc := BitVec.ofNat 32 stored, sectCrc := crc32 K (r.raw.bytes 0 size) }
    let r ← get
    raiseIf (refuseIf (r.sectCrc ≠ r.storedCrc ∧ r.ignoreCrc = false)
      ⟨.crcMismatch, r.sectCrc.toNat, r.storedCrc.toNat⟩)
  else pure ()

/-- The foot tag (R281). -/
def getFootTag (K : Config) : RxM Unit := do
  let tag ← getBits K 4
  if tag = 0x8 then pure ()
  else if tag = 0xF then modify fun r => { r with pstate := .exhausted }
  else throw ⟨.corruptStream, tag, 7⟩

/-- The frame data of a section: whole frames, then the partial frame (R278, R279). -/
def decSection (K : Config) (size : Nat) : RxM Unit := do
  let chans := (← get).chans
  decFrames K 0 (size / frameSize chans)
  decPartial K (size / frameSize chans * frameSize chans) (List.range chans.length) (size % frameSize chans)

/-- The counters (R284); the bytes behind the section are unspecified from here on (20_memory.md R86). -/
def Rx.finishSection (K : Config) (size : Nat) (r : Rx) : Rx :=
  Rx.forgetGhost K size { r with nsect := r.nsect + 1, total := r.total + size, sectSize := BitVec.ofNat 32 size }

/-- `P.SECTION` in `HeaderRead`, past its checks (R275 to R284). -/
def getSection (K : Config) : RxM Nat := do
  let size ← getSectionHeader K
  decSection K size
  getCrc K size
  getFootTag K
  modify (Rx.finishSection K size)
  pure size

/-- Inside the container an underrun is reported as `TruncatedFile`, with the same information words (R283). -/
def inContainer (e : Raise) : Raise :=
  match e.code with
  | .endOfStream => { e with code := .truncatedFile }
  | _ => e

end Sys2Proof.Machine
end

