-- ==== Sys2Proof/Machine/Generator.lean ====
section
/-! DEFINITION. The container commands of the TX engine, spec/45_container_generator.md. -/

namespace Sys2Proof.Machine

/-- `G.ADDCH reps, desc` (R241). -/
def execGAddch (reps : U32) (desc : Word) (s : State) : Host.Outcome State Fault Refusal :=
  onTx (fun K t => t.streamCommand (cwZ 0x30) fun t =>
    afterCheck
      (refuseIf (t.layoutOpen = false) ⟨.illegalState, (cwZ 0x30).toNat, t.status⟩ <|>
        descCheck K reps desc t.chans.length)
      (t.chans.length, { t with chans := t.chans ++ [descChannel reps desc] })) s

/-- `G.RESETCH` (R242). -/
def execGResetch (s : State) : Host.Outcome State Fault Refusal :=
  onTx (fun _ t => t.streamCommand (cwZ 0x31) fun t => .ok (0, { t with chans := [], layoutOpen := true })) s

/-- `G.RESTORE ch` (R243). -/
def execGRestore (ch : BitVec 16) (s : State) : Host.Outcome State Fault Refusal :=
  onTx (fun _ t => t.streamCommand (cwC 0x32 ch) fun t =>
    afterCheck (registeredCheck t.chans ch.toNat)
      (0, { t with chans := t.chans.modify ch.toNat Channel.restored })) s

/-- `G.SECTION len` (R244 to R253). -/
def execGSection (len : Word) (s : State) : Host.Outcome State Fault Refusal :=
  onTx (fun K t => t.streamCommand (cwZ 0x33) fun t =>
    afterCheck (sectionCheck K (cwZ 0x33) len.toNat t) (len.toNat, t.writeSection K len.toNat)) s

/-- `G.FINAL` (R254). -/
def execGFinal (s : State) : Host.Outcome State Fault Refusal :=
  onTx (fun K t => t.streamCommand (cwZ 0x34) fun t =>
    afterCheck (refuseIf (t.gstate ≠ .sectionClosed) ⟨.illegalState, (cwZ 0x34).toNat, t.status⟩)
      (0, { (t.putBits K 0xF 4).close K with gstate := .finalized })) s

end Sys2Proof.Machine
end

