-- ==== Sys2Proof/Machine/Parser.lean ====
section
/-! DEFINITION. The container commands of the RX engine, spec/46_container_parser.md. -/

namespace Sys2Proof.Machine

/-- `P.HEADER` (R271); an underrun inside is `TruncatedFile` (R283), registers already loaded keep the loaded value. -/
def execPHeader (s : State) : Host.Outcome State Fault Refusal :=
  onRx (fun K r => r.command
    (fun r => refuseIf (r.pstate ≠ .noHeader) ⟨.illegalState, (cwZ 0xB0).toNat, r.status⟩)
    (getFileHeader K)
    (fun e r => cursorLost (inContainer e) r)) s

/-- `P.SECTION` (R275 to R284): in `Exhausted` it reads nothing and returns 0 (R282). -/
def execPSection (s : State) : Host.Outcome State Fault Refusal :=
  onRx (fun K r => r.command
    (fun r => refuseIf (r.pstate = .noHeader) ⟨.illegalState, (cwZ 0xB1).toNat, r.status⟩)
    (if r.pstate = .exhausted then pure 0 else getSection K)
    (fun e r => (r.forgetSection K).raise (inContainer e))) s

/-- `P.ADDCH reps, desc` (R273). -/
def execPAddch (reps : U32) (desc : Word) (s : State) : Host.Outcome State Fault Refusal :=
  onRx (fun K r => r.simpleCommand fun r =>
    afterCheck (descCheck K reps desc r.chans.length)
      (r.chans.length, { r with chans := r.chans ++ [descChannel reps desc] })) s

/-- `P.RESETCH` (R274). -/
def execPResetch (s : State) : Host.Outcome State Fault Refusal :=
  onRx (fun _ r => r.simpleCommand fun r => .ok (0, { r with chans := [] })) s

end Sys2Proof.Machine
end

