-- ==== Sys2Proof/Machine/Reader.lean ====
section
/-! DEFINITION. The bit-stream commands of the RX engine, spec/41_bitstream_reader.md. -/

namespace Sys2Proof.Machine

/-- `R.BITS n` (R166). -/
def execRBits (n : Byte) (s : State) : Host.Outcome State Fault Refusal :=
  onRx (fun K r => r.command
    (fun _ => refuseIf (K.wordBits < n.toNat) ⟨.badOperand, n.toNat, K.wordBits⟩)
    (getBits K n.toNat) cursorLost) s

/-- `R.UNARY` (R167); a count that does not fit in the `W` bits of `V` answers a free value (R21, `fitCount`, log 27). -/
def execRUnary (s : State) : Host.Outcome State Fault Refusal :=
  onRx (fun K r => r.command (fun _ => none) (getUnary K >>= fitCount K) cursorLost) s

/-- `R.STR addr, cap` (R168); after a fault "characters already stored stay stored". -/
def execRStr (addr : U32) (cap : Word) (s : State) : Host.Outcome State Fault Refusal :=
  onRx (fun K r => r.command
    (fun _ => rangeCheck K addr.toNat cap.toNat)
    (getStr K addr.toNat cap.toNat 0) cursorLost) s

/-- `R.WINDUP` (R169). -/
def execRWindup (s : State) : Host.Outcome State Fault Refusal :=
  onRx (fun K r => r.simpleCommand fun r => .ok (0, r.windup K)) s

end Sys2Proof.Machine
end

