-- ==== Sys2Proof/Machine/System.lean ====
section
/-! DEFINITION. The system commands of spec/47_system_commands.md: reset, register access, raw memory access. -/

namespace Sys2Proof.Machine

/-- `TX.RESET` (R300): legal in every condition of the engine. -/
def execTxReset (s : State) : Host.Outcome State Fault Refusal := onTx (fun K t => (t.afterReset K).respond 0) s

/-- `TX.CSRR addr` (R302). -/
def execTxCsrr (addr : U32) (s : State) : Host.Outcome State Fault Refusal :=
  onTx (fun K t => t.csrRead K addr.toNat) s

/-- `TX.CSRW addr, value` (R303). -/
def execTxCsrw (addr : U32) (value : Word) (s : State) : Host.Outcome State Fault Refusal :=
  onTx (fun K t => t.command (Tx.csrWrite K (cwZ 0x02) addr.toNat value.toNat)) s

/-- `TX.RAWLD addr, size` (R306). -/
def execTxRawld (addr : U32) (size : Byte) (s : State) : Host.Outcome State Fault Refusal :=
  onTx (fun K t => t.command fun t =>
    afterCheck (sizeCheck size <|> rangeCheck K addr.toNat size.toNat) (t.raw.read addr.toNat size.toNat, t)) s

/-- `TX.RAWST addr, value, size` (R307). -/
def execTxRawst (addr : U32) (value : Word) (size : Byte) (s : State) : Host.Outcome State Fault Refusal :=
  onTx (fun K t => t.command fun t =>
    afterCheck (sizeCheck size <|> rangeCheck K addr.toNat size.toNat)
      (0, { t with raw := t.raw.write addr.toNat size.toNat value.toNat })) s

/-- `RX.RESET` (R301): legal in every condition of the engine. -/
def execRxReset (s : State) : Host.Outcome State Fault Refusal := onRx (fun K r => (r.afterReset K).respond 0) s

/-- `RX.CSRR addr` (R304). -/
def execRxCsrr (addr : U32) (s : State) : Host.Outcome State Fault Refusal :=
  onRx (fun K r => r.csrRead K addr.toNat) s

/-- `RX.CSRW addr, value` (R305). -/
def execRxCsrw (addr : U32) (value : Word) (s : State) : Host.Outcome State Fault Refusal :=
  onRx (fun K r => r.simpleCommand (Rx.csrWrite K addr.toNat value.toNat)) s

/-- `RX.RAWLD addr, size` (R308). -/
def execRxRawld (addr : U32) (size : Byte) (s : State) : Host.Outcome State Fault Refusal :=
  onRx (fun K r => r.simpleCommand fun r =>
    afterCheck (sizeCheck size <|> rangeCheck K addr.toNat size.toNat) (r.raw.read addr.toNat size.toNat, r)) s

/-- `RX.RAWST addr, value, size` (R309). -/
def execRxRawst (addr : U32) (value : Word) (size : Byte) (s : State) : Host.Outcome State Fault Refusal :=
  onRx (fun K r => r.simpleCommand fun r =>
    afterCheck (sizeCheck size <|> rangeCheck K addr.toNat size.toNat)
      (0, { r with raw := r.raw.write addr.toNat size.toNat value.toNat })) s

end Sys2Proof.Machine
end

