-- ==== Sys2Proof/Machine/Writer.lean ====
section
/-! DEFINITION. The bit-stream commands of the TX engine, spec/40_bitstream_writer.md. -/

namespace Sys2Proof.Machine

/-- `W.BITS value, n` (R145). -/
def execWBits (value : Word) (n : Byte) (s : State) : Host.Outcome State Fault Refusal :=
  onTx (fun K t => t.streamCommand (cwN 0x10 n) fun t =>
    afterCheck (refuseIf (K.wordBits < n.toNat) ⟨.badOperand, n.toNat, K.wordBits⟩)
      (0, t.putBits K value.toNat n.toNat)) s

/-- `W.UNARY v` (R146). -/
def execWUnary (v : Word) (s : State) : Host.Outcome State Fault Refusal :=
  onTx (fun K t => t.streamCommand (cwZ 0x11) fun t =>
    afterCheck (unaryCheck K v.toNat) (0, t.putUnary K v.toNat)) s

/-- `W.STR addr, cap` (R147). -/
def execWStr (addr : U32) (cap : Word) (s : State) : Host.Outcome State Fault Refusal :=
  onTx (fun K t => t.streamCommand (cwZ 0x12) fun t =>
    match Tx.strCount K t.raw addr.toNat cap.toNat 0 with
    | none => .error ⟨.badOperand, addr.toNat, cap.toNat % 2 ^ 32⟩
    | some c => .ok (c, t.putBytes K (t.raw.bytes addr.toNat c))) s

/-- `W.WINDUP` (R148). -/
def execWWindup (s : State) : Host.Outcome State Fault Refusal :=
  onTx (fun K t => t.streamCommand (cwZ 0x13) fun t => .ok (0, t.putWindup K)) s

/-- `W.FLUSH discard` (R149). -/
def execWFlush (discard : Byte) (s : State) : Host.Outcome State Fault Refusal :=
  onTx (fun K t => t.streamCommand (cwN 0x14 discard) fun t =>
    afterCheck (refuseIf (1 < discard.toNat) ⟨.badOperand, discard.toNat, 1⟩) (0, t.flush K (discard == 1))) s

/-- `W.CLOSE` (R150). -/
def execWClose (s : State) : Host.Outcome State Fault Refusal :=
  onTx (fun K t => t.streamCommand (cwZ 0x15) fun t => .ok (0, t.close K)) s

end Sys2Proof.Machine
end

