-- ==== Sys2Proof/Machine/Dispatch.lean ====
section
/-! DEFINITION. One arm for each command, in the opcode table's order. -/

namespace Sys2Proof.Machine

def exec (i : Instr) (s : State) : Host.Outcome State Fault Refusal :=
  match i with
  | .txReset => Sys2Proof.Machine.execTxReset s
  | .txCsrr addr => Sys2Proof.Machine.execTxCsrr addr s
  | .txCsrw addr value => Sys2Proof.Machine.execTxCsrw addr value s
  | .txRawld addr size => Sys2Proof.Machine.execTxRawld addr size s
  | .txRawst addr value size => Sys2Proof.Machine.execTxRawst addr value size s
  | .wBits value n => Sys2Proof.Machine.execWBits value n s
  | .wUnary v => Sys2Proof.Machine.execWUnary v s
  | .wStr addr cap => Sys2Proof.Machine.execWStr addr cap s
  | .wWindup => Sys2Proof.Machine.execWWindup s
  | .wFlush discard => Sys2Proof.Machine.execWFlush discard s
  | .wClose => Sys2Proof.Machine.execWClose s
  | .eMexpg u k => Sys2Proof.Machine.execEMexpg u k s
  | .eWord ch value => Sys2Proof.Machine.execEWord ch value s
  | .eVec ch addr nbytes => Sys2Proof.Machine.execEVec ch addr nbytes s
  | .eHreset ch => Sys2Proof.Machine.execEHreset ch s
  | .gAddch reps desc => Sys2Proof.Machine.execGAddch reps desc s
  | .gResetch => Sys2Proof.Machine.execGResetch s
  | .gRestore ch => Sys2Proof.Machine.execGRestore ch s
  | .gSection len => Sys2Proof.Machine.execGSection len s
  | .gFinal => Sys2Proof.Machine.execGFinal s
  | .rxReset => Sys2Proof.Machine.execRxReset s
  | .rxCsrr addr => Sys2Proof.Machine.execRxCsrr addr s
  | .rxCsrw addr value => Sys2Proof.Machine.execRxCsrw addr value s
  | .rxRawld addr size => Sys2Proof.Machine.execRxRawld addr size s
  | .rxRawst addr value size => Sys2Proof.Machine.execRxRawst addr value size s
  | .rBits n => Sys2Proof.Machine.execRBits n s
  | .rUnary => Sys2Proof.Machine.execRUnary s
  | .rStr addr cap => Sys2Proof.Machine.execRStr addr cap s
  | .rWindup => Sys2Proof.Machine.execRWindup s
  | .dMexpg k => Sys2Proof.Machine.execDMexpg k s
  | .dWord ch => Sys2Proof.Machine.execDWord ch s
  | .dVec ch addr nbytes => Sys2Proof.Machine.execDVec ch addr nbytes s
  | .dHreset ch => Sys2Proof.Machine.execDHreset ch s
  | .pHeader => Sys2Proof.Machine.execPHeader s
  | .pSection => Sys2Proof.Machine.execPSection s
  | .pAddch reps desc => Sys2Proof.Machine.execPAddch reps desc s
  | .pResetch => Sys2Proof.Machine.execPResetch s

end Sys2Proof.Machine
end

