-- ==== Sys2Proof/Machine/Fetch.lean ====
section
/-! DEFINITION. How a command reaches its engine: the host's queue (70_reset_and_hazards.md R390; log 2), the command
interface (10_state.md R21) and the command words that match no row (60_exceptions.md R343, R348). -/

namespace Sys2Proof.Machine

/-- The block with `CW`, `A`, `B` of a command latched by the engine `CW[7]` selects; the other engine sees nothing of
it (R21, 30_encoding.md R101). -/
def State.latch (s : State) (c : Command) : State :=
  if c.selectsRx then { s with rx := { s.rx with port := s.rx.port.latched s.cfg c } }
  else { s with tx := { s.tx with port := s.tx.port.latched s.cfg c } }

/-- The command as the engine holds it: `B` has `W` bits (R21; log 18). -/
def narrowed (K : Config) (c : Command) : Command :=
  { c with b := BitVec.ofNat 64 (c.b.toNat % 2 ^ K.wordBits) }

/-- A command whose word matches no row, on the engine it selects: `Faulted` first, else `IllegalCommand(CW, 0)`
(R343, R348). -/
def State.illegal (cw : U32) (onRxEngine : Bool) (s : State) : State :=
  if onRxEngine then { s with rx := if s.rx.faulted then s.rx.answerFaulted else s.rx.raise (illegalCommand cw) }
  else { s with tx := if s.tx.faulted then s.tx.answerFaulted else s.tx.raise (illegalCommand cw) }

/-- The next command of the host, with the queue after it, where there is one. -/
def State.nextCommand (s : State) : Option (Command × State) :=
  match s.pending with
  | [] => none
  | c :: rest => some (c, { s with pending := rest })

/-- The block with a command put at the head of the host's queue. -/
def State.issue (s : State) (c : Command) : State := { s with pending := c :: s.pending }

end Sys2Proof.Machine
end

