-- ==== Sys2Proof/Machine/Step.lean ====
section
/-! DEFINITION. One step of the block: one command, whole (00_scope.md R14; 20_memory.md R89). -/

namespace Sys2Proof.Machine

/-- The next command of the host is latched and executed; with none the block is idle and holds its state
(60_exceptions.md R358; 70_reset_and_hazards.md R383; log 2). -/
def step (s : State) : Host.Outcome State Fault Refusal :=
  match s.nextCommand with
  | none => .next s
  | some (c, s') =>
    match decode (narrowed s.cfg c) with
    | .ok i => exec i (s'.latch c)
    | .error _ => .next ((s'.latch c).illegal c.cw c.selectsRx)

/-- `s` with the instruction whose bits are `w`, numbered as spec/opcode_table.json numbers them, as the host's next
command (log 2). -/
def State.withFetchWord (s : State) (nbits w : Nat) : State := s.issue (commandOfTableWord nbits w)

end Sys2Proof.Machine
end

