-- ==== Sys2Proof/Machine/Format.lean ====
section
/-! DEFINITION. The stream formats of 30_encoding.md R110 to R122 as plain lists of bits, first transferred bit first.

Nothing here is run by the machine: the formats are written down a second time, without buffer or cursor, so that a
statement can say which bits a command appends (`…Bits`) and which a command takes back (`…Coded`: the generator's codes and
the others that R125 lets the decode side accept). -/

namespace Sys2Proof.Machine

/-- A field of width `n` with value `v`: bit `i` of `v` at position `i` (00_scope.md R11; R110). -/
def fieldBits (n v : Nat) : List Bool := (List.range n).map v.testBit

/-- The number a field's bits stand for (R11). -/
def bitsValue : List Bool → Nat
  | [] => 0
  | b :: bs => bit b + 2 * bitsValue bs

/-- The bits of a byte string, bit 0 of byte 0 first (20_memory.md R76). -/
def byteBits (bytes : List Byte) : List Bool := bytes.flatMap fun b => fieldBits 8 b.toNat

/-- Zero-bits up to the next byte boundary from position `pos` (40_bitstream_writer.md R143). -/
def padBits (pos : Nat) : List Bool := List.replicate ((8 - pos % 8) % 8) false

/-- The unary code (R111). -/
def unaryBits (v : Nat) : List Bool := List.replicate v true ++ [false]

/-- The modified exponential-Golomb code of order `k` (R113). -/
def mexpgBits (k u : Nat) : List Bool :=
  if k < bitSize u then unaryBits (bitSize u - k) ++ fieldBits (bitSize u - 1) (u % 2 ^ (bitSize u - 1))
  else unaryBits 0 ++ fieldBits k u

/-- The Reduced-Binary code of one word (R114). -/
def rbBits (ch : Channel) (y : Nat) : List Bool :=
  let d := subMod ch.width y (ch.offset.toNat % 2 ^ ch.width)
  if d < rbSentinel ch then fieldBits ch.nbits.toNat d
  else fieldBits ch.nbits.toNat (rbSentinel ch) ++ fieldBits ch.width y

/-- (value, run-length) pairs, each number by its code of order 1 (R115). -/
def pairsBits (ps : List (Nat × Nat)) : List Bool := ps.flatMap fun p => mexpgBits 1 p.1 ++ mexpgBits 1 p.2

/-- The Run-Length code of a vector (R115). -/
def rlBits (ys : List Nat) : List Bool := pairsBits (runs ys)

/-- The code of a vector of codec stage inputs, by the algorithm in force (R121; 42_codec_primitives.md R198). -/
def codecBits (ch : Channel) (ys : List Nat) : List Bool :=
  match ch.alg with
  | .default => ys.flatMap (fieldBits ch.width)
  | .reducedBinary => ys.flatMap (rbBits ch)
  | .runLength => rlBits ys
  | .constant => []

/-- The channel after a vector of raw words has been coded: Constant leaves the history alone (R193). -/
def chanAfter (ch : Channel) (rs : List Nat) : Channel := if ch.alg = .constant then ch else (stageOut ch rs).2

/-- The code of a vector of raw words (R198). -/
def vectorBits (ch : Channel) (rs : List Nat) : List Bool := codecBits ch (stageOut ch rs).1

/-- What a channel decodes a coded vector of raw words to: the words, but for Constant its own word throughout
(42_codec_primitives.md R193, R199; 44_codec_decode.md R229). -/
def decoded (ch : Channel) (rs : List Nat) : List Nat :=
  if ch.alg = .constant then List.replicate rs.length (constantWord ch) else rs

/-- A list of words coded one after the other, each by one of the codes `code` gives it. -/
def WordsCoded (code : Nat → List Bool → Prop) : List Nat → List Bool → Prop
  | [], bits => bits = []
  | y :: ys, bits => ∃ a b, code y a ∧ WordsCoded code ys b ∧ bits = a ++ b

/-- The codes of `y` that `RbGet` accepts: the generator's, and the escaped one whatever `d` is (R125; 42_codec_primitives.md
R187). -/
def RbCoded (ch : Channel) (y : Nat) (bits : List Bool) : Prop :=
  bits = rbBits ch y ∨ bits = fieldBits ch.nbits.toNat (rbSentinel ch) ++ fieldBits ch.width y

/-- The codes of a vector that `RlGet` accepts: pairs of any positive run-lengths that spell it out, runs of one value next
to each other among them (R125; 42_codec_primitives.md R190). -/
def RlCoded (ys : List Nat) (bits : List Bool) : Prop :=
  ∃ ps : List (Nat × Nat), (∀ p ∈ ps, 0 < p.2) ∧ (ps.flatMap fun p => List.replicate p.2 p.1) = ys ∧ bits = pairsBits ps

/-- `bits` are a code of the codec stage inputs `ys` that the decode side accepts, the generator's or another (R125;
42_codec_primitives.md R199). -/
def CodecCoded (ch : Channel) (ys : List Nat) (bits : List Bool) : Prop :=
  match ch.alg with
  | .default => bits = ys.flatMap (fieldBits ch.width)
  | .reducedBinary => WordsCoded (RbCoded ch) ys bits
  | .runLength => RlCoded ys bits
  | .constant => bits = []

/-- `bits` are a code of the raw words `rs` that the decode side accepts (R199). -/
def VectorCoded (ch : Channel) (rs : List Nat) (bits : List Bool) : Prop := CodecCoded ch (stageOut ch rs).1 bits

/-- The file header (R116). -/
def headerBits (K : Config) (flags : BitVec 8) (mtime rawSize : U32) (name : List Byte) : List Bool :=
  fieldBits 8 K.magic0.toNat ++ fieldBits 8 K.magic1.toNat ++ fieldBits 32 mtime.toNat ++ fieldBits 8 flags.toNat ++
  (if flagSize flags then fieldBits 32 rawSize.toNat else []) ++
  (if flagName flags then byteBits (nameField name) else []) ++
  (if flagXtra flags then fieldBits 16 0 else [])

/-- The parameters an algorithm puts into the section header (R120). -/
def paramBits (K : Config) (ch : Channel) : List Bool :=
  match ch.alg with
  | .reducedBinary =>
    fieldBits ch.width (ch.offset.toNat % 2 ^ ch.width) ++ fieldBits K.nbitsBits (ch.nbits.toNat - 1)
  | .constant => fieldBits ch.width (ch.const.toNat % 2 ^ ch.width)
  | .default | .runLength => []

/-- One channel of a section header (R119). -/
def chanHeaderBits (K : Config) (withReps : Bool) (ch : Channel) : List Bool :=
  (if withReps then fieldBits K.repsBits ch.reps.toNat else []) ++ fieldBits 1 (bit ch.delta) ++
  fieldBits K.nbitsBits ch.rot.toNat ++ fieldBits K.algBits ch.alg.code ++ fieldBits K.typeBits ch.dtype.code ++
  paramBits K ch

/-- The section header, without the padding around it (R119). -/
def sectionHeaderBits (K : Config) (flags : BitVec 8) (chans : List Channel) (len : Nat) : List Bool :=
  fieldBits K.sectSizeBits len ++
  (if flagOneChan flags then [] else fieldBits K.numChanBits chans.length) ++
  chans.flatMap (chanHeaderBits K (repsPresent flags chans.length))

/-- The channel a parser registers from a section header that a generator wrote for `ch`: only what the header carries
is known of it (46_container_parser.md R276). -/
def Channel.parsed (ch : Channel) : Channel :=
  { ch with
    calg := ch.alg, cdelta := ch.delta, permrot := true
    offset := if ch.alg = .reducedBinary then BitVec.ofNat 32 (ch.offset.toNat % 2 ^ ch.width) else 0
    nbits := if ch.alg = .reducedBinary then ch.nbits else BitVec.ofNat 6 ch.width
    const := if ch.alg = .constant then BitVec.ofNat 32 (ch.const.toNat % 2 ^ ch.width) else 0
    prev := 0 }

/-- The vectors of a partial frame at `base`, as `(channel, address, bytes)`: the channels `c, c+1, ...` in order, each
as many of the `rem` bytes as its share (45_container_generator.md R251). -/
def partialVectors (base : Nat) : Nat → List Channel → Nat → List (Nat × Nat × Nat)
  | _, [], _ => []
  | c, ch :: chs, rem =>
    if rem = 0 then []
    else (c, base, min rem ch.share) :: partialVectors (base + ch.share) (c + 1) chs (rem - min rem ch.share)

/-- The vectors of a whole frame at `base`: every channel its whole share (R250). -/
def frameVectors (base : Nat) (chans : List Channel) : List (Nat × Nat × Nat) :=
  partialVectors base 0 chans (frameSize chans)

/-- The vectors of a section of `len` bytes in the order they are coded: whole frames, then the partial frame (R121,
R250, R251). -/
def sectionVectors (chans : List Channel) (len : Nat) : List (Nat × Nat × Nat) :=
  ((List.range (len / frameSize chans)).flatMap fun f => frameVectors (f * frameSize chans) chans) ++
  partialVectors (len / frameSize chans * frameSize chans) 0 chans (len % frameSize chans)

/-- The raw words of every vector there may be: `words addr ws nbytes` are those of the `nbytes` bytes at `addr`, `ws` bytes
a word. The generator's are `readWords raw`. -/
abbrev WordsAt := Nat → Nat → Nat → List Nat

/-- `words` are words of the bytes of `src`: as many as the vector has, each as wide as it may be, its real bytes those of
`src`. The ghost bytes of a last partial word are any bytes (20_memory.md R84; 44_codec_decode.md R225). -/
structure WordsOf (src : RawMem) (words : WordsAt) : Prop where
  length : ∀ addr ws nbytes, 0 < ws → (words addr ws nbytes).length = ceilDiv nbytes ws
  lt : ∀ addr ws nbytes, 0 < ws → ∀ r ∈ words addr ws nbytes, r < 2 ^ (8 * ws)
  byte : ∀ addr ws nbytes i j, j < ws → i * ws + j < nbytes →
    BitVec.ofNat 8 ((words addr ws nbytes).getD i 0 >>> (8 * j)) = src.readByte (addr + i * ws + j)

/-- The code of a list of vectors of the given words, the histories brought forward from one to the next. -/
def vectorsBits (words : WordsAt) : List Channel → List (Nat × Nat × Nat) → List Bool
  | _, [] => []
  | chans, (c, addr, nbytes) :: vs =>
    let ch := channelAt chans c
    let rs := words addr ch.size nbytes
    vectorBits ch rs ++ vectorsBits words (chans.set c (chanAfter ch rs)) vs

/-- The channels after a list of vectors of the given words has been coded. -/
def vectorsAfter (words : WordsAt) : List Channel → List (Nat × Nat × Nat) → List Channel
  | chans, [] => chans
  | chans, (c, addr, nbytes) :: vs =>
    let ch := channelAt chans c
    vectorsAfter words (chans.set c (chanAfter ch (words addr ch.size nbytes))) vs

/-- A section from its first padding bit, at position `pos`, to its CRC (R118): padding, header, padding, frame data,
CRC; the foot tag is one section behind (45_container_generator.md R255). -/
def sectionBits (K : Config) (flags : BitVec 8) (chans : List Channel) (raw : RawMem) (len pos : Nat) : List Bool :=
  let head := padBits pos ++ sectionHeaderBits K flags chans len
  head ++ padBits (pos + head.length) ++ vectorsBits (readWords raw) (resetHistories chans) (sectionVectors chans len) ++
  (if flagCrc flags then fieldBits 32 (crc32 K (raw.bytes 0 len)).toNat else [])

/-- As `vectorsBits`, by any codes the decode side accepts. -/
def VectorsCoded (words : WordsAt) : List Channel → List (Nat × Nat × Nat) → List Bool → Prop
  | _, [], bits => bits = []
  | chans, (c, addr, nbytes) :: vs, bits =>
    let ch := channelAt chans c
    let rs := words addr ch.size nbytes
    ∃ a b, VectorCoded ch rs a ∧ VectorsCoded words (chans.set c (chanAfter ch rs)) vs b ∧ bits = a ++ b

/-- As many bits as reach from position `pos` to the next byte boundary, whatever they are (41_bitstream_reader.md R165). -/
def PadsTo (pos : Nat) (pad : List Bool) : Prop := pad.length = (8 - pos % 8) % 8

/-- A section header at position `pos` with the padding around it; the padding may be any bits (R119, R125). -/
def HeadCoded (K : Config) (flags : BitVec 8) (chans : List Channel) (len pos : Nat) (bits : List Bool) : Prop :=
  ∃ before behind, PadsTo pos before ∧
    PadsTo (pos + (before ++ sectionHeaderBits K flags chans len).length) behind ∧
    bits = before ++ sectionHeaderBits K flags chans len ++ behind

/-- A section of the given words up to its CRC, of any bits the parser accepts for it (R118, R125). -/
def SectionCoded (K : Config) (flags : BitVec 8) (chans : List Channel) (words : WordsAt) (len pos : Nat)
    (bits : List Bool) : Prop :=
  ∃ head data, HeadCoded K flags chans len pos head ∧
    VectorsCoded words (resetHistories chans) (sectionVectors chans len) data ∧ bits = head ++ data

/-- The CRC of a section, where the flags announce one (R118). -/
def crcBits (K : Config) (flags : BitVec 8) (raw : RawMem) (len : Nat) : List Bool :=
  if flagCrc flags then fieldBits 32 (crc32 K (raw.bytes 0 len)).toNat else []

/-- The bits in front of a section: the file header of the first, the tag that ends the one before
(45_container_generator.md R245). -/
def Tx.leadBits (K : Config) (t : Tx) : List Bool :=
  if t.gstate = .notStarted then headerBits K t.flags t.mtime t.rawSize t.name else fieldBits 4 0x8

/-- A raw memory after the vectors of a list, coded from the given words under the given channels, have been decoded into it
(46_container_parser.md R278, R279; 44_codec_decode.md R225). -/
def vectorsStored (words : WordsAt) : List Channel → List (Nat × Nat × Nat) → RawMem → RawMem
  | _, [], m => m
  | chans, (c, addr, nbytes) :: vs, m =>
    let ch := channelAt chans c
    let rs := words addr ch.size nbytes
    vectorsStored words (chans.set c (chanAfter ch rs)) vs (writeWords m addr ch.size nbytes (decoded ch rs))

end Sys2Proof.Machine
end

