-- ==== Sys2Proof/Safety.lean ====
section
/-! DEFINITION. What statements about the block speak of: the abstract bit streams (40_bitstream_writer.md R151,
41_bitstream_reader.md R170), the invariants of 10_state.md R23 to R46, the two relations "appended these bits" and
"consumed these bits", and the refused codes of 42_codec_primitives.md R184 and R190. -/

namespace Sys2Proof.Machine

/-! ## The abstract view of the writer (R151) -/

/-- The bits of whole buffer words, bit 0 of the first word first (20_memory.md R77). -/
def wordsBits (K : Config) (ws : List Word) : List Bool := ws.flatMap fun x => fieldBits K.wordBits x.toNat

/-- The appended bits that have not reached the sink: `W*wptr + woff` of them (20_memory.md R91). -/
def Tx.buffered (K : Config) (t : Tx) : List Bool :=
  wordsBits K (t.wbuf.take t.wptr) ++ fieldBits t.woff (wordAt t.wbuf t.wptr).toNat

/-- The stream as the environment will get it: what the sink holds, then what is still buffered (R151, R91). -/
def Tx.stream (K : Config) (t : Tx) : List Bool := byteBits t.sink ++ t.buffered K

/-- The writer's invariants: the cursor is inside the buffer and every buffer bit at or beyond it is 0 (R23);
`BITPOS = 8*SUNK + W*wptr + woff` (R25). -/
structure Tx.WriterInv (K : Config) (t : Tx) : Prop where
  length : t.wbuf.length = K.bufWords
  ptr : t.wptr < K.bufWords
  off : t.woff < K.wordBits
  fits : ∀ x ∈ t.wbuf, x.toNat < 2 ^ K.wordBits
  here : (wordAt t.wbuf t.wptr).toNat < 2 ^ t.woff
  beyond : ∀ i, t.wptr < i → wordAt t.wbuf i = 0
  bitpos : t.bitpos = 8 * t.sunk + K.wordBits * t.wptr + t.woff

/-- `t'` is `t` with `bits` appended to the stream: nothing but the writer's registers and the sink differs, the sink
has only grown, the invariants hold; how much of the stream is in the sink is not said. -/
structure Tx.Extended (K : Config) (t t' : Tx) (bits : List Bool) : Prop where
  frame : t' = { t with
    wbuf := t'.wbuf, wptr := t'.wptr, woff := t'.woff, bitpos := t.bitpos + bits.length, sunk := t'.sunk,
    sink := t'.sink }
  stream : t'.stream K = t.stream K ++ bits
  sink : t.sink <+: t'.sink
  sunk : t'.sink.length + t.sunk = t.sink.length + t'.sunk
  inv : t'.WriterInv K

/-- `t'` is `t` with `bits` appended by bit transfers: of the `BITPOS - 8*SUNK` buffered bits (R25) and the new ones, every
whole buffer has gone to the sink, and nothing else (40_bitstream_writer.md R140, R141). -/
structure Tx.Appended (K : Config) (t t' : Tx) (bits : List Bool) : Prop extends Tx.Extended K t t' bits where
  sent : t'.sunk = t.sunk +
    K.bufWords * K.wordBytes * ((t.bitpos + bits.length - 8 * t.sunk) / (K.wordBits * K.bufWords))

/-! ## The abstract view of the reader (R170) -/

/-- The source bytes that have not been pulled, completed to whole words with the ghost zeros (R162, R170). -/
def Rx.unpulled (K : Config) (r : Rx) : List Bool :=
  let rest := r.src.drop r.srcpos
  byteBits rest ++ List.replicate (8 * ((K.wordBytes - rest.length % K.wordBytes) % K.wordBytes)) false

/-- The unread bits of the buffer: bits `roff .. W-1` of `rbuf[rptr]`, then the words behind it (10_state.md R26). -/
def Rx.unread (K : Config) (r : Rx) : List Bool :=
  (wordsBits K ((r.rbuf.take r.rcount).drop r.rptr)).drop r.roff

/-- All that the reader can still deliver: the unread bits, then what it can still pull (R170). -/
def Rx.ahead (K : Config) (r : Rx) : List Bool := r.unread K ++ if r.srcEof then [] else r.unpulled K

/-- The reader's invariants (R26, R27; 20_memory.md R74). -/
structure Rx.ReaderInv (K : Config) (r : Rx) : Prop where
  length : r.rbuf.length = K.bufWords
  count : r.rcount ≤ K.bufWords
  empty : r.rcount = 0 → r.rptr = 0
  ptr : 0 < r.rcount → r.rptr < r.rcount
  off : r.roff < K.wordBits
  emptyOff : r.rcount = 0 → r.roff = 0
  fits : ∀ x ∈ r.rbuf.take r.rcount, x.toNat < 2 ^ K.wordBits
  whole : r.srcEof = false → r.pulled % K.wordBytes = 0
  bitpos : r.bitpos + (r.unread K).length = 8 * (K.wordBytes * ceilDiv r.pulled K.wordBytes)
  srcpos : r.srcpos ≤ r.src.length

/-- `r'` is `r` with `bits` consumed: nothing but the reader's registers and the source's position differs; when the buffer
was filled is not said. -/
structure Rx.Advanced (K : Config) (r r' : Rx) (bits : List Bool) : Prop where
  frame : r' = { r with
    rbuf := r'.rbuf, rcount := r'.rcount, rptr := r'.rptr, roff := r'.roff, srcEof := r'.srcEof, pulled := r'.pulled,
    bitpos := r.bitpos + bits.length, srcpos := r'.srcpos }
  ahead : r.ahead K = bits ++ r'.ahead K
  pulled : r'.srcpos + r.pulled = r.srcpos + r'.pulled
  inv : r'.ReaderInv K

/-- How many bytes the source is asked for while `n` bits are consumed: nothing as long as the buffer holds unread bits, a
whole buffer for every time it runs empty and a bit is still wanted (41_bitstream_reader.md R160, R161). -/
def Rx.asked (K : Config) (r : Rx) (n : Nat) : Nat :=
  K.bufWords * K.wordBytes * ceilDiv (n - (r.unread K).length) (8 * (K.bufWords * K.wordBytes))

/-- `r'` is `r` with `bits` consumed by bit transfers: the source has given what it was asked for, or all it had left, and
`SRC_EOF` is set where that was less (41_bitstream_reader.md R160, R161). -/
structure Rx.Consumed (K : Config) (r r' : Rx) (bits : List Bool) : Prop extends Rx.Advanced K r r' bits where
  filled : r'.pulled = r.pulled + min (r.src.length - r.srcpos) (r.asked K bits.length)
  eof : r'.srcEof = (r.srcEof || decide (r.src.length - r.srcpos < r.asked K bits.length))

/-! ## The invariants of the engines -/

/-- A registered channel: `REPS ≥ 1` (R41), `NBITS` in 1..32 (R44), `PREV` below `2^w` (R46). -/
structure Channel.Ok (ch : Channel) : Prop where
  reps : ch.reps ≠ 0
  nbits : 1 ≤ ch.nbits.toNat ∧ ch.nbits.toNat ≤ 32
  prev : ch.prev.toNat < 2 ^ ch.width

/-- A channel context file: at most `MAX_CHANNELS` registered entries (R37, R40), each in order. -/
def ChansOk (K : Config) (chans : List Channel) : Prop := chans.length ≤ K.maxChannels ∧ ∀ ch ∈ chans, ch.Ok

/-- A registered channel a codec command accepts (42_codec_primitives.md R201). -/
structure Channel.Codable (ch : Channel) : Prop where
  rot : ch.rot.toNat < ch.width
  nbits : ch.alg = .reducedBinary → ch.nbits.toNat ≤ ch.width

/-- The fault codes the block can record (60_exceptions.md R341): 6, 8 and 14 never stand in `FAULT`. -/
def FaultRecord.Ok (f : FaultRecord) : Prop :=
  f.fault ∈ [0, 1, 2, 3, 4, 5, 7, 9, 10, 11, 12, 13].map (BitVec.ofNat 8) ∧
  (f.fault = 0 → f.info0 = 0 ∧ f.info1 = 0)

/-- What holds of the TX engine between commands: the writer's invariants; `GSTATE` is `NotStarted`, `SectionClosed` or
`Finalized` (R31), a finalized engine is closed (45_container_generator.md R254), the layout is shut only after a
section (R253), nothing is counted before the first one (R38); the channel file, the fault record and the raw memory
are in order. -/
structure Tx.Inv (K : Config) (t : Tx) : Prop where
  writer : t.WriterInv K
  gstate : t.gstate = .notStarted ∨ t.gstate = .sectionClosed ∨ t.gstate = .finalized
  finalized : t.gstate = .finalized → t.closed = true
  closed : t.closed = true → t.wptr = 0 ∧ t.woff = 0
  layout : t.layoutOpen = false → t.gstate ≠ .notStarted
  counted : t.gstate = .notStarted → t.nsect = 0 ∧ t.total = 0 ∧ t.sectSize = 0 ∧ t.sectCrc = 0
  chans : ChansOk K t.chans
  flt : t.flt.Ok
  name : t.name.length = K.nameMax
  raw : t.raw.Wf

/-- What holds of the RX engine between commands; the cursor registers and the channel file only while no fault is
recorded (R27; 93_implementation_defined.md U5). -/
structure Rx.Inv (K : Config) (r : Rx) : Prop where
  reader : r.flt.fault = 0 → r.ReaderInv K
  chans : r.flt.fault = 0 → ChansOk K r.chans
  length : r.rbuf.length = K.bufWords
  srcpos : r.srcpos ≤ r.src.length
  counted : r.pstate = .noHeader → r.nsect = 0 ∧ r.total = 0 ∧ r.sectSize = 0
  flt : r.flt.Ok
  name : r.name.length = K.nameMax
  raw : r.raw.Wf

/-- What holds of the block between commands, for a legal parameter record. -/
structure State.Inv (s : State) : Prop where
  cfg : s.cfg.Legal
  tx : s.tx.Inv s.cfg
  rx : s.rx.Inv s.cfg

/-- A run is safe so far: neither engine has recorded a fault. -/
def State.faultFree (s : State) : Prop := s.tx.flt.fault = 0 ∧ s.rx.flt.fault = 0

/-- TX accepts a stream, codec or container command: it is neither Faulted nor closed (40_bitstream_writer.md R152). -/
def Tx.Ready (t : Tx) : Prop := t.flt.fault = 0 ∧ t.closed = false

/-- The TX engine after a section of `len` bytes, but for the writer's registers, the sink, and what R86 leaves open: raw
memory and the model's counter of draws (45_container_generator.md R248, R249, R253; log 11, log 13). -/
def Tx.sectionClosed (K : Config) (len : Nat) (t : Tx) : Tx :=
  { t with
    gstate := .sectionClosed, layoutOpen := false, nsect := t.nsect + 1, total := t.total + len
    sectSize := BitVec.ofNat 32 len
    sectCrc := if flagCrc t.flags then crc32 K (t.raw.bytes 0 len) else t.sectCrc
    chans := (vectorsAfter (readWords t.raw) (resetHistories t.chans) (sectionVectors t.chans len)).map Channel.restored }

/-- The RX engine after a file header, but for the reader's registers (46_container_parser.md R271). -/
def Rx.headerLoaded (flags : BitVec 8) (mtime rawSize : U32) (name : List Byte) (r : Rx) : Rx :=
  { r with
    mtime := mtime, flags := flags
    rawSize := if flagSize flags then rawSize else r.rawSize
    name := if flagName flags then nameField name ++ r.name.drop (nameField name).length else r.name
    xtraLen := if flagXtra flags then 0 else r.xtraLen
    pstate := .headerRead }

/-- The RX engine after a section of `len` bytes of `src`, coded from `words` under the channels `chans`, but for the
reader's registers, and for raw memory and the model's counter of draws (46_container_parser.md R276 to R284; log 12, log 13). -/
def Rx.sectionLoaded (K : Config) (src : RawMem) (words : WordsAt) (chans : List Channel) (len : Nat) (last : Bool)
    (r : Rx) : Rx :=
  let cs := chans.map Channel.parsed
  { r with
    chans := vectorsAfter words cs (sectionVectors cs len)
    sectCrc := if flagCrc r.flags then crc32 K (src.bytes 0 len) else r.sectCrc
    storedCrc := if flagCrc r.flags then crc32 K (src.bytes 0 len) else r.storedCrc
    pstate := if last then .exhausted else r.pstate
    nsect := r.nsect + 1, total := r.total + len, sectSize := BitVec.ofNat 32 len }

/-- A vector a channel decodes to what was coded: any, unless the channel is Constant; then the vector repeats the
channel's word, a last partial word its low bytes (42_codec_primitives.md R193; 20_memory.md R84). -/
def Channel.Carries (ch : Channel) (src : RawMem) (addr nbytes : Nat) : Prop :=
  ch.alg = .constant → ∀ j, j < nbytes →
    src.readByte (addr + j) = BitVec.ofNat 8 (constantWord ch >>> (8 * (j % ch.size)))

/-- A channel list a section header can carry under the given flags (45_container_generator.md R244, checks 3 to 6). -/
structure LayoutOk (K : Config) (flags : BitVec 8) (chans : List Channel) : Prop where
  some : chans ≠ []
  count : chans.length ≤ K.maxChannels
  one : flagOneChan flags = true → chans.length = 1
  reps : if repsPresent flags chans.length then ∀ ch ∈ chans, ch.reps.toNat < 2 ^ K.repsBits else ∀ ch ∈ chans, ch.reps = 1
  each : ∀ ch ∈ chans, ch.Ok ∧ ch.Codable

/-- A section of `len` bytes the generator accepts (45_container_generator.md R244). -/
structure SectionOk (K : Config) (len : Nat) (t : Tx) : Prop where
  some : 0 < len
  fits : len ≤ K.maxSectionLength
  layout : LayoutOk K t.flags t.chans
  permit : ∀ ch ∈ t.chans, ch.rot = 0 ∨ ch.permrot = true
  supported : t.gstate = .notStarted → flagsUnsupported t.flags = false
  named : t.gstate = .notStarted → flagName t.flags = true → (0 : Byte) ∈ t.name

/-- What the thirteen fields of a registered channel read as, by field number (10_state.md R41 to R47). -/
def channelRegisters (chans : List Channel) (c : Nat) : List (Nat × U32) :=
  let ch := channelAt chans c
  [(0, ch.reps), (1, BitVec.ofNat 32 ch.dtype.code), (2, BitVec.ofNat 32 ch.calg.code),
    (3, BitVec.ofNat 32 (bit ch.cdelta)), (4, BitVec.ofNat 32 (bit ch.permrot)), (5, BitVec.ofNat 32 ch.alg.code),
    (6, BitVec.ofNat 32 (bit ch.delta)), (7, BitVec.ofNat 32 ch.rot.toNat), (8, ch.offset),
    (9, BitVec.ofNat 32 ch.nbits.toNat), (10, ch.const), (11, ch.prev),
    (12, BitVec.ofNat 32 (min (frameOffset chans c) 0xFFFFFFFF))]

/-- `addr` is the address of some register of the CSR map (10_state.md R39, R48). -/
def MappedCsr (K : Config) (nchan addr : Nat) : Prop :=
  addr ≤ 0x00A ∨ (0x010 ≤ addr ∧ addr ≤ 0x01C) ∨ (0x100 ≤ addr ∧ addr < 0x100 + K.nameMax) ∨
    (0x1000 ≤ addr ∧ (addr - 0x1000) / 16 < nchan ∧ (addr - 0x1000) % 16 ≤ 12)

/-- `r'` is `r` after a command that ended in the fault `e` past its checks: the response and the first record are
`e`'s, nothing else differs but the reader's registers (41_bitstream_reader.md R171; 60_exceptions.md R345). -/
def Rx.FailedWith (e : Raise) (r r' : Rx) : Prop :=
  r' = { r.raise e with
    rbuf := r'.rbuf, rcount := r'.rcount, rptr := r'.rptr, roff := r'.roff, srcEof := r'.srcEof, pulled := r'.pulled,
    bitpos := r'.bitpos, srcpos := r'.srcpos, freeTick := r'.freeTick }

/-- `EndOfStream` at stream position `pos` (41_bitstream_reader.md R161). -/
def endOfStreamAt (pos : Nat) : Raise := ⟨.endOfStream, (counterLo pos).toNat, (counterHi pos).toNat⟩

/-- `TruncatedFile` at stream position `pos` (46_container_parser.md R283). -/
def truncatedAt (pos : Nat) : Raise := ⟨.truncatedFile, (counterLo pos).toNat, (counterHi pos).toNat⟩

/-- `bits` are refused as a code of order `k`, with the fault `e`: a prefix of more than `UNARY_MAX` ones
(41_bitstream_reader.md R164), or one that announces a number of more than `W` bits (42_codec_primitives.md R184). -/
inductive MexpgRefused (K : Config) (k : Nat) : List Bool → Raise → Prop
  | overrun : MexpgRefused K k (List.replicate (K.unaryMax + 1) true) ⟨.unaryOverrun, K.unaryMax + 1, K.unaryMax⟩
  | wide {q : Nat} : 0 < q → q ≤ K.unaryMax → K.wordBits < q + k → MexpgRefused K k (unaryBits q) ⟨.corruptStream, q, k⟩

/-- `bits` are refused as a Run-Length pair of a channel of width `w` while `left` words are wanted, with the fault `e`: the
code of the value or of the run-length is refused, the value has more than `w` bits, the run-length is 0 or above `left`
(42_codec_primitives.md R190). -/
inductive PairRefused (K : Config) (w left : Nat) : List Bool → Raise → Prop
  | value {bits : List Bool} {e : Raise} : MexpgRefused K 1 bits e → PairRefused K w left bits e
  | wide {v : Nat} : 2 ^ w ≤ v → v < 2 ^ K.wordBits → PairRefused K w left (mexpgBits 1 v) ⟨.corruptStream, v % 2 ^ 32, w⟩
  | count {v : Nat} {bits : List Bool} {e : Raise} : v < 2 ^ w → MexpgRefused K 1 bits e →
      PairRefused K w left (mexpgBits 1 v ++ bits) e
  | run {v n : Nat} : v < 2 ^ w → n = 0 ∨ left < n → n < 2 ^ K.wordBits →
      PairRefused K w left (mexpgBits 1 v ++ mexpgBits 1 n) ⟨.corruptStream, n % 2 ^ 32, left⟩

/-- The fault `e` is `r`'s answer and its record: `ST` the code, `V = 0`, the two information words (10_state.md R32;
60_exceptions.md R345). -/
structure Rx.Reported (e : Raise) (r : Rx) : Prop where
  st : r.port.st = e.code.code
  v : r.port.v = 0
  flt : r.flt = ⟨e.code.code, BitVec.ofNat 32 e.i0, BitVec.ofNat 32 e.i1⟩

/-- The conditions of `ChanCheck(c)` (42_codec_primitives.md R201). -/
structure ChanOk (chans : List Channel) (c : Nat) : Prop where
  registered : c < chans.length
  codable : (channelAt chans c).Codable
  permit : (channelAt chans c).rot = 0 ∨ (channelAt chans c).permrot = true

/-! ## Whole files (46_container_parser.md R287) -/

/-- The TX commands the host may issue between sections: none of them touches the stream. -/
def Instr.betweenSections : Instr → Bool
  | .txCsrr _ | .txCsrw _ _ | .txRawld _ _ | .txRawst _ _ _ | .eHreset _ | .gAddch _ _ | .gResetch | .gRestore _ => true
  | _ => false

/-- `s'` is reached from `s` by commands between sections and `G.SECTION`s, all answered with `ST = 0`; the list holds
length and raw contents of the sections, and no Constant channel's data differs from its constant. -/
inductive State.Writes (s : State) : List (Nat × RawMem) → State → Prop where
  | start : State.Writes s [] s
  | between {xs : List (Nat × RawMem)} {u u' : State} (i : Instr) : State.Writes s xs u → Instr.betweenSections i = true →
      exec i u = .next u' → u'.tx.port.st = 0 → State.Writes s xs u'
  | written {xs : List (Nat × RawMem)} {u u' : State} (len : Word) : State.Writes s xs u →
      (∀ v ∈ sectionVectors u.tx.chans len.toNat, (channelAt u.tx.chans v.1).Carries u.tx.raw v.2.1 v.2.2) →
      exec (.gSection len) u = .next u' → u'.tx.port.st = 0 → State.Writes s (xs ++ [(len.toNat, u.tx.raw)]) u'

/-- `P.SECTION` after `P.SECTION` returns the lengths and leaves the contents of a list of sections, `PSTATE` is
`Exhausted` after the last and not before; one more `P.SECTION` returns 0. -/
def State.Parses : List (Nat × RawMem) → State → Prop
  | [], s => ∃ s', exec .pSection s = .next s' ∧ s'.rx.port.st = 0 ∧ s'.rx.port.v = 0
  | (len, raw) :: xs, s => ∃ s', exec .pSection s = .next s' ∧ s'.rx.port.st = 0 ∧ s'.rx.port.v.toNat = len ∧
      (∀ a < len, s'.rx.raw.readByte a = raw.readByte a) ∧ (s'.rx.pstate = .exhausted ↔ xs = []) ∧ State.Parses xs s'

/-- A generator that has written nothing: the state a file begins in. -/
structure Tx.Fresh (t : Tx) : Prop where
  ready : t.Ready
  gstate : t.gstate = .notStarted
  bitpos : t.bitpos = 0
  sunk : t.sunk = 0
  sink : t.sink = []

/-- A parser that has read nothing of the file `bytes`. -/
structure Rx.Fresh (bytes : List Byte) (r : Rx) : Prop where
  fault : r.flt.fault = 0
  pstate : r.pstate = .noHeader
  src : r.src = bytes
  srcpos : r.srcpos = 0
  pulled : r.pulled = 0
  eof : r.srcEof = false
  rcount : r.rcount = 0
  bitpos : r.bitpos = 0

end Sys2Proof.Machine
end

