-- ==== Sys2Proof/Certificates/Slice0/Obligations.lean ====
section
/-! DEFINITION. The statements about the block, for the provers. Each docstring names the rules of spec/ it formalises.

Shared shapes. `exec i s = .next { s with tx := t'.respond v }` says that command `i` completes with `ST = 0` and `V = v`
and leaves the RX engine, the parameter record and the host's queue alone. `t.Appended K t' bits` says that `t'` is `t`
with `bits` appended to the stream, nothing but the writer's registers and the sink being different, and every full write
buffer sent, no other byte (R141); `r.Consumed K r' bits` says that `r'` is `r` with `bits` taken off the stream, nothing but
the reader's registers being different, and that whole read buffers were pulled when the words ran out, as far as the source
goes, none before (R161). `s.Inv` is the invariant of `StepKeepsInvariant`. -/

open Sys2Proof Sys2Proof.Machine

/-! ## Encoding -/

/-- Decoding the encoding of a command of the block gives the command back, every operand at every value it can have:
R100, R101, R102, R103, R106. -/
def Obligations.DecodeInvertsEncode : Prop :=
  ∀ (K : Config) (i : Instr), i.wellFormed K = true →
    decode (encode i) = .ok i ∧ decode (narrowed K (encode i)) = .ok i

/-- A command word is legal iff it matches a row of the opcode table, `CW and mask = match`, and the command read from it
is that row's, with the fields of `CW` as they stand: R102. -/
def Obligations.DecodeMatchesRow : Prop :=
  ∀ c : Command,
    (∀ i, decode c = .ok i → c.cw &&& i.tableRow.2 = i.tableRow.1 ∧ i.commandWord = c.cw) ∧
    (∀ i : Instr, c.cw &&& i.tableRow.2 = i.tableRow.1 → ∃ j, decode c = .ok j ∧ j.tableRow = i.tableRow)

/-- Command words written out from R101 to R106, one or more of every family on either engine, and three that match no
row. -/
def Obligations.SampleWordsDecode : Prop :=
  decode ⟨0x00000204, 0x40, 0x1234⟩ = .ok (.txRawst 0x40 0x1234 2) ∧
  decode ⟨0x00000C10, 0, 0xABC⟩ = .ok (.wBits 0xABC 12) ∧
  decode ⟨0x00000720, 0, 300⟩ = .ok (.eMexpg 300 7) ∧
  decode ⟨0x00030022, 0x100, 10⟩ = .ok (.eVec 3 0x100 10) ∧
  decode ⟨0x00000033, 0, 16⟩ = .ok (.gSection 16) ∧
  decode ⟨0x00000081, 0x1029, 0⟩ = .ok (.rxCsrr 0x1029) ∧
  decode ⟨0x00002090, 0, 0⟩ = .ok (.rBits 32) ∧
  decode ⟨0x000200A1, 0, 0⟩ = .ok (.dWord 2) ∧
  decode ⟨0x000000B2, 2, 0x10203⟩ = .ok (.pAddch 2 0x10203) ∧
  decode ⟨0x00000005, 0, 0⟩ = .error .unassignedOpcode ∧
  decode ⟨0x00000111, 0, 0⟩ = .error .reservedFieldNotZero ∧
  decode ⟨0x00010810, 0, 0⟩ = .error .reservedFieldNotZero

/-! ## The step -/

/-- A step latches the host's next command in `CW`, `A`, `B` of the engine `CW[7]` selects and executes the command it
decodes to; what is decoded is well-formed: R14, R21, R101. That the command comes off the queue `pending` is the model's
choice (log 2), that a `B` of more than `W` bits is taken modulo `2^W` is the model's reading (log 18). -/
def Obligations.StepRunsDecoded : Prop :=
  ∀ (s : State) (c : Command) (rest : List Command) (i : Instr), s.pending = c :: rest →
    decode (narrowed s.cfg c) = .ok i →
    i.wellFormed s.cfg = true ∧
    (c.cw.getLsbD 7 = false → step s = exec i { s with
      pending := rest
      tx := { s.tx with
        port := { s.tx.port with cw := c.cw, a := c.a, b := BitVec.ofNat 64 (c.b.toNat % 2 ^ s.cfg.wordBits) } } }) ∧
    (c.cw.getLsbD 7 = true → step s = exec i { s with
      pending := rest
      rx := { s.rx with
        port := { s.rx.port with cw := c.cw, a := c.a, b := BitVec.ofNat 64 (c.b.toNat % 2 ^ s.cfg.wordBits) } } })

/-- A command word that matches no row, to an engine that is not Faulted: the engine `CW[7]` selects raises
`IllegalCommand(CW, 0)`: R343, R348. That the command comes off the queue `pending` is the model's choice (log 2), that a
`B` of more than `W` bits is latched modulo `2^W` is the model's reading (log 18). -/
def Obligations.IllegalWordFaults : Prop :=
  ∀ (s : State) (c : Command) (rest : List Command), s.pending = c :: rest →
    (∀ i : Instr, c.cw &&& i.tableRow.2 ≠ i.tableRow.1) →
    (c.cw.getLsbD 7 = false → s.tx.flt.fault = 0 → step s = .next { s with
      pending := rest
      tx := { s.tx with port := s.tx.port.latched s.cfg c }.raise ⟨.illegalCommand, c.cw.toNat, 0⟩ }) ∧
    (c.cw.getLsbD 7 = true → s.rx.flt.fault = 0 → step s = .next { s with
      pending := rest
      rx := { s.rx with port := s.rx.port.latched s.cfg c }.raise ⟨.illegalCommand, c.cw.toNat, 0⟩ })

/-- No step stops: every step answers a next state, with the same parameter record and the queue one command shorter;
without a command the block holds its state: R340, R345, R358; the queue and the record in State are the model's (log 1,
log 2). -/
def Obligations.StepNeverStops : Prop :=
  ∀ s : State, (∃ s', step s = .next s' ∧ s'.cfg = s.cfg ∧ s'.pending = s.pending.tail) ∧
    (s.pending = [] → step s = .next s)

/-- Every step keeps the invariant `State.Inv`: the writer's and the reader's invariants of R23, R25, R26, R27, the legal
states of R31, the limits of R37, R41, R44, R46, the fault record of R341, the canonical memories. -/
def Obligations.StepKeepsInvariant : Prop :=
  ∀ s s' : State, s.Inv → step s = .next s' → s'.Inv

/-- The invariant holds after power-on, with any legal parameter record and any source. -/
def Obligations.PowerOnInvariant : Prop :=
  State.reset.Inv ∧
  ∀ (K : Config) (src : List Byte), K.Legal →
    State.Inv { State.powerOn K with rx := { (State.powerOn K).rx with src := src } }

/-- The engines share nothing: a command leaves the engine it does not select alone, and what it makes of the engine it
selects does not depend on the other: R20, R89, R101, R346. That each engine has `CW`, `A`, `B`, `ST` and `V` of its own, so
that these too stay as they are in the engine not selected, is the model's reading of R14 and R21 (log 21, DEDUCED); that the
command comes off the queue `pending` is the model's choice (log 2). -/
def Obligations.EnginesIndependent : Prop :=
  (∀ (s s' : State) (c : Command) (rest : List Command), s.pending = c :: rest → step s = .next s' →
    (c.cw.getLsbD 7 = false → s'.rx = s.rx) ∧ (c.cw.getLsbD 7 = true → s'.tx = s.tx)) ∧
  (∀ (s t s' t' : State) (c : Command) (rest rest' : List Command), s.pending = c :: rest → t.pending = c :: rest' →
    s.cfg = t.cfg → step s = .next s' → step t = .next t' →
    (c.cw.getLsbD 7 = false → s.tx = t.tx → s'.tx = t'.tx) ∧
    (c.cw.getLsbD 7 = true → s.rx = t.rx → s'.rx = t'.rx))

/-! ## Faults -/

/-- The Faulted condition: `STATUS.FAULTED` is 1; every command but `RESET` and `CSRR` answers `ST = 14`, `V = 0` with no
state change; no command but `RESET` changes the record, `RESET` clears it; a fault on one engine does not touch the
other: R346. That the command comes off the queue `pending` is the model's choice (log 2), that a `B` of more than `W` bits
is latched modulo `2^W` is the model's reading (log 18). -/
def Obligations.FaultedIsSticky : Prop :=
  (∀ (s : State) (c : Command) (rest : List Command), s.pending = c :: rest →
    (s.tx.flt.fault ≠ 0 → s.tx.status % 2 = 1) ∧ (s.rx.flt.fault ≠ 0 → s.rx.status % 2 = 1) ∧
    (s.tx.flt.fault ≠ 0 → c.cw.getLsbD 7 = false → c.cw ≠ 0x00 → c.cw ≠ 0x01 → step s = .next { s with
      pending := rest, tx := { s.tx with port := { s.tx.port.latched s.cfg c with st := 14, v := 0 } } }) ∧
    (s.rx.flt.fault ≠ 0 → c.cw.getLsbD 7 = true → c.cw ≠ 0x80 → c.cw ≠ 0x81 → step s = .next { s with
      pending := rest, rx := { s.rx with port := { s.rx.port.latched s.cfg c with st := 14, v := 0 } } })) ∧
  (∀ (s s' : State) (c : Command) (rest : List Command), s.pending = c :: rest → step s = .next s' →
    (s.tx.flt.fault ≠ 0 → c.cw ≠ 0x00 → s'.tx.flt = s.tx.flt) ∧
    (s.rx.flt.fault ≠ 0 → c.cw ≠ 0x80 → s'.rx.flt = s.rx.flt) ∧
    (c.cw = 0x00 → s'.tx.flt = ⟨0, 0, 0⟩) ∧ (c.cw = 0x80 → s'.rx.flt = ⟨0, 0, 0⟩) ∧
    (c.cw.getLsbD 7 = true → s'.tx = s.tx) ∧ (c.cw.getLsbD 7 = false → s'.rx = s.rx))

/-- `raise F(i0, i1)`: the first fault writes the record, a later one leaves it; either way `ST` is the code and `V` is 0,
and nothing else changes: R345. -/
def Obligations.RaiseRecordsFirstFault : Prop :=
  (∀ (t : Tx) (e : Raise),
    (t.raise e).port = { t.port with st := e.code.code, v := 0 } ∧
    (t.flt.fault = 0 → (t.raise e).flt = ⟨e.code.code, BitVec.ofNat 32 e.i0, BitVec.ofNat 32 e.i1⟩) ∧
    (t.flt.fault ≠ 0 → (t.raise e).flt = t.flt) ∧
    t.raise e = { t with port := (t.raise e).port, flt := (t.raise e).flt }) ∧
  (∀ (r : Rx) (e : Raise),
    (r.raise e).port = { r.port with st := e.code.code, v := 0 } ∧
    (r.flt.fault = 0 → (r.raise e).flt = ⟨e.code.code, BitVec.ofNat 32 e.i0, BitVec.ofNat 32 e.i1⟩) ∧
    (r.flt.fault ≠ 0 → (r.raise e).flt = r.flt) ∧
    r.raise e = { r with port := (r.raise e).port, flt := (r.raise e).flt })

/-- No TX command that answers `ST ≠ 0` has changed anything but the response and the fault record: R152, R345. -/
def Obligations.TxFaultsChangeNothing : Prop :=
  ∀ (i : Instr) (s s' : State), i.commandWord.getLsbD 7 = false → exec i s = .next s' → s'.tx.port.st ≠ 0 →
    s' = { s with tx := { s.tx with port := { s.tx.port with st := s'.tx.port.st, v := 0 }, flt := s'.tx.flt } }

/-- The preamble of the TX bit-stream, codec and container commands: Faulted answers 14; else `CLOSED = 1` raises
`IllegalState(CW, STATUS)`: R152. -/
def Obligations.ClosedRefuses : Prop :=
  ∀ (i : Instr) (s : State), i.commandWord.getLsbD 7 = false → i.commandWord.extractLsb' 4 3 ≠ 0 →
    (s.tx.flt.fault ≠ 0 → exec i s = .next { s with tx := { s.tx with port := { s.tx.port with st := 14, v := 0 } } }) ∧
    (s.tx.flt.fault = 0 → s.tx.closed = true →
      exec i s = .next { s with tx := s.tx.raise ⟨.illegalState, i.commandWord.toNat, s.tx.status⟩ })

/-! ## Reset -/

/-- The block after power-on: the values the table of R50 gives (where it says "unspecified", nothing is said). -/
def Obligations.PowerOnValues : Prop :=
  ∀ K : Config,
    let t := (State.powerOn K).tx
    let r := (State.powerOn K).rx
    ((∀ x ∈ t.wbuf, x = 0) ∧ t.wbuf.length = K.bufWords ∧ t.wptr = 0 ∧ t.woff = 0 ∧ t.closed = false ∧ t.sunk = 0 ∧
      t.bitpos = 0 ∧ t.gstate = .notStarted ∧ t.layoutOpen = true ∧ t.flt = ⟨0, 0, 0⟩ ∧ t.flags = 0 ∧ t.mtime = 0 ∧
      t.rawSize = 0 ∧ (∀ b ∈ t.name, b = 0) ∧ t.name.length = K.nameMax ∧ t.chans = [] ∧ t.nsect = 0 ∧ t.total = 0 ∧
      t.sectSize = 0 ∧ t.sectCrc = 0 ∧ t.sink = []) ∧
    (r.rcount = 0 ∧ r.rptr = 0 ∧ r.roff = 0 ∧ r.srcEof = false ∧ r.pulled = 0 ∧ r.bitpos = 0 ∧ r.pstate = .noHeader ∧
      r.ignoreCrc = false ∧ r.flt = ⟨0, 0, 0⟩ ∧ r.flags = 0 ∧ r.mtime = 0 ∧ r.rawSize = 0 ∧ r.xtraLen = 0 ∧
      (∀ b ∈ r.name, b = 0) ∧ r.name.length = K.nameMax ∧ r.chans = [] ∧ r.nsect = 0 ∧ r.total = 0 ∧ r.sectSize = 0 ∧
      r.sectCrc = 0 ∧ r.storedCrc = 0 ∧ r.srcpos = 0)

/-- `TX.RESET`: in every condition, every item of TX state takes its reset value, `RAWTX` and the sink are kept, the
answer is 0: R300. -/
def Obligations.TxResetRestores : Prop :=
  ∀ s : State, ∃ t', exec .txReset s = .next { s with tx := t' } ∧
    t' = { Tx.reset s.cfg with port := t'.port, raw := s.tx.raw, sink := s.tx.sink, freeTick := t'.freeTick } ∧
    t'.port.st = 0 ∧ t'.port.v = 0

/-- `RX.RESET`: in every condition, every item of RX state takes its reset value, `RAWRX` is kept, the source is not
rewound, the answer is 0: R301. -/
def Obligations.RxResetRestores : Prop :=
  ∀ s : State, ∃ r', exec .rxReset s = .next { s with rx := r' } ∧
    r' = { Rx.reset s.cfg with
      port := r'.port, rbuf := r'.rbuf, raw := s.rx.raw, src := s.rx.src, srcpos := s.rx.srcpos,
      freeTick := r'.freeTick } ∧
    r'.port.st = 0 ∧ r'.port.v = 0

/-! ## Register access -/

/-- `TX.CSRR`: in every condition, a mapped register's value and no side effect; an unmapped address raises
`BadOperand(addr, 0)`; a counter below `2^64` is shown whole by its two halves (above, log 7); a channel's field as long
as `NAME` does not reach its address, where `NAME` answers (log 16); `PTR` modulo `2^32` (log 26): R302, R39, R28, R30. -/
def Obligations.TxCsrrReads : Prop :=
  ∀ s : State,
    (∀ p ∈ ([(0x000, BitVec.ofNat 32 (bit (s.tx.flt.fault != 0) + 2 * bit s.tx.closed + 4 * bit s.tx.layoutOpen +
          16 * s.tx.gstate.code)),
        (0x001, BitVec.ofNat 32 s.tx.flt.fault.toNat), (0x002, s.tx.flt.info0), (0x003, s.tx.flt.info1),
        (0x004, counterLo s.tx.bitpos), (0x005, counterHi s.tx.bitpos), (0x006, BitVec.ofNat 32 s.tx.wptr),
        (0x007, BitVec.ofNat 32 s.tx.woff), (0x008, 0), (0x009, counterLo s.tx.sunk), (0x00A, counterHi s.tx.sunk),
        (0x010, BitVec.ofNat 32 s.tx.flags.toNat), (0x011, s.tx.mtime), (0x012, s.tx.rawSize), (0x013, 0), (0x014, 0),
        (0x015, BitVec.ofNat 32 s.tx.chans.length),
        (0x016, BitVec.ofNat 32 (min (frameSize s.tx.chans) 0xFFFFFFFF)), (0x017, s.tx.nsect),
        (0x018, counterLo s.tx.total), (0x019, counterHi s.tx.total), (0x01A, s.tx.sectSize), (0x01B, s.tx.sectCrc),
        (0x01C, 0)] : List (U32 × U32)),
      exec (.txCsrr p.1) s = .next { s with tx := s.tx.respond p.2.toNat }) ∧
    (∀ (addr : U32) (i : Nat), addr.toNat = 0x100 + i → i < s.cfg.nameMax →
      exec (.txCsrr addr) s = .next { s with tx := s.tx.respond (s.tx.name.getD i 0).toNat }) ∧
    (s.cfg.nameMax ≤ 0xF00 → ∀ (addr : U32) (c : Nat), c < s.tx.chans.length →
      ∀ p ∈ channelRegisters s.tx.chans c, addr.toNat = 0x1000 + 16 * c + p.1 →
        exec (.txCsrr addr) s = .next { s with tx := s.tx.respond p.2.toNat }) ∧
    (∀ addr : U32, ¬MappedCsr s.cfg s.tx.chans.length addr.toNat →
      exec (.txCsrr addr) s = .next { s with tx := s.tx.raise ⟨.badOperand, addr.toNat, 0⟩ }) ∧
    (∀ n : Nat, n < 2 ^ 64 → (counterLo n).toNat = n % 2 ^ 32 ∧ (counterHi n).toNat = n / 2 ^ 32)

/-- `RX.CSRR`: as `TxCsrrReads` on the RX map, `PTR` and `COUNT` modulo `2^32` (log 26), `NAME` before a channel's field
(log 16): R304, R39, R29, R30. -/
def Obligations.RxCsrrReads : Prop :=
  ∀ s : State,
    (∀ p ∈ ([(0x000, BitVec.ofNat 32 (bit (s.rx.flt.fault != 0) + 2 * bit s.rx.srcEof + 16 * s.rx.pstate.code)),
        (0x001, BitVec.ofNat 32 s.rx.flt.fault.toNat), (0x002, s.rx.flt.info0), (0x003, s.rx.flt.info1),
        (0x004, counterLo s.rx.bitpos), (0x005, counterHi s.rx.bitpos), (0x006, BitVec.ofNat 32 s.rx.rptr),
        (0x007, BitVec.ofNat 32 s.rx.roff), (0x008, BitVec.ofNat 32 s.rx.rcount), (0x009, counterLo s.rx.pulled),
        (0x00A, counterHi s.rx.pulled), (0x010, BitVec.ofNat 32 s.rx.flags.toNat), (0x011, s.rx.mtime),
        (0x012, s.rx.rawSize), (0x013, BitVec.ofNat 32 s.rx.xtraLen.toNat), (0x014, BitVec.ofNat 32 (bit s.rx.ignoreCrc)),
        (0x015, BitVec.ofNat 32 s.rx.chans.length),
        (0x016, BitVec.ofNat 32 (min (frameSize s.rx.chans) 0xFFFFFFFF)), (0x017, s.rx.nsect),
        (0x018, counterLo s.rx.total), (0x019, counterHi s.rx.total), (0x01A, s.rx.sectSize), (0x01B, s.rx.sectCrc),
        (0x01C, s.rx.storedCrc)] : List (U32 × U32)),
      exec (.rxCsrr p.1) s = .next { s with rx := s.rx.respond p.2.toNat }) ∧
    (∀ (addr : U32) (i : Nat), addr.toNat = 0x100 + i → i < s.cfg.nameMax →
      exec (.rxCsrr addr) s = .next { s with rx := s.rx.respond (s.rx.name.getD i 0).toNat }) ∧
    (s.cfg.nameMax ≤ 0xF00 → ∀ (addr : U32) (c : Nat), c < s.rx.chans.length →
      ∀ p ∈ channelRegisters s.rx.chans c, addr.toNat = 0x1000 + 16 * c + p.1 →
        exec (.rxCsrr addr) s = .next { s with rx := s.rx.respond p.2.toNat }) ∧
    (∀ addr : U32, ¬MappedCsr s.cfg s.rx.chans.length addr.toNat →
      exec (.rxCsrr addr) s = .next { s with rx := s.rx.raise ⟨.badOperand, addr.toNat, 0⟩ })

/-- `TX.CSRW` of a header register in `NotStarted` writes that register and nothing else: R303, R33, R34, R35. Where a
`NAME` of more than 0xF00 bytes reaches a channel's address, that the write is one of `NAME` is the model's choice
(log 16). -/
def Obligations.TxCsrwHeader : Prop :=
  ∀ (s : State) (value : Word), s.tx.flt.fault = 0 → s.tx.gstate = .notStarted →
    (value.toNat ≤ 255 → exec (.txCsrw 0x010 value) s =
      .next { s with tx := { s.tx with flags := BitVec.ofNat 8 value.toNat }.respond 0 }) ∧
    (value.toNat < 2 ^ 32 → exec (.txCsrw 0x011 value) s =
      .next { s with tx := { s.tx with mtime := BitVec.ofNat 32 value.toNat }.respond 0 }) ∧
    (value.toNat < 2 ^ 32 → exec (.txCsrw 0x012 value) s =
      .next { s with tx := { s.tx with rawSize := BitVec.ofNat 32 value.toNat }.respond 0 }) ∧
    (∀ (addr : U32) (i : Nat), addr.toNat = 0x100 + i → i < s.cfg.nameMax → value.toNat ≤ 255 →
      exec (.txCsrw addr value) s =
        .next { s with tx := { s.tx with name := s.tx.name.set i (BitVec.ofNat 8 value.toNat) }.respond 0 })

/-- `CSRW` of a channel's active field with a legal value, on either engine, writes that field of that channel and nothing
else; an illegal value raises `BadOperand(addr, 3)`, as long as `NAME` does not reach the channel addresses (log 16): R310,
R48. -/
def Obligations.CsrwChannel : Prop :=
  ∀ (s : State) (addr : U32) (value : Word) (c f : Nat), addr.toNat = 0x1000 + 16 * c + f → s.cfg.nameMax ≤ 0xF00 →
    value.toNat < 2 ^ 32 →
    let legal := fun (ch : Channel) (writes : Channel → Prop) (refused : Prop) =>
      (f = 5 → (∀ a : Alg, a.code = value.toNat → writes { ch with alg := a }) ∧ (4 ≤ value.toNat → refused)) ∧
      (f = 6 → (∀ b : Bool, bit b = value.toNat → writes { ch with delta := b }) ∧ (2 ≤ value.toNat → refused)) ∧
      (f = 7 → (∀ n : BitVec 5, n.toNat = value.toNat → writes { ch with rot := n }) ∧ (32 ≤ value.toNat → refused)) ∧
      (f = 8 → ∀ n : U32, n.toNat = value.toNat → writes { ch with offset := n }) ∧
      (f = 9 → (∀ n : BitVec 6, n.toNat = value.toNat → 1 ≤ n.toNat → n.toNat ≤ 32 → writes { ch with nbits := n }) ∧
        (value.toNat = 0 ∨ 33 ≤ value.toNat → refused)) ∧
      (f = 10 → ∀ n : U32, n.toNat = value.toNat → writes { ch with const := n })
    (s.tx.flt.fault = 0 → c < s.tx.chans.length → legal (channelAt s.tx.chans c)
      (fun ch => exec (.txCsrw addr value) s =
        .next { s with tx := { s.tx with chans := s.tx.chans.set c ch }.respond 0 })
      (exec (.txCsrw addr value) s = .next { s with tx := s.tx.raise ⟨.badOperand, addr.toNat, 3⟩ })) ∧
    (s.rx.flt.fault = 0 → c < s.rx.chans.length → legal (channelAt s.rx.chans c)
      (fun ch => exec (.rxCsrw addr value) s =
        .next { s with rx := { s.rx with chans := s.rx.chans.set c ch }.respond 0 })
      (exec (.rxCsrw addr value) s = .next { s with rx := s.rx.raise ⟨.badOperand, addr.toNat, 3⟩ }))

/-- The refusals of `TX.CSRW`, in their order: unmapped; read-only; a value of more than 32 bits; a header register after
the header went out; a value outside the register's legal set; as long as `NAME` does not reach the channel addresses
(log 16): R303. -/
def Obligations.TxCsrwRefuses : Prop :=
  ∀ (s : State) (addr : U32) (value : Word), s.tx.flt.fault = 0 → s.cfg.nameMax ≤ 0xF00 →
    let refuses := fun e : Raise => exec (.txCsrw addr value) s = .next { s with tx := s.tx.raise e }
    let header := (0x010 ≤ addr.toNat ∧ addr.toNat ≤ 0x012) ∨ (0x100 ≤ addr.toNat ∧ addr.toNat < 0x100 + s.cfg.nameMax)
    let active := 0x1000 ≤ addr.toNat ∧ 5 ≤ (addr.toNat - 0x1000) % 16 ∧ (addr.toNat - 0x1000) % 16 ≤ 10
    let mapped := MappedCsr s.cfg s.tx.chans.length addr.toNat
    (¬mapped → refuses ⟨.badOperand, addr.toNat, 0⟩) ∧
    (mapped → ¬header → ¬active → refuses ⟨.badOperand, addr.toNat, 1⟩) ∧
    (mapped → header ∨ active → 2 ^ 32 ≤ value.toNat → refuses ⟨.badOperand, addr.toNat, 2⟩) ∧
    (header → value.toNat < 2 ^ 32 → s.tx.gstate ≠ .notStarted → refuses ⟨.illegalState, 0x02, s.tx.status⟩) ∧
    (header → addr ≠ 0x011 → addr ≠ 0x012 → s.tx.gstate = .notStarted → value.toNat < 2 ^ 32 → 256 ≤ value.toNat →
      refuses ⟨.badOperand, addr.toNat, 3⟩)

/-- `RX.CSRW` of `CTRL`, and the refusals of `RX.CSRW` in their order, as long as `NAME` does not reach the channel
addresses (log 16); there is no state condition: R305, R36. -/
def Obligations.RxCsrwControl : Prop :=
  ∀ (s : State) (addr : U32) (value : Word), s.rx.flt.fault = 0 → s.cfg.nameMax ≤ 0xF00 →
    let refuses := fun e : Raise => exec (.rxCsrw addr value) s = .next { s with rx := s.rx.raise e }
    let active := 0x1000 ≤ addr.toNat ∧ 5 ≤ (addr.toNat - 0x1000) % 16 ∧ (addr.toNat - 0x1000) % 16 ≤ 10
    let mapped := MappedCsr s.cfg s.rx.chans.length addr.toNat
    (addr = 0x014 → ∀ b : Bool, bit b = value.toNat →
      exec (.rxCsrw addr value) s = .next { s with rx := { s.rx with ignoreCrc := b }.respond 0 }) ∧
    (¬mapped → refuses ⟨.badOperand, addr.toNat, 0⟩) ∧
    (mapped → addr ≠ 0x014 → ¬active → refuses ⟨.badOperand, addr.toNat, 1⟩) ∧
    (mapped → addr = 0x014 ∨ active → 2 ^ 32 ≤ value.toNat → refuses ⟨.badOperand, addr.toNat, 2⟩) ∧
    (addr = 0x014 → 2 ≤ value.toNat → value.toNat < 2 ^ 32 → refuses ⟨.badOperand, addr.toNat, 3⟩)

/-! ## Raw memory access -/

/-- `RAWLD` on either engine: the little-endian value of 1, 2 or 4 bytes at any byte address, no side effect; a bad size or
a reach past `RAW_BYTES` raises `BadOperand`: R306, R308, R80, R82, R94. -/
def Obligations.RawLoad : Prop :=
  ∀ (s : State) (addr : U32) (size : Byte),
    (s.tx.flt.fault = 0 →
      (size ∈ [1, 2, 4] → addr.toNat + size.toNat ≤ s.cfg.rawBytes → ∃ v,
        exec (.txRawld addr size) s = .next { s with tx := s.tx.respond v } ∧ v < 2 ^ (8 * size.toNat) ∧
        ∀ j < size.toNat, v / 2 ^ (8 * j) % 256 = (s.tx.raw.readByte (addr.toNat + j)).toNat) ∧
      (size ∉ [1, 2, 4] →
        exec (.txRawld addr size) s = .next { s with tx := s.tx.raise ⟨.badOperand, size.toNat, 0⟩ }) ∧
      (size ∈ [1, 2, 4] → s.cfg.rawBytes < addr.toNat + size.toNat →
        exec (.txRawld addr size) s = .next { s with tx := s.tx.raise ⟨.badOperand, addr.toNat, size.toNat⟩ })) ∧
    (s.rx.flt.fault = 0 →
      (size ∈ [1, 2, 4] → addr.toNat + size.toNat ≤ s.cfg.rawBytes → ∃ v,
        exec (.rxRawld addr size) s = .next { s with rx := s.rx.respond v } ∧ v < 2 ^ (8 * size.toNat) ∧
        ∀ j < size.toNat, v / 2 ^ (8 * j) % 256 = (s.rx.raw.readByte (addr.toNat + j)).toNat) ∧
      (size ∉ [1, 2, 4] →
        exec (.rxRawld addr size) s = .next { s with rx := s.rx.raise ⟨.badOperand, size.toNat, 0⟩ }) ∧
      (size ∈ [1, 2, 4] → s.cfg.rawBytes < addr.toNat + size.toNat →
        exec (.rxRawld addr size) s = .next { s with rx := s.rx.raise ⟨.badOperand, addr.toNat, size.toNat⟩ }))

/-- `RAWST` on either engine: the low 1, 2 or 4 bytes of the value, least significant first, at any byte address, every
other byte unchanged; a bad size or a reach past `RAW_BYTES` raises `BadOperand`: R307, R309, R81, R82, R94. -/
def Obligations.RawStore : Prop :=
  ∀ (s : State) (addr : U32) (value : Word) (size : Byte), s.Inv →
    (s.tx.flt.fault = 0 →
      (size ∈ [1, 2, 4] → addr.toNat + size.toNat ≤ s.cfg.rawBytes → ∃ m,
        exec (.txRawst addr value size) s = .next { s with tx := { s.tx with raw := m }.respond 0 } ∧
        (∀ j < size.toNat, (m.readByte (addr.toNat + j)).toNat = value.toNat / 2 ^ (8 * j) % 256) ∧
        ∀ a, a < addr.toNat ∨ addr.toNat + size.toNat ≤ a → m.readByte a = s.tx.raw.readByte a) ∧
      (size ∉ [1, 2, 4] →
        exec (.txRawst addr value size) s = .next { s with tx := s.tx.raise ⟨.badOperand, size.toNat, 0⟩ }) ∧
      (size ∈ [1, 2, 4] → s.cfg.rawBytes < addr.toNat + size.toNat →
        exec (.txRawst addr value size) s = .next { s with tx := s.tx.raise ⟨.badOperand, addr.toNat, size.toNat⟩ })) ∧
    (s.rx.flt.fault = 0 →
      (size ∈ [1, 2, 4] → addr.toNat + size.toNat ≤ s.cfg.rawBytes → ∃ m,
        exec (.rxRawst addr value size) s = .next { s with rx := { s.rx with raw := m }.respond 0 } ∧
        (∀ j < size.toNat, (m.readByte (addr.toNat + j)).toNat = value.toNat / 2 ^ (8 * j) % 256) ∧
        ∀ a, a < addr.toNat ∨ addr.toNat + size.toNat ≤ a → m.readByte a = s.rx.raw.readByte a) ∧
      (size ∉ [1, 2, 4] →
        exec (.rxRawst addr value size) s = .next { s with rx := s.rx.raise ⟨.badOperand, size.toNat, 0⟩ }) ∧
      (size ∈ [1, 2, 4] → s.cfg.rawBytes < addr.toNat + size.toNat →
        exec (.rxRawst addr value size) s = .next { s with rx := s.rx.raise ⟨.badOperand, addr.toNat, size.toNat⟩ }))

/-! ## The bit writer -/

/-- `W.BITS value, n`: the low `n` bits of `value` are appended, bit 0 first; whole buffers go to the sink at once and in no
other case; `n > W` raises `BadOperand(n, W)`: R145, R140, R141. -/
def Obligations.WBits : Prop :=
  ∀ (s : State) (value : Word) (n : Byte), s.Inv → s.tx.Ready →
    (n.toNat ≤ s.cfg.wordBits → ∃ t', exec (.wBits value n) s = .next { s with tx := t'.respond 0 } ∧
      s.tx.Appended s.cfg t' (fieldBits n.toNat value.toNat) ∧
      t'.sunk = s.tx.sunk +
        if s.cfg.wordBits * s.tx.wptr + s.tx.woff + n.toNat < s.cfg.wordBits * s.cfg.bufWords then 0
        else s.cfg.bufWords * s.cfg.wordBytes) ∧
    (s.cfg.wordBits < n.toNat → exec (.wBits value n) s =
      .next { s with tx := s.tx.raise ⟨.badOperand, n.toNat, s.cfg.wordBits⟩ })

/-- `W.UNARY v`: `v` one-bits and a zero-bit are appended; `v > UNARY_MAX` raises `BadOperand` with nothing written: R146,
R142. -/
def Obligations.WUnary : Prop :=
  ∀ (s : State) (v : Word), s.Inv → s.tx.Ready →
    (v.toNat ≤ s.cfg.unaryMax → ∃ t', exec (.wUnary v) s = .next { s with tx := t'.respond 0 } ∧
      s.tx.Appended s.cfg t' (List.replicate v.toNat true ++ [false])) ∧
    (s.cfg.unaryMax < v.toNat → exec (.wUnary v) s =
      .next { s with tx := s.tx.raise ⟨.badOperand, v.toNat % 2 ^ 32, s.cfg.unaryMax⟩ })

/-- `W.STR addr, cap`: the bytes of `RAWTX` up to and with the first zero among the first `cap`, else `cap` of them, are
appended as 8-bit fields and counted; a scan that runs off the memory raises `BadOperand` with nothing written: R147. -/
def Obligations.WStr : Prop :=
  ∀ (s : State) (addr : U32) (cap : Word) (c : Nat), s.Inv → s.tx.Ready →
    ((c < cap.toNat ∧ s.tx.raw.readByte (addr.toNat + c) = 0 ∧ c + 1 + addr.toNat ≤ s.cfg.rawBytes) ∧
        (∀ i < c, s.tx.raw.readByte (addr.toNat + i) ≠ 0) → ∃ t',
      exec (.wStr addr cap) s = .next { s with tx := t'.respond (c + 1) } ∧
      s.tx.Appended s.cfg t' (byteBits ((List.range (c + 1)).map fun i => s.tx.raw.readByte (addr.toNat + i)))) ∧
    (c = cap.toNat → (c = 0 ∨ c + addr.toNat ≤ s.cfg.rawBytes) →
        (∀ i < c, s.tx.raw.readByte (addr.toNat + i) ≠ 0) → ∃ t',
      exec (.wStr addr cap) s = .next { s with tx := t'.respond c } ∧
      s.tx.Appended s.cfg t' (byteBits ((List.range c).map fun i => s.tx.raw.readByte (addr.toNat + i)))) ∧
    (cap ≠ 0 → s.cfg.rawBytes < addr.toNat + cap.toNat →
        (∀ i, addr.toNat + i < s.cfg.rawBytes → s.tx.raw.readByte (addr.toNat + i) ≠ 0) →
      exec (.wStr addr cap) s = .next { s with tx := s.tx.raise ⟨.badOperand, addr.toNat, cap.toNat % 2 ^ 32⟩ })

/-- `W.WINDUP`: zero-bits up to the next byte boundary, none when on one; a second `W.WINDUP` changes nothing: R148,
R143. -/
def Obligations.WWindup : Prop :=
  ∀ s : State, s.Inv → s.tx.Ready → ∃ t', exec .wWindup s = .next { s with tx := t'.respond 0 } ∧
    s.tx.Appended s.cfg t' (List.replicate ((8 - s.tx.bitpos % 8) % 8) false) ∧ t'.bitpos % 8 = 0 ∧
    exec .wWindup { s with tx := t'.respond 0 } = .next { s with tx := t'.respond 0 }

/-- `W.FLUSH`: the complete words go to the sink; with 0 the stream is what it was, with 1 it loses the `woff` bits of the
partial word; above 1 it raises `BadOperand(N, 1)`: R149. -/
def Obligations.WFlush : Prop :=
  ∀ s : State, s.Inv → s.tx.Ready →
    (∃ t' : Tx, exec (.wFlush 0) s = .next { s with tx := t'.respond 0 } ∧ s.tx.Extended s.cfg t' [] ∧
      t'.wptr = 0 ∧ t'.woff = s.tx.woff ∧ t'.sunk = s.tx.sunk + s.tx.wptr * s.cfg.wordBytes) ∧
    (∃ t' : Tx, exec (.wFlush 1) s = .next { s with tx := t'.respond 0 } ∧
      t' = { s.tx with
        wbuf := t'.wbuf, wptr := 0, woff := 0, bitpos := s.tx.bitpos - s.tx.woff,
        sunk := s.tx.sunk + s.tx.wptr * s.cfg.wordBytes, sink := t'.sink } ∧
      t'.stream s.cfg = (s.tx.stream s.cfg).take ((s.tx.stream s.cfg).length - s.tx.woff) ∧
      s.tx.sink <+: t'.sink ∧ t'.WriterInv s.cfg) ∧
    (∀ n : Byte, 1 < n.toNat → exec (.wFlush n) s = .next { s with tx := s.tx.raise ⟨.badOperand, n.toNat, 1⟩ })

/-- `W.CLOSE`: the stream, padded with zero-bits to a whole byte, is in the sink to its last bit; the buffer is empty and
`CLOSED` is 1, `GSTATE` is not changed: R150, R144. -/
def Obligations.WClose : Prop :=
  ∀ s : State, s.Inv → s.tx.Ready → ∃ t' : Tx, exec .wClose s = .next { s with tx := t'.respond 0 } ∧
    t' = { s.tx with
      wbuf := t'.wbuf, wptr := 0, woff := 0, closed := true,
      bitpos := s.tx.bitpos + (8 - s.tx.bitpos % 8) % 8, sunk := t'.sunk, sink := t'.sink } ∧
    byteBits t'.sink = s.tx.stream s.cfg ++ List.replicate ((8 - s.tx.bitpos % 8) % 8) false ∧
    s.tx.sink <+: t'.sink ∧ 8 * t'.sunk = t'.bitpos ∧ t'.WriterInv s.cfg

/-! ## The bit reader -/

/-- `R.BITS n`: the next `n` bits are consumed and returned, first bit in bit 0, the ghost zeros of a last partial word
among them. As long as the buffer holds `n` unread bits nothing is pulled; else one fill asks the source for
`BUF_WORDS*WB` bytes and `SRC_EOF` is set iff it has fewer. With fewer than `n` bits left, `EndOfStream`, and nothing more
is pulled; `n > W` raises `BadOperand(n, W)`; `n = 0` touches nothing: R166, R160, R161, R162, R170. -/
def Obligations.RBits : Prop :=
  ∀ (s : State) (n : Byte), s.Inv → s.rx.flt.fault = 0 →
    let left := s.rx.src.length - s.rx.srcpos
    let request := s.cfg.bufWords * s.cfg.wordBytes
    let held := (s.rx.unread s.cfg).length
    (∀ bits rest, bits.length = n.toNat → n.toNat ≤ s.cfg.wordBits → s.rx.ahead s.cfg = bits ++ rest → ∃ r',
      exec (.rBits n) s = .next { s with rx := r'.respond (bitsValue bits) } ∧ s.rx.Consumed s.cfg r' bits ∧
      r'.ahead s.cfg = rest ∧ (n = 0 → r' = s.rx) ∧
      (n.toNat ≤ held → r'.pulled = s.rx.pulled ∧ r'.srcpos = s.rx.srcpos ∧ r'.srcEof = s.rx.srcEof) ∧
      (held < n.toNat → r'.pulled = s.rx.pulled + min left request ∧ r'.srcpos = s.rx.srcpos + min left request ∧
        (r'.srcEof = true ↔ left < request))) ∧
    (n.toNat ≤ s.cfg.wordBits → (s.rx.ahead s.cfg).length < n.toNat → ∃ r', exec (.rBits n) s = .next { s with rx := r' } ∧
      s.rx.FailedWith (endOfStreamAt s.rx.bitpos) r' ∧ r'.srcEof = true ∧ r'.pulled = s.rx.pulled ∧
      r'.srcpos = s.rx.srcpos) ∧
    (s.cfg.wordBits < n.toNat → exec (.rBits n) s =
      .next { s with rx := s.rx.raise ⟨.badOperand, n.toNat, s.cfg.wordBits⟩ })

/-- `R.UNARY`: a run of `v ≤ UNARY_MAX` one-bits and its zero-bit are consumed and `v` returned; `UNARY_MAX + 1` one-bits
raise `UnaryOverrun`; a stream that ends before a zero-bit raises `EndOfStream`: R167, R164. What is returned has at most `W`
bits (R21, R100); of a `v` that has more (`UNARY_MAX` at or above `2^W`) nothing else is said: the model's reading (log 27). -/
def Obligations.RUnary : Prop :=
  ∀ s : State, s.Inv → s.rx.flt.fault = 0 →
    (∀ v rest, v ≤ s.cfg.unaryMax → s.rx.ahead s.cfg = List.replicate v true ++ false :: rest → ∃ r' w,
      exec .rUnary s = .next { s with rx := r'.respond w } ∧ w < 2 ^ s.cfg.wordBits ∧
      (v < 2 ^ s.cfg.wordBits → w = v ∧ r'.freeTick = s.rx.freeTick) ∧
      ({ s.rx with freeTick := r'.freeTick } : Rx).Consumed s.cfg r' (List.replicate v true ++ [false]) ∧
      r'.ahead s.cfg = rest) ∧
    (∀ rest, s.rx.ahead s.cfg = List.replicate (s.cfg.unaryMax + 1) true ++ rest → ∃ r',
      exec .rUnary s = .next { s with rx := r' } ∧
      s.rx.FailedWith ⟨.unaryOverrun, s.cfg.unaryMax + 1, s.cfg.unaryMax⟩ r') ∧
    (∀ m ≤ s.cfg.unaryMax, s.rx.ahead s.cfg = List.replicate m true → ∃ r',
      exec .rUnary s = .next { s with rx := r' } ∧ s.rx.FailedWith (endOfStreamAt (s.rx.bitpos + m)) r' ∧
      r'.srcEof = true)

/-- `R.STR addr, cap`: characters are consumed and stored up to and with the first zero, or `cap` of them, and counted;
every other byte of `RAWRX` is as before. When the stream ends first, `EndOfStream`, the characters read so far stay
stored. A reach past `RAW_BYTES` raises `BadOperand` before anything is consumed: R168; the last clause of the fault is the
model's reading of R168 beside U5 (log 20). -/
def Obligations.RStr : Prop :=
  ∀ (s : State) (addr : U32) (cap : Word), s.Inv → s.rx.flt.fault = 0 →
    (∀ (bs : List Byte) rest, addr.toNat + cap.toNat ≤ s.cfg.rawBytes →
        ((bs.length = cap.toNat ∧ 0 ∉ bs) ∨ (bs.length ≤ cap.toNat ∧ ∃ cs, bs = cs ++ [0] ∧ 0 ∉ cs)) →
        s.rx.ahead s.cfg = byteBits bs ++ rest → ∃ r',
      exec (.rStr addr cap) s = .next { s with rx := r'.respond bs.length } ∧
      ({ s.rx with raw := r'.raw } : Rx).Consumed s.cfg r' (byteBits bs) ∧ r'.ahead s.cfg = rest ∧
      (∀ j < bs.length, r'.raw.readByte (addr.toNat + j) = bs.getD j 0) ∧
      ∀ a, a < addr.toNat ∨ addr.toNat + bs.length ≤ a → r'.raw.readByte a = s.rx.raw.readByte a) ∧
    (∀ (bs : List Byte) rest, addr.toNat + cap.toNat ≤ s.cfg.rawBytes → bs.length < cap.toNat → 0 ∉ bs →
        rest.length < 8 → s.rx.ahead s.cfg = byteBits bs ++ rest → ∃ r',
      exec (.rStr addr cap) s = .next { s with rx := r' } ∧
      ({ s.rx with raw := r'.raw } : Rx).FailedWith (endOfStreamAt (s.rx.bitpos + 8 * bs.length)) r' ∧
      (∀ j < bs.length, r'.raw.readByte (addr.toNat + j) = bs.getD j 0) ∧
      ∀ a, a < addr.toNat ∨ addr.toNat + bs.length ≤ a → r'.raw.readByte a = s.rx.raw.readByte a) ∧
    (s.cfg.rawBytes < addr.toNat + cap.toNat → exec (.rStr addr cap) s =
      .next { s with rx := s.rx.raise ⟨.badOperand, addr.toNat, cap.toNat % 2 ^ 32⟩ })

/-- `R.WINDUP`: the bits up to the next byte boundary are skipped, whatever they are; nothing is pulled from the source; it
never faults, and a second `R.WINDUP` changes nothing: R169, R165. -/
def Obligations.RWindup : Prop :=
  ∀ s : State, s.Inv → s.rx.flt.fault = 0 → ∃ r' bits, exec .rWindup s = .next { s with rx := r'.respond 0 } ∧
    s.rx.Consumed s.cfg r' bits ∧ bits.length = (8 - s.rx.bitpos % 8) % 8 ∧ r'.bitpos % 8 = 0 ∧
    r'.pulled = s.rx.pulled ∧ r'.srcpos = s.rx.srcpos ∧ r'.srcEof = s.rx.srcEof ∧
    exec .rWindup { s with rx := r'.respond 0 } = .next { s with rx := r'.respond 0 }

/-! ## The codec commands -/

/-- `E.MEXPG u, k`: the order-`k` code of `u` is appended, `len_k(u)` bits; `k > 31` raises `BadOperand(k, 31)`: R202, R183,
R185. -/
def Obligations.EMexpg : Prop :=
  ∀ (s : State) (u : Word) (k : Byte), s.Inv → s.tx.Ready →
    (k.toNat ≤ 31 → (Instr.eMexpg u k).wellFormed s.cfg = true → ∃ t',
      exec (.eMexpg u k) s = .next { s with tx := t'.respond 0 } ∧ s.tx.Appended s.cfg t' (mexpgBits k.toNat u.toNat) ∧
      t'.bitpos = s.tx.bitpos +
        if bitSize u.toNat ≤ k.toNat then k.toNat + 1 else 2 * bitSize u.toNat - k.toNat) ∧
    (31 < k.toNat → exec (.eMexpg u k) s = .next { s with tx := s.tx.raise ⟨.badOperand, k.toNat, 31⟩ })

/-- `D.MEXPG k`: the order-`k` code of a number below `2^W` is consumed and the number returned; `UNARY_MAX + 1` ones raise
`UnaryOverrun`, a prefix of `q > 0` ones with `q + k > W` raises `CorruptStream(q, k)`; a stream that ends among the ones, or
behind the prefix before the bits it announces, raises `EndOfStream` with the position where the transfer that fails begins;
`k > 31` raises `BadOperand(k, 31)`: R203, R184, R164, R161. -/
def Obligations.DMexpg : Prop :=
  ∀ (s : State) (k : Byte), s.Inv → s.rx.flt.fault = 0 →
    let fails := fun e : Raise => ∃ r', exec (.dMexpg k) s = .next { s with rx := r' } ∧ s.rx.FailedWith e r'
    (k.toNat ≤ 31 →
      (∀ u rest, u < 2 ^ s.cfg.wordBits → s.rx.ahead s.cfg = mexpgBits k.toNat u ++ rest → ∃ r',
        exec (.dMexpg k) s = .next { s with rx := r'.respond u } ∧ s.rx.Consumed s.cfg r' (mexpgBits k.toNat u) ∧
        r'.ahead s.cfg = rest) ∧
      (∀ rest, s.rx.ahead s.cfg = List.replicate (s.cfg.unaryMax + 1) true ++ rest →
        fails ⟨.unaryOverrun, s.cfg.unaryMax + 1, s.cfg.unaryMax⟩) ∧
      (∀ m ≤ s.cfg.unaryMax, s.rx.ahead s.cfg = List.replicate m true → fails (endOfStreamAt (s.rx.bitpos + m))) ∧
      ∀ q ≤ s.cfg.unaryMax, ∀ rest, s.rx.ahead s.cfg = List.replicate q true ++ false :: rest →
        (0 < q → s.cfg.wordBits < q + k.toNat → fails ⟨.corruptStream, q, k.toNat⟩) ∧
        (0 < q → q + k.toNat ≤ s.cfg.wordBits → rest.length < q + k.toNat - 1 →
          fails (endOfStreamAt (s.rx.bitpos + q + 1))) ∧
        (q = 0 → rest.length < k.toNat → fails (endOfStreamAt (s.rx.bitpos + 1)))) ∧
    (31 < k.toNat → exec (.dMexpg k) s = .next { s with rx := s.rx.raise ⟨.badOperand, k.toNat, 31⟩ })

/-- `E.WORD ch, value` on a channel that passes `ChanCheck`: `value mod 2^w` is rotated, its low `ROT` bits becoming the high
ones; with `DELTA` the history is subtracted modulo `2^w` and the rotated word becomes the history; the algorithm's code of
the result is appended, none for Constant, which leaves the history alone: R211, R198, R194, R196, R186, R189, R192, R193. -/
def Obligations.EWord : Prop :=
  ∀ (s : State) (c : BitVec 16) (value : Word), s.Inv → s.tx.Ready → ChanOk s.tx.chans c.toNat →
    let ch := channelAt s.tx.chans c.toNat
    let w := ch.width
    let r := value.toNat % 2 ^ w
    let x := r / 2 ^ ch.rot.toNat + r % 2 ^ ch.rot.toNat * 2 ^ (w - ch.rot.toNat)
    let y := if ch.delta then (((x : Int) - ch.prev.toNat) % 2 ^ w).toNat else x
    let d := (((y : Int) - ch.offset.toNat) % 2 ^ w).toNat
    let sentinel := 2 ^ ch.nbits.toNat - 1
    let code := match ch.alg with
      | .default => fieldBits w y
      | .reducedBinary => if d < sentinel then fieldBits ch.nbits.toNat d
        else fieldBits ch.nbits.toNat sentinel ++ fieldBits w y
      | .runLength => mexpgBits 1 y ++ mexpgBits 1 1
      | .constant => []
    vectorBits ch [r] = code ∧
    chanAfter ch [r] = (if ch.delta = true ∧ ch.alg ≠ .constant then { ch with prev := BitVec.ofNat 32 x } else ch) ∧
    ∃ t', exec (.eWord c value) s = .next { s with tx := t'.respond 0 } ∧
      ({ s.tx with chans := s.tx.chans.set c.toNat (chanAfter ch [r]) } : Tx).Appended s.cfg t' code

/-- `E.VEC ch, addr, nbytes` on a channel that passes `ChanCheck`: the code of the raw words of the bytes is appended, a
last partial word completed with zero bytes, the channel's history goes forward, `nbytes` is returned, raw memory is not
modified; no bytes, or a reach past `RAW_BYTES`, raise `BadOperand`. What is coded: each word rotated, its low `ROT` bits
becoming the high ones, with `DELTA` less the rotated word before it (the history for the first) modulo `2^w`; Run-Length
codes the maximal runs of that; the history is the last rotated word: R212, R210, R198, R84, R194, R196, R189. -/
def Obligations.EVec : Prop :=
  ∀ (s : State) (c : BitVec 16) (addr : U32) (nbytes : Word), s.Inv → s.tx.Ready → ChanOk s.tx.chans c.toNat →
    let ch := channelAt s.tx.chans c.toNat
    let rs := readWords s.tx.raw addr.toNat ch.size nbytes.toNat
    let x := fun i => rs.getD i 0 / 2 ^ ch.rot.toNat + rs.getD i 0 % 2 ^ ch.rot.toNat * 2 ^ (ch.width - ch.rot.toNat)
    let ys := (stageOut ch rs).1
    (ys.length = rs.length ∧
      (∀ i < rs.length, (ys.getD i 0 : Int) = if ch.delta
        then ((x i : Int) - if i = 0 then (ch.prev.toNat : Int) else x (i - 1)) % 2 ^ ch.width else x i) ∧
      (rs ≠ [] → chanAfter ch rs = if ch.delta = true ∧ ch.alg ≠ .constant
        then { ch with prev := BitVec.ofNat 32 (x (rs.length - 1)) } else ch) ∧
      (runs ys).flatMap (fun p => List.replicate p.2 p.1) = ys ∧ (∀ p ∈ runs ys, 0 < p.2) ∧
      (runs ys).IsChain (fun p q => p.1 ≠ q.1) ∧
      vectorBits ch rs = match ch.alg with
        | .default => ys.flatMap (fieldBits ch.width)
        | .reducedBinary => ys.flatMap (rbBits ch)
        | .runLength => pairsBits (runs ys)
        | .constant => []) ∧
    ((Instr.eVec c addr nbytes).wellFormed s.cfg = true → nbytes ≠ 0 → addr.toNat + nbytes.toNat ≤ s.cfg.rawBytes →
      ∃ t', exec (.eVec c addr nbytes) s = .next { s with tx := t'.respond nbytes.toNat } ∧
        ({ s.tx with chans := s.tx.chans.set c.toNat (chanAfter ch rs) } : Tx).Appended s.cfg t' (vectorBits ch rs)) ∧
    (nbytes = 0 → exec (.eVec c addr nbytes) s = .next { s with tx := s.tx.raise ⟨.badOperand, 0, 0⟩ }) ∧
    (nbytes ≠ 0 → s.cfg.rawBytes < addr.toNat + nbytes.toNat → exec (.eVec c addr nbytes) s =
      .next { s with tx := s.tx.raise ⟨.badOperand, addr.toNat, nbytes.toNat % 2 ^ 32⟩ })

/-- The raw words of a vector: word `i` is the little-endian value of its `ws` bytes, and the bytes a last partial word
lacks are zero: R210, R80, R84. -/
def Obligations.VectorWords : Prop :=
  ∀ (m : RawMem) (addr nbytes : Nat) (d : DType),
    (readWords m addr d.size nbytes).length = (nbytes + d.size - 1) / d.size ∧
    ∀ i j, i < (nbytes + d.size - 1) / d.size → j < d.size →
      (readWords m addr d.size nbytes).getD i 0 < 2 ^ d.width ∧
      (readWords m addr d.size nbytes).getD i 0 / 2 ^ (8 * j) % 256 =
        if i * d.size + j < nbytes then (m.readByte (addr + i * d.size + j)).toNat else 0

/-- `D.WORD ch` on a channel that passes `ChanCheck`. Over any code of a word that the decode side accepts, an escaped
Reduced-Binary word whose `d` was in range among them: the word is returned, the code consumed, the history goes forward as on
the encode side; a Constant channel reads nothing and returns its constant rotated left by `ROT`. Over a code the stream does
not hold to its end: `EndOfStream`, less than a word in front of the end. Run-Length: a value or run-length whose code is
refused raises `UnaryOverrun` or `CorruptStream(q, 1)`, a value of more than `w` bits `CorruptStream(value, w)`, a run-length
other than 1 `CorruptStream(run-length, 1)`: R226, R199, R125, R184, R187, R190, R193, R197, R161. -/
def Obligations.DWord : Prop :=
  ∀ (s : State) (c : BitVec 16), s.Inv → s.rx.flt.fault = 0 → ChanOk s.rx.chans c.toNat →
    let ch := channelAt s.rx.chans c.toNat
    let fails := fun e : Raise => ∃ s', exec (.dWord c) s = .next s' ∧ s'.rx.Reported e
    (∀ v bits rest, v < 2 ^ ch.width → VectorCoded ch [v] bits → s.rx.ahead s.cfg = bits ++ rest →
      ∃ r', exec (.dWord c) s = .next { s with rx := r'.respond (if ch.alg = .constant then constantWord ch else v) } ∧
        ({ s.rx with chans := s.rx.chans.set c.toNat (chanAfter ch [v]) } : Rx).Consumed s.cfg r' bits ∧
        r'.ahead s.cfg = rest) ∧
    (let k := ch.const.toNat % 2 ^ ch.width
     let high := ch.width - ch.rot.toNat
     constantWord ch = k % 2 ^ high * 2 ^ ch.rot.toNat + k / 2 ^ high) ∧
    (∀ v bits more, v < 2 ^ ch.width → VectorCoded ch [v] bits → more ≠ [] → bits = s.rx.ahead s.cfg ++ more →
      ∃ p, fails (endOfStreamAt p) ∧ s.rx.bitpos ≤ p ∧ p ≤ s.rx.bitpos + (s.rx.ahead s.cfg).length ∧
        s.rx.bitpos + (s.rx.ahead s.cfg).length < p + s.cfg.wordBits) ∧
    (ch.alg = .runLength → ∀ bits rest e, PairRefused s.cfg ch.width 1 bits e → s.rx.ahead s.cfg = bits ++ rest → fails e)

/-- `D.VEC ch, addr, nbytes` on a channel that passes `ChanCheck`, over any code of `ceil(nbytes/ws)` words that the decode
side accepts, escaped Reduced-Binary words whose `d` was in range and adjacent Run-Length pairs of one value among them: the
`nbytes` real bytes of the words are stored, every byte outside them and the `MAX_GHOST_BYTES` behind them is as before, the
code is consumed, the history goes forward, `nbytes` is returned; over a code the stream does not hold to its end,
`EndOfStream`, less than a word in front of the end. Run-Length, behind whole pairs for fewer than all words: a value or
run-length whose code is refused raises `UnaryOverrun` or `CorruptStream(q, 1)`, a value of more than `w` bits
`CorruptStream(value, w)`, a run-length of 0 or of more words than are still wanted `CorruptStream(run-length, words wanted)`.
No bytes, or a reach past `RAW_BYTES`, raise `BadOperand`: R227, R225, R199, R84, R86, R125, R184, R187, R190, R161. -/
def Obligations.DVec : Prop :=
  ∀ (s : State) (c : BitVec 16) (addr : U32) (nbytes : Word), s.Inv → s.rx.flt.fault = 0 → ChanOk s.rx.chans c.toNat →
    let ch := channelAt s.rx.chans c.toNat
    let words := (nbytes.toNat + ch.size - 1) / ch.size
    let fails := fun e : Raise => ∃ s', exec (.dVec c addr nbytes) s = .next s' ∧ s'.rx.Reported e
    ((Instr.dVec c addr nbytes).wellFormed s.cfg = true → nbytes ≠ 0 → addr.toNat + nbytes.toNat ≤ s.cfg.rawBytes →
      (∀ (rs : List Nat) bits rest, rs.length = words → (∀ v ∈ rs, v < 2 ^ ch.width) → VectorCoded ch rs bits →
          s.rx.ahead s.cfg = bits ++ rest → ∃ r',
        exec (.dVec c addr nbytes) s = .next { s with rx := r'.respond nbytes.toNat } ∧
        ({ s.rx with
            chans := s.rx.chans.set c.toNat (chanAfter ch rs), raw := r'.raw, freeTick := r'.freeTick } : Rx).Consumed
          s.cfg r' bits ∧
        r'.ahead s.cfg = rest ∧
        (∀ i j, j < ch.size → i * ch.size + j < nbytes.toNat →
          (r'.raw.readByte (addr.toNat + i * ch.size + j)).toNat =
            (if ch.alg = .constant then constantWord ch else rs.getD i 0) / 2 ^ (8 * j) % 256) ∧
        ∀ a, a < addr.toNat ∨ addr.toNat + nbytes.toNat + s.cfg.maxGhostBytes ≤ a →
          r'.raw.readByte a = s.rx.raw.readByte a) ∧
      (∀ (rs : List Nat) bits more, rs.length = words → (∀ v ∈ rs, v < 2 ^ ch.width) → VectorCoded ch rs bits → more ≠ [] →
          bits = s.rx.ahead s.cfg ++ more →
        ∃ p, fails (endOfStreamAt p) ∧ s.rx.bitpos ≤ p ∧ p ≤ s.rx.bitpos + (s.rx.ahead s.cfg).length ∧
          s.rx.bitpos + (s.rx.ahead s.cfg).length < p + s.cfg.wordBits) ∧
      (ch.alg = .runLength → ∀ (ps : List (Nat × Nat)) bits rest e, (∀ p ∈ ps, p.1 < 2 ^ ch.width ∧ 0 < p.2) →
        let done := (ps.map (·.2)).sum
        done < words → PairRefused s.cfg ch.width (words - done) bits e →
        s.rx.ahead s.cfg = pairsBits ps ++ (bits ++ rest) → fails e)) ∧
    (nbytes = 0 → exec (.dVec c addr nbytes) s = .next { s with rx := s.rx.raise ⟨.badOperand, 0, 0⟩ }) ∧
    (nbytes ≠ 0 → s.cfg.rawBytes < addr.toNat + nbytes.toNat → exec (.dVec c addr nbytes) s =
      .next { s with rx := s.rx.raise ⟨.badOperand, addr.toNat, nbytes.toNat % 2 ^ 32⟩ })

/-- `E.HRESET` and `D.HRESET`: the channel's history is 0, nothing else changes; an unregistered channel raises
`BadOperand(ch, NCHAN)`: R213, R228. -/
def Obligations.HistoryReset : Prop :=
  ∀ (s : State) (c : BitVec 16),
    (s.tx.Ready →
      (c.toNat < s.tx.chans.length → exec (.eHreset c) s = .next { s with
        tx := { s.tx with
          chans := s.tx.chans.set c.toNat { channelAt s.tx.chans c.toNat with prev := 0 } }.respond 0 }) ∧
      (s.tx.chans.length ≤ c.toNat → exec (.eHreset c) s =
        .next { s with tx := s.tx.raise ⟨.badOperand, c.toNat, s.tx.chans.length⟩ })) ∧
    (s.rx.flt.fault = 0 →
      (c.toNat < s.rx.chans.length → exec (.dHreset c) s = .next { s with
        rx := { s.rx with
          chans := s.rx.chans.set c.toNat { channelAt s.rx.chans c.toNat with prev := 0 } }.respond 0 }) ∧
      (s.rx.chans.length ≤ c.toNat → exec (.dHreset c) s =
        .next { s with rx := s.rx.raise ⟨.badOperand, c.toNat, s.rx.chans.length⟩ }))

/-- `ChanCheck(c)` of the four codec commands on a channel, first failing check first: R201. -/
def Obligations.ChanCheckRefuses : Prop :=
  ∀ (s : State) (c : BitVec 16) (addr : U32) (x : Word),
    let checks := fun (i : Instr) (chans : List Channel) (refuses : Raise → Prop) =>
      let ch := channelAt chans c.toNat
      (chans.length ≤ c.toNat → refuses ⟨.badOperand, c.toNat, chans.length⟩) ∧
      (c.toNat < chans.length →
        (ch.width ≤ ch.rot.toNat → refuses ⟨.badOperand, ch.rot.toNat, ch.width⟩) ∧
        (ch.rot.toNat < ch.width → ch.rot ≠ 0 → ch.permrot = false →
          refuses ⟨.illegalState, i.commandWord.toNat, c.toNat⟩) ∧
        (ch.rot.toNat < ch.width → ch.rot = 0 ∨ ch.permrot = true → ch.alg = .reducedBinary →
          ch.width < ch.nbits.toNat → refuses ⟨.badOperand, ch.nbits.toNat, ch.width⟩))
    (∀ i ∈ [Instr.eWord c x, Instr.eVec c addr x], s.tx.Ready → checks i s.tx.chans fun e =>
      exec i s = .next { s with tx := s.tx.raise e }) ∧
    (∀ i ∈ [Instr.dWord c, Instr.dVec c addr x], s.rx.flt.fault = 0 → checks i s.rx.chans fun e =>
      exec i s = .next { s with rx := s.rx.raise e })

/-- A `D.WORD` or `D.VEC` that ends in a fault leaves all but the response, the record, the reader, the channel's `PREV`
and the addressed range of `RAWRX` with its ghost bytes as it was: R230. -/
def Obligations.DecodeFaultFrame : Prop :=
  ∀ (s s' : State) (c : BitVec 16) (addr : U32) (nbytes : Word), s.Inv → s.rx.flt.fault = 0 →
    (exec (.dWord c) s = .next s' → s'.rx.port.st ≠ 0 → s'.tx = s.tx ∧
      s'.rx = { s.rx with
        rbuf := s'.rx.rbuf, rcount := s'.rx.rcount, rptr := s'.rx.rptr, roff := s'.rx.roff, srcEof := s'.rx.srcEof,
        pulled := s'.rx.pulled, bitpos := s'.rx.bitpos, srcpos := s'.rx.srcpos, freeTick := s'.rx.freeTick,
        port := s'.rx.port, flt := s'.rx.flt,
        chans := s.rx.chans.modify c.toNat fun ch => { ch with prev := (channelAt s'.rx.chans c.toNat).prev },
        raw := s'.rx.raw } ∧
      ∀ a, s'.rx.raw.readByte a = s.rx.raw.readByte a) ∧
    (exec (.dVec c addr nbytes) s = .next s' → s'.rx.port.st ≠ 0 → s'.tx = s.tx ∧
      s'.rx = { s.rx with
        rbuf := s'.rx.rbuf, rcount := s'.rx.rcount, rptr := s'.rx.rptr, roff := s'.rx.roff, srcEof := s'.rx.srcEof,
        pulled := s'.rx.pulled, bitpos := s'.rx.bitpos, srcpos := s'.rx.srcpos, freeTick := s'.rx.freeTick,
        port := s'.rx.port, flt := s'.rx.flt,
        chans := s.rx.chans.modify c.toNat fun ch => { ch with prev := (channelAt s'.rx.chans c.toNat).prev },
        raw := s'.rx.raw } ∧
      ∀ a, a < addr.toNat ∨ addr.toNat + nbytes.toNat + s.cfg.maxGhostBytes ≤ a →
        s'.rx.raw.readByte a = s.rx.raw.readByte a)

/-- The round trip of the codec commands: what `E.VEC` (or `E.WORD`) appended, `D.VEC` (or `D.WORD`) of an RX channel with
the same type, active fields and history, standing in front of it, brings back: every byte, exactly as many bits consumed as
were written, and equal histories again; for Constant it does iff the data equals the constant: R229. -/
def Obligations.CodecRoundTrip : Prop :=
  ∀ (s s1 : State) (c : BitVec 16) (bits rest : List Bool), s.Inv → s.tx.Ready → s.rx.flt.fault = 0 →
    ChanOk s.tx.chans c.toNat → ChanOk s.rx.chans c.toNat →
    (let x := channelAt s.tx.chans c.toNat
     let y := channelAt s.rx.chans c.toNat
     x.dtype = y.dtype ∧ x.alg = y.alg ∧ x.delta = y.delta ∧ x.rot = y.rot ∧ x.offset = y.offset ∧ x.nbits = y.nbits ∧
       x.const = y.const ∧ x.prev = y.prev) →
    s1.tx.stream s.cfg = s.tx.stream s.cfg ++ bits → s.rx.ahead s.cfg = bits ++ rest →
    (∀ (a b : U32) (n : Word), (Instr.eVec c a n).wellFormed s.cfg = true → n ≠ 0 →
        a.toNat + n.toNat ≤ s.cfg.rawBytes → b.toNat + n.toNat ≤ s.cfg.rawBytes → exec (.eVec c a n) s = .next s1 →
      ∃ s2, exec (.dVec c b n) s1 = .next s2 ∧ s2.rx.port.st = 0 ∧ s2.rx.port.v = n ∧
        ((∀ j < n.toNat, s2.rx.raw.readByte (b.toNat + j) = s.tx.raw.readByte (a.toNat + j)) ↔
          (channelAt s.tx.chans c.toNat).Carries s.tx.raw a.toNat n.toNat) ∧
        s2.rx.bitpos = s.rx.bitpos + bits.length ∧ s2.rx.ahead s.cfg = rest ∧
        (channelAt s2.rx.chans c.toNat).prev = (channelAt s2.tx.chans c.toNat).prev) ∧
    (∀ v : Word, exec (.eWord c v) s = .next s1 →
      ∃ s2, exec (.dWord c) s1 = .next s2 ∧ s2.rx.port.st = 0 ∧
        (s2.rx.port.v.toNat = v.toNat % 2 ^ (channelAt s.tx.chans c.toNat).width ↔
          ((channelAt s.tx.chans c.toNat).alg = .constant →
            constantWord (channelAt s.tx.chans c.toNat) = v.toNat % 2 ^ (channelAt s.tx.chans c.toNat).width)) ∧
        s2.rx.bitpos = s.rx.bitpos + bits.length ∧ s2.rx.ahead s.cfg = rest ∧
        (channelAt s2.rx.chans c.toNat).prev = (channelAt s2.tx.chans c.toNat).prev)

/-! ## The container generator -/

/-- `G.ADDCH` with `LAYOUT_OPEN` and `P.ADDCH`: the channel is registered last, configured and active fields from the
descriptor, the others at `ROT = 0`, `OFFSET = 0`, `NBITS = w`, `CONST = 0`, `PREV = 0`; its index is returned: R241,
R273. -/
def Obligations.AddchRegisters : Prop :=
  ∀ (s : State) (reps : U32) (dtype : DType) (alg : Alg) (delta permit : Bool), reps ≠ 0 →
    let desc := BitVec.ofNat 64 (dtype.code + 2 ^ 8 * alg.code + 2 ^ 16 * bit delta + 2 ^ 17 * bit permit)
    let ch : Channel := {
      reps := reps, dtype := dtype, calg := alg, cdelta := delta, permrot := permit, alg := alg, delta := delta,
      rot := 0, offset := 0, nbits := BitVec.ofNat 6 (8 * dtype.size), const := 0, prev := 0 }
    (s.tx.Ready → s.tx.layoutOpen = true → s.tx.chans.length ≠ s.cfg.maxChannels → exec (.gAddch reps desc) s =
      .next { s with tx := { s.tx with chans := s.tx.chans ++ [ch] }.respond s.tx.chans.length }) ∧
    (s.rx.flt.fault = 0 → s.rx.chans.length ≠ s.cfg.maxChannels → exec (.pAddch reps desc) s =
      .next { s with rx := { s.rx with chans := s.rx.chans ++ [ch] }.respond s.rx.chans.length })

/-- The refusals of `ADDCH`, first failing check first; only `G.ADDCH` looks at `LAYOUT_OPEN`: R241, R273. -/
def Obligations.AddchRefuses : Prop :=
  ∀ (s : State) (reps : U32) (desc : Word),
    let type := desc.toNat % 2 ^ 8
    let alg := desc.toNat / 2 ^ 8 % 2 ^ 8
    let checks := fun (nchan : Nat) (refuses : Raise → Prop) =>
      (desc.toNat / 2 ^ 18 ≠ 0 → refuses ⟨.badOperand, desc.toNat % 2 ^ 32, 0⟩) ∧
      (desc.toNat / 2 ^ 18 = 0 →
        (8 ≤ type → refuses ⟨.badOperand, type, 1⟩) ∧
        (type = 6 ∨ type = 7 → refuses ⟨.unsupportedFeature, type, 1⟩) ∧
        (type ≤ 5 →
          (4 ≤ alg → refuses ⟨.badOperand, alg, 2⟩) ∧
          (alg ≤ 3 → reps = 0 → refuses ⟨.badOperand, 0, 3⟩) ∧
          (alg ≤ 3 → reps ≠ 0 → nchan = s.cfg.maxChannels →
            refuses ⟨.bufferSizeExceeded, nchan, s.cfg.maxChannels⟩)))
    (s.tx.Ready → s.tx.layoutOpen = true → checks s.tx.chans.length fun e =>
      exec (.gAddch reps desc) s = .next { s with tx := s.tx.raise e }) ∧
    (s.rx.flt.fault = 0 → checks s.rx.chans.length fun e =>
      exec (.pAddch reps desc) s = .next { s with rx := s.rx.raise e }) ∧
    (s.tx.Ready → s.tx.layoutOpen = false →
      exec (.gAddch reps desc) s = .next { s with tx := s.tx.raise ⟨.illegalState, 0x30, s.tx.status⟩ })

/-- `G.RESETCH` and `P.RESETCH`: no channel is registered any more; `G.RESETCH` opens the layout. `G.RESTORE ch`: the
configured codec back in force, nothing else changed; an unregistered channel raises `BadOperand(ch, NCHAN)`: R242, R274,
R243. -/
def Obligations.ChannelsResetAndRestored : Prop :=
  ∀ (s : State) (c : BitVec 16),
    (s.rx.flt.fault = 0 → exec .pResetch s = .next { s with rx := { s.rx with chans := [] }.respond 0 }) ∧
    (s.tx.Ready →
      exec .gResetch s = .next { s with tx := { s.tx with chans := [], layoutOpen := true }.respond 0 } ∧
      (c.toNat < s.tx.chans.length →
        let ch := channelAt s.tx.chans c.toNat
        exec (.gRestore c) s = .next { s with
          tx := { s.tx with
            chans := s.tx.chans.set c.toNat { ch with alg := ch.calg, delta := ch.cdelta } }.respond 0 }) ∧
      (s.tx.chans.length ≤ c.toNat → exec (.gRestore c) s =
        .next { s with tx := s.tx.raise ⟨.badOperand, c.toNat, s.tx.chans.length⟩ }))

/-- `G.SECTION len` where no check of R244 fails: the file header before the first section or the NOT_LAST tag before a
later one, the padding, the section header of the active fields, the padding, the whole frames and the partial frame coded
from histories of 0, and the CRC of the raw bytes are appended; the counters and `GSTATE` go forward, the layout is shut, the
configured codecs are back in force, `len` is returned; raw memory behind the section and its ghost bytes is as before, what
becomes of the section's own bytes is left open (R86, log 11, log 13): R245 to R253, R119, R121. -/
def Obligations.SectionWritten : Prop :=
  ∀ (s : State) (len : Word), s.Inv → s.tx.Ready → SectionOk s.cfg len.toNat s.tx →
    ∃ t', exec (.gSection len) s = .next { s with tx := t'.respond len.toNat } ∧
      ({ s.tx.sectionClosed s.cfg len.toNat with raw := t'.raw, freeTick := t'.freeTick } : Tx).Appended s.cfg t'
        (s.tx.leadBits s.cfg ++
        sectionBits s.cfg s.tx.flags s.tx.chans s.tx.raw len.toNat
          (s.tx.bitpos + (s.tx.leadBits s.cfg).length)) ∧
      ∀ a, len.toNat + s.cfg.maxGhostBytes ≤ a → t'.raw.readByte a = s.tx.raw.readByte a

/-- The refusals of `G.SECTION`, first failing check first: R244, R201. That the lowest channel is named where the counts of
several do not fit in the field is the model's choice, not the spec's (log 28, DESIGN CHOICE). -/
def Obligations.SectionRefused : Prop :=
  ∀ (s : State) (len : Word), s.tx.Ready →
    let refuses := fun e : Raise => exec (.gSection len) s = .next { s with tx := s.tx.raise e }
    let first := s.tx.gstate = .notStarted
    let reps := 1 < s.tx.chans.length ∧ flagNoReps s.tx.flags = false
    (len = 0 → refuses ⟨.badOperand, 0, 0⟩) ∧
    (s.cfg.maxSectionLength < len.toNat →
      refuses ⟨.bufferSizeExceeded, len.toNat % 2 ^ 32, s.cfg.maxSectionLength⟩) ∧
    (len ≠ 0 → len.toNat ≤ s.cfg.maxSectionLength →
      (s.tx.chans = [] → refuses ⟨.illegalState, 0x33, s.tx.status⟩) ∧
      (s.tx.chans ≠ [] →
        (first → flagToc s.tx.flags = true ∨ flagReserved s.tx.flags = true →
          refuses ⟨.unsupportedFeature, s.tx.flags.toNat, 0⟩) ∧
        (first → flagToc s.tx.flags = false → flagReserved s.tx.flags = false → flagName s.tx.flags = true →
          0 ∉ s.tx.name → refuses ⟨.illegalState, 0x33, 1⟩) ∧
        (¬first ∨ (flagToc s.tx.flags = false ∧ flagReserved s.tx.flags = false ∧
            (flagName s.tx.flags = true → 0 ∈ s.tx.name)) →
          (flagOneChan s.tx.flags = true → s.tx.chans.length ≠ 1 → refuses ⟨.illegalState, 0x33, 2⟩) ∧
          (flagOneChan s.tx.flags = false ∨ s.tx.chans.length = 1 →
            (¬reps → (∃ ch ∈ s.tx.chans, ch.reps ≠ 1) → refuses ⟨.illegalState, 0x33, 3⟩) ∧
            (∀ c < s.tx.chans.length, reps → 2 ^ s.cfg.repsBits ≤ (channelAt s.tx.chans c).reps.toNat →
              (∀ d < c, (channelAt s.tx.chans d).reps.toNat < 2 ^ s.cfg.repsBits) →
              refuses ⟨.badOperand, (channelAt s.tx.chans c).reps.toNat, c⟩) ∧
            (∀ c < s.tx.chans.length,
              (reps → ∀ ch ∈ s.tx.chans, ch.reps.toNat < 2 ^ s.cfg.repsBits) →
              (¬reps → ∀ ch ∈ s.tx.chans, ch.reps = 1) → (∀ d < c, ChanOk s.tx.chans d) →
              let ch := channelAt s.tx.chans c
              (ch.width ≤ ch.rot.toNat → refuses ⟨.badOperand, ch.rot.toNat, ch.width⟩) ∧
              (ch.rot.toNat < ch.width → ch.rot ≠ 0 → ch.permrot = false → refuses ⟨.illegalState, 0x33, c⟩) ∧
              (ch.rot.toNat < ch.width → ch.rot = 0 ∨ ch.permrot = true → ch.alg = .reducedBinary →
                ch.width < ch.nbits.toNat → refuses ⟨.badOperand, ch.nbits.toNat, ch.width⟩))))))

/-- `G.FINAL` after a section: the LAST tag, then the end of the stream: everything is in the sink, padded to a whole byte,
`BITPOS` counts the tag and the padding, `CLOSED` is 1 and `GSTATE` is `Finalized`; without a section it raises
`IllegalState(CW, STATUS)`: R254, R255, R144. -/
def Obligations.FileFinalized : Prop :=
  ∀ s : State, s.Inv → s.tx.Ready →
    (s.tx.gstate = .sectionClosed → ∃ t' : Tx, exec .gFinal s = .next { s with tx := t'.respond 0 } ∧
      t' = { s.tx with
        wbuf := t'.wbuf, wptr := 0, woff := 0, closed := true, gstate := .finalized,
        bitpos := s.tx.bitpos + 4 + (8 - (s.tx.bitpos + 4) % 8) % 8,
        sunk := t'.sunk, sink := t'.sink } ∧
      byteBits t'.sink = s.tx.stream s.cfg ++ [true, true, true, true] ++
        List.replicate ((8 - (s.tx.bitpos + 4) % 8) % 8) false ∧
      s.tx.sink <+: t'.sink ∧ 8 * t'.sunk = t'.bitpos ∧ t'.WriterInv s.cfg) ∧
    (s.tx.gstate ≠ .sectionClosed → exec .gFinal s =
      .next { s with tx := s.tx.raise ⟨.illegalState, 0x34, s.tx.status⟩ })

/-! ## The container parser -/

/-- `P.HEADER` in `NoHeader` in front of a file header: the header is consumed, `MTIME`, `FLAGS` and the fields the flags
announce are loaded, nothing else, `PSTATE` is `HeaderRead`, the flags are returned: R271, R116. -/
def Obligations.HeaderParsed : Prop :=
  ∀ (s : State) (flags : BitVec 8) (mtime rawSize : U32) (name : List Byte) (rest : List Bool), s.Inv →
    s.rx.flt.fault = 0 → s.rx.pstate = .noHeader → flagToc flags = false → flagReserved flags = false →
    (flagName flags = true → 0 ∈ name ∧ (nameField name).length ≤ s.cfg.nameMax) →
    s.rx.ahead s.cfg = headerBits s.cfg flags mtime rawSize name ++ rest →
    ∃ r', exec .pHeader s = .next { s with rx := r'.respond flags.toNat } ∧
      (s.rx.headerLoaded flags mtime rawSize name).Consumed s.cfg r' (headerBits s.cfg flags mtime rawSize name) ∧
      r'.ahead s.cfg = rest

/-- The refusals of `P.HEADER`, field by field, with what is loaded by then: out of `NoHeader`, `IllegalState(CW, STATUS)`;
two wrong first bytes, `NotASlimFile`; a flag byte with TOC or the reserved bit, `UnsupportedFeature(flags, 0)`; `NAME_MAX`
bytes of name without a terminator, `CorruptStream(NAME_MAX, 0)`; an extra field of `x ≠ 0` bytes, `UnsupportedFeature(x, 1)`;
a stream that ends inside a field, `TruncatedFile` with the position where that field begins: R271, R272, R283. -/
def Obligations.HeaderRefused : Prop :=
  ∀ s : State, s.Inv → s.rx.flt.fault = 0 →
    (s.rx.pstate ≠ .noHeader → exec .pHeader s =
      .next { s with rx := s.rx.raise ⟨.illegalState, 0xB0, s.rx.status⟩ }) ∧
    (s.rx.pstate = .noHeader →
      let meets := fun (bits : List Bool) (e : Raise) (loaded : Rx) => ∀ rest, s.rx.ahead s.cfg = bits ++ rest →
        ∃ r', exec .pHeader s = .next { s with rx := r' } ∧ loaded.FailedWith e r'
      let ends := fun (bits : List Bool) (n : Nat) (loaded : Rx) => ∀ rest, rest.length < n →
        s.rx.ahead s.cfg = bits ++ rest → ∃ r', exec .pHeader s = .next { s with rx := r' } ∧
        loaded.FailedWith (truncatedAt (s.rx.bitpos + bits.length)) r'
      (∀ m0 m1 : Byte, m0 ≠ s.cfg.magic0 ∨ m1 ≠ s.cfg.magic1 → meets (byteBits [m0, m1])
        ⟨.notASlimFile, m0.toNat + 256 * m1.toNat, s.cfg.magic0.toNat + 256 * s.cfg.magic1.toNat⟩ s.rx) ∧
      ends [] 8 s.rx ∧ (∀ m0 : Byte, ends (byteBits [m0]) 8 s.rx) ∧
      let magic := byteBits [s.cfg.magic0, s.cfg.magic1]
      ends magic 32 s.rx ∧
      ∀ mtime : U32, ends (magic ++ fieldBits 32 mtime.toNat) 8 { s.rx with mtime := mtime } ∧
      ∀ flags : BitVec 8,
        let flagged : Rx := { s.rx with mtime := mtime, flags := flags }
        let front := magic ++ fieldBits 32 mtime.toNat ++ fieldBits 8 flags.toNat
        (flagToc flags = true ∨ flagReserved flags = true →
          meets front ⟨.unsupportedFeature, flags.toNat, 0⟩ flagged) ∧
        (flagToc flags = false → flagReserved flags = false →
          (flagSize flags = true → ends front 32 flagged) ∧
          ∀ size : U32,
            let sized : Rx := if flagSize flags then { flagged with rawSize := size } else flagged
            let front := front ++ (if flagSize flags then fieldBits 32 size.toNat else [])
            (flagName flags = true → ∀ bs : List Byte, 0 ∉ bs →
              (bs.length < s.cfg.nameMax →
                ends (front ++ byteBits bs) 8 { sized with name := bs ++ s.rx.name.drop bs.length }) ∧
              (bs.length = s.cfg.nameMax →
                meets (front ++ byteBits bs) ⟨.corruptStream, s.cfg.nameMax, 0⟩ { sized with name := bs })) ∧
            (flagXtra flags = true → ∀ name : List Byte,
              (flagName flags = true → 0 ∈ name ∧ (nameField name).length ≤ s.cfg.nameMax) →
              let named : Rx := if flagName flags then
                { sized with name := nameField name ++ s.rx.name.drop (nameField name).length } else sized
              let front := front ++ (if flagName flags then byteBits (nameField name) else [])
              ends front 16 named ∧
              ∀ x : BitVec 16, x ≠ 0 →
                meets (front ++ fieldBits 16 x.toNat) ⟨.unsupportedFeature, x.toNat, 1⟩ { named with xtraLen := x })))

/-- `P.SECTION` in `HeaderRead` in front of a section of `len` bytes of `src`, written under the channels `chans`, and its
foot tag; the padding around the section header may be any bits, the words may have any codes the decode side accepts, and the
ghost bytes of a last partial word may be any bytes (`WordsOf`): all of it is consumed, the channels are the stream's,
`RAWRX[0 .. len-1]` holds the real bytes and everything behind them and the ghost bytes is as before, both CRC registers hold
the CRC of the real bytes where there is one, the counters go forward, `PSTATE` is `Exhausted` after the LAST tag, `len` is
returned; what `RAWRX` holds in place of the ghost bytes is left open (R86, log 12, log 13): R275 to R281, R284, R84, R225,
R118, R125, R165. -/
def Obligations.SectionParsed : Prop :=
  ∀ (s : State) (chans : List Channel) (src : RawMem) (words : WordsAt) (len : Nat) (last : Bool)
      (bits rest : List Bool), s.Inv → s.rx.flt.fault = 0 → s.rx.pstate = .headerRead → LayoutOk s.cfg s.rx.flags chans → 0 < len →
    len ≤ s.cfg.maxSectionLength →
    (∀ v ∈ sectionVectors chans len, (channelAt chans v.1).Carries src v.2.1 v.2.2) →
    WordsOf src words → SectionCoded s.cfg s.rx.flags chans words len s.rx.bitpos bits →
    let whole := bits ++ crcBits s.cfg s.rx.flags src len ++ fieldBits 4 (if last then 0xF else 0x8)
    s.rx.ahead s.cfg = whole ++ rest →
    ∃ r', exec .pSection s = .next { s with rx := r'.respond len } ∧
      ({ s.rx.sectionLoaded s.cfg src words chans len last with
        raw := r'.raw, freeTick := r'.freeTick } : Rx).Consumed s.cfg r' whole ∧
      r'.ahead s.cfg = rest ∧ (∀ a < len, r'.raw.readByte a = src.readByte a) ∧
      ∀ a, len + s.cfg.maxGhostBytes ≤ a → r'.raw.readByte a = s.rx.raw.readByte a

/-- `P.SECTION` in the other states: in `Exhausted` it returns 0, reads nothing and changes nothing; it returns 0 in no other
state; in `NoHeader` it raises `IllegalState(CW, STATUS)`: R282, R275. -/
def Obligations.SectionOtherStates : Prop :=
  ∀ s : State, s.Inv → s.rx.flt.fault = 0 →
    (∀ s', exec .pSection s = .next s' → s'.rx.port.st = 0 → s'.rx.port.v = 0 → s.rx.pstate = .exhausted) ∧
    (s.rx.pstate = .exhausted → exec .pSection s = .next { s with rx := s.rx.respond 0 }) ∧
    (s.rx.pstate = .noHeader → exec .pSection s =
      .next { s with rx := s.rx.raise ⟨.illegalState, 0xB1, s.rx.status⟩ })

/-- The faults of `P.SECTION` behind the section header, whatever the padding, the codes and the ghost bytes: behind whole vectors and whole
pairs, the refusals of a Run-Length channel's codec, `UnaryOverrun` or `CorruptStream`, unchanged; a foot tag that is neither
`0x8` nor `0xF`, `CorruptStream(tag, 7)`; a stream that ends in front of the foot tag or of the CRC, `TruncatedFile` with the
position where it begins; a stream that ends inside the section, `TruncatedFile` with a position less than a word in front of
the end. After any fault of `P.SECTION`, `PSTATE`, `NSECT`, `TOTAL`, `SECT_SIZE`, `CTRL` and the header registers are what they
were, and an underrun is never reported as `EndOfStream`: R275, R281, R283, R184, R190. -/
def Obligations.SectionFaultFrame : Prop :=
  ∀ s : State, s.Inv → s.rx.flt.fault = 0 →
    (∀ s', exec .pSection s = .next s' → s'.rx.port.st ≠ 0 →
      s'.tx = s.tx ∧ s'.rx.port.st ≠ 3 ∧
      s'.rx = { s.rx with
        rbuf := s'.rx.rbuf, rcount := s'.rx.rcount, rptr := s'.rx.rptr, roff := s'.rx.roff, srcEof := s'.rx.srcEof,
        pulled := s'.rx.pulled, bitpos := s'.rx.bitpos, srcpos := s'.rx.srcpos, freeTick := s'.rx.freeTick,
        port := s'.rx.port, flt := s'.rx.flt, chans := s'.rx.chans, raw := s'.rx.raw, sectCrc := s'.rx.sectCrc,
        storedCrc := s'.rx.storedCrc }) ∧
    (∀ (chans : List Channel) (src : RawMem) (words : WordsAt) (len : Nat), s.rx.pstate = .headerRead →
      LayoutOk s.cfg s.rx.flags chans → 0 < len → len ≤ s.cfg.maxSectionLength → WordsOf src words →
      let fails := fun e : Raise => ∃ s', exec .pSection s = .next s' ∧ s'.rx.Reported e
      (∀ vs us c addr nbytes head data ps bits rest e, sectionVectors chans len = vs ++ (c, addr, nbytes) :: us →
        let ch := channelAt chans c
        let count := (nbytes + ch.size - 1) / ch.size
        let done := (ps.map Prod.snd).sum
        ch.alg = .runLength → (∀ p ∈ ps, p.1 < 2 ^ ch.width ∧ 0 < p.2) → done < count →
        HeadCoded s.cfg s.rx.flags chans len s.rx.bitpos head → VectorsCoded words (resetHistories chans) vs data →
        PairRefused s.cfg ch.width (count - done) bits e →
        s.rx.ahead s.cfg = head ++ data ++ (pairsBits ps ++ bits) ++ rest → fails e) ∧
      ((∀ v ∈ sectionVectors chans len, (channelAt chans v.1).Carries src v.2.1 v.2.2) →
        ∀ bits, SectionCoded s.cfg s.rx.flags chans words len s.rx.bitpos bits →
        let whole := bits ++ crcBits s.cfg s.rx.flags src len
        (∀ tag rest, tag < 16 → tag ≠ 0x8 → tag ≠ 0xF → s.rx.ahead s.cfg = whole ++ (fieldBits 4 tag ++ rest) →
          fails ⟨.corruptStream, tag, 7⟩) ∧
        (∀ rest, rest.length < 4 → s.rx.ahead s.cfg = whole ++ rest → fails (truncatedAt (s.rx.bitpos + whole.length))) ∧
        (flagCrc s.rx.flags = true → ∀ rest, rest.length < 32 → s.rx.ahead s.cfg = bits ++ rest →
          fails (truncatedAt (s.rx.bitpos + bits.length))) ∧
        (∀ more, more ≠ [] → whole = s.rx.ahead s.cfg ++ more →
          ∃ p, fails (truncatedAt p) ∧ s.rx.bitpos ≤ p ∧ p ≤ s.rx.bitpos + (s.rx.ahead s.cfg).length ∧
            s.rx.bitpos + (s.rx.ahead s.cfg).length < p + s.cfg.wordBits)))

/-- The CRC of a section, whatever its ghost bytes: over a stored word that is not the CRC of the real bytes, whatever follows
it, `P.SECTION` raises
`CrcMismatch(computed, stored)`, unless `CTRL.IGNORE_CRC` is 1: then, with either foot tag behind the word, it returns `len`
with both CRC registers loaded, and `PSTATE` is `Exhausted` after the LAST tag: R280, R281. -/
def Obligations.CrcChecked : Prop :=
  ∀ (s : State) (chans : List Channel) (src : RawMem) (words : WordsAt) (len : Nat) (stored : U32)
      (bits rest : List Bool), s.Inv → s.rx.flt.fault = 0 → s.rx.pstate = .headerRead → flagCrc s.rx.flags = true → LayoutOk s.cfg s.rx.flags chans →
    0 < len → len ≤ s.cfg.maxSectionLength →
    (∀ v ∈ sectionVectors chans len, (channelAt chans v.1).Carries src v.2.1 v.2.2) →
    stored ≠ crc32 s.cfg (src.bytes 0 len) → WordsOf src words →
    SectionCoded s.cfg s.rx.flags chans words len s.rx.bitpos bits →
    s.rx.ahead s.cfg = bits ++ (fieldBits 32 stored.toNat ++ rest) →
    (s.rx.ignoreCrc = false → ∃ s', exec .pSection s = .next s' ∧ s'.rx.port.st = 2 ∧ s'.rx.port.v = 0 ∧
      s'.rx.flt = ⟨2, crc32 s.cfg (src.bytes 0 len), stored⟩) ∧
    (s.rx.ignoreCrc = true → ∀ (last : Bool) (behind : List Bool),
      rest = fieldBits 4 (if last then 0xF else 0x8) ++ behind →
      ∃ s', exec .pSection s = .next s' ∧ s'.rx.port.st = 0 ∧ s'.rx.port.v.toNat = len ∧ s'.rx.storedCrc = stored ∧
        s'.rx.sectCrc = crc32 s.cfg (src.bytes 0 len) ∧ s'.rx.flt.fault = 0 ∧
        s'.rx.pstate = (if last then .exhausted else .headerRead) ∧ s'.rx.ahead s.cfg = behind ∧
        ∀ a < len, s'.rx.raw.readByte a = src.readByte a)

/-! ## Round trips of the container -/

/-- One section through the container: what `G.SECTION len` and `G.FINAL` leave in the sink, a fresh parser reads back: the
flags and the header registers they announce, `len`, every raw byte, `Exhausted`, then 0: R287. -/
def Obligations.OneSectionRoundTrip : Prop :=
  ∀ (s : State) (len : Word), s.Inv → s.tx.Fresh → SectionOk s.cfg len.toNat s.tx →
    (∀ v ∈ sectionVectors s.tx.chans len.toNat, (channelAt s.tx.chans v.1).Carries s.tx.raw v.2.1 v.2.2) →
    ∃ s1 s2, exec (.gSection len) s = .next s1 ∧ exec .gFinal s1 = .next s2 ∧
      ∀ r : Rx, r.Inv s.cfg → r.Fresh s2.tx.sink →
        ∃ s3, exec .pHeader { s2 with rx := r } = .next s3 ∧ s3.rx.port.st = 0 ∧
          s3.rx.port.v.toNat = s.tx.flags.toNat ∧ s3.rx.flags = s.tx.flags ∧ s3.rx.mtime = s.tx.mtime ∧
          (flagSize s.tx.flags = true → s3.rx.rawSize = s.tx.rawSize) ∧
          (flagName s.tx.flags = true → nameField s3.rx.name = nameField s.tx.name) ∧
          State.Parses [(len.toNat, s.tx.raw)] s3

/-- The container round trip: any file of one or more sections, written with any commands that do not touch the stream in
between, is read back whole by a fresh parser: R287. -/
def Obligations.FileRoundTrip : Prop :=
  ∀ (s u s2 : State) (xs : List (Nat × RawMem)), s.Inv → s.tx.Fresh → s.Writes xs u → xs ≠ [] →
    exec .gFinal u = .next s2 →
    ∀ r : Rx, r.Inv s.cfg → r.Fresh s2.tx.sink →
      ∃ s3, exec .pHeader { s2 with rx := r } = .next s3 ∧ s3.rx.port.st = 0 ∧
        s3.rx.port.v.toNat = u.tx.flags.toNat ∧ s3.rx.flags = u.tx.flags ∧ s3.rx.mtime = u.tx.mtime ∧
        (flagSize u.tx.flags = true → s3.rx.rawSize = u.tx.rawSize) ∧
        (flagName u.tx.flags = true → nameField s3.rx.name = nameField u.tx.name) ∧
        State.Parses xs s3

/-! ## Section headers the parser refuses -/

/-- The refusals of `P.SECTION` in a section header, first failing check first: a size of 0 or above `MAX_SECTION_LENGTH`; no
channel, or more than `MAX_CHANNELS`; behind whole channels, a channel `c` with 0 repetitions, a type 6 or 7 or above, an
algorithm above 3, a rotation not below `w`, a sub-word wider than `w`. A stream that ends inside a field raises
`TruncatedFile` with the position where that field begins: R276, R277, R283. -/
def Obligations.SectionHeaderRefused : Prop :=
  ∀ (s : State) (pad : List Bool), s.Inv → s.rx.flt.fault = 0 → s.rx.pstate = .headerRead →
    pad.length = (8 - s.rx.bitpos % 8) % 8 →
    let K := s.cfg
    let flags := s.rx.flags
    let meets := fun (bits : List Bool) (e : Raise) => ∀ rest, s.rx.ahead K = bits ++ rest →
      ∃ s', exec .pSection s = .next s' ∧ s'.rx.Reported e
    let ends := fun (bits : List Bool) (n : Nat) => ∀ rest, rest.length < n → s.rx.ahead K = bits ++ rest →
      ∃ s', exec .pSection s = .next s' ∧ s'.rx.Reported (truncatedAt (s.rx.bitpos + bits.length))
    ends pad K.sectSizeBits ∧
    meets (pad ++ fieldBits K.sectSizeBits 0) ⟨.corruptStream, 0, 0⟩ ∧
    (∀ size, K.maxSectionLength < size → size < 2 ^ K.sectSizeBits →
      meets (pad ++ fieldBits K.sectSizeBits size) ⟨.bufferSizeExceeded, size, K.maxSectionLength⟩) ∧
    ∀ size, 0 < size → size ≤ K.maxSectionLength →
      let front := pad ++ fieldBits K.sectSizeBits size
      (flagOneChan flags = false →
        ends front K.numChanBits ∧ meets (front ++ fieldBits K.numChanBits 0) ⟨.corruptStream, 0, 1⟩ ∧
        ∀ n, K.maxChannels < n → n < 2 ^ K.numChanBits →
          meets (front ++ fieldBits K.numChanBits n) ⟨.bufferSizeExceeded, n, K.maxChannels⟩) ∧
      ∀ (n : Nat) (chans : List Channel), chans.length < n → n ≤ K.maxChannels → (flagOneChan flags = true → n = 1) →
        (∀ ch ∈ chans, ch.Ok ∧ ch.Codable ∧ if repsPresent flags n then ch.reps.toNat < 2 ^ K.repsBits else ch.reps = 1) →
        let c := chans.length
        let front := front ++ (if flagOneChan flags then [] else fieldBits K.numChanBits n) ++
          chans.flatMap (chanHeaderBits K (repsPresent flags n))
        let widths := (if repsPresent flags n then [K.repsBits] else []) ++ [1, K.nbitsBits, K.algBits, K.typeBits]
        (∀ (i : Nat) (bits : List Bool), i < widths.length → bits.length = (widths.take i).sum →
          ends (front ++ bits) (widths.getD i 0)) ∧
        ∀ reps delta rot alg type, reps < 2 ^ K.repsBits → (repsPresent flags n = false → reps = 1) → delta < 2 →
          rot < 2 ^ K.nbitsBits → alg < 2 ^ K.algBits → type < 2 ^ K.typeBits →
          let fields := front ++ (if repsPresent flags n then fieldBits K.repsBits reps else []) ++ fieldBits 1 delta ++
            fieldBits K.nbitsBits rot ++ fieldBits K.algBits alg ++ fieldBits K.typeBits type
          (reps = 0 → meets fields ⟨.corruptStream, c, 2⟩) ∧
          (reps ≠ 0 →
            (type = 6 ∨ type = 7 → meets fields ⟨.unsupportedFeature, type, c⟩) ∧
            (8 ≤ type → meets fields ⟨.corruptStream, type, 3⟩) ∧
            ∀ d : DType, d.code = type →
              (4 ≤ alg → meets fields ⟨.corruptStream, alg, 4⟩) ∧
              (alg < 4 → d.width ≤ rot → meets fields ⟨.corruptStream, rot, 5⟩) ∧
              (rot < d.width →
                (alg = 1 ∨ alg = 3 → ends fields d.width) ∧
                (alg = 1 → ∀ offset, ends (fields ++ fieldBits d.width offset) K.nbitsBits ∧
                  ∀ nb, d.width ≤ nb → nb < 2 ^ K.nbitsBits →
                    meets (fields ++ fieldBits d.width offset ++ fieldBits K.nbitsBits nb) ⟨.corruptStream, nb + 1, 6⟩)))
end

