-- ==== Sys2Proof/Laws/Bits.lean ====
section
/-! SUPPORT. Laws of the bit lists of Machine/Format.lean: fields, their numbers, bytes and words. -/

namespace Sys2Proof.Machine

@[simp] theorem fieldBits_length (n v : Nat) : (fieldBits n v).length = n := by simp [fieldBits]

@[simp] theorem fieldBits_zero_width (v : Nat) : fieldBits 0 v = [] := rfl

@[simp] theorem fieldBits_getElem (n v i : Nat) (h : i < (fieldBits n v).length) :
    (fieldBits n v)[i] = v.testBit i := by simp [fieldBits]

theorem fieldBits_ext {n : Nat} {u v : Nat} (h : ∀ i, i < n → u.testBit i = v.testBit i) :
    fieldBits n u = fieldBits n v := by
  apply List.ext_getElem <;> simp
  exact h

@[simp] theorem fieldBits_zero (n : Nat) : fieldBits n 0 = List.replicate n false := by
  apply List.ext_getElem <;> simp

theorem fieldBits_mod {n m : Nat} (h : n ≤ m) (v : Nat) : fieldBits n (v % 2 ^ m) = fieldBits n v :=
  fieldBits_ext fun i hi => by simp [Nat.testBit_mod_two_pow, show i < m by omega]

theorem fieldBits_append (a b v : Nat) : fieldBits (a + b) v = fieldBits a v ++ fieldBits b (v >>> a) := by
  simp [fieldBits, List.range_add, List.map_map, Function.comp_def, Nat.testBit_shiftRight]

theorem fieldBits_shiftRight {a n : Nat} (v : Nat) (h : a ≤ n) :
    fieldBits (n - a) (v >>> a) = (fieldBits n v).drop a := by
  conv_rhs => rw [show n = a + (n - a) by omega, fieldBits_append]
  rw [List.drop_left' (by simp)]

theorem fieldBits_take {a n : Nat} (v : Nat) (h : a ≤ n) : (fieldBits n v).take a = fieldBits a v := by
  conv_lhs => rw [show n = a + (n - a) by omega, fieldBits_append]
  rw [List.take_left' (by simp)]

theorem fieldBits_or_shift {a b x v : Nat} (hx : x < 2 ^ a) :
    fieldBits (a + b) (x ||| v <<< a) = fieldBits a x ++ fieldBits b v := by
  rw [fieldBits_append]
  congr 1
  · refine fieldBits_ext fun i hi => ?_
    simp [Nat.testBit_shiftLeft, show ¬ a ≤ i by omega]
  · refine fieldBits_ext fun i _ => ?_
    have : x.testBit (a + i) = false :=
      Nat.testBit_lt_two_pow (Nat.lt_of_lt_of_le hx (Nat.pow_le_pow_right (by omega) (by omega)))
    simp [Nat.testBit_shiftRight, Nat.testBit_shiftLeft, this]

theorem bitsValue_lt (l : List Bool) : bitsValue l < 2 ^ l.length := by
  induction l with
  | nil => simp [bitsValue]
  | cons b bs ih =>
    have : bit b ≤ 1 := by cases b <;> simp [bit]
    simp only [bitsValue, List.length_cons, Nat.pow_succ]
    omega

theorem bitsValue_append (l m : List Bool) : bitsValue (l ++ m) = bitsValue l + 2 ^ l.length * bitsValue m := by
  induction l with
  | nil => simp [bitsValue]
  | cons b bs ih => simp [bitsValue, ih, Nat.pow_succ]; ring

theorem fieldBits_cons (n v : Nat) : fieldBits (n + 1) v = v.testBit 0 :: fieldBits n (v / 2) := by
  rw [Nat.add_comm, fieldBits_append, Nat.shiftRight_one]
  rfl

theorem bit_testBit_zero (v : Nat) : bit (v.testBit 0) = v % 2 := by
  rcases Nat.mod_two_eq_zero_or_one v with h | h <;> simp [bit, Nat.testBit_zero, h]

@[simp] theorem bitsValue_fieldBits (n v : Nat) : bitsValue (fieldBits n v) = v % 2 ^ n := by
  induction n generalizing v with
  | zero => simp [bitsValue, Nat.mod_one]
  | succ n ih =>
    rw [fieldBits_cons, bitsValue, ih, bit_testBit_zero, Nat.pow_succ, Nat.mul_comm (2 ^ n) 2,
      Nat.mod_mul]

theorem fieldBits_bitsValue (l : List Bool) : fieldBits l.length (bitsValue l) = l := by
  induction l with
  | nil => rfl
  | cons b bs ih =>
    have h0 : (bit b + 2 * bitsValue bs) / 2 = bitsValue bs := by cases b <;> simp [bit] <;> omega
    have h1 : (bit b + 2 * bitsValue bs).testBit 0 = b := by cases b <;> simp [bit, Nat.testBit_zero]
    rw [List.length_cons, fieldBits_cons, bitsValue, h0, h1, ih]

theorem bitsValue_inj {l m : List Bool} (h : l.length = m.length) (hv : bitsValue l = bitsValue m) : l = m := by
  rw [← fieldBits_bitsValue l, ← fieldBits_bitsValue m, h, hv]

@[simp] theorem byteBits_nil : byteBits [] = [] := rfl

@[simp] theorem byteBits_cons (b : Byte) (bs : List Byte) :
    byteBits (b :: bs) = fieldBits 8 b.toNat ++ byteBits bs := rfl

@[simp] theorem byteBits_append (a b : List Byte) : byteBits (a ++ b) = byteBits a ++ byteBits b := by
  simp [byteBits]

@[simp] theorem byteBits_length (bs : List Byte) : (byteBits bs).length = 8 * bs.length := by
  induction bs with
  | nil => rfl
  | cons b bs ih => simp [ih]; omega

theorem fieldBits_bytesValue (bs : List Byte) (n : Nat) (h : bs.length ≤ n) :
    fieldBits (8 * n) (bytesValue bs) = byteBits bs ++ List.replicate (8 * (n - bs.length)) false := by
  induction bs generalizing n with
  | nil => simp [bytesValue]
  | cons b bs ih =>
    obtain ⟨n, rfl⟩ : ∃ m, n = m + 1 := ⟨n - 1, by simp at h; omega⟩
    have hs : (b.toNat + 256 * bytesValue bs) >>> 8 = bytesValue bs := by
      rw [Nat.shiftRight_eq_div_pow]; have := b.isLt; omega
    have hm : fieldBits 8 (b.toNat + 256 * bytesValue bs) = fieldBits 8 b.toNat := by
      rw [← fieldBits_mod (le_refl 8)]
      congr 1
      have := b.isLt; omega
    rw [show 8 * (n + 1) = 8 + 8 * n by ring, fieldBits_append, bytesValue, hs, hm,
      ih n (by simpa using h)]
    simp

theorem bytesValue_eq (bs : List Byte) : bytesValue bs = bitsValue (byteBits bs) := by
  have h := fieldBits_bytesValue bs bs.length (le_refl _)
  have hlt : bytesValue bs < 2 ^ (8 * bs.length) := by
    induction bs with
    | nil => simp [bytesValue]
    | cons b bs ih =>
      have := ih (fieldBits_bytesValue bs bs.length (le_refl _))
      have hb := b.isLt
      rw [List.length_cons, show 8 * (bs.length + 1) = 8 * bs.length + 8 by ring, Nat.pow_add, bytesValue]
      omega
  simp only [Nat.sub_self, Nat.mul_zero, List.replicate_zero, List.append_nil] at h
  rw [← h, bitsValue_fieldBits, Nat.mod_eq_of_lt hlt]

theorem bytesValue_lt (bs : List Byte) : bytesValue bs < 2 ^ (8 * bs.length) := by
  rw [bytesValue_eq, ← byteBits_length]; exact bitsValue_lt _

theorem wordByte_toNat (x : Word) (j : Nat) : (wordByte x j).toNat = x.toNat >>> (8 * j) % 2 ^ 8 := by
  simp [wordByte, BitVec.extractLsb'_toNat]

theorem byteBits_wordBytesLE (n : Nat) (x : Word) : byteBits (wordBytesLE n x) = fieldBits (8 * n) x.toNat := by
  induction n with
  | zero => rfl
  | succ n ih =>
    rw [wordBytesLE, List.range_succ, List.map_append, byteBits_append, ← wordBytesLE, ih,
      show 8 * (n + 1) = 8 * n + 8 by ring, fieldBits_append]
    congr 1
    simp only [byteBits_cons, byteBits_nil, List.append_nil, List.map_cons, List.map_nil, wordByte_toNat]
    exact fieldBits_mod (le_refl 8) _

@[simp] theorem wordBytesLE_length (n : Nat) (x : Word) : (wordBytesLE n x).length = n := by simp [wordBytesLE]

end Sys2Proof.Machine
end

