-- ==== Sys2Proof/Laws/State.lean ====
section
/-! SUPPORT. One lemma for each field of each update of the engines' records, true by unfolding and tagged `@[simp]`, so
that no proof opens an update. -/

namespace Sys2Proof.Machine

/-! ### `Tx.raise` -/

@[simp] theorem Tx.raise_port (t : Tx) (e : Raise) : (t.raise e).port = t.port.failed e.code.code := rfl
@[simp] theorem Tx.raise_wbuf (t : Tx) (e : Raise) : (t.raise e).wbuf = t.wbuf := rfl
@[simp] theorem Tx.raise_wptr (t : Tx) (e : Raise) : (t.raise e).wptr = t.wptr := rfl
@[simp] theorem Tx.raise_woff (t : Tx) (e : Raise) : (t.raise e).woff = t.woff := rfl
@[simp] theorem Tx.raise_closed (t : Tx) (e : Raise) : (t.raise e).closed = t.closed := rfl
@[simp] theorem Tx.raise_sunk (t : Tx) (e : Raise) : (t.raise e).sunk = t.sunk := rfl
@[simp] theorem Tx.raise_bitpos (t : Tx) (e : Raise) : (t.raise e).bitpos = t.bitpos := rfl
@[simp] theorem Tx.raise_gstate (t : Tx) (e : Raise) : (t.raise e).gstate = t.gstate := rfl
@[simp] theorem Tx.raise_layoutOpen (t : Tx) (e : Raise) : (t.raise e).layoutOpen = t.layoutOpen := rfl
@[simp] theorem Tx.raise_flt (t : Tx) (e : Raise) : (t.raise e).flt = t.flt.record e := rfl
@[simp] theorem Tx.raise_flags (t : Tx) (e : Raise) : (t.raise e).flags = t.flags := rfl
@[simp] theorem Tx.raise_mtime (t : Tx) (e : Raise) : (t.raise e).mtime = t.mtime := rfl
@[simp] theorem Tx.raise_rawSize (t : Tx) (e : Raise) : (t.raise e).rawSize = t.rawSize := rfl
@[simp] theorem Tx.raise_name (t : Tx) (e : Raise) : (t.raise e).name = t.name := rfl
@[simp] theorem Tx.raise_chans (t : Tx) (e : Raise) : (t.raise e).chans = t.chans := rfl
@[simp] theorem Tx.raise_nsect (t : Tx) (e : Raise) : (t.raise e).nsect = t.nsect := rfl
@[simp] theorem Tx.raise_total (t : Tx) (e : Raise) : (t.raise e).total = t.total := rfl
@[simp] theorem Tx.raise_sectSize (t : Tx) (e : Raise) : (t.raise e).sectSize = t.sectSize := rfl
@[simp] theorem Tx.raise_sectCrc (t : Tx) (e : Raise) : (t.raise e).sectCrc = t.sectCrc := rfl
@[simp] theorem Tx.raise_raw (t : Tx) (e : Raise) : (t.raise e).raw = t.raw := rfl
@[simp] theorem Tx.raise_sink (t : Tx) (e : Raise) : (t.raise e).sink = t.sink := rfl
@[simp] theorem Tx.raise_freeTick (t : Tx) (e : Raise) : (t.raise e).freeTick = t.freeTick := rfl

/-! ### `Tx.respond` -/

@[simp] theorem Tx.respond_port (t : Tx) (v : Nat) : (t.respond v).port = t.port.answered v := rfl
@[simp] theorem Tx.respond_wbuf (t : Tx) (v : Nat) : (t.respond v).wbuf = t.wbuf := rfl
@[simp] theorem Tx.respond_wptr (t : Tx) (v : Nat) : (t.respond v).wptr = t.wptr := rfl
@[simp] theorem Tx.respond_woff (t : Tx) (v : Nat) : (t.respond v).woff = t.woff := rfl
@[simp] theorem Tx.respond_closed (t : Tx) (v : Nat) : (t.respond v).closed = t.closed := rfl
@[simp] theorem Tx.respond_sunk (t : Tx) (v : Nat) : (t.respond v).sunk = t.sunk := rfl
@[simp] theorem Tx.respond_bitpos (t : Tx) (v : Nat) : (t.respond v).bitpos = t.bitpos := rfl
@[simp] theorem Tx.respond_gstate (t : Tx) (v : Nat) : (t.respond v).gstate = t.gstate := rfl
@[simp] theorem Tx.respond_layoutOpen (t : Tx) (v : Nat) : (t.respond v).layoutOpen = t.layoutOpen := rfl
@[simp] theorem Tx.respond_flt (t : Tx) (v : Nat) : (t.respond v).flt = t.flt := rfl
@[simp] theorem Tx.respond_flags (t : Tx) (v : Nat) : (t.respond v).flags = t.flags := rfl
@[simp] theorem Tx.respond_mtime (t : Tx) (v : Nat) : (t.respond v).mtime = t.mtime := rfl
@[simp] theorem Tx.respond_rawSize (t : Tx) (v : Nat) : (t.respond v).rawSize = t.rawSize := rfl
@[simp] theorem Tx.respond_name (t : Tx) (v : Nat) : (t.respond v).name = t.name := rfl
@[simp] theorem Tx.respond_chans (t : Tx) (v : Nat) : (t.respond v).chans = t.chans := rfl
@[simp] theorem Tx.respond_nsect (t : Tx) (v : Nat) : (t.respond v).nsect = t.nsect := rfl
@[simp] theorem Tx.respond_total (t : Tx) (v : Nat) : (t.respond v).total = t.total := rfl
@[simp] theorem Tx.respond_sectSize (t : Tx) (v : Nat) : (t.respond v).sectSize = t.sectSize := rfl
@[simp] theorem Tx.respond_sectCrc (t : Tx) (v : Nat) : (t.respond v).sectCrc = t.sectCrc := rfl
@[simp] theorem Tx.respond_raw (t : Tx) (v : Nat) : (t.respond v).raw = t.raw := rfl
@[simp] theorem Tx.respond_sink (t : Tx) (v : Nat) : (t.respond v).sink = t.sink := rfl
@[simp] theorem Tx.respond_freeTick (t : Tx) (v : Nat) : (t.respond v).freeTick = t.freeTick := rfl

/-! ### `Tx.answerFaulted` -/

@[simp] theorem Tx.answerFaulted_port (t : Tx) : (t.answerFaulted).port = t.port.failed stFaulted := rfl
@[simp] theorem Tx.answerFaulted_wbuf (t : Tx) : (t.answerFaulted).wbuf = t.wbuf := rfl
@[simp] theorem Tx.answerFaulted_wptr (t : Tx) : (t.answerFaulted).wptr = t.wptr := rfl
@[simp] theorem Tx.answerFaulted_woff (t : Tx) : (t.answerFaulted).woff = t.woff := rfl
@[simp] theorem Tx.answerFaulted_closed (t : Tx) : (t.answerFaulted).closed = t.closed := rfl
@[simp] theorem Tx.answerFaulted_sunk (t : Tx) : (t.answerFaulted).sunk = t.sunk := rfl
@[simp] theorem Tx.answerFaulted_bitpos (t : Tx) : (t.answerFaulted).bitpos = t.bitpos := rfl
@[simp] theorem Tx.answerFaulted_gstate (t : Tx) : (t.answerFaulted).gstate = t.gstate := rfl
@[simp] theorem Tx.answerFaulted_layoutOpen (t : Tx) : (t.answerFaulted).layoutOpen = t.layoutOpen := rfl
@[simp] theorem Tx.answerFaulted_flt (t : Tx) : (t.answerFaulted).flt = t.flt := rfl
@[simp] theorem Tx.answerFaulted_flags (t : Tx) : (t.answerFaulted).flags = t.flags := rfl
@[simp] theorem Tx.answerFaulted_mtime (t : Tx) : (t.answerFaulted).mtime = t.mtime := rfl
@[simp] theorem Tx.answerFaulted_rawSize (t : Tx) : (t.answerFaulted).rawSize = t.rawSize := rfl
@[simp] theorem Tx.answerFaulted_name (t : Tx) : (t.answerFaulted).name = t.name := rfl
@[simp] theorem Tx.answerFaulted_chans (t : Tx) : (t.answerFaulted).chans = t.chans := rfl
@[simp] theorem Tx.answerFaulted_nsect (t : Tx) : (t.answerFaulted).nsect = t.nsect := rfl
@[simp] theorem Tx.answerFaulted_total (t : Tx) : (t.answerFaulted).total = t.total := rfl
@[simp] theorem Tx.answerFaulted_sectSize (t : Tx) : (t.answerFaulted).sectSize = t.sectSize := rfl
@[simp] theorem Tx.answerFaulted_sectCrc (t : Tx) : (t.answerFaulted).sectCrc = t.sectCrc := rfl
@[simp] theorem Tx.answerFaulted_raw (t : Tx) : (t.answerFaulted).raw = t.raw := rfl
@[simp] theorem Tx.answerFaulted_sink (t : Tx) : (t.answerFaulted).sink = t.sink := rfl
@[simp] theorem Tx.answerFaulted_freeTick (t : Tx) : (t.answerFaulted).freeTick = t.freeTick := rfl

/-! ### `Tx.emitWords` -/

@[simp] theorem Tx.emitWords_port (t : Tx) (K : Config) (m : Nat) : (Tx.emitWords K m t).port = t.port := rfl
@[simp] theorem Tx.emitWords_wbuf (t : Tx) (K : Config) (m : Nat) :
    (Tx.emitWords K m t).wbuf = List.replicate m 0 ++ t.wbuf.drop m := rfl
@[simp] theorem Tx.emitWords_wptr (t : Tx) (K : Config) (m : Nat) : (Tx.emitWords K m t).wptr = t.wptr := rfl
@[simp] theorem Tx.emitWords_woff (t : Tx) (K : Config) (m : Nat) : (Tx.emitWords K m t).woff = t.woff := rfl
@[simp] theorem Tx.emitWords_closed (t : Tx) (K : Config) (m : Nat) : (Tx.emitWords K m t).closed = t.closed := rfl
@[simp] theorem Tx.emitWords_sunk (t : Tx) (K : Config) (m : Nat) :
    (Tx.emitWords K m t).sunk = t.sunk + m * K.wordBytes := rfl
@[simp] theorem Tx.emitWords_bitpos (t : Tx) (K : Config) (m : Nat) : (Tx.emitWords K m t).bitpos = t.bitpos := rfl
@[simp] theorem Tx.emitWords_gstate (t : Tx) (K : Config) (m : Nat) : (Tx.emitWords K m t).gstate = t.gstate := rfl
@[simp] theorem Tx.emitWords_layoutOpen (t : Tx) (K : Config) (m : Nat) :
    (Tx.emitWords K m t).layoutOpen = t.layoutOpen := rfl
@[simp] theorem Tx.emitWords_flt (t : Tx) (K : Config) (m : Nat) : (Tx.emitWords K m t).flt = t.flt := rfl
@[simp] theorem Tx.emitWords_flags (t : Tx) (K : Config) (m : Nat) : (Tx.emitWords K m t).flags = t.flags := rfl
@[simp] theorem Tx.emitWords_mtime (t : Tx) (K : Config) (m : Nat) : (Tx.emitWords K m t).mtime = t.mtime := rfl
@[simp] theorem Tx.emitWords_rawSize (t : Tx) (K : Config) (m : Nat) : (Tx.emitWords K m t).rawSize = t.rawSize := rfl
@[simp] theorem Tx.emitWords_name (t : Tx) (K : Config) (m : Nat) : (Tx.emitWords K m t).name = t.name := rfl
@[simp] theorem Tx.emitWords_chans (t : Tx) (K : Config) (m : Nat) : (Tx.emitWords K m t).chans = t.chans := rfl
@[simp] theorem Tx.emitWords_nsect (t : Tx) (K : Config) (m : Nat) : (Tx.emitWords K m t).nsect = t.nsect := rfl
@[simp] theorem Tx.emitWords_total (t : Tx) (K : Config) (m : Nat) : (Tx.emitWords K m t).total = t.total := rfl
@[simp] theorem Tx.emitWords_sectSize (t : Tx) (K : Config) (m : Nat) : (Tx.emitWords K m t).sectSize = t.sectSize :=
  rfl
@[simp] theorem Tx.emitWords_sectCrc (t : Tx) (K : Config) (m : Nat) : (Tx.emitWords K m t).sectCrc = t.sectCrc := rfl
@[simp] theorem Tx.emitWords_raw (t : Tx) (K : Config) (m : Nat) : (Tx.emitWords K m t).raw = t.raw := rfl
@[simp] theorem Tx.emitWords_sink (t : Tx) (K : Config) (m : Nat) :
    (Tx.emitWords K m t).sink = t.sink ++ (t.wbuf.take m).flatMap (wordBytesLE K.wordBytes) := rfl
@[simp] theorem Tx.emitWords_freeTick (t : Tx) (K : Config) (m : Nat) : (Tx.emitWords K m t).freeTick = t.freeTick :=
  rfl

/-! ### `Tx.prepareSection` -/

@[simp] theorem Tx.prepareSection_port (t : Tx) (K : Config) (len : Nat) :
    (Tx.prepareSection K len t).port = t.port := rfl
@[simp] theorem Tx.prepareSection_wbuf (t : Tx) (K : Config) (len : Nat) :
    (Tx.prepareSection K len t).wbuf = t.wbuf := rfl
@[simp] theorem Tx.prepareSection_wptr (t : Tx) (K : Config) (len : Nat) :
    (Tx.prepareSection K len t).wptr = t.wptr := rfl
@[simp] theorem Tx.prepareSection_woff (t : Tx) (K : Config) (len : Nat) :
    (Tx.prepareSection K len t).woff = t.woff := rfl
@[simp] theorem Tx.prepareSection_closed (t : Tx) (K : Config) (len : Nat) :
    (Tx.prepareSection K len t).closed = t.closed := rfl
@[simp] theorem Tx.prepareSection_sunk (t : Tx) (K : Config) (len : Nat) :
    (Tx.prepareSection K len t).sunk = t.sunk := rfl
@[simp] theorem Tx.prepareSection_bitpos (t : Tx) (K : Config) (len : Nat) :
    (Tx.prepareSection K len t).bitpos = t.bitpos := rfl
@[simp] theorem Tx.prepareSection_gstate (t : Tx) (K : Config) (len : Nat) :
    (Tx.prepareSection K len t).gstate = t.gstate := rfl
@[simp] theorem Tx.prepareSection_layoutOpen (t : Tx) (K : Config) (len : Nat) :
    (Tx.prepareSection K len t).layoutOpen = t.layoutOpen := rfl
@[simp] theorem Tx.prepareSection_flt (t : Tx) (K : Config) (len : Nat) : (Tx.prepareSection K len t).flt = t.flt :=
  rfl
@[simp] theorem Tx.prepareSection_flags (t : Tx) (K : Config) (len : Nat) :
    (Tx.prepareSection K len t).flags = t.flags := rfl
@[simp] theorem Tx.prepareSection_mtime (t : Tx) (K : Config) (len : Nat) :
    (Tx.prepareSection K len t).mtime = t.mtime := rfl
@[simp] theorem Tx.prepareSection_rawSize (t : Tx) (K : Config) (len : Nat) :
    (Tx.prepareSection K len t).rawSize = t.rawSize := rfl
@[simp] theorem Tx.prepareSection_name (t : Tx) (K : Config) (len : Nat) :
    (Tx.prepareSection K len t).name = t.name := rfl
@[simp] theorem Tx.prepareSection_chans (t : Tx) (K : Config) (len : Nat) :
    (Tx.prepareSection K len t).chans = resetHistories t.chans := rfl
@[simp] theorem Tx.prepareSection_nsect (t : Tx) (K : Config) (len : Nat) :
    (Tx.prepareSection K len t).nsect = t.nsect := rfl
@[simp] theorem Tx.prepareSection_total (t : Tx) (K : Config) (len : Nat) :
    (Tx.prepareSection K len t).total = t.total := rfl
@[simp] theorem Tx.prepareSection_sectSize (t : Tx) (K : Config) (len : Nat) :
    (Tx.prepareSection K len t).sectSize = t.sectSize := rfl
@[simp] theorem Tx.prepareSection_sectCrc (t : Tx) (K : Config) (len : Nat) :
    (Tx.prepareSection K len t).sectCrc = if flagCrc t.flags then crc32 K (t.raw.bytes 0 len) else t.sectCrc := rfl
@[simp] theorem Tx.prepareSection_raw (t : Tx) (K : Config) (len : Nat) : (Tx.prepareSection K len t).raw = t.raw :=
  rfl
@[simp] theorem Tx.prepareSection_sink (t : Tx) (K : Config) (len : Nat) :
    (Tx.prepareSection K len t).sink = t.sink := rfl
@[simp] theorem Tx.prepareSection_freeTick (t : Tx) (K : Config) (len : Nat) :
    (Tx.prepareSection K len t).freeTick = t.freeTick := rfl

/-! ### `Tx.forgetSource` -/

@[simp] theorem Tx.forgetSource_port (t : Tx) (K : Config) (len : Nat) : (Tx.forgetSource K len t).port = t.port :=
  rfl
@[simp] theorem Tx.forgetSource_wbuf (t : Tx) (K : Config) (len : Nat) : (Tx.forgetSource K len t).wbuf = t.wbuf :=
  rfl
@[simp] theorem Tx.forgetSource_wptr (t : Tx) (K : Config) (len : Nat) : (Tx.forgetSource K len t).wptr = t.wptr :=
  rfl
@[simp] theorem Tx.forgetSource_woff (t : Tx) (K : Config) (len : Nat) : (Tx.forgetSource K len t).woff = t.woff :=
  rfl
@[simp] theorem Tx.forgetSource_closed (t : Tx) (K : Config) (len : Nat) :
    (Tx.forgetSource K len t).closed = t.closed := rfl
@[simp] theorem Tx.forgetSource_sunk (t : Tx) (K : Config) (len : Nat) : (Tx.forgetSource K len t).sunk = t.sunk :=
  rfl
@[simp] theorem Tx.forgetSource_bitpos (t : Tx) (K : Config) (len : Nat) :
    (Tx.forgetSource K len t).bitpos = t.bitpos := rfl
@[simp] theorem Tx.forgetSource_gstate (t : Tx) (K : Config) (len : Nat) :
    (Tx.forgetSource K len t).gstate = t.gstate := rfl
@[simp] theorem Tx.forgetSource_layoutOpen (t : Tx) (K : Config) (len : Nat) :
    (Tx.forgetSource K len t).layoutOpen = t.layoutOpen := rfl
@[simp] theorem Tx.forgetSource_flt (t : Tx) (K : Config) (len : Nat) : (Tx.forgetSource K len t).flt = t.flt := rfl
@[simp] theorem Tx.forgetSource_flags (t : Tx) (K : Config) (len : Nat) : (Tx.forgetSource K len t).flags = t.flags :=
  rfl
@[simp] theorem Tx.forgetSource_mtime (t : Tx) (K : Config) (len : Nat) : (Tx.forgetSource K len t).mtime = t.mtime :=
  rfl
@[simp] theorem Tx.forgetSource_rawSize (t : Tx) (K : Config) (len : Nat) :
    (Tx.forgetSource K len t).rawSize = t.rawSize := rfl
@[simp] theorem Tx.forgetSource_name (t : Tx) (K : Config) (len : Nat) : (Tx.forgetSource K len t).name = t.name :=
  rfl
@[simp] theorem Tx.forgetSource_chans (t : Tx) (K : Config) (len : Nat) : (Tx.forgetSource K len t).chans = t.chans :=
  rfl
@[simp] theorem Tx.forgetSource_nsect (t : Tx) (K : Config) (len : Nat) : (Tx.forgetSource K len t).nsect = t.nsect :=
  rfl
@[simp] theorem Tx.forgetSource_total (t : Tx) (K : Config) (len : Nat) : (Tx.forgetSource K len t).total = t.total :=
  rfl
@[simp] theorem Tx.forgetSource_sectSize (t : Tx) (K : Config) (len : Nat) :
    (Tx.forgetSource K len t).sectSize = t.sectSize := rfl
@[simp] theorem Tx.forgetSource_sectCrc (t : Tx) (K : Config) (len : Nat) :
    (Tx.forgetSource K len t).sectCrc = t.sectCrc := rfl
@[simp] theorem Tx.forgetSource_raw (t : Tx) (K : Config) (len : Nat) :
    (Tx.forgetSource K len t).raw = t.raw.forget 0 (clipLen K 0 (len + K.maxGhostBytes)) t.drawTag := rfl
@[simp] theorem Tx.forgetSource_sink (t : Tx) (K : Config) (len : Nat) : (Tx.forgetSource K len t).sink = t.sink :=
  rfl
@[simp] theorem Tx.forgetSource_freeTick (t : Tx) (K : Config) (len : Nat) :
    (Tx.forgetSource K len t).freeTick = t.freeTick + 1 := rfl

/-! ### `Tx.finishSection` -/

@[simp] theorem Tx.finishSection_port (t : Tx) (K : Config) (len : Nat) : (Tx.finishSection K len t).port = t.port :=
  rfl
@[simp] theorem Tx.finishSection_wbuf (t : Tx) (K : Config) (len : Nat) : (Tx.finishSection K len t).wbuf = t.wbuf :=
  rfl
@[simp] theorem Tx.finishSection_wptr (t : Tx) (K : Config) (len : Nat) : (Tx.finishSection K len t).wptr = t.wptr :=
  rfl
@[simp] theorem Tx.finishSection_woff (t : Tx) (K : Config) (len : Nat) : (Tx.finishSection K len t).woff = t.woff :=
  rfl
@[simp] theorem Tx.finishSection_closed (t : Tx) (K : Config) (len : Nat) :
    (Tx.finishSection K len t).closed = t.closed := rfl
@[simp] theorem Tx.finishSection_sunk (t : Tx) (K : Config) (len : Nat) : (Tx.finishSection K len t).sunk = t.sunk :=
  rfl
@[simp] theorem Tx.finishSection_bitpos (t : Tx) (K : Config) (len : Nat) :
    (Tx.finishSection K len t).bitpos = t.bitpos := rfl
@[simp] theorem Tx.finishSection_gstate (t : Tx) (K : Config) (len : Nat) :
    (Tx.finishSection K len t).gstate = .sectionClosed := rfl
@[simp] theorem Tx.finishSection_layoutOpen (t : Tx) (K : Config) (len : Nat) :
    (Tx.finishSection K len t).layoutOpen = false := rfl
@[simp] theorem Tx.finishSection_flt (t : Tx) (K : Config) (len : Nat) : (Tx.finishSection K len t).flt = t.flt := rfl
@[simp] theorem Tx.finishSection_flags (t : Tx) (K : Config) (len : Nat) :
    (Tx.finishSection K len t).flags = t.flags := rfl
@[simp] theorem Tx.finishSection_mtime (t : Tx) (K : Config) (len : Nat) :
    (Tx.finishSection K len t).mtime = t.mtime := rfl
@[simp] theorem Tx.finishSection_rawSize (t : Tx) (K : Config) (len : Nat) :
    (Tx.finishSection K len t).rawSize = t.rawSize := rfl
@[simp] theorem Tx.finishSection_name (t : Tx) (K : Config) (len : Nat) : (Tx.finishSection K len t).name = t.name :=
  rfl
@[simp] theorem Tx.finishSection_chans (t : Tx) (K : Config) (len : Nat) :
    (Tx.finishSection K len t).chans = t.chans.map Channel.restored := rfl
@[simp] theorem Tx.finishSection_nsect (t : Tx) (K : Config) (len : Nat) :
    (Tx.finishSection K len t).nsect = t.nsect + 1 := rfl
@[simp] theorem Tx.finishSection_total (t : Tx) (K : Config) (len : Nat) :
    (Tx.finishSection K len t).total = t.total + len := rfl
@[simp] theorem Tx.finishSection_sectSize (t : Tx) (K : Config) (len : Nat) :
    (Tx.finishSection K len t).sectSize = BitVec.ofNat 32 len := rfl
@[simp] theorem Tx.finishSection_sectCrc (t : Tx) (K : Config) (len : Nat) :
    (Tx.finishSection K len t).sectCrc = t.sectCrc := rfl
@[simp] theorem Tx.finishSection_raw (t : Tx) (K : Config) (len : Nat) :
    (Tx.finishSection K len t).raw = t.raw.forget 0 (clipLen K 0 (len + K.maxGhostBytes)) t.drawTag := rfl
@[simp] theorem Tx.finishSection_sink (t : Tx) (K : Config) (len : Nat) : (Tx.finishSection K len t).sink = t.sink :=
  rfl
@[simp] theorem Tx.finishSection_freeTick (t : Tx) (K : Config) (len : Nat) :
    (Tx.finishSection K len t).freeTick = t.freeTick + 1 := rfl

/-! ### `Tx.afterReset` -/

@[simp] theorem Tx.afterReset_port (t : Tx) (K : Config) : (t.afterReset K).port = t.port := rfl
@[simp] theorem Tx.afterReset_wbuf (t : Tx) (K : Config) : (t.afterReset K).wbuf = List.replicate K.bufWords 0 := rfl
@[simp] theorem Tx.afterReset_wptr (t : Tx) (K : Config) : (t.afterReset K).wptr = 0 := rfl
@[simp] theorem Tx.afterReset_woff (t : Tx) (K : Config) : (t.afterReset K).woff = 0 := rfl
@[simp] theorem Tx.afterReset_closed (t : Tx) (K : Config) : (t.afterReset K).closed = false := rfl
@[simp] theorem Tx.afterReset_sunk (t : Tx) (K : Config) : (t.afterReset K).sunk = 0 := rfl
@[simp] theorem Tx.afterReset_bitpos (t : Tx) (K : Config) : (t.afterReset K).bitpos = 0 := rfl
@[simp] theorem Tx.afterReset_gstate (t : Tx) (K : Config) : (t.afterReset K).gstate = .notStarted := rfl
@[simp] theorem Tx.afterReset_layoutOpen (t : Tx) (K : Config) : (t.afterReset K).layoutOpen = true := rfl
@[simp] theorem Tx.afterReset_flt (t : Tx) (K : Config) : (t.afterReset K).flt = FaultRecord.reset := rfl
@[simp] theorem Tx.afterReset_flags (t : Tx) (K : Config) : (t.afterReset K).flags = 0 := rfl
@[simp] theorem Tx.afterReset_mtime (t : Tx) (K : Config) : (t.afterReset K).mtime = 0 := rfl
@[simp] theorem Tx.afterReset_rawSize (t : Tx) (K : Config) : (t.afterReset K).rawSize = 0 := rfl
@[simp] theorem Tx.afterReset_name (t : Tx) (K : Config) : (t.afterReset K).name = List.replicate K.nameMax 0 := rfl
@[simp] theorem Tx.afterReset_chans (t : Tx) (K : Config) : (t.afterReset K).chans = [] := rfl
@[simp] theorem Tx.afterReset_nsect (t : Tx) (K : Config) : (t.afterReset K).nsect = 0 := rfl
@[simp] theorem Tx.afterReset_total (t : Tx) (K : Config) : (t.afterReset K).total = 0 := rfl
@[simp] theorem Tx.afterReset_sectSize (t : Tx) (K : Config) : (t.afterReset K).sectSize = 0 := rfl
@[simp] theorem Tx.afterReset_sectCrc (t : Tx) (K : Config) : (t.afterReset K).sectCrc = 0 := rfl
@[simp] theorem Tx.afterReset_raw (t : Tx) (K : Config) : (t.afterReset K).raw = t.raw := rfl
@[simp] theorem Tx.afterReset_sink (t : Tx) (K : Config) : (t.afterReset K).sink = t.sink := rfl
@[simp] theorem Tx.afterReset_freeTick (t : Tx) (K : Config) : (t.afterReset K).freeTick = t.freeTick := rfl

/-! ### `Rx.raise` -/

@[simp] theorem Rx.raise_port (r : Rx) (e : Raise) : (r.raise e).port = r.port.failed e.code.code := rfl
@[simp] theorem Rx.raise_rbuf (r : Rx) (e : Raise) : (r.raise e).rbuf = r.rbuf := rfl
@[simp] theorem Rx.raise_rcount (r : Rx) (e : Raise) : (r.raise e).rcount = r.rcount := rfl
@[simp] theorem Rx.raise_rptr (r : Rx) (e : Raise) : (r.raise e).rptr = r.rptr := rfl
@[simp] theorem Rx.raise_roff (r : Rx) (e : Raise) : (r.raise e).roff = r.roff := rfl
@[simp] theorem Rx.raise_srcEof (r : Rx) (e : Raise) : (r.raise e).srcEof = r.srcEof := rfl
@[simp] theorem Rx.raise_pulled (r : Rx) (e : Raise) : (r.raise e).pulled = r.pulled := rfl
@[simp] theorem Rx.raise_bitpos (r : Rx) (e : Raise) : (r.raise e).bitpos = r.bitpos := rfl
@[simp] theorem Rx.raise_pstate (r : Rx) (e : Raise) : (r.raise e).pstate = r.pstate := rfl
@[simp] theorem Rx.raise_ignoreCrc (r : Rx) (e : Raise) : (r.raise e).ignoreCrc = r.ignoreCrc := rfl
@[simp] theorem Rx.raise_flt (r : Rx) (e : Raise) : (r.raise e).flt = r.flt.record e := rfl
@[simp] theorem Rx.raise_flags (r : Rx) (e : Raise) : (r.raise e).flags = r.flags := rfl
@[simp] theorem Rx.raise_mtime (r : Rx) (e : Raise) : (r.raise e).mtime = r.mtime := rfl
@[simp] theorem Rx.raise_rawSize (r : Rx) (e : Raise) : (r.raise e).rawSize = r.rawSize := rfl
@[simp] theorem Rx.raise_xtraLen (r : Rx) (e : Raise) : (r.raise e).xtraLen = r.xtraLen := rfl
@[simp] theorem Rx.raise_name (r : Rx) (e : Raise) : (r.raise e).name = r.name := rfl
@[simp] theorem Rx.raise_chans (r : Rx) (e : Raise) : (r.raise e).chans = r.chans := rfl
@[simp] theorem Rx.raise_nsect (r : Rx) (e : Raise) : (r.raise e).nsect = r.nsect := rfl
@[simp] theorem Rx.raise_total (r : Rx) (e : Raise) : (r.raise e).total = r.total := rfl
@[simp] theorem Rx.raise_sectSize (r : Rx) (e : Raise) : (r.raise e).sectSize = r.sectSize := rfl
@[simp] theorem Rx.raise_sectCrc (r : Rx) (e : Raise) : (r.raise e).sectCrc = r.sectCrc := rfl
@[simp] theorem Rx.raise_storedCrc (r : Rx) (e : Raise) : (r.raise e).storedCrc = r.storedCrc := rfl
@[simp] theorem Rx.raise_raw (r : Rx) (e : Raise) : (r.raise e).raw = r.raw := rfl
@[simp] theorem Rx.raise_src (r : Rx) (e : Raise) : (r.raise e).src = r.src := rfl
@[simp] theorem Rx.raise_srcpos (r : Rx) (e : Raise) : (r.raise e).srcpos = r.srcpos := rfl
@[simp] theorem Rx.raise_freeTick (r : Rx) (e : Raise) : (r.raise e).freeTick = r.freeTick := rfl

/-! ### `Rx.respond` -/

@[simp] theorem Rx.respond_port (r : Rx) (v : Nat) : (r.respond v).port = r.port.answered v := rfl
@[simp] theorem Rx.respond_rbuf (r : Rx) (v : Nat) : (r.respond v).rbuf = r.rbuf := rfl
@[simp] theorem Rx.respond_rcount (r : Rx) (v : Nat) : (r.respond v).rcount = r.rcount := rfl
@[simp] theorem Rx.respond_rptr (r : Rx) (v : Nat) : (r.respond v).rptr = r.rptr := rfl
@[simp] theorem Rx.respond_roff (r : Rx) (v : Nat) : (r.respond v).roff = r.roff := rfl
@[simp] theorem Rx.respond_srcEof (r : Rx) (v : Nat) : (r.respond v).srcEof = r.srcEof := rfl
@[simp] theorem Rx.respond_pulled (r : Rx) (v : Nat) : (r.respond v).pulled = r.pulled := rfl
@[simp] theorem Rx.respond_bitpos (r : Rx) (v : Nat) : (r.respond v).bitpos = r.bitpos := rfl
@[simp] theorem Rx.respond_pstate (r : Rx) (v : Nat) : (r.respond v).pstate = r.pstate := rfl
@[simp] theorem Rx.respond_ignoreCrc (r : Rx) (v : Nat) : (r.respond v).ignoreCrc = r.ignoreCrc := rfl
@[simp] theorem Rx.respond_flt (r : Rx) (v : Nat) : (r.respond v).flt = r.flt := rfl
@[simp] theorem Rx.respond_flags (r : Rx) (v : Nat) : (r.respond v).flags = r.flags := rfl
@[simp] theorem Rx.respond_mtime (r : Rx) (v : Nat) : (r.respond v).mtime = r.mtime := rfl
@[simp] theorem Rx.respond_rawSize (r : Rx) (v : Nat) : (r.respond v).rawSize = r.rawSize := rfl
@[simp] theorem Rx.respond_xtraLen (r : Rx) (v : Nat) : (r.respond v).xtraLen = r.xtraLen := rfl
@[simp] theorem Rx.respond_name (r : Rx) (v : Nat) : (r.respond v).name = r.name := rfl
@[simp] theorem Rx.respond_chans (r : Rx) (v : Nat) : (r.respond v).chans = r.chans := rfl
@[simp] theorem Rx.respond_nsect (r : Rx) (v : Nat) : (r.respond v).nsect = r.nsect := rfl
@[simp] theorem Rx.respond_total (r : Rx) (v : Nat) : (r.respond v).total = r.total := rfl
@[simp] theorem Rx.respond_sectSize (r : Rx) (v : Nat) : (r.respond v).sectSize = r.sectSize := rfl
@[simp] theorem Rx.respond_sectCrc (r : Rx) (v : Nat) : (r.respond v).sectCrc = r.sectCrc := rfl
@[simp] theorem Rx.respond_storedCrc (r : Rx) (v : Nat) : (r.respond v).storedCrc = r.storedCrc := rfl
@[simp] theorem Rx.respond_raw (r : Rx) (v : Nat) : (r.respond v).raw = r.raw := rfl
@[simp] theorem Rx.respond_src (r : Rx) (v : Nat) : (r.respond v).src = r.src := rfl
@[simp] theorem Rx.respond_srcpos (r : Rx) (v : Nat) : (r.respond v).srcpos = r.srcpos := rfl
@[simp] theorem Rx.respond_freeTick (r : Rx) (v : Nat) : (r.respond v).freeTick = r.freeTick := rfl

/-! ### `Rx.answerFaulted` -/

@[simp] theorem Rx.answerFaulted_port (r : Rx) : (r.answerFaulted).port = r.port.failed stFaulted := rfl
@[simp] theorem Rx.answerFaulted_rbuf (r : Rx) : (r.answerFaulted).rbuf = r.rbuf := rfl
@[simp] theorem Rx.answerFaulted_rcount (r : Rx) : (r.answerFaulted).rcount = r.rcount := rfl
@[simp] theorem Rx.answerFaulted_rptr (r : Rx) : (r.answerFaulted).rptr = r.rptr := rfl
@[simp] theorem Rx.answerFaulted_roff (r : Rx) : (r.answerFaulted).roff = r.roff := rfl
@[simp] theorem Rx.answerFaulted_srcEof (r : Rx) : (r.answerFaulted).srcEof = r.srcEof := rfl
@[simp] theorem Rx.answerFaulted_pulled (r : Rx) : (r.answerFaulted).pulled = r.pulled := rfl
@[simp] theorem Rx.answerFaulted_bitpos (r : Rx) : (r.answerFaulted).bitpos = r.bitpos := rfl
@[simp] theorem Rx.answerFaulted_pstate (r : Rx) : (r.answerFaulted).pstate = r.pstate := rfl
@[simp] theorem Rx.answerFaulted_ignoreCrc (r : Rx) : (r.answerFaulted).ignoreCrc = r.ignoreCrc := rfl
@[simp] theorem Rx.answerFaulted_flt (r : Rx) : (r.answerFaulted).flt = r.flt := rfl
@[simp] theorem Rx.answerFaulted_flags (r : Rx) : (r.answerFaulted).flags = r.flags := rfl
@[simp] theorem Rx.answerFaulted_mtime (r : Rx) : (r.answerFaulted).mtime = r.mtime := rfl
@[simp] theorem Rx.answerFaulted_rawSize (r : Rx) : (r.answerFaulted).rawSize = r.rawSize := rfl
@[simp] theorem Rx.answerFaulted_xtraLen (r : Rx) : (r.answerFaulted).xtraLen = r.xtraLen := rfl
@[simp] theorem Rx.answerFaulted_name (r : Rx) : (r.answerFaulted).name = r.name := rfl
@[simp] theorem Rx.answerFaulted_chans (r : Rx) : (r.answerFaulted).chans = r.chans := rfl
@[simp] theorem Rx.answerFaulted_nsect (r : Rx) : (r.answerFaulted).nsect = r.nsect := rfl
@[simp] theorem Rx.answerFaulted_total (r : Rx) : (r.answerFaulted).total = r.total := rfl
@[simp] theorem Rx.answerFaulted_sectSize (r : Rx) : (r.answerFaulted).sectSize = r.sectSize := rfl
@[simp] theorem Rx.answerFaulted_sectCrc (r : Rx) : (r.answerFaulted).sectCrc = r.sectCrc := rfl
@[simp] theorem Rx.answerFaulted_storedCrc (r : Rx) : (r.answerFaulted).storedCrc = r.storedCrc := rfl
@[simp] theorem Rx.answerFaulted_raw (r : Rx) : (r.answerFaulted).raw = r.raw := rfl
@[simp] theorem Rx.answerFaulted_src (r : Rx) : (r.answerFaulted).src = r.src := rfl
@[simp] theorem Rx.answerFaulted_srcpos (r : Rx) : (r.answerFaulted).srcpos = r.srcpos := rfl
@[simp] theorem Rx.answerFaulted_freeTick (r : Rx) : (r.answerFaulted).freeTick = r.freeTick := rfl

/-! ### `Rx.pull` -/

@[simp] theorem Rx.pull_port (r : Rx) (K : Config) (bytes : List Byte) : (r.pull K bytes).port = r.port := rfl
@[simp] theorem Rx.pull_rbuf (r : Rx) (K : Config) (bytes : List Byte) : (r.pull K bytes).rbuf = r.rbuf := rfl
@[simp] theorem Rx.pull_rcount (r : Rx) (K : Config) (bytes : List Byte) : (r.pull K bytes).rcount = r.rcount := rfl
@[simp] theorem Rx.pull_rptr (r : Rx) (K : Config) (bytes : List Byte) : (r.pull K bytes).rptr = r.rptr := rfl
@[simp] theorem Rx.pull_roff (r : Rx) (K : Config) (bytes : List Byte) : (r.pull K bytes).roff = r.roff := rfl
@[simp] theorem Rx.pull_srcEof (r : Rx) (K : Config) (bytes : List Byte) :
    (r.pull K bytes).srcEof = (r.srcEof || decide (bytes.length < K.bufWords * K.wordBytes)) := rfl
@[simp] theorem Rx.pull_pulled (r : Rx) (K : Config) (bytes : List Byte) :
    (r.pull K bytes).pulled = r.pulled + bytes.length := rfl
@[simp] theorem Rx.pull_bitpos (r : Rx) (K : Config) (bytes : List Byte) : (r.pull K bytes).bitpos = r.bitpos := rfl
@[simp] theorem Rx.pull_pstate (r : Rx) (K : Config) (bytes : List Byte) : (r.pull K bytes).pstate = r.pstate := rfl
@[simp] theorem Rx.pull_ignoreCrc (r : Rx) (K : Config) (bytes : List Byte) :
    (r.pull K bytes).ignoreCrc = r.ignoreCrc := rfl
@[simp] theorem Rx.pull_flt (r : Rx) (K : Config) (bytes : List Byte) : (r.pull K bytes).flt = r.flt := rfl
@[simp] theorem Rx.pull_flags (r : Rx) (K : Config) (bytes : List Byte) : (r.pull K bytes).flags = r.flags := rfl
@[simp] theorem Rx.pull_mtime (r : Rx) (K : Config) (bytes : List Byte) : (r.pull K bytes).mtime = r.mtime := rfl
@[simp] theorem Rx.pull_rawSize (r : Rx) (K : Config) (bytes : List Byte) : (r.pull K bytes).rawSize = r.rawSize :=
  rfl
@[simp] theorem Rx.pull_xtraLen (r : Rx) (K : Config) (bytes : List Byte) : (r.pull K bytes).xtraLen = r.xtraLen :=
  rfl
@[simp] theorem Rx.pull_name (r : Rx) (K : Config) (bytes : List Byte) : (r.pull K bytes).name = r.name := rfl
@[simp] theorem Rx.pull_chans (r : Rx) (K : Config) (bytes : List Byte) : (r.pull K bytes).chans = r.chans := rfl
@[simp] theorem Rx.pull_nsect (r : Rx) (K : Config) (bytes : List Byte) : (r.pull K bytes).nsect = r.nsect := rfl
@[simp] theorem Rx.pull_total (r : Rx) (K : Config) (bytes : List Byte) : (r.pull K bytes).total = r.total := rfl
@[simp] theorem Rx.pull_sectSize (r : Rx) (K : Config) (bytes : List Byte) : (r.pull K bytes).sectSize = r.sectSize :=
  rfl
@[simp] theorem Rx.pull_sectCrc (r : Rx) (K : Config) (bytes : List Byte) : (r.pull K bytes).sectCrc = r.sectCrc :=
  rfl
@[simp] theorem Rx.pull_storedCrc (r : Rx) (K : Config) (bytes : List Byte) :
    (r.pull K bytes).storedCrc = r.storedCrc := rfl
@[simp] theorem Rx.pull_raw (r : Rx) (K : Config) (bytes : List Byte) : (r.pull K bytes).raw = r.raw := rfl
@[simp] theorem Rx.pull_src (r : Rx) (K : Config) (bytes : List Byte) : (r.pull K bytes).src = r.src := rfl
@[simp] theorem Rx.pull_srcpos (r : Rx) (K : Config) (bytes : List Byte) :
    (r.pull K bytes).srcpos = r.srcpos + bytes.length := rfl
@[simp] theorem Rx.pull_freeTick (r : Rx) (K : Config) (bytes : List Byte) : (r.pull K bytes).freeTick = r.freeTick :=
  rfl

/-! ### `Rx.forgetCursor` -/

@[simp] theorem Rx.forgetCursor_port (r : Rx) : (r.forgetCursor).port = r.port := rfl
@[simp] theorem Rx.forgetCursor_rbuf (r : Rx) : (r.forgetCursor).rbuf = r.rbuf := rfl
@[simp] theorem Rx.forgetCursor_rcount (r : Rx) : (r.forgetCursor).rcount = Config.freeReg r.freeTick 2 := rfl
@[simp] theorem Rx.forgetCursor_rptr (r : Rx) : (r.forgetCursor).rptr = Config.freeReg r.freeTick 0 := rfl
@[simp] theorem Rx.forgetCursor_roff (r : Rx) : (r.forgetCursor).roff = Config.freeReg r.freeTick 1 := rfl
@[simp] theorem Rx.forgetCursor_srcEof (r : Rx) : (r.forgetCursor).srcEof = r.srcEof := rfl
@[simp] theorem Rx.forgetCursor_pulled (r : Rx) : (r.forgetCursor).pulled = r.pulled := rfl
@[simp] theorem Rx.forgetCursor_bitpos (r : Rx) : (r.forgetCursor).bitpos = Config.freeReg r.freeTick 3 := rfl
@[simp] theorem Rx.forgetCursor_pstate (r : Rx) : (r.forgetCursor).pstate = r.pstate := rfl
@[simp] theorem Rx.forgetCursor_ignoreCrc (r : Rx) : (r.forgetCursor).ignoreCrc = r.ignoreCrc := rfl
@[simp] theorem Rx.forgetCursor_flt (r : Rx) : (r.forgetCursor).flt = r.flt := rfl
@[simp] theorem Rx.forgetCursor_flags (r : Rx) : (r.forgetCursor).flags = r.flags := rfl
@[simp] theorem Rx.forgetCursor_mtime (r : Rx) : (r.forgetCursor).mtime = r.mtime := rfl
@[simp] theorem Rx.forgetCursor_rawSize (r : Rx) : (r.forgetCursor).rawSize = r.rawSize := rfl
@[simp] theorem Rx.forgetCursor_xtraLen (r : Rx) : (r.forgetCursor).xtraLen = r.xtraLen := rfl
@[simp] theorem Rx.forgetCursor_name (r : Rx) : (r.forgetCursor).name = r.name := rfl
@[simp] theorem Rx.forgetCursor_chans (r : Rx) : (r.forgetCursor).chans = r.chans := rfl
@[simp] theorem Rx.forgetCursor_nsect (r : Rx) : (r.forgetCursor).nsect = r.nsect := rfl
@[simp] theorem Rx.forgetCursor_total (r : Rx) : (r.forgetCursor).total = r.total := rfl
@[simp] theorem Rx.forgetCursor_sectSize (r : Rx) : (r.forgetCursor).sectSize = r.sectSize := rfl
@[simp] theorem Rx.forgetCursor_sectCrc (r : Rx) : (r.forgetCursor).sectCrc = r.sectCrc := rfl
@[simp] theorem Rx.forgetCursor_storedCrc (r : Rx) : (r.forgetCursor).storedCrc = r.storedCrc := rfl
@[simp] theorem Rx.forgetCursor_raw (r : Rx) : (r.forgetCursor).raw = r.raw := rfl
@[simp] theorem Rx.forgetCursor_src (r : Rx) : (r.forgetCursor).src = r.src := rfl
@[simp] theorem Rx.forgetCursor_srcpos (r : Rx) : (r.forgetCursor).srcpos = r.srcpos := rfl
@[simp] theorem Rx.forgetCursor_freeTick (r : Rx) : (r.forgetCursor).freeTick = r.freeTick + 1 := rfl

/-! ### `Rx.forgetDecode` -/

@[simp] theorem Rx.forgetDecode_port (r : Rx) (K : Config) (ch lo len : Nat) :
    (r.forgetDecode K ch lo len).port = r.port := rfl
@[simp] theorem Rx.forgetDecode_rbuf (r : Rx) (K : Config) (ch lo len : Nat) :
    (r.forgetDecode K ch lo len).rbuf = r.rbuf := rfl
@[simp] theorem Rx.forgetDecode_rcount (r : Rx) (K : Config) (ch lo len : Nat) :
    (r.forgetDecode K ch lo len).rcount = Config.freeReg r.freeTick 2 := rfl
@[simp] theorem Rx.forgetDecode_rptr (r : Rx) (K : Config) (ch lo len : Nat) :
    (r.forgetDecode K ch lo len).rptr = Config.freeReg r.freeTick 0 := rfl
@[simp] theorem Rx.forgetDecode_roff (r : Rx) (K : Config) (ch lo len : Nat) :
    (r.forgetDecode K ch lo len).roff = Config.freeReg r.freeTick 1 := rfl
@[simp] theorem Rx.forgetDecode_srcEof (r : Rx) (K : Config) (ch lo len : Nat) :
    (r.forgetDecode K ch lo len).srcEof = r.srcEof := rfl
@[simp] theorem Rx.forgetDecode_pulled (r : Rx) (K : Config) (ch lo len : Nat) :
    (r.forgetDecode K ch lo len).pulled = r.pulled := rfl
@[simp] theorem Rx.forgetDecode_bitpos (r : Rx) (K : Config) (ch lo len : Nat) :
    (r.forgetDecode K ch lo len).bitpos = Config.freeReg r.freeTick 3 := rfl
@[simp] theorem Rx.forgetDecode_pstate (r : Rx) (K : Config) (ch lo len : Nat) :
    (r.forgetDecode K ch lo len).pstate = r.pstate := rfl
@[simp] theorem Rx.forgetDecode_ignoreCrc (r : Rx) (K : Config) (ch lo len : Nat) :
    (r.forgetDecode K ch lo len).ignoreCrc = r.ignoreCrc := rfl
@[simp] theorem Rx.forgetDecode_flt (r : Rx) (K : Config) (ch lo len : Nat) :
    (r.forgetDecode K ch lo len).flt = r.flt := rfl
@[simp] theorem Rx.forgetDecode_flags (r : Rx) (K : Config) (ch lo len : Nat) :
    (r.forgetDecode K ch lo len).flags = r.flags := rfl
@[simp] theorem Rx.forgetDecode_mtime (r : Rx) (K : Config) (ch lo len : Nat) :
    (r.forgetDecode K ch lo len).mtime = r.mtime := rfl
@[simp] theorem Rx.forgetDecode_rawSize (r : Rx) (K : Config) (ch lo len : Nat) :
    (r.forgetDecode K ch lo len).rawSize = r.rawSize := rfl
@[simp] theorem Rx.forgetDecode_xtraLen (r : Rx) (K : Config) (ch lo len : Nat) :
    (r.forgetDecode K ch lo len).xtraLen = r.xtraLen := rfl
@[simp] theorem Rx.forgetDecode_name (r : Rx) (K : Config) (ch lo len : Nat) :
    (r.forgetDecode K ch lo len).name = r.name := rfl
@[simp] theorem Rx.forgetDecode_chans (r : Rx) (K : Config) (ch lo len : Nat) :
    (r.forgetDecode K ch lo len).chans = forgetPrev r.freeTick ch r.chans := rfl
@[simp] theorem Rx.forgetDecode_nsect (r : Rx) (K : Config) (ch lo len : Nat) :
    (r.forgetDecode K ch lo len).nsect = r.nsect := rfl
@[simp] theorem Rx.forgetDecode_total (r : Rx) (K : Config) (ch lo len : Nat) :
    (r.forgetDecode K ch lo len).total = r.total := rfl
@[simp] theorem Rx.forgetDecode_sectSize (r : Rx) (K : Config) (ch lo len : Nat) :
    (r.forgetDecode K ch lo len).sectSize = r.sectSize := rfl
@[simp] theorem Rx.forgetDecode_sectCrc (r : Rx) (K : Config) (ch lo len : Nat) :
    (r.forgetDecode K ch lo len).sectCrc = r.sectCrc := rfl
@[simp] theorem Rx.forgetDecode_storedCrc (r : Rx) (K : Config) (ch lo len : Nat) :
    (r.forgetDecode K ch lo len).storedCrc = r.storedCrc := rfl
@[simp] theorem Rx.forgetDecode_raw (r : Rx) (K : Config) (ch lo len : Nat) :
    (r.forgetDecode K ch lo len).raw = r.raw.forget lo (clipLen K lo len) r.drawTag := rfl
@[simp] theorem Rx.forgetDecode_src (r : Rx) (K : Config) (ch lo len : Nat) :
    (r.forgetDecode K ch lo len).src = r.src := rfl
@[simp] theorem Rx.forgetDecode_srcpos (r : Rx) (K : Config) (ch lo len : Nat) :
    (r.forgetDecode K ch lo len).srcpos = r.srcpos := rfl
@[simp] theorem Rx.forgetDecode_freeTick (r : Rx) (K : Config) (ch lo len : Nat) :
    (r.forgetDecode K ch lo len).freeTick = r.freeTick + 1 := rfl

/-! ### `Rx.forgetSection` -/

@[simp] theorem Rx.forgetSection_port (r : Rx) (K : Config) : (r.forgetSection K).port = r.port := rfl
@[simp] theorem Rx.forgetSection_rbuf (r : Rx) (K : Config) : (r.forgetSection K).rbuf = r.rbuf := rfl
@[simp] theorem Rx.forgetSection_rcount (r : Rx) (K : Config) :
    (r.forgetSection K).rcount = Config.freeReg r.freeTick 2 := rfl
@[simp] theorem Rx.forgetSection_rptr (r : Rx) (K : Config) :
    (r.forgetSection K).rptr = Config.freeReg r.freeTick 0 := rfl
@[simp] theorem Rx.forgetSection_roff (r : Rx) (K : Config) :
    (r.forgetSection K).roff = Config.freeReg r.freeTick 1 := rfl
@[simp] theorem Rx.forgetSection_srcEof (r : Rx) (K : Config) : (r.forgetSection K).srcEof = r.srcEof := rfl
@[simp] theorem Rx.forgetSection_pulled (r : Rx) (K : Config) : (r.forgetSection K).pulled = r.pulled := rfl
@[simp] theorem Rx.forgetSection_bitpos (r : Rx) (K : Config) :
    (r.forgetSection K).bitpos = Config.freeReg r.freeTick 3 := rfl
@[simp] theorem Rx.forgetSection_pstate (r : Rx) (K : Config) : (r.forgetSection K).pstate = r.pstate := rfl
@[simp] theorem Rx.forgetSection_ignoreCrc (r : Rx) (K : Config) : (r.forgetSection K).ignoreCrc = r.ignoreCrc := rfl
@[simp] theorem Rx.forgetSection_flt (r : Rx) (K : Config) : (r.forgetSection K).flt = r.flt := rfl
@[simp] theorem Rx.forgetSection_flags (r : Rx) (K : Config) : (r.forgetSection K).flags = r.flags := rfl
@[simp] theorem Rx.forgetSection_mtime (r : Rx) (K : Config) : (r.forgetSection K).mtime = r.mtime := rfl
@[simp] theorem Rx.forgetSection_rawSize (r : Rx) (K : Config) : (r.forgetSection K).rawSize = r.rawSize := rfl
@[simp] theorem Rx.forgetSection_xtraLen (r : Rx) (K : Config) : (r.forgetSection K).xtraLen = r.xtraLen := rfl
@[simp] theorem Rx.forgetSection_name (r : Rx) (K : Config) : (r.forgetSection K).name = r.name := rfl
@[simp] theorem Rx.forgetSection_chans (r : Rx) (K : Config) : (r.forgetSection K).chans = freeChannels r.freeTick :=
  rfl
@[simp] theorem Rx.forgetSection_nsect (r : Rx) (K : Config) : (r.forgetSection K).nsect = r.nsect := rfl
@[simp] theorem Rx.forgetSection_total (r : Rx) (K : Config) : (r.forgetSection K).total = r.total := rfl
@[simp] theorem Rx.forgetSection_sectSize (r : Rx) (K : Config) : (r.forgetSection K).sectSize = r.sectSize := rfl
@[simp] theorem Rx.forgetSection_sectCrc (r : Rx) (K : Config) :
    (r.forgetSection K).sectCrc = BitVec.ofNat 32 (Config.freeReg r.freeTick 5) := rfl
@[simp] theorem Rx.forgetSection_storedCrc (r : Rx) (K : Config) :
    (r.forgetSection K).storedCrc = BitVec.ofNat 32 (Config.freeReg r.freeTick 6) := rfl
@[simp] theorem Rx.forgetSection_raw (r : Rx) (K : Config) :
    (r.forgetSection K).raw = r.raw.forget 0 K.rawBytes r.drawTag := rfl
@[simp] theorem Rx.forgetSection_src (r : Rx) (K : Config) : (r.forgetSection K).src = r.src := rfl
@[simp] theorem Rx.forgetSection_srcpos (r : Rx) (K : Config) : (r.forgetSection K).srcpos = r.srcpos := rfl
@[simp] theorem Rx.forgetSection_freeTick (r : Rx) (K : Config) : (r.forgetSection K).freeTick = r.freeTick + 1 := rfl

/-! ### `Rx.forgetGhost` -/

@[simp] theorem Rx.forgetGhost_port (r : Rx) (K : Config) (stop : Nat) : (Rx.forgetGhost K stop r).port = r.port :=
  rfl
@[simp] theorem Rx.forgetGhost_rbuf (r : Rx) (K : Config) (stop : Nat) : (Rx.forgetGhost K stop r).rbuf = r.rbuf :=
  rfl
@[simp] theorem Rx.forgetGhost_rcount (r : Rx) (K : Config) (stop : Nat) :
    (Rx.forgetGhost K stop r).rcount = r.rcount := rfl
@[simp] theorem Rx.forgetGhost_rptr (r : Rx) (K : Config) (stop : Nat) : (Rx.forgetGhost K stop r).rptr = r.rptr :=
  rfl
@[simp] theorem Rx.forgetGhost_roff (r : Rx) (K : Config) (stop : Nat) : (Rx.forgetGhost K stop r).roff = r.roff :=
  rfl
@[simp] theorem Rx.forgetGhost_srcEof (r : Rx) (K : Config) (stop : Nat) :
    (Rx.forgetGhost K stop r).srcEof = r.srcEof := rfl
@[simp] theorem Rx.forgetGhost_pulled (r : Rx) (K : Config) (stop : Nat) :
    (Rx.forgetGhost K stop r).pulled = r.pulled := rfl
@[simp] theorem Rx.forgetGhost_bitpos (r : Rx) (K : Config) (stop : Nat) :
    (Rx.forgetGhost K stop r).bitpos = r.bitpos := rfl
@[simp] theorem Rx.forgetGhost_pstate (r : Rx) (K : Config) (stop : Nat) :
    (Rx.forgetGhost K stop r).pstate = r.pstate := rfl
@[simp] theorem Rx.forgetGhost_ignoreCrc (r : Rx) (K : Config) (stop : Nat) :
    (Rx.forgetGhost K stop r).ignoreCrc = r.ignoreCrc := rfl
@[simp] theorem Rx.forgetGhost_flt (r : Rx) (K : Config) (stop : Nat) : (Rx.forgetGhost K stop r).flt = r.flt := rfl
@[simp] theorem Rx.forgetGhost_flags (r : Rx) (K : Config) (stop : Nat) : (Rx.forgetGhost K stop r).flags = r.flags :=
  rfl
@[simp] theorem Rx.forgetGhost_mtime (r : Rx) (K : Config) (stop : Nat) : (Rx.forgetGhost K stop r).mtime = r.mtime :=
  rfl
@[simp] theorem Rx.forgetGhost_rawSize (r : Rx) (K : Config) (stop : Nat) :
    (Rx.forgetGhost K stop r).rawSize = r.rawSize := rfl
@[simp] theorem Rx.forgetGhost_xtraLen (r : Rx) (K : Config) (stop : Nat) :
    (Rx.forgetGhost K stop r).xtraLen = r.xtraLen := rfl
@[simp] theorem Rx.forgetGhost_name (r : Rx) (K : Config) (stop : Nat) : (Rx.forgetGhost K stop r).name = r.name :=
  rfl
@[simp] theorem Rx.forgetGhost_chans (r : Rx) (K : Config) (stop : Nat) : (Rx.forgetGhost K stop r).chans = r.chans :=
  rfl
@[simp] theorem Rx.forgetGhost_nsect (r : Rx) (K : Config) (stop : Nat) : (Rx.forgetGhost K stop r).nsect = r.nsect :=
  rfl
@[simp] theorem Rx.forgetGhost_total (r : Rx) (K : Config) (stop : Nat) : (Rx.forgetGhost K stop r).total = r.total :=
  rfl
@[simp] theorem Rx.forgetGhost_sectSize (r : Rx) (K : Config) (stop : Nat) :
    (Rx.forgetGhost K stop r).sectSize = r.sectSize := rfl
@[simp] theorem Rx.forgetGhost_sectCrc (r : Rx) (K : Config) (stop : Nat) :
    (Rx.forgetGhost K stop r).sectCrc = r.sectCrc := rfl
@[simp] theorem Rx.forgetGhost_storedCrc (r : Rx) (K : Config) (stop : Nat) :
    (Rx.forgetGhost K stop r).storedCrc = r.storedCrc := rfl
@[simp] theorem Rx.forgetGhost_raw (r : Rx) (K : Config) (stop : Nat) :
    (Rx.forgetGhost K stop r).raw = r.raw.forget stop (clipLen K stop K.maxGhostBytes) r.drawTag := rfl
@[simp] theorem Rx.forgetGhost_src (r : Rx) (K : Config) (stop : Nat) : (Rx.forgetGhost K stop r).src = r.src := rfl
@[simp] theorem Rx.forgetGhost_srcpos (r : Rx) (K : Config) (stop : Nat) :
    (Rx.forgetGhost K stop r).srcpos = r.srcpos := rfl
@[simp] theorem Rx.forgetGhost_freeTick (r : Rx) (K : Config) (stop : Nat) :
    (Rx.forgetGhost K stop r).freeTick = r.freeTick + 1 := rfl

/-! ### `Rx.afterReset` -/

@[simp] theorem Rx.afterReset_port (r : Rx) (K : Config) : (r.afterReset K).port = r.port := rfl
@[simp] theorem Rx.afterReset_rbuf (r : Rx) (K : Config) : (r.afterReset K).rbuf = List.replicate K.bufWords 0 := rfl
@[simp] theorem Rx.afterReset_rcount (r : Rx) (K : Config) : (r.afterReset K).rcount = 0 := rfl
@[simp] theorem Rx.afterReset_rptr (r : Rx) (K : Config) : (r.afterReset K).rptr = 0 := rfl
@[simp] theorem Rx.afterReset_roff (r : Rx) (K : Config) : (r.afterReset K).roff = 0 := rfl
@[simp] theorem Rx.afterReset_srcEof (r : Rx) (K : Config) : (r.afterReset K).srcEof = false := rfl
@[simp] theorem Rx.afterReset_pulled (r : Rx) (K : Config) : (r.afterReset K).pulled = 0 := rfl
@[simp] theorem Rx.afterReset_bitpos (r : Rx) (K : Config) : (r.afterReset K).bitpos = 0 := rfl
@[simp] theorem Rx.afterReset_pstate (r : Rx) (K : Config) : (r.afterReset K).pstate = .noHeader := rfl
@[simp] theorem Rx.afterReset_ignoreCrc (r : Rx) (K : Config) : (r.afterReset K).ignoreCrc = false := rfl
@[simp] theorem Rx.afterReset_flt (r : Rx) (K : Config) : (r.afterReset K).flt = FaultRecord.reset := rfl
@[simp] theorem Rx.afterReset_flags (r : Rx) (K : Config) : (r.afterReset K).flags = 0 := rfl
@[simp] theorem Rx.afterReset_mtime (r : Rx) (K : Config) : (r.afterReset K).mtime = 0 := rfl
@[simp] theorem Rx.afterReset_rawSize (r : Rx) (K : Config) : (r.afterReset K).rawSize = 0 := rfl
@[simp] theorem Rx.afterReset_xtraLen (r : Rx) (K : Config) : (r.afterReset K).xtraLen = 0 := rfl
@[simp] theorem Rx.afterReset_name (r : Rx) (K : Config) : (r.afterReset K).name = List.replicate K.nameMax 0 := rfl
@[simp] theorem Rx.afterReset_chans (r : Rx) (K : Config) : (r.afterReset K).chans = [] := rfl
@[simp] theorem Rx.afterReset_nsect (r : Rx) (K : Config) : (r.afterReset K).nsect = 0 := rfl
@[simp] theorem Rx.afterReset_total (r : Rx) (K : Config) : (r.afterReset K).total = 0 := rfl
@[simp] theorem Rx.afterReset_sectSize (r : Rx) (K : Config) : (r.afterReset K).sectSize = 0 := rfl
@[simp] theorem Rx.afterReset_sectCrc (r : Rx) (K : Config) : (r.afterReset K).sectCrc = 0 := rfl
@[simp] theorem Rx.afterReset_storedCrc (r : Rx) (K : Config) : (r.afterReset K).storedCrc = 0 := rfl
@[simp] theorem Rx.afterReset_raw (r : Rx) (K : Config) : (r.afterReset K).raw = r.raw := rfl
@[simp] theorem Rx.afterReset_src (r : Rx) (K : Config) : (r.afterReset K).src = r.src := rfl
@[simp] theorem Rx.afterReset_srcpos (r : Rx) (K : Config) : (r.afterReset K).srcpos = r.srcpos := rfl
@[simp] theorem Rx.afterReset_freeTick (r : Rx) (K : Config) : (r.afterReset K).freeTick = r.freeTick := rfl

/-! ### `Port.failed` -/

@[simp] theorem Port.failed_cw (p : Port) (st : BitVec 8) : (p.failed st).cw = p.cw := rfl
@[simp] theorem Port.failed_a (p : Port) (st : BitVec 8) : (p.failed st).a = p.a := rfl
@[simp] theorem Port.failed_b (p : Port) (st : BitVec 8) : (p.failed st).b = p.b := rfl
@[simp] theorem Port.failed_st (p : Port) (st : BitVec 8) : (p.failed st).st = st := rfl
@[simp] theorem Port.failed_v (p : Port) (st : BitVec 8) : (p.failed st).v = 0 := rfl

/-! ### `Port.answered` -/

@[simp] theorem Port.answered_cw (p : Port) (v : Nat) : (p.answered v).cw = p.cw := rfl
@[simp] theorem Port.answered_a (p : Port) (v : Nat) : (p.answered v).a = p.a := rfl
@[simp] theorem Port.answered_b (p : Port) (v : Nat) : (p.answered v).b = p.b := rfl
@[simp] theorem Port.answered_st (p : Port) (v : Nat) : (p.answered v).st = 0 := rfl
@[simp] theorem Port.answered_v (p : Port) (v : Nat) : (p.answered v).v = BitVec.ofNat 64 v := rfl

/-! ### `Port.latched` -/

@[simp] theorem Port.latched_cw (p : Port) (K : Config) (c : Command) : (p.latched K c).cw = c.cw := rfl
@[simp] theorem Port.latched_a (p : Port) (K : Config) (c : Command) : (p.latched K c).a = c.a := rfl
@[simp] theorem Port.latched_b (p : Port) (K : Config) (c : Command) :
    (p.latched K c).b = BitVec.ofNat 64 (c.b.toNat % 2 ^ K.wordBits) := rfl
@[simp] theorem Port.latched_st (p : Port) (K : Config) (c : Command) : (p.latched K c).st = p.st := rfl
@[simp] theorem Port.latched_v (p : Port) (K : Config) (c : Command) : (p.latched K c).v = p.v := rfl

/-! ### `State.issue` -/

@[simp] theorem State.issue_cfg (s : State) (c : Command) : (s.issue c).cfg = s.cfg := rfl
@[simp] theorem State.issue_tx (s : State) (c : Command) : (s.issue c).tx = s.tx := rfl
@[simp] theorem State.issue_rx (s : State) (c : Command) : (s.issue c).rx = s.rx := rfl
@[simp] theorem State.issue_pending (s : State) (c : Command) : (s.issue c).pending = c :: s.pending := rfl

/-! ### The interface and the whole block -/

@[simp] theorem State.latch_cfg (s : State) (c : Command) : (s.latch c).cfg = s.cfg := by
  unfold State.latch; split <;> rfl

@[simp] theorem State.latch_pending (s : State) (c : Command) : (s.latch c).pending = s.pending := by
  unfold State.latch; split <;> rfl

theorem State.latch_rx (s : State) (c : Command) (h : c.selectsRx = true) :
    s.latch c = { s with rx := { s.rx with port := s.rx.port.latched s.cfg c } } := by
  simp [State.latch, h]

theorem State.latch_tx (s : State) (c : Command) (h : c.selectsRx = false) :
    s.latch c = { s with tx := { s.tx with port := s.tx.port.latched s.cfg c } } := by
  simp [State.latch, h]

@[simp] theorem State.illegal_cfg (s : State) (cw : U32) (b : Bool) : (s.illegal cw b).cfg = s.cfg := by
  unfold State.illegal; split <;> rfl

@[simp] theorem State.illegal_pending (s : State) (cw : U32) (b : Bool) :
    (s.illegal cw b).pending = s.pending := by unfold State.illegal; split <;> rfl

@[simp] theorem onTx_next (f : Config → Tx → Tx) (s : State) : onTx f s = .next { s with tx := f s.cfg s.tx } := rfl

@[simp] theorem onRx_next (f : Config → Rx → Rx) (s : State) : onRx f s = .next { s with rx := f s.cfg s.rx } := rfl

end Sys2Proof.Machine
end

