-- ==== Sys2Proof/Laws/Commands.lean ====
section
/-! SUPPORT. What the frame of a command can do: the checks, the preamble of 60_exceptions.md R348, the fault record
of R345, and the rules by which a reading procedure is followed from one stage to the next. -/

namespace Sys2Proof.Machine

/-! ## Checks -/

@[simp] theorem refuseIf_eq_none {c : Prop} [Decidable c] {e : Raise} : refuseIf c e = none ↔ ¬c := by
  unfold refuseIf; split <;> simp_all

theorem refuseIf_eq_some {c : Prop} [Decidable c] {e e' : Raise} : refuseIf c e = some e' ↔ c ∧ e = e' := by
  unfold refuseIf; split <;> simp_all

theorem refuseIf_pos {c : Prop} [Decidable c] (h : c) (e : Raise) : refuseIf c e = some e := if_pos h

theorem refuseIf_neg {c : Prop} [Decidable c] (h : ¬c) (e : Raise) : refuseIf c e = none := if_neg h

@[simp] theorem orElse_eq_none {a b : Option Raise} : (a <|> b) = none ↔ a = none ∧ b = none := by
  cases a <;> simp

@[simp] theorem afterCheck_none {α : Type} (ok : α) : afterCheck none ok = .ok ok := rfl

@[simp] theorem afterCheck_some {α : Type} (e : Raise) (ok : α) : afterCheck (some e) ok = .error e := rfl

/-- The checks in order, then the result (R347). -/
theorem afterCheck_cases {α : Type} (check : Option Raise) (ok : α) :
    (check = none ∧ afterCheck check ok = .ok ok) ∨ ∃ e, check = some e ∧ afterCheck check ok = .error e := by
  cases check <;> simp [afterCheck]

/-! ## Faults -/

theorem FaultCode.code_ne_zero (c : FaultCode) : c.code ≠ 0 := by cases c <;> decide

theorem FaultRecord.record_first {f : FaultRecord} (h : f.fault = 0) (e : Raise) :
    f.record e = { fault := e.code.code, info0 := BitVec.ofNat 32 e.i0, info1 := BitVec.ofNat 32 e.i1 } := if_pos h

theorem FaultRecord.record_later {f : FaultRecord} (h : f.fault ≠ 0) (e : Raise) : f.record e = f := if_neg h

theorem FaultRecord.record_ne_zero (f : FaultRecord) (e : Raise) : (f.record e).fault ≠ 0 := by
  by_cases h : f.fault = 0
  · rw [FaultRecord.record_first h]; exact FaultCode.code_ne_zero _
  · rwa [FaultRecord.record_later h]

theorem FaultRecord.reset_ok : FaultRecord.reset.Ok := by simp [FaultRecord.Ok, FaultRecord.reset]

theorem FaultRecord.record_ok {f : FaultRecord} (h : f.Ok) (e : Raise) : (f.record e).Ok := by
  by_cases hf : f.fault = 0
  · rw [FaultRecord.record_first hf]
    exact ⟨by simp only; cases e.code <;> decide, fun h0 => absurd h0 (FaultCode.code_ne_zero _)⟩
  · rwa [FaultRecord.record_later hf]

theorem Tx.faulted_eq_false {t : Tx} : t.faulted = false ↔ t.flt.fault = 0 := by simp [Tx.faulted]

theorem Tx.faulted_eq_true {t : Tx} : t.faulted = true ↔ t.flt.fault ≠ 0 := by simp [Tx.faulted]

theorem Rx.faulted_eq_false {r : Rx} : r.faulted = false ↔ r.flt.fault = 0 := by simp [Rx.faulted]

theorem Rx.faulted_eq_true {r : Rx} : r.faulted = true ↔ r.flt.fault ≠ 0 := by simp [Rx.faulted]

/-! ## TX commands -/

theorem Tx.command_faulted {t : Tx} (h : t.flt.fault ≠ 0) (body : Tx → Except Raise (Nat × Tx)) :
    t.command body = t.answerFaulted := if_pos (Tx.faulted_eq_true.2 h)

theorem Tx.command_live {t : Tx} (h : t.flt.fault = 0) (body : Tx → Except Raise (Nat × Tx)) :
    t.command body = t.finish (body t) := by rw [Tx.command, Tx.faulted_eq_false.2 h]; rfl

/-- All a TX command can do (R345, R346, R348). -/
theorem Tx.command_cases (t : Tx) (body : Tx → Except Raise (Nat × Tx)) :
    (t.flt.fault ≠ 0 ∧ t.command body = t.answerFaulted) ∨
    (t.flt.fault = 0 ∧ ∃ e, body t = .error e ∧ t.command body = t.raise e) ∨
    (t.flt.fault = 0 ∧ ∃ v t', body t = .ok (v, t') ∧ t.command body = t'.respond v) := by
  by_cases h : t.flt.fault = 0
  · rw [Tx.command_live h]
    rcases hb : body t with e | ⟨v, t'⟩
    · exact .inr (.inl ⟨h, e, rfl, rfl⟩)
    · exact .inr (.inr ⟨h, v, t', rfl, rfl⟩)
  · exact .inl ⟨h, Tx.command_faulted h body⟩

theorem Tx.streamCommand_ready {t : Tx} (h : t.Ready) (cw : U32) (body : Tx → Except Raise (Nat × Tx)) :
    t.streamCommand cw body = t.finish (body t) := by
  rw [Tx.streamCommand, Tx.command_live h.1]; simp [h.2]

theorem Tx.streamCommand_closed {t : Tx} (h : t.flt.fault = 0) (hc : t.closed = true) (cw : U32)
    (body : Tx → Except Raise (Nat × Tx)) :
    t.streamCommand cw body = t.raise ⟨.illegalState, cw.toNat, t.status⟩ := by
  rw [Tx.streamCommand, Tx.command_live h]; simp [hc, Tx.finish]

/-- All a bit-stream, codec or container command of TX can do (R152, R345, R346, R348). -/
theorem Tx.streamCommand_cases (t : Tx) (cw : U32) (body : Tx → Except Raise (Nat × Tx)) :
    (t.flt.fault ≠ 0 ∧ t.streamCommand cw body = t.answerFaulted) ∨
    (t.flt.fault = 0 ∧ ∃ e, t.streamCommand cw body = t.raise e) ∨
    (t.Ready ∧ ∃ v t', body t = .ok (v, t') ∧ t.streamCommand cw body = t'.respond v) := by
  rcases Tx.command_cases t fun t => if t.closed then .error ⟨.illegalState, cw.toNat, t.status⟩ else body t with
    h | ⟨h, e, _, he⟩ | ⟨h, v, t', hb, ht⟩
  · exact .inl h
  · exact .inr (.inl ⟨h, e, he⟩)
  · refine .inr (.inr ⟨⟨h, ?_⟩, v, t', ?_, ht⟩)
    · cases hc : t.closed <;> simp_all
    · cases hc : t.closed <;> simp_all

/-! ## RX commands -/

theorem Rx.command_faulted {r : Rx} (h : r.flt.fault ≠ 0) (check : Rx → Option Raise) (work : RxM Nat)
    (onFault : Raise → Rx → Rx) : r.command check work onFault = r.answerFaulted := if_pos (Rx.faulted_eq_true.2 h)

theorem Rx.command_refused {r : Rx} {e : Raise} (h : r.flt.fault = 0) {check : Rx → Option Raise}
    (hc : check r = some e) (work : RxM Nat) (onFault : Raise → Rx → Rx) :
    r.command check work onFault = r.raise e := by
  rw [Rx.command, Rx.faulted_eq_false.2 h]; simp [hc]

theorem Rx.command_ok {r r' : Rx} {v : Nat} (h : r.flt.fault = 0) {check : Rx → Option Raise} (hc : check r = none)
    {work : RxM Nat} (hw : work r = .ok v r') (onFault : Raise → Rx → Rx) :
    r.command check work onFault = r'.respond v := by
  rw [Rx.command, Rx.faulted_eq_false.2 h]; simp [hc, hw]

theorem Rx.command_error {r r' : Rx} {e : Raise} (h : r.flt.fault = 0) {check : Rx → Option Raise}
    (hc : check r = none) {work : RxM Nat} (hw : work r = .error e r') (onFault : Raise → Rx → Rx) :
    r.command check work onFault = onFault e r' := by
  rw [Rx.command, Rx.faulted_eq_false.2 h]; simp [hc, hw]

/-- All an RX command can do (R345, R346, R348). -/
theorem Rx.command_cases (r : Rx) (check : Rx → Option Raise) (work : RxM Nat) (onFault : Raise → Rx → Rx) :
    (r.flt.fault ≠ 0 ∧ r.command check work onFault = r.answerFaulted) ∨
    (r.flt.fault = 0 ∧ ∃ e, check r = some e ∧ r.command check work onFault = r.raise e) ∨
    (r.flt.fault = 0 ∧ check r = none ∧ ∃ v r', work r = .ok v r' ∧ r.command check work onFault = r'.respond v) ∨
    (r.flt.fault = 0 ∧ check r = none ∧
      ∃ e r', work r = .error e r' ∧ r.command check work onFault = onFault e r') := by
  by_cases h : r.flt.fault = 0
  · refine .inr ?_
    rcases hc : check r with _ | e
    · refine .inr ?_
      rcases hw : work r with ⟨v, r'⟩ | ⟨e, r'⟩
      · exact .inl ⟨h, rfl, v, r', rfl, Rx.command_ok h hc hw onFault⟩
      · exact .inr ⟨h, rfl, e, r', rfl, Rx.command_error h hc hw onFault⟩
    · exact .inl ⟨h, e, rfl, Rx.command_refused h hc work onFault⟩
  · exact .inl ⟨h, Rx.command_faulted h check work onFault⟩

theorem Rx.simpleCommand_faulted {r : Rx} (h : r.flt.fault ≠ 0) (body : Rx → Except Raise (Nat × Rx)) :
    r.simpleCommand body = r.answerFaulted := if_pos (Rx.faulted_eq_true.2 h)

theorem Rx.simpleCommand_ok {r r' : Rx} {v : Nat} (h : r.flt.fault = 0) {body : Rx → Except Raise (Nat × Rx)}
    (hb : body r = .ok (v, r')) : r.simpleCommand body = r'.respond v := by
  rw [Rx.simpleCommand, Rx.faulted_eq_false.2 h]; simp [hb]

theorem Rx.simpleCommand_error {r : Rx} {e : Raise} (h : r.flt.fault = 0) {body : Rx → Except Raise (Nat × Rx)}
    (hb : body r = .error e) : r.simpleCommand body = r.raise e := by
  rw [Rx.simpleCommand, Rx.faulted_eq_false.2 h]; simp [hb]

/-- All an RX command that cannot fault past its checks can do (R345, R346, R348). -/
theorem Rx.simpleCommand_cases (r : Rx) (body : Rx → Except Raise (Nat × Rx)) :
    (r.flt.fault ≠ 0 ∧ r.simpleCommand body = r.answerFaulted) ∨
    (r.flt.fault = 0 ∧ ∃ e, body r = .error e ∧ r.simpleCommand body = r.raise e) ∨
    (r.flt.fault = 0 ∧ ∃ v r', body r = .ok (v, r') ∧ r.simpleCommand body = r'.respond v) := by
  by_cases h : r.flt.fault = 0
  · rcases hb : body r with e | ⟨v, r'⟩
    · exact .inr (.inl ⟨h, e, rfl, Rx.simpleCommand_error h hb⟩)
    · exact .inr (.inr ⟨h, v, r', rfl, Rx.simpleCommand_ok h hb⟩)
  · exact .inl ⟨h, Rx.simpleCommand_faulted h body⟩

/-! ## Following a reading procedure -/

/-- `x` started where `P` holds answers with `Q`, or faults with `E`. -/
def RxM.Ends {α : Type} (x : RxM α) (P : Rx → Prop) (Q : α → Rx → Prop) (E : Rx → Prop) : Prop :=
  ∀ r, P r → match x r with
    | .ok a r' => Q a r'
    | .error _ r' => E r'

variable {α β : Type} {P P' : Rx → Prop} {Q Q' : α → Rx → Prop} {E E' : Rx → Prop}

theorem RxM.Ends.ok {x : RxM α} (h : x.Ends P Q E) {r r' : Rx} {a : α} (hp : P r) (hx : x r = .ok a r') : Q a r' := by
  have := h r hp; rwa [hx] at this

theorem RxM.Ends.error {x : RxM α} (h : x.Ends P Q E) {r r' : Rx} {e : Raise} (hp : P r) (hx : x r = .error e r') :
    E r' := by
  have := h r hp; rwa [hx] at this

theorem RxM.Ends.weaken {x : RxM α} (h : x.Ends P Q E) (hp : ∀ r, P' r → P r) (hq : ∀ a r, Q a r → Q' a r)
    (he : ∀ r, E r → E' r) : x.Ends P' Q' E' := by
  intro r hr
  have := h r (hp r hr)
  cases hx : x r <;> rw [hx] at this
  · exact hq _ _ this
  · exact he _ this

theorem RxM.Ends.bind {x : RxM α} {f : α → RxM β} {R : β → Rx → Prop} (h : x.Ends P Q E)
    (k : ∀ a, (f a).Ends (Q a) R E) : RxM.Ends (x >>= f) P R E := by
  intro r hr
  have h1 := h r hr
  simp only [Bind.bind, EStateM.bind]
  cases hx : x r with
  | ok a r' => rw [hx] at h1; exact k a r' h1
  | error e r' => rw [hx] at h1; exact h1

theorem RxM.Ends.pure {a : α} (h : ∀ r, P r → Q a r) : RxM.Ends (Pure.pure a : RxM α) P Q E := fun r hr => h r hr

theorem RxM.Ends.throw {e : Raise} (h : ∀ r, P r → E r) : RxM.Ends (MonadExcept.throw e : RxM α) P Q E :=
  fun r hr => h r hr

theorem RxM.Ends.modify {f : Rx → Rx} {Q : PUnit → Rx → Prop} (h : ∀ r, P r → Q ⟨⟩ (f r)) :
    RxM.Ends (modify f : RxM PUnit) P Q E := fun r hr => h r hr

theorem RxM.Ends.get {Q : Rx → Rx → Prop} (h : ∀ r, P r → Q r r) : RxM.Ends (MonadState.get : RxM Rx) P Q E :=
  fun r hr => h r hr

theorem RxM.Ends.ite {c : Prop} [Decidable c] {x y : RxM α} (hx : c → x.Ends P Q E) (hy : ¬c → y.Ends P Q E) :
    RxM.Ends (if c then x else y) P Q E := by split <;> simp_all

theorem RxM.Ends.raiseIf {c : Option Raise} {Q : Unit → Rx → Prop} (hok : c = none → ∀ r, P r → Q () r)
    (herr : ∀ r, P r → E r) : RxM.Ends (raiseIf c) P Q E := by
  cases c with
  | none => exact fun r hr => hok rfl r hr
  | some e => exact fun r hr => herr r hr

end Sys2Proof.Machine
end

