-- ==== Sys2Proof/Laws/Memory.lean ====
section
/-! SUPPORT. Laws of raw memory (20_memory.md R71, R79 to R82, R86): every operation keeps the canonical form, and what a
read finds after each of them. -/

namespace Sys2Proof.Machine

/-! ## The list of written bytes -/

/-- The canonical form of the list of written bytes. -/
abbrev CellsWf (cs : List Host.Cell) : Prop :=
  cs.Pairwise (fun c d => c.1 < d.1) ∧ ∀ c ∈ cs, c.2 ≠ rawDefault

theorem mem_setCell {a : Nat} {b : Byte} {cs : List Host.Cell} {c : Host.Cell} (h : c ∈ setCell a b cs) :
    c = (a, b) ∨ c ∈ cs := by
  induction cs with
  | nil => simp only [setCell] at h; split at h <;> simp_all
  | cons d rest ih =>
    obtain ⟨x, y⟩ := d
    simp only [setCell] at h
    split at h
    · split at h <;> simp_all
    · split at h
      · split at h <;> simp_all <;> tauto
      · simp only [List.mem_cons] at h ⊢; tauto

theorem setCell_wf {a : Nat} {b : Byte} {cs : List Host.Cell} (h : CellsWf cs) : CellsWf (setCell a b cs) := by
  induction cs with
  | nil => simp only [setCell]; split <;> simp_all [CellsWf]
  | cons d rest ih =>
    obtain ⟨x, y⟩ := d
    obtain ⟨hp, hn⟩ := h
    rw [List.pairwise_cons] at hp
    obtain ⟨hx, hp⟩ := hp
    have hn' : ∀ c ∈ rest, c.2 ≠ rawDefault := fun c hc => hn c (List.mem_cons_of_mem _ hc)
    have hy : y ≠ rawDefault := hn (x, y) (List.mem_cons_self ..)
    obtain ⟨ihp, ihn⟩ := ih ⟨hp, hn'⟩
    simp only [setCell]
    split
    · rename_i hax
      split
      · exact ⟨List.pairwise_cons.2 ⟨hx, hp⟩, hn⟩
      · refine ⟨List.pairwise_cons.2 ⟨?_, List.pairwise_cons.2 ⟨hx, hp⟩⟩, ?_⟩
        · intro c hc
          rcases List.mem_cons.1 hc with rfl | hc
          · exact hax
          · exact lt_trans hax (hx c hc)
        · intro c hc
          rcases List.mem_cons.1 hc with rfl | hc
          · assumption
          · exact hn c hc
    · split
      · subst_vars
        split
        · exact ⟨hp, hn'⟩
        · refine ⟨List.pairwise_cons.2 ⟨hx, hp⟩, ?_⟩
          intro c hc
          rcases List.mem_cons.1 hc with rfl | hc
          · assumption
          · exact hn' c hc
      · refine ⟨List.pairwise_cons.2 ⟨?_, ihp⟩, ?_⟩
        · intro c hc
          rcases mem_setCell hc with rfl | hc
          · show x < a; omega
          · exact hx c hc
        · intro c hc
          rcases List.mem_cons.1 hc with rfl | hc
          · exact hy
          · exact ihn c hc

theorem cellAt_of_lt {a : Nat} {cs : List Host.Cell} (h : ∀ c ∈ cs, a < c.1) : cellAt a cs = rawDefault := by
  induction cs with
  | nil => rfl
  | cons d rest ih =>
    obtain ⟨x, y⟩ := d
    have hx : a < x := h (x, y) (List.mem_cons_self ..)
    simp only [cellAt, show a ≠ x by omega, if_false]
    exact ih fun c hc => h c (List.mem_cons_of_mem _ hc)

theorem cellAt_setCell_self {a : Nat} {b : Byte} {cs : List Host.Cell} (h : CellsWf cs) :
    cellAt a (setCell a b cs) = b := by
  induction cs with
  | nil => simp only [setCell]; split <;> simp_all [cellAt]
  | cons d rest ih =>
    obtain ⟨x, y⟩ := d
    obtain ⟨hp, hn⟩ := h
    rw [List.pairwise_cons] at hp
    have ih := ih ⟨hp.2, fun c hc => hn c (List.mem_cons_of_mem _ hc)⟩
    simp only [setCell]
    split
    · rename_i hax
      split
      · rename_i hb
        rw [hb, cellAt_of_lt]
        intro c hc
        rcases List.mem_cons.1 hc with rfl | hc
        · exact hax
        · exact lt_trans hax (hp.1 c hc)
      · simp [cellAt]
    · split
      · subst_vars
        split
        · rename_i hb
          rw [hb, cellAt_of_lt hp.1]
        · simp [cellAt]
      · simp only [cellAt]
        rw [if_neg (by assumption)]
        exact ih

theorem cellAt_setCell_ne {a e : Nat} {b : Byte} {cs : List Host.Cell} (he : e ≠ a) :
    cellAt e (setCell a b cs) = cellAt e cs := by
  induction cs with
  | nil => simp only [setCell]; split <;> simp [cellAt, he]
  | cons d rest ih =>
    obtain ⟨x, y⟩ := d
    simp only [setCell]
    split
    · split <;> simp [cellAt, he]
    · split
      · subst_vars
        split <;> simp [cellAt, he]
      · simp only [cellAt, ih]

/-! ## The list of unspecified spans -/

/-- The canonical form of the list of unspecified spans. -/
abbrev SpansWf (ps : List Span) : Prop :=
  ps.Pairwise (fun p q => p.lo + p.len ≤ q.lo) ∧ ∀ p ∈ ps, 0 < p.len

theorem mem_without {lo hi : Nat} {p q : Span} (h : q ∈ Span.without lo hi p) :
    p.lo ≤ q.lo ∧ q.lo + q.len ≤ p.lo + p.len ∧ q.tag = p.tag ∧ 0 < q.len ∧ (q.lo + q.len ≤ lo ∨ hi ≤ q.lo) := by
  simp only [Span.without, List.mem_append] at h
  rcases h with h | h
  · split at h
    · simp only [List.mem_cons, List.not_mem_nil, or_false] at h
      subst h; simp; omega
    · simp at h
  · split at h
    · simp only [List.mem_cons, List.not_mem_nil, or_false] at h
      subst h; simp; omega
    · simp at h

theorem without_wf {lo hi : Nat} (hlh : lo ≤ hi) (p : Span) : SpansWf (Span.without lo hi p) := by
  refine ⟨?_, fun q hq => (mem_without hq).2.2.2.1⟩
  simp only [Span.without]
  split <;> split <;> simp
  omega

theorem mem_carveSpans {lo hi : Nat} {ps : List Span} {q : Span} :
    q ∈ carveSpans lo hi ps ↔ ∃ p ∈ ps, q ∈ Span.without lo hi p := by simp [carveSpans]

theorem carveSpans_wf {lo hi : Nat} (hlh : lo ≤ hi) {ps : List Span} (h : SpansWf ps) :
    SpansWf (carveSpans lo hi ps) := by
  refine ⟨?_, ?_⟩
  · induction ps with
    | nil => simp [carveSpans]
    | cons p ps ih =>
      obtain ⟨hp, hn⟩ := h
      rw [List.pairwise_cons] at hp
      have ih := ih ⟨hp.2, fun q hq => hn q (List.mem_cons_of_mem _ hq)⟩
      show (Span.without lo hi p ++ carveSpans lo hi ps).Pairwise _
      refine List.pairwise_append.2 ⟨(without_wf hlh p).1, ih, ?_⟩
      intro a ha b hb
      obtain ⟨q, hq, hb⟩ := mem_carveSpans.1 hb
      have h1 := mem_without ha
      have h2 := mem_without hb
      have h3 := hp.1 q hq
      omega
  · intro q hq
    obtain ⟨p, _, hq⟩ := mem_carveSpans.1 hq
    exact (mem_without hq).2.2.2.1

theorem mem_insertSpan {p q : Span} {ps : List Span} : q ∈ insertSpan p ps ↔ q = p ∨ q ∈ ps := by
  induction ps with
  | nil => simp [insertSpan]
  | cons r rs ih => simp only [insertSpan]; split <;> simp [ih]; tauto

theorem insertSpan_wf {p : Span} {ps : List Span} (hp : 0 < p.len) (h : SpansWf ps)
    (hd : ∀ q ∈ ps, q.lo + q.len ≤ p.lo ∨ p.lo + p.len ≤ q.lo) : SpansWf (insertSpan p ps) := by
  refine ⟨?_, fun q hq => ?_⟩
  · induction ps with
    | nil => simp [insertSpan]
    | cons r rs ih =>
      obtain ⟨hr, hn⟩ := h
      have hr' := hr
      rw [List.pairwise_cons] at hr
      have hr0 := hn r (List.mem_cons_self ..)
      have hdr := hd r (List.mem_cons_self ..)
      simp only [insertSpan]
      split
      · refine List.pairwise_cons.2 ⟨fun q hq => ?_, hr'⟩
        rcases List.mem_cons.1 hq with rfl | hq
        · omega
        · have := hr.1 q hq
          omega
      · refine List.pairwise_cons.2 ⟨fun q hq => ?_, ?_⟩
        · rcases mem_insertSpan.1 hq with rfl | hq
          · omega
          · exact hr.1 q hq
        · exact ih ⟨hr.2, fun q hq => hn q (List.mem_cons_of_mem _ hq)⟩ fun q hq => hd q (List.mem_cons_of_mem _ hq)
  · rcases mem_insertSpan.1 hq with rfl | hq
    · exact hp
    · exact h.2 q hq

/-! ## The operations keep the canonical form -/

theorem RawMem.wf_iff {m : RawMem} :
    m.Wf ↔ CellsWf m.cells ∧ SpansWf m.free ∧ ∀ c ∈ m.cells, ∀ p ∈ m.free, p.covers c.1 = false := by
  simp only [RawMem.Wf, CellsWf, SpansWf, and_assoc]

theorem RawMem.reset_wf : RawMem.reset.Wf := by simp [RawMem.Wf, RawMem.reset]

theorem Span.covers_false {p : Span} {a : Nat} : p.covers a = false ↔ a < p.lo ∨ p.lo + p.len ≤ a := by
  simp only [Span.covers, Bool.and_eq_false_iff, decide_eq_false_iff_not]; omega

theorem Span.covers_true {p : Span} {a : Nat} : p.covers a = true ↔ p.lo ≤ a ∧ a < p.lo + p.len := by
  simp [Span.covers]

theorem RawMem.writeByte_wf {m : RawMem} (h : m.Wf) (a : Nat) (b : Byte) : (m.writeByte a b).Wf := by
  rw [RawMem.wf_iff] at h ⊢
  obtain ⟨hc, hs, hd⟩ := h
  refine ⟨setCell_wf hc, carveSpans_wf (by omega) hs, fun c hcm p hp => ?_⟩
  obtain ⟨q, hq, hpq⟩ := mem_carveSpans.1 hp
  have hw := mem_without hpq
  rw [Span.covers_false]
  rcases mem_setCell hcm with rfl | hcm
  · simp only; omega
  · have := Span.covers_false.1 (hd c hcm q hq)
    omega

theorem RawMem.forget_wf {m : RawMem} (h : m.Wf) (lo len tag : Nat) : (m.forget lo len tag).Wf := by
  rw [RawMem.forget]
  split
  · exact h
  · rename_i hlen
    rw [RawMem.wf_iff] at h ⊢
    obtain ⟨hc, hs, hd⟩ := h
    refine ⟨⟨hc.1.filter _, fun c hcm => hc.2 c (List.mem_filter.1 hcm).1⟩,
      insertSpan_wf (show 0 < len by omega) (carveSpans_wf (by omega) hs) ?_, ?_⟩
    · intro q hq
      obtain ⟨p, hp, hq⟩ := mem_carveSpans.1 hq
      exact (mem_without hq).2.2.2.2
    · intro c hcm p hp
      obtain ⟨hcm, hcov⟩ := List.mem_filter.1 hcm
      rcases mem_insertSpan.1 hp with rfl | hp
      · simpa using hcov
      · obtain ⟨q, hq, hpq⟩ := mem_carveSpans.1 hp
        have hw := mem_without hpq
        have := Span.covers_false.1 (hd c hcm q hq)
        rw [Span.covers_false]
        omega

theorem RawMem.write_eq_foldl (m : RawMem) (addr n v : Nat) :
    m.write addr (n + 1) v = (m.write addr n v).writeByte (addr + n) (BitVec.ofNat 8 (v >>> (8 * n))) := by
  simp [RawMem.write, List.range_succ]

theorem RawMem.write_wf {m : RawMem} (h : m.Wf) (addr n v : Nat) : (m.write addr n v).Wf := by
  induction n with
  | zero => simpa [RawMem.write] using h
  | succ n ih => rw [RawMem.write_eq_foldl]; exact RawMem.writeByte_wf ih _ _

theorem writeWholeWords_wf (ws addr : Nat) (rs : List Nat) {m : RawMem} (h : m.Wf) :
    (writeWholeWords ws addr rs m).Wf := by
  induction rs generalizing addr m with
  | nil => exact h
  | cons r rs ih => exact ih _ (RawMem.write_wf h _ _ _)

theorem writeWords_wf {m : RawMem} (h : m.Wf) (addr ws nbytes : Nat) (rs : List Nat) :
    (writeWords m addr ws nbytes rs).Wf := by
  rw [writeWords]
  split
  · exact writeWholeWords_wf _ _ _ h
  · exact RawMem.write_wf (writeWholeWords_wf _ _ _ h) _ _ _

/-! ## What a read finds -/

theorem find_covers_carve {ps : List Span} {lo hi e : Nat} (he : e < lo ∨ hi ≤ e) :
    ((carveSpans lo hi ps).find? (·.covers e)).map (·.tag) = (ps.find? (·.covers e)).map (·.tag) := by
  induction ps with
  | nil => rfl
  | cons p ps ih =>
    rw [show carveSpans lo hi (p :: ps) = Span.without lo hi p ++ carveSpans lo hi ps from rfl, List.find?_append,
      List.find?_cons]
    by_cases hp : p.covers e = true
    · rw [hp]
      have hc := Span.covers_true.1 hp
      have : ∃ q ∈ Span.without lo hi p, q.covers e = true := by
        simp only [Span.without, List.mem_append]
        rcases he with he | he
        · refine ⟨{ p with len := min lo (p.lo + p.len) - p.lo }, .inl ?_, ?_⟩
          · rw [if_pos (by omega)]; simp
          · rw [Span.covers_true]; simp only; omega
        · refine ⟨⟨max hi p.lo, p.lo + p.len - max hi p.lo, p.tag⟩, .inr ?_, ?_⟩
          · rw [if_pos (by omega)]; simp
          · rw [Span.covers_true]; simp only; omega
      obtain ⟨q, hq, hqe⟩ := this
      cases hf : (Span.without lo hi p).find? (·.covers e) with
      | none => exact absurd hqe (by simpa using List.find?_eq_none.1 hf q hq)
      | some q' => simpa using (mem_without (List.mem_of_find?_eq_some hf)).2.2.1
    · have hnone : (Span.without lo hi p).find? (·.covers e) = none := by
        rw [List.find?_eq_none]
        intro q hq hqe
        have := mem_without hq
        have := Span.covers_true.1 hqe
        exact hp (Span.covers_true.2 (by omega))
      rw [hnone]
      simp only [Bool.not_eq_true] at hp
      simpa [hp] using ih

theorem carve_not_covers {ps : List Span} {a : Nat} : (carveSpans a (a + 1) ps).find? (·.covers a) = none := by
  rw [List.find?_eq_none]
  intro q hq
  obtain ⟨p, _, hq⟩ := mem_carveSpans.1 hq
  have := mem_without hq
  simp [Span.covers]
  omega

theorem RawMem.readByte_eq (m : RawMem) (a : Nat) :
    m.readByte a = match (m.free.find? (·.covers a)).map (·.tag) with
      | some tag => Config.freeByte tag a
      | none => cellAt a m.cells := by
  rw [RawMem.readByte]
  cases m.free.find? (·.covers a) <;> rfl

/-- Reading back the byte just written (R81, R80). -/
theorem RawMem.readByte_writeByte_self {m : RawMem} (h : m.Wf) (a : Nat) (b : Byte) :
    (m.writeByte a b).readByte a = b := by
  simp only [RawMem.readByte, RawMem.writeByte, carve_not_covers]
  exact cellAt_setCell_self (RawMem.wf_iff.1 h).1

/-- Writing a byte leaves every other address alone. -/
theorem RawMem.readByte_writeByte_ne {a e : Nat} (m : RawMem) (b : Byte) (h : e ≠ a) :
    (m.writeByte a b).readByte e = m.readByte e := by
  rw [RawMem.readByte_eq, RawMem.readByte_eq]
  simp only [RawMem.writeByte, find_covers_carve (show e < a ∨ a + 1 ≤ e by omega), cellAt_setCell_ne h]

theorem cellAt_filter {e : Nat} {f : Host.Cell → Bool} {cs : List Host.Cell} (h : ∀ c ∈ cs, c.1 = e → f c = true) :
    cellAt e (cs.filter f) = cellAt e cs := by
  induction cs with
  | nil => rfl
  | cons c cs ih =>
    have ih := ih fun d hd => h d (List.mem_cons_of_mem _ hd)
    rw [List.filter_cons]
    split
    · obtain ⟨x, y⟩ := c
      simp only [cellAt, ih]
    · rename_i hf
      obtain ⟨x, y⟩ := c
      have : e ≠ x := fun he => hf (h (x, y) (List.mem_cons_self ..) he.symm)
      simp only [cellAt, this, if_false, ih]

theorem find_insertSpan {p : Span} {ps : List Span} {e : Nat} (h : p.covers e = false) :
    (insertSpan p ps).find? (·.covers e) = ps.find? (·.covers e) := by
  induction ps with
  | nil => simp [insertSpan, h]
  | cons q qs ih =>
    simp only [insertSpan]
    split
    · rw [List.find?_cons, h]
    · simp only [List.find?_cons, ih]

/-- Forgetting a span leaves every address outside it alone (R86). -/
theorem RawMem.readByte_forget_outside {lo len e : Nat} (m : RawMem) (tag : Nat) (h : e < lo ∨ lo + len ≤ e) :
    (m.forget lo len tag).readByte e = m.readByte e := by
  rw [RawMem.forget]
  split
  · rfl
  · have hcov : Span.covers ⟨lo, len, tag⟩ e = false := Span.covers_false.2 h
    rw [RawMem.readByte_eq, RawMem.readByte_eq]
    simp only [find_insertSpan hcov, find_covers_carve h]
    rw [cellAt_filter]
    rintro c - rfl
    simp [hcov]

/-- Storing `n` bytes leaves every address outside them alone (R81). -/
theorem RawMem.readByte_write_outside {addr n e : Nat} (m : RawMem) (v : Nat) (h : e < addr ∨ addr + n ≤ e) :
    (m.write addr n v).readByte e = m.readByte e := by
  induction n with
  | zero => rfl
  | succ n ih =>
    rw [RawMem.write_eq_foldl, RawMem.readByte_writeByte_ne _ _ (by omega), ih (by omega)]

/-- Byte `j` of a store of `n` bytes is byte `j` of the value (R81). -/
theorem RawMem.readByte_write_inside {addr n j : Nat} {m : RawMem} (hm : m.Wf) (v : Nat) (h : j < n) :
    (m.write addr n v).readByte (addr + j) = BitVec.ofNat 8 (v >>> (8 * j)) := by
  induction n with
  | zero => omega
  | succ n ih =>
    rw [RawMem.write_eq_foldl]
    by_cases hj : j = n
    · subst hj; exact RawMem.readByte_writeByte_self (RawMem.write_wf hm _ _ _) _ _
    · rw [RawMem.readByte_writeByte_ne _ _ (by omega), ih (by omega)]

theorem bytesValue_map_byte (v n : Nat) :
    bytesValue ((List.range n).map fun j => BitVec.ofNat 8 (v >>> (8 * j))) = v % 2 ^ (8 * n) := by
  induction n generalizing v with
  | zero => simp [bytesValue, Nat.mod_one]
  | succ n ih =>
    rw [List.range_succ_eq_map, List.map_cons, List.map_map, bytesValue]
    have : (fun j => BitVec.ofNat 8 (v >>> (8 * j))) ∘ Nat.succ = fun j => BitVec.ofNat 8 ((v / 256) >>> (8 * j)) := by
      funext j
      simp only [Function.comp, Nat.succ_eq_add_one, Nat.mul_add, Nat.mul_one, Nat.add_comm (8 * j) 8, Nat.shiftRight_add]
      rw [Nat.shiftRight_eq_div_pow v 8]
    rw [this, ih, show 8 * (n + 1) = 8 + 8 * n by ring, Nat.pow_add, Nat.mod_mul]
    simp

/-- A load of what was just stored gives the low `8n` bits of the value (R80, R81). -/
theorem RawMem.read_write {m : RawMem} (hm : m.Wf) (addr n v : Nat) :
    (m.write addr n v).read addr n = v % 2 ^ (8 * n) := by
  rw [RawMem.read, RawMem.bytes, ← bytesValue_map_byte]
  congr 1
  refine List.map_congr_left fun j hj => ?_
  exact RawMem.readByte_write_inside hm v (List.mem_range.1 hj)

/-! ## Vectors (44_codec_decode.md R225) -/

theorem readByte_writeWholeWords_outside {ws e : Nat} (rs : List Nat) {addr : Nat} (m : RawMem)
    (h : e < addr ∨ addr + rs.length * ws ≤ e) : (writeWholeWords ws addr rs m).readByte e = m.readByte e := by
  induction rs generalizing addr m with
  | nil => rfl
  | cons r rs ih =>
    rw [List.length_cons, Nat.succ_mul] at h
    rw [writeWholeWords, ih _ (by omega), RawMem.readByte_write_outside _ _ (by omega)]

theorem readByte_writeWholeWords_inside {ws i j : Nat} (rs : List Nat) {addr : Nat} {m : RawMem} (hm : m.Wf)
    (hi : i < rs.length) (hj : j < ws) :
    (writeWholeWords ws addr rs m).readByte (addr + i * ws + j) = BitVec.ofNat 8 (rs.getD i 0 >>> (8 * j)) := by
  induction rs generalizing addr m i with
  | nil => simp at hi
  | cons r rs ih =>
    rw [writeWholeWords]
    cases i with
    | zero =>
      rw [readByte_writeWholeWords_outside _ _ (by omega), Nat.zero_mul, Nat.add_zero,
        RawMem.readByte_write_inside hm _ hj]
      rfl
    | succ i =>
      have := ih (addr := addr + ws) (RawMem.write_wf hm addr ws r) (i := i) (by simpa using hi)
      rw [show addr + (i + 1) * ws + j = addr + ws + i * ws + j by ring, this]
      rfl

/-- A vector's words reach no byte outside its range. -/
theorem readByte_writeWords_outside {addr ws nbytes e : Nat} (m : RawMem) (rs : List Nat)
    (h : e < addr ∨ addr + nbytes ≤ e) : (writeWords m addr ws nbytes rs).readByte e = m.readByte e := by
  have hd := Nat.div_add_mod nbytes ws
  have hl : (rs.take (nbytes / ws)).length * ws ≤ ws * (nbytes / ws) := by
    rw [Nat.mul_comm ws]; exact Nat.mul_le_mul_right _ (by simp)
  have hw : (writeWholeWords ws addr (rs.take (nbytes / ws)) m).readByte e = m.readByte e :=
    readByte_writeWholeWords_outside _ _ (by omega)
  simp only [writeWords]
  split
  · exact hw
  · rw [RawMem.readByte_write_outside _ _ (by rw [Nat.mul_comm]; omega), hw]

/-- Byte `j` of word `i` of a vector, where it is a byte of the vector, is bits `8j+7 .. 8j` of the word. -/
theorem readByte_writeWords_inside {addr ws nbytes i j : Nat} {m : RawMem} (hm : m.Wf) {rs : List Nat}
    (hrs : rs.length = ceilDiv nbytes ws) (hj : j < ws) (hin : i * ws + j < nbytes) :
    (writeWords m addr ws nbytes rs).readByte (addr + i * ws + j) = BitVec.ofNat 8 (rs.getD i 0 >>> (8 * j)) := by
  have hws : 0 < ws := by omega
  have hd := Nat.div_add_mod nbytes ws
  have hmod := Nat.mod_lt nbytes hws
  have hle : i ≤ nbytes / ws := by
    rw [Nat.le_div_iff_mul_le hws]; omega
  have hlen : nbytes / ws ≤ rs.length := by
    rw [hrs, ceilDiv, Nat.le_div_iff_mul_le hws, Nat.mul_comm]; omega
  simp only [writeWords]
  rcases Nat.lt_or_ge i (nbytes / ws) with hlt | hge
  · have hin1 : i * ws + ws ≤ nbytes / ws * ws := by
      have : (i + 1) * ws ≤ nbytes / ws * ws := Nat.mul_le_mul_right _ hlt
      rw [Nat.succ_mul] at this; exact this
    have hw : (writeWholeWords ws addr (rs.take (nbytes / ws)) m).readByte (addr + i * ws + j) =
        BitVec.ofNat 8 (rs.getD i 0 >>> (8 * j)) := by
      rw [readByte_writeWholeWords_inside _ hm (by simp only [List.length_take]; omega) hj]
      simp only [List.getD_eq_getElem?_getD, List.getElem?_take, hlt, if_true]
    split
    · exact hw
    · rw [RawMem.readByte_write_outside _ _ (by omega), hw]
  · obtain rfl : i = nbytes / ws := by omega
    have hj2 : j < nbytes % ws := by rw [Nat.mul_comm] at hin; omega
    rw [if_neg (by omega), RawMem.readByte_write_inside (writeWholeWords_wf _ _ _ hm) _ hj2]

theorem bytesValue_byte (bs : List Byte) (j : Nat) : BitVec.ofNat 8 (bytesValue bs >>> (8 * j)) = bs.getD j 0 := by
  induction bs generalizing j with
  | nil => simp [bytesValue]
  | cons b bs ih =>
    cases j with
    | zero =>
      apply BitVec.eq_of_toNat_eq
      have := b.isLt
      simp only [bytesValue, Nat.mul_zero, Nat.shiftRight_zero, BitVec.toNat_ofNat, List.getD_cons_zero]
      omega
    | succ j =>
      rw [List.getD_cons_succ, ← ih]
      congr 1
      have := b.isLt
      simp only [bytesValue, Nat.shiftRight_eq_div_pow]
      rw [show 8 * (j + 1) = 8 + 8 * j by ring, Nat.pow_add, ← Nat.div_div_eq_div_mul]
      congr 1
      omega

/-- Each byte of a value read is the byte at its address (20_memory.md R79). -/
theorem RawMem.byte_of_read {m : RawMem} {addr n j : Nat} (h : j < n) :
    BitVec.ofNat 8 (m.read addr n >>> (8 * j)) = m.readByte (addr + j) := by
  rw [RawMem.read, bytesValue_byte]
  simp [RawMem.bytes, List.getD_eq_getElem?_getD, h]

theorem readWords_byte {raw : RawMem} {addr ws nbytes i j : Nat} (hj : j < ws) (hin : i * ws + j < nbytes) :
    BitVec.ofNat 8 ((readWords raw addr ws nbytes).getD i 0 >>> (8 * j)) = raw.readByte (addr + i * ws + j) := by
  have hws : 0 < ws := by omega
  have hle : i ≤ nbytes / ws := by rw [Nat.le_div_iff_mul_le hws]; omega
  have hd := Nat.div_add_mod nbytes ws
  simp only [readWords, List.getD_eq_getElem?_getD, List.getElem?_append, List.length_map, List.length_range]
  rcases Nat.lt_or_ge i (nbytes / ws) with hlt | hge
  · simp only [hlt, if_true, List.getElem?_map, List.getElem?_range hlt, Option.map_some, Option.getD_some]
    exact RawMem.byte_of_read hj
  · obtain rfl : i = nbytes / ws := by omega
    have hj2 : j < nbytes % ws := by rw [Nat.mul_comm] at hin; omega
    simp only [lt_irrefl, if_false, Nat.sub_self]
    rw [if_neg (by omega)]
    exact RawMem.byte_of_read hj2

end Sys2Proof.Machine
end

