-- ==== Sys2Proof/Laws/Writer.lean ====
section
/-! SUPPORT. Laws of the bit writer's procedures (40_bitstream_writer.md R140 to R144, R149): one lemma for each that
says which bits it appends and that it keeps the invariants. -/

namespace Sys2Proof

variable {K : Config}

theorem Config.Legal.wordBits_eq (hK : K.Legal) : K.wordBits = 8 * K.wordBytes := by
  rcases hK.wordBits with h | h <;> simp [Config.wordBytes, h]

theorem Config.Legal.wordBits_pos (hK : K.Legal) : 0 < K.wordBits := by
  rcases hK.wordBits with h | h <;> omega

theorem Config.Legal.wordBits_le (hK : K.Legal) : K.wordBits ≤ 64 := by
  rcases hK.wordBits with h | h <;> omega

theorem Config.Legal.wordBits_ge (hK : K.Legal) : 32 ≤ K.wordBits := by
  rcases hK.wordBits with h | h <;> omega

theorem Config.Legal.bufWords_pos (hK : K.Legal) : 0 < K.bufWords := hK.bufWords

end Sys2Proof

namespace Sys2Proof.Machine

variable {K : Config}

/-! ## Word buffers -/

@[simp] theorem wordsBits_nil : wordsBits K [] = [] := rfl

@[simp] theorem wordsBits_append (a b : List Word) : wordsBits K (a ++ b) = wordsBits K a ++ wordsBits K b := by
  simp [wordsBits]

@[simp] theorem wordsBits_singleton (x : Word) : wordsBits K [x] = fieldBits K.wordBits x.toNat := by
  simp [wordsBits]

@[simp] theorem wordsBits_length (ws : List Word) : (wordsBits K ws).length = K.wordBits * ws.length := by
  induction ws with
  | nil => rfl
  | cons w ws ih =>
    rw [show w :: ws = [w] ++ ws from rfl, wordsBits_append, List.length_append, ih]
    simp; ring

theorem byteBits_words (hK : K.Legal) (ws : List Word) :
    byteBits (ws.flatMap (wordBytesLE K.wordBytes)) = wordsBits K ws := by
  induction ws with
  | nil => rfl
  | cons w ws ih =>
    rw [List.flatMap_cons, byteBits_append, ih, byteBits_wordBytesLE, ← hK.wordBits_eq]
    rfl

theorem wordAt_set_self {ws : List Word} {i : Nat} (h : i < ws.length) (x : Word) : wordAt (ws.set i x) i = x := by
  simp [wordAt, List.getD_eq_getElem?_getD, h]

theorem wordAt_set_ne {ws : List Word} {i j : Nat} (h : i ≠ j) (x : Word) : wordAt (ws.set i x) j = wordAt ws j := by
  simp [wordAt, List.getD_eq_getElem?_getD, List.getElem?_set_ne h]

theorem take_succ_wordAt {ws : List Word} {i : Nat} (h : i < ws.length) :
    ws.take (i + 1) = ws.take i ++ [wordAt ws i] := by
  rw [List.take_succ_eq_append_getElem h]
  simp [wordAt, List.getD_eq_getElem?_getD, h]

theorem wordAt_mem {ws : List Word} {i : Nat} (h : i < ws.length) : wordAt ws i ∈ ws := by
  simp [wordAt, List.getD_eq_getElem?_getD, h]

theorem orWord_toNat {x : Word} {v : Nat} (hv : v < 2 ^ 64) : (x ||| BitVec.ofNat 64 v).toNat = x.toNat ||| v := by
  rw [BitVec.toNat_or, BitVec.toNat_ofNat, Nat.mod_eq_of_lt hv]

theorem shiftLeft_lt {v a b c : Nat} (hv : v < 2 ^ b) (h : a + b ≤ c) : v <<< a < 2 ^ c := by
  rw [Nat.shiftLeft_eq]
  calc v * 2 ^ a < 2 ^ b * 2 ^ a := Nat.mul_lt_mul_of_pos_right hv (Nat.two_pow_pos a)
    _ = 2 ^ (a + b) := by rw [← Nat.pow_add, Nat.add_comm]
    _ ≤ 2 ^ c := Nat.pow_le_pow_right (by omega) h

/-! ## Appending -/

/-- What stays in the buffer is less than a buffer, so the whole buffers that have gone are all there were. -/
theorem Tx.WriterInv.sent (hK : K.Legal) {t : Tx} (h : t.WriterInv K) {b s m : Nat} (hb : t.bitpos = b)
    (hs : t.sunk = s + K.bufWords * K.wordBytes * m) :
    t.sunk = s + K.bufWords * K.wordBytes * ((b - 8 * s) / (K.wordBits * K.bufWords)) := by
  have hW := hK.wordBits_eq
  have hlt : K.wordBits * t.wptr + t.woff < K.wordBits * K.bufWords :=
    Nat.lt_of_lt_of_le (Nat.add_lt_add_left h.off _) (by rw [← Nat.mul_succ]; exact Nat.mul_le_mul_left _ h.ptr)
  have hB : K.wordBits * K.bufWords * m = 8 * (K.bufWords * K.wordBytes * m) := by rw [hW]; ring
  have hp := h.bitpos
  rw [hs] at hp
  rw [hs, show b - 8 * s = K.wordBits * t.wptr + t.woff + K.wordBits * K.bufWords * m by omega,
    Nat.add_mul_div_left _ _ (by omega), Nat.div_eq_of_lt hlt, Nat.zero_add]

theorem Tx.Appended.refl (hK : K.Legal) {t : Tx} (h : t.WriterInv K) : t.Appended K t [] :=
  ⟨⟨by simp, by simp, List.prefix_refl _, rfl, h⟩, h.sent hK (m := 0) rfl rfl⟩

theorem Tx.Extended.bitpos_eq {t t' : Tx} {bits : List Bool} (h : t.Extended K t' bits) :
    t'.bitpos = t.bitpos + bits.length := by have := congrArg Tx.bitpos h.frame; simpa using this

/-- An engine extended with only whole buffers sent has its bits appended by transfers (R141). -/
theorem Tx.Extended.appended (hK : K.Legal) {t t' : Tx} {bits : List Bool} (h : t.Extended K t' bits) (m : Nat)
    (hs : t'.sunk = t.sunk + K.bufWords * K.wordBytes * m) : t.Appended K t' bits :=
  ⟨h, h.inv.sent hK h.bitpos_eq hs⟩

theorem Tx.Appended.trans (hK : K.Legal) {t u v : Tx} {a b : List Bool} (h : t.Appended K u a) (k : u.Appended K v b) :
    t.Appended K v (a ++ b) := by
  refine Tx.Extended.appended hK ⟨?_, ?_, h.sink.trans k.sink, ?_, k.inv⟩ _
    (by rw [k.sent, h.sent, Nat.add_assoc, ← Nat.mul_add])
  · rw [k.frame, h.frame]
    simp [Nat.add_assoc]
  · rw [k.stream, h.stream, List.append_assoc]
  · have := h.sunk; have := k.sunk; omega

/-- What the writer's registers must satisfy for `t'` to be `t` with the bits appended that the cursor moved over:
the four facts the two cases of `PutBits` share. -/
theorem Tx.nextWord_appended (hK : K.Legal) {t : Tx} (hlen : t.wbuf.length = K.bufWords) (hptr : t.wptr < K.bufWords)
    (hfits : ∀ x ∈ t.wbuf, x.toNat < 2 ^ K.wordBits) (hbeyond : ∀ i, t.wptr < i → wordAt t.wbuf i = 0)
    {p : Nat} (hp : p = 8 * t.sunk + K.wordBits * (t.wptr + 1)) :
    let u := { Tx.nextWord K t with bitpos := p }
    u = { t with wbuf := u.wbuf, wptr := u.wptr, woff := 0, bitpos := p, sunk := u.sunk, sink := u.sink } ∧
    u.stream K = byteBits t.sink ++ wordsBits K (t.wbuf.take (t.wptr + 1)) ∧
    t.sink <+: u.sink ∧ u.sink.length + t.sunk = t.sink.length + u.sunk ∧ u.WriterInv K := by
  have hW := hK.wordBits_eq
  have hpos := hK.wordBits_pos
  intro u
  by_cases hfull : t.wptr + 1 = K.bufWords
  · have hu : u = { t with
        wbuf := List.replicate K.bufWords 0, wptr := 0, woff := 0, bitpos := p,
        sunk := t.sunk + K.bufWords * K.wordBytes,
        sink := t.sink ++ t.wbuf.flatMap (wordBytesLE K.wordBytes) } := by
      simp only [u, Tx.nextWord, hfull, if_true, Tx.emitWords]
      rw [← hlen, List.take_length, List.drop_length, List.append_nil]
    rw [hu]
    have hz : ∀ i, wordAt (List.replicate K.bufWords (0 : Word)) i = 0 := by
      intro i; simp only [wordAt, List.getD_eq_getElem?_getD, List.getElem?_replicate]; split <;> rfl
    refine ⟨rfl, ?_, List.prefix_append _ _, ?_, ?_⟩
    · simp [Tx.stream, Tx.buffered, byteBits_words hK, hfull, ← hlen]
    · simp only [List.length_append, List.length_flatMap, wordBytesLE_length, List.map_const', List.sum_replicate,
        smul_eq_mul, hlen]
      omega
    · refine ⟨by simp, hK.bufWords_pos, hpos, ?_, ?_, ?_, ?_⟩
      · intro x hx
        rw [(List.mem_replicate.1 hx).2]; exact Nat.two_pow_pos _
      · rw [hz]; simp
      · intro i _; exact hz i
      · simp only [hp, hfull, hW]; ring
  · have hu : u = { t with wptr := t.wptr + 1, woff := 0, bitpos := p } := by
      simp only [u, Tx.nextWord, hfull, if_false]
    rw [hu]
    refine ⟨rfl, by simp [Tx.stream, Tx.buffered], List.prefix_refl _, rfl, ⟨hlen, by simp only; omega, hpos, hfits, ?_, ?_, ?_⟩⟩
    · rw [hbeyond _ (by simp)]; simp
    · intro i hi; exact hbeyond i (by simp only at hi; omega)
    · simp only [hp]; omega

/-- `PutBits(v, n)` appends the low `n` bits of `v` (R140, R151). -/
theorem Tx.putBits_appended (hK : K.Legal) {t : Tx} (h : t.WriterInv K) (v : Nat) {n : Nat} (hn : n ≤ K.wordBits) :
    t.Appended K (t.putBits K v n) (fieldBits n v) := by
  have hle := hK.wordBits_le
  have hlt : t.wptr < t.wbuf.length := by rw [h.length]; exact h.ptr
  rw [Tx.putBits]
  split
  · subst_vars; exact Tx.Appended.refl hK h
  rename_i hn0
  rw [← fieldBits_mod (le_refl n) v]
  generalize hv' : v % 2 ^ n = v'
  have hv : v' < 2 ^ n := by rw [← hv']; exact Nat.mod_lt _ (Nat.two_pow_pos n)
  have hoff := h.off
  have hx := h.here
  dsimp only
  split
  · rename_i hroom
    have hsh : v' <<< t.woff < 2 ^ 64 := shiftLeft_lt hv (by omega)
    have hword : (wordAt t.wbuf t.wptr ||| BitVec.ofNat 64 (v' <<< t.woff)).toNat
        = (wordAt t.wbuf t.wptr).toNat ||| v' <<< t.woff := orWord_toNat hsh
    have hnew : (wordAt t.wbuf t.wptr).toNat ||| v' <<< t.woff < 2 ^ (t.woff + n) :=
      Nat.or_lt_two_pow (Nat.lt_of_lt_of_le hx (Nat.pow_le_pow_right (by omega) (by omega)))
        (shiftLeft_lt hv (le_refl _))
    refine Tx.Extended.appended hK
      ⟨by simp, ?_, List.prefix_refl _, rfl, ⟨by simp [orWord, h.length], h.ptr, by simp only; omega, ?_, ?_, ?_, ?_⟩⟩ 0 rfl
    · simp only [Tx.stream, Tx.buffered, orWord, wordAt_set_self hlt, hword, fieldBits_or_shift hx]
      rw [List.take_set_of_le (le_refl _)]
      simp
    · intro x hxm
      rcases List.mem_or_eq_of_mem_set hxm with hm | rfl
      · exact h.fits x hm
      · rw [hword]; exact Nat.lt_of_lt_of_le hnew (Nat.pow_le_pow_right (by omega) (by omega))
    · simp only [orWord, wordAt_set_self hlt, hword]; exact hnew
    · intro i hi
      simp only at hi ⊢
      rw [orWord, wordAt_set_ne (by omega)]; exact h.beyond i hi
    · simp only [h.bitpos]; omega
  · rename_i hroom
    generalize hrm : K.wordBits - t.woff = room at *
    have hlow : v' % 2 ^ room < 2 ^ room := Nat.mod_lt _ (Nat.two_pow_pos _)
    have hsh : (v' % 2 ^ room) <<< t.woff < 2 ^ 64 := shiftLeft_lt hlow (by omega)
    have hword : (wordAt t.wbuf t.wptr ||| BitVec.ofNat 64 ((v' % 2 ^ room) <<< t.woff)).toNat
        = (wordAt t.wbuf t.wptr).toNat ||| (v' % 2 ^ room) <<< t.woff := orWord_toNat hsh
    have hnew : (wordAt t.wbuf t.wptr).toNat ||| (v' % 2 ^ room) <<< t.woff < 2 ^ K.wordBits :=
      Nat.or_lt_two_pow (Nat.lt_of_lt_of_le hx (Nat.pow_le_pow_right (by omega) (by omega)))
        (shiftLeft_lt hlow (by omega))
    set t0 : Tx := { t with wbuf := orWord t.wbuf t.wptr ((v' % 2 ^ room) <<< t.woff) } with ht0
    have hlen0 : t0.wbuf.length = K.bufWords := by simp [ht0, orWord, h.length]
    have hfits0 : ∀ x ∈ t0.wbuf, x.toNat < 2 ^ K.wordBits := by
      intro x hxm
      rcases List.mem_or_eq_of_mem_set hxm with hm | rfl
      · exact h.fits x hm
      · rw [hword]; exact hnew
    have hbeyond0 : ∀ i, t0.wptr < i → wordAt t0.wbuf i = 0 := by
      intro i hi
      simp only [ht0] at hi ⊢
      rw [orWord, wordAt_set_ne (by omega)]; exact h.beyond i hi
    have hb := h.bitpos
    obtain ⟨hf, hs, hk, hc, hi⟩ := Tx.nextWord_appended hK hlen0 h.ptr hfits0 hbeyond0
      (p := t.bitpos + room) (by simp only [ht0]; rw [hb]; rw [Nat.mul_add]; omega)
    have hstream : byteBits t0.sink ++ wordsBits K (t0.wbuf.take (t0.wptr + 1))
        = t.stream K ++ fieldBits room v' := by
      rw [take_succ_wordAt (by rw [hlen0]; exact h.ptr)]
      simp only [ht0, Tx.stream, Tx.buffered, orWord, wordAt_set_self hlt, wordsBits_append, wordsBits_singleton, hword]
      rw [List.take_set_of_le (le_refl _), show K.wordBits = t.woff + room by omega, fieldBits_or_shift hx,
        fieldBits_mod (le_refl _)]
      simp
    obtain ⟨m, hm⟩ : ∃ m, (Tx.nextWord K t0).sunk = t.sunk + K.bufWords * K.wordBytes * m := by
      simp only [Tx.nextWord]
      split
      · exact ⟨1, by rw [Nat.mul_one]; rfl⟩
      · exact ⟨0, rfl⟩
    generalize hu : Tx.nextWord K t0 = u at *
    have huoff : u.woff = 0 := by
      have := congrArg Tx.woff hf; simpa using this
    split
    · rename_i hmore
      have hup : u.wptr < u.wbuf.length := by have := hi.ptr; have := hi.length; simp only at *; omega
      have hhi : v' >>> room < 2 ^ (n - room) := by
        rw [Nat.shiftRight_eq_div_pow]
        apply Nat.div_lt_of_lt_mul
        rw [← Nat.pow_add]; convert hv using 2; omega
      have hhi64 : v' >>> room < 2 ^ 64 := Nat.lt_of_lt_of_le hhi (Nat.pow_le_pow_right (by omega) (by omega))
      have hw : (BitVec.ofNat 64 (v' >>> room)).toNat = v' >>> room := by
        rw [BitVec.toNat_ofNat, Nat.mod_eq_of_lt hhi64]
      refine Tx.Extended.appended hK
        ⟨?_, ?_, hk, hc, ⟨by simpa using hi.length, hi.ptr, by simp only; omega, ?_, ?_, ?_, ?_⟩⟩ m hm
      · have := hf
        simp only [ht0, Tx.mk.injEq] at this ⊢
        simp [this]
      · simp only [Tx.stream, Tx.buffered, huoff, fieldBits_zero_width, List.append_nil] at hs hstream
        simp only [Tx.stream, Tx.buffered, wordAt_set_self hup, hw]
        rw [List.take_set_of_le (le_refl _), ← List.append_assoc, hs, hstream,
          show n = room + (n - room) by omega, fieldBits_append, List.append_assoc]
        congr 2
        · rw [show room + (n - room) - room = n - room by omega]
      · intro x hxm
        rcases List.mem_or_eq_of_mem_set hxm with hm | rfl
        · exact hi.fits x hm
        · rw [hw]; exact Nat.lt_of_lt_of_le hhi (Nat.pow_le_pow_right (by omega) (by omega))
      · simp only [wordAt_set_self hup, hw]; exact hhi
      · intro i hii
        simp only at hii ⊢
        rw [wordAt_set_ne (by omega)]; exact hi.beyond i hii
      · have := hi.bitpos
        simp only [huoff] at this ⊢; omega
    · have hnr : n = room := by omega
      subst hnr
      refine Tx.Extended.appended hK ⟨?_, ?_, hk, hc, hi⟩ m hm
      · have := hf
        simp only [ht0, Tx.mk.injEq] at this ⊢
        simp [this]
      · exact hs.trans hstream

/-- A loop of procedures that each append their bits appends all of them, in order. -/
theorem Tx.foldl_appended (hK : K.Legal) {α : Type} (f : Tx → α → Tx) (bits : α → List Bool) (l : List α)
    (hf : ∀ a ∈ l, ∀ t : Tx, t.WriterInv K → t.Appended K (f t a) (bits a)) {t : Tx} (h : t.WriterInv K) :
    t.Appended K (l.foldl f t) (l.flatMap bits) := by
  induction l generalizing t with
  | nil => exact Tx.Appended.refl hK h
  | cons a l ih =>
    have h1 := hf a (List.mem_cons_self ..) t h
    exact h1.trans hK (ih (fun b hb => hf b (List.mem_cons_of_mem _ hb)) h1.inv)

theorem fieldBits_ones (n : Nat) : fieldBits n (2 ^ n - 1) = List.replicate n true := by
  apply List.ext_getElem <;> simp [Nat.testBit_two_pow_sub_one]

theorem Tx.putOnes_appended (hK : K.Legal) (m : Nat) {t : Tx} (h : t.WriterInv K) :
    t.Appended K (t.putOnes K m) (List.replicate (K.wordBits * m) true) := by
  induction m generalizing t with
  | zero => exact Tx.Appended.refl hK h
  | succ m ih =>
    have h1 := Tx.putBits_appended hK h (2 ^ K.wordBits - 1) (le_refl K.wordBits)
    rw [fieldBits_ones] at h1
    have h2 := h1.trans hK (ih h1.inv)
    rwa [List.replicate_append_replicate, show K.wordBits + K.wordBits * m = K.wordBits * (m + 1) by ring] at h2

/-- `PutUnary(v)` appends the unary code (R142, R111). -/
theorem Tx.putUnary_appended (hK : K.Legal) {t : Tx} (h : t.WriterInv K) (v : Nat) :
    t.Appended K (t.putUnary K v) (unaryBits v) := by
  have h1 := Tx.putOnes_appended hK (v / K.wordBits) h
  have hm : v % K.wordBits < K.wordBits := Nat.mod_lt _ hK.wordBits_pos
  have h2 := Tx.putBits_appended hK h1.inv (2 ^ (v % K.wordBits) - 1) (show v % K.wordBits + 1 ≤ K.wordBits by omega)
  have h3 := h1.trans hK h2
  rw [fieldBits_append, fieldBits_ones] at h3
  have hz : (2 ^ (v % K.wordBits) - 1) >>> (v % K.wordBits) = 0 := by
    rw [Nat.shiftRight_eq_div_pow]; apply Nat.div_eq_of_lt; have := Nat.two_pow_pos (v % K.wordBits); omega
  rwa [hz, fieldBits_zero, ← List.append_assoc, List.replicate_append_replicate, Nat.div_add_mod] at h3

theorem Tx.putWindup_eq_pad (hK : K.Legal) {t : Tx} (h : t.WriterInv K) :
    (8 - t.woff % 8) % 8 = (padBits t.bitpos).length := by
  have := hK.wordBits_eq
  have hb := h.bitpos
  rw [padBits, List.length_replicate, hb, this, Nat.mul_assoc]
  omega

/-- `PutWindup()` appends zero-bits up to a byte boundary of the stream (R143). -/
theorem Tx.putWindup_appended (hK : K.Legal) {t : Tx} (h : t.WriterInv K) :
    t.Appended K (t.putWindup K) (padBits t.bitpos) := by
  have := hK.wordBits_ge
  have h1 := Tx.putBits_appended hK h 0 (show (8 - t.woff % 8) % 8 ≤ K.wordBits by omega)
  rw [fieldBits_zero, Tx.putWindup_eq_pad hK h] at h1
  rw [Tx.putWindup, Tx.putWindup_eq_pad hK h]
  simpa [padBits] using h1

theorem Tx.putBytes_appended (hK : K.Legal) (bytes : List Byte) {t : Tx} (h : t.WriterInv K) :
    t.Appended K (t.putBytes K bytes) (byteBits bytes) := by
  have h8 : 8 ≤ K.wordBits := by have := hK.wordBits_ge; omega
  unfold Tx.putBytes byteBits
  refine Tx.foldl_appended hK _ _ bytes ?_ h
  intro b _ u hu
  exact Tx.putBits_appended hK hu b.toNat h8

/-- `MexpgPut(u, k)` appends the code of `u` (R183, R113). -/
theorem Tx.mexpgPut_appended (hK : K.Legal) {t : Tx} (h : t.WriterInv K) {u k : Nat} (hu : u < 2 ^ K.wordBits)
    (hk : k ≤ 31) : t.Appended K (t.mexpgPut K u k) (mexpgBits k u) := by
  have hb : bitSize u ≤ K.wordBits := by
    rw [bitSize]
    split
    · omega
    · have := (Nat.log2_lt (by assumption)).2 hu; omega
  rw [Tx.mexpgPut, mexpgBits]
  split
  · have h1 := Tx.putUnary_appended hK h (bitSize u - k)
    exact h1.trans hK (Tx.putBits_appended hK h1.inv _ (by omega))
  · have h1 := Tx.putUnary_appended hK h 0
    exact h1.trans hK (Tx.putBits_appended hK h1.inv _ (by have := hK.wordBits_ge; omega))

/-! ## Emitting -/

theorem Tx.emitWords_sink_length (m : Nat) {t : Tx} (h : t.WriterInv K) (hm : m ≤ K.bufWords) :
    (t.emitWords K m).sink.length = t.sink.length + m * K.wordBytes := by
  simp only [Tx.emitWords, List.length_append, List.length_flatMap, wordBytesLE_length, List.map_const',
    List.sum_replicate, smul_eq_mul, List.length_take, h.length, Nat.min_eq_left hm]

theorem wordAt_replicate_append (m : Nat) (ws : List Word) (i : Nat) :
    wordAt (List.replicate m 0 ++ ws.drop m) i = if i < m then 0 else wordAt ws i := by
  simp only [wordAt, List.getD_eq_getElem?_getD, List.getElem?_append, List.length_replicate, List.getElem?_replicate,
    List.getElem?_drop]
  split
  · simp
  · rw [show m + (i - m) = i by omega]

/-- `W.FLUSH 0`: the stream is unchanged; the complete words have gone to the sink (R149). -/
theorem Tx.flush_keep_extended (hK : K.Legal) {t : Tx} (h : t.WriterInv K) :
    t.Extended K (t.flush K false) [] := by
  have hlt : t.wptr < t.wbuf.length := by rw [h.length]; exact h.ptr
  have hW := hK.wordBits_eq
  have hwb : (t.flush K false).wbuf = ((List.replicate t.wptr 0 ++ t.wbuf.drop t.wptr).set t.wptr 0).set 0
      (wordAt t.wbuf t.wptr) := rfl
  have hlen : (t.flush K false).wbuf.length = K.bufWords := by
    rw [hwb]; simp only [List.length_set, List.length_append, List.length_replicate, List.length_drop, h.length]
    have := h.ptr; omega
  have hall : ∀ i, wordAt (t.flush K false).wbuf i = if i = 0 then wordAt t.wbuf t.wptr else 0 := by
    intro i
    rw [hwb]
    have hl : (List.replicate t.wptr (0 : Word) ++ t.wbuf.drop t.wptr).length = t.wbuf.length := by simp; omega
    by_cases hi : i = 0
    · subst hi
      rw [wordAt_set_self (by simp only [List.length_set, hl]; omega), if_pos rfl]
    · rw [wordAt_set_ne (by omega), if_neg hi]
      by_cases hp : t.wptr = i
      · subst hp
        rw [wordAt_set_self (by rw [hl]; exact hlt)]
      · rw [wordAt_set_ne hp, wordAt_replicate_append]
        split
        · rfl
        · exact h.beyond i (by omega)
  refine ⟨by simp [Tx.flush, Tx.emitWords], ?_, List.prefix_append _ _, ?_, ⟨hlen, hK.bufWords_pos, h.off, ?_, ?_, ?_, ?_⟩⟩
  · show byteBits (t.sink ++ (t.wbuf.take t.wptr).flatMap _) ++ (wordsBits K (List.take 0 _) ++
      fieldBits t.woff (wordAt (t.flush K false).wbuf 0).toNat) = _
    rw [hall]
    simp [Tx.stream, Tx.buffered, byteBits_words hK]
  · have := Tx.emitWords_sink_length t.wptr h (le_of_lt h.ptr)
    show (t.emitWords K t.wptr).sink.length + t.sunk = t.sink.length + (t.sunk + t.wptr * K.wordBytes)
    omega
  · intro x hx
    obtain ⟨i, hi, rfl⟩ := List.getElem_of_mem hx
    have := hall i
    simp only [wordAt, List.getD_eq_getElem?_getD, List.getElem?_eq_getElem hi, Option.getD_some] at this
    rw [this]
    split
    · exact h.fits _ (wordAt_mem hlt)
    · exact Nat.two_pow_pos _
  · show (wordAt (t.flush K false).wbuf 0).toNat < 2 ^ t.woff
    rw [hall]; exact h.here
  · intro i hi
    rw [hall, if_neg (by have : 0 < i := hi; omega)]
  · show t.bitpos = 8 * (t.sunk + t.wptr * K.wordBytes) + K.wordBits * 0 + t.woff
    rw [h.bitpos, hW]; ring

/-- `W.FLUSH 1`: the last `woff` bits of the stream are gone (R149, R151). -/
theorem Tx.flush_discard (hK : K.Legal) {t : Tx} (h : t.WriterInv K) :
    let u := t.flush K true
    u = { t with wbuf := u.wbuf, wptr := 0, woff := 0, bitpos := t.bitpos - t.woff, sunk := u.sunk, sink := u.sink } ∧
    u.stream K = (t.stream K).take ((t.stream K).length - t.woff) ∧ t.sink <+: u.sink ∧
    u.sink.length + t.sunk = t.sink.length + u.sunk ∧ u.WriterInv K := by
  have hlt : t.wptr < t.wbuf.length := by rw [h.length]; exact h.ptr
  have hW := hK.wordBits_eq
  intro u
  have hwb : u.wbuf = (List.replicate t.wptr 0 ++ t.wbuf.drop t.wptr).set t.wptr 0 := rfl
  have hall : ∀ i, wordAt u.wbuf i = 0 := by
    intro i
    rw [hwb]
    have hl : (List.replicate t.wptr (0 : Word) ++ t.wbuf.drop t.wptr).length = t.wbuf.length := by simp; omega
    by_cases hp : t.wptr = i
    · subst hp; rw [wordAt_set_self (by rw [hl]; exact hlt)]
    · rw [wordAt_set_ne hp, wordAt_replicate_append]
      split
      · rfl
      · exact h.beyond i (by omega)
  refine ⟨rfl, ?_, List.prefix_append _ _, ?_, ⟨?_, hK.bufWords_pos, hK.wordBits_pos, ?_, ?_, ?_, ?_⟩⟩
  · have hlen : (t.stream K).length - t.woff = (byteBits t.sink ++ wordsBits K (t.wbuf.take t.wptr)).length := by
      simp only [Tx.stream, Tx.buffered, List.length_append, fieldBits_length]; omega
    have hsplit : t.stream K = (byteBits t.sink ++ wordsBits K (t.wbuf.take t.wptr)) ++
        fieldBits t.woff (wordAt t.wbuf t.wptr).toNat := (List.append_assoc ..).symm
    rw [hlen, hsplit, List.take_left]
    show byteBits (t.sink ++ (t.wbuf.take t.wptr).flatMap _) ++ (wordsBits K (List.take 0 _) ++ fieldBits 0 _) = _
    simp [byteBits_words hK]
  · have := Tx.emitWords_sink_length t.wptr h (le_of_lt h.ptr)
    show (t.emitWords K t.wptr).sink.length + t.sunk = t.sink.length + (t.sunk + t.wptr * K.wordBytes)
    omega
  · rw [hwb]; simp only [List.length_set, List.length_append, List.length_replicate, List.length_drop, h.length]
    have := h.ptr; omega
  · intro x hx
    obtain ⟨i, hi, rfl⟩ := List.getElem_of_mem hx
    have := hall i
    simp only [wordAt, List.getD_eq_getElem?_getD, List.getElem?_eq_getElem hi, Option.getD_some] at this
    rw [this]; exact Nat.two_pow_pos _
  · rw [hall]; exact Nat.two_pow_pos _
  · intro i _; exact hall i
  · show t.bitpos - t.woff = 8 * (t.sunk + t.wptr * K.wordBytes) + K.wordBits * 0 + 0
    rw [h.bitpos, Nat.add_sub_cancel, hW]; ring

/-- `CloseW()`: the stream, padded to a byte, is in the sink, and the engine is closed (R144). -/
theorem Tx.close_spec (hK : K.Legal) {t : Tx} (h : t.WriterInv K) :
    let u := t.close K
    u = { t with
      wbuf := u.wbuf, wptr := 0, woff := 0, closed := true, bitpos := t.bitpos + (padBits t.bitpos).length,
      sunk := u.sunk, sink := u.sink } ∧
    byteBits u.sink = t.stream K ++ padBits t.bitpos ∧ t.sink <+: u.sink ∧
    u.sink.length + t.sunk = t.sink.length + u.sunk ∧ u.bitpos = 8 * u.sunk ∧ u.WriterInv K := by
  have hp := Tx.putWindup_appended hK h
  have hW := hK.wordBits_eq
  intro u
  generalize hq : t.putWindup K = q at hp
  have hqi := hp.inv
  have hlt : q.wptr < q.wbuf.length := by rw [hqi.length]; exact hqi.ptr
  have hbp : q.bitpos = t.bitpos + (padBits t.bitpos).length := by
    have := congrArg Tx.bitpos hp.frame; simpa using this
  have h8 : q.woff % 8 = 0 := by
    have h1 := Tx.putWindup_eq_pad hK h
    have h2 := hqi.bitpos
    have h3 := h.bitpos
    rw [hbp, ← h1, h3, hW, Nat.mul_assoc, Nat.mul_assoc] at h2
    have := h.off
    omega
  have hwb : u.wbuf = (List.replicate q.wptr 0 ++ q.wbuf.drop q.wptr).set q.wptr 0 := by
    simp only [u, Tx.close, hq, Tx.emitWords]
  have hsink : u.sink = q.sink ++ (q.wbuf.take q.wptr).flatMap (wordBytesLE K.wordBytes) ++
      wordBytesLE (q.woff / 8) (wordAt q.wbuf q.wptr) := by
    simp only [u, Tx.close, hq, Tx.emitWords]
    rw [wordAt_replicate_append]
    simp
  have hsunk : u.sunk = q.sunk + q.wptr * K.wordBytes + q.woff / 8 := by
    simp only [u, Tx.close, hq, Tx.emitWords]
  have hubp : u.bitpos = q.bitpos := by simp only [u, Tx.close, hq, Tx.emitWords]
  have hall : ∀ i, wordAt u.wbuf i = 0 := by
    intro i
    rw [hwb]
    have hl : (List.replicate q.wptr (0 : Word) ++ q.wbuf.drop q.wptr).length = q.wbuf.length := by simp; omega
    by_cases hp : q.wptr = i
    · subst hp; rw [wordAt_set_self (by rw [hl]; exact hlt)]
    · rw [wordAt_set_ne hp, wordAt_replicate_append]
      split
      · rfl
      · exact hqi.beyond i (by omega)
  have hbits : u.bitpos = 8 * u.sunk := by
    rw [hubp, hqi.bitpos, hsunk, hW, Nat.mul_assoc, Nat.mul_comm K.wordBytes]; omega
  refine ⟨?_, ?_, ?_, ?_, hbits, ⟨?_, hK.bufWords_pos, hK.wordBits_pos, ?_, ?_, ?_, ?_⟩⟩
  · have h1 : u = { q with wbuf := u.wbuf, wptr := 0, woff := 0, closed := true, sunk := u.sunk, sink := u.sink } := by
      simp only [u, Tx.close, hq, Tx.emitWords]
    rw [h1, hp.frame]
  · rw [hsink, byteBits_append, byteBits_append, byteBits_words hK, byteBits_wordBytesLE, ← hp.stream]
    simp only [Tx.stream, Tx.buffered, List.append_assoc]
    rw [show 8 * (q.woff / 8) = q.woff by omega]
  · exact hp.sink.trans (hsink ▸ by rw [List.append_assoc]; exact List.prefix_append _ _)
  · have h1 := Tx.emitWords_sink_length q.wptr hqi (le_of_lt hqi.ptr)
    simp only [Tx.emitWords] at h1
    have h2 := hp.sunk
    rw [hsink, List.length_append, h1, hsunk, wordBytesLE_length]
    omega
  · rw [hwb]; simp only [List.length_set, List.length_append, List.length_replicate, List.length_drop, hqi.length]
    have := hqi.ptr; omega
  · intro x hx
    obtain ⟨i, hi, rfl⟩ := List.getElem_of_mem hx
    have := hall i
    simp only [wordAt, List.getD_eq_getElem?_getD, List.getElem?_eq_getElem hi, Option.getD_some] at this
    rw [this]; exact Nat.two_pow_pos _
  · show (wordAt u.wbuf 0).toNat < _
    rw [hall]; exact Nat.two_pow_pos _
  · intro i _; exact hall i
  · show u.bitpos = 8 * u.sunk + K.wordBits * 0 + 0
    omega

end Sys2Proof.Machine
end

