-- ==== Sys2Proof/Laws/Reader.lean ====
section
/-! SUPPORT. Laws of the bit reader's procedures (41_bitstream_reader.md R160 to R165, R170): for each, which bits it
takes off the stream ahead and what it answers, and when it ends in `EndOfStream`. -/

namespace Sys2Proof.Machine

variable {K : Config}

/-! ## Filling -/

theorem packWords_nil (wb : Nat) (hwb : 0 < wb) : packWords wb [] = [] := by
  simp only [packWords, List.length_nil, ceilDiv, Nat.zero_add]
  rw [Nat.div_eq_of_lt (by omega)]; rfl

theorem ceilDiv_succ {a b : Nat} (hb : 0 < b) (ha : 0 < a) : ceilDiv a b = ceilDiv (a - b) b + 1 := by
  simp only [ceilDiv]
  by_cases h : a ≤ b
  · rw [Nat.sub_eq_zero_of_le h, Nat.zero_add, Nat.div_eq_of_lt (show b - 1 < b by omega)]
    exact Nat.div_eq_of_lt_le (by omega) (by omega)
  · rw [show a + b - 1 = (a - b + b - 1) + b by omega, Nat.add_div_right _ hb]

theorem packWords_step {wb : Nat} (hwb : 0 < wb) {bytes : List Byte} (h : bytes ≠ []) :
    packWords wb bytes = BitVec.ofNat 64 (bytesValue (bytes.take wb)) :: packWords wb (bytes.drop wb) := by
  have hpos : 0 < bytes.length := List.length_pos_of_ne_nil h
  simp only [packWords]
  rw [ceilDiv_succ hwb hpos, List.range_succ_eq_map, List.map_cons, List.map_map, List.length_drop]
  simp only [Nat.zero_mul, List.drop_zero, List.cons.injEq, true_and]
  refine List.map_congr_left fun i _ => ?_
  simp only [Function.comp, List.drop_drop, Nat.succ_eq_add_one]
  rw [show (i + 1) * wb = wb + i * wb by ring]

/-- The words of a byte string carry its bits, then the ghost zeros (R161, R162). -/
theorem wordsBits_packWords (hK : K.Legal) (bytes : List Byte) :
    wordsBits K (packWords K.wordBytes bytes) = byteBits bytes ++
      List.replicate (8 * ((K.wordBytes - bytes.length % K.wordBytes) % K.wordBytes)) false := by
  have hW := hK.wordBits_eq
  have hwb : 0 < K.wordBytes := by have := hK.wordBits_pos; omega
  have hle := hK.wordBits_le
  induction hn : bytes.length using Nat.strong_induction_on generalizing bytes with
  | _ n ih =>
    by_cases h : bytes = []
    · subst h; subst hn; simp [packWords_nil _ hwb]
    have hpos : 0 < bytes.length := List.length_pos_of_ne_nil h
    have hword : (BitVec.ofNat 64 (bytesValue (bytes.take K.wordBytes))).toNat = bytesValue (bytes.take K.wordBytes) := by
      rw [BitVec.toNat_ofNat, Nat.mod_eq_of_lt]
      refine Nat.lt_of_lt_of_le (bytesValue_lt _) (Nat.pow_le_pow_right (by omega) ?_)
      simp only [List.length_take]; omega
    rw [packWords_step hwb h, show ∀ (x : Word) xs, wordsBits K (x :: xs) = fieldBits K.wordBits x.toNat ++
      wordsBits K xs from fun _ _ => rfl, hword, hW,
      fieldBits_bytesValue _ K.wordBytes (by simp)]
    rw [ih (bytes.length - K.wordBytes) (by omega) (bytes.drop K.wordBytes) (by simp)]
    by_cases hlt : K.wordBytes ≤ bytes.length
    · rw [List.length_take, Nat.min_eq_left hlt, Nat.sub_self, Nat.mul_zero, List.replicate_zero, List.append_nil,
        ← List.append_assoc, ← byteBits_append, List.take_append_drop, ← hn]
      congr 3
      rw [Nat.mod_eq_sub_mod hlt]
    · rw [List.take_of_length_le (by omega), List.drop_eq_nil_of_le (by omega), ← hn,
        show bytes.length - K.wordBytes = 0 by omega]
      simp only [byteBits_nil, Nat.zero_mod, Nat.sub_zero, Nat.mod_self, Nat.mul_zero, List.replicate_zero,
        List.append_nil]
      rw [Nat.mod_eq_of_lt (show bytes.length < K.wordBytes by omega),
        Nat.mod_eq_of_lt (show K.wordBytes - bytes.length < K.wordBytes by omega)]

theorem packWords_length (wb : Nat) (bytes : List Byte) : (packWords wb bytes).length = ceilDiv bytes.length wb := by
  simp [packWords]

theorem packWords_fits (hK : K.Legal) {bytes : List Byte} {x : Word} (hx : x ∈ packWords K.wordBytes bytes) :
    x.toNat < 2 ^ K.wordBits := by
  obtain ⟨i, _, rfl⟩ := List.mem_map.1 hx
  rw [BitVec.toNat_ofNat]
  refine Nat.lt_of_le_of_lt (Nat.mod_le _ _) (Nat.lt_of_lt_of_le (bytesValue_lt _)
    (Nat.pow_le_pow_right (by omega) ?_))
  rw [hK.wordBits_eq]; simp

theorem ceilDiv_le {a b c : Nat} (hb : 0 < b) (h : a ≤ c * b) : ceilDiv a b ≤ c := by
  simp only [ceilDiv]
  rw [← Nat.lt_succ_iff, Nat.div_lt_iff_lt_mul hb]
  have : c.succ * b = c * b + b := by rw [Nat.succ_mul]
  omega

theorem ceilDiv_pos {a b : Nat} (hb : 0 < b) (h : 0 < a) : 0 < ceilDiv a b := by
  rw [ceilDiv_succ hb h]; omega

theorem ceilDiv_add {p k b : Nat} (hb : 0 < b) (hp : p % b = 0) : ceilDiv (p + k) b = ceilDiv p b + ceilDiv k b := by
  obtain ⟨c, rfl⟩ := Nat.dvd_of_mod_eq_zero hp
  have h1 : ∀ x, ceilDiv (b * c + x) b = c + ceilDiv x b := by
    intro x
    simp only [ceilDiv]
    rcases Nat.eq_zero_or_pos x with rfl | hx
    · rw [show b * c + 0 + b - 1 = (b - 1) + b * c by omega, Nat.add_mul_div_left _ _ hb, Nat.add_comm, Nat.zero_add]
    · rw [show b * c + x + b - 1 = (x + b - 1) + b * c by omega, Nat.add_mul_div_left _ _ hb, Nat.add_comm]
  have h2 := h1 0
  have h3 : ceilDiv 0 b = 0 := by simp only [ceilDiv, Nat.zero_add]; exact Nat.div_eq_of_lt (by omega)
  rw [h1, show b * c = b * c + 0 by rfl, h2, h3]; omega

/-- What a procedure of the reader may touch, whether it answers or raises: the reader's registers and the position of
the source (R166). -/
structure Rx.Touched (K : Config) (r r' : Rx) : Prop where
  frame : r' = { r with
    rbuf := r'.rbuf, rcount := r'.rcount, rptr := r'.rptr, roff := r'.roff, srcEof := r'.srcEof, pulled := r'.pulled,
    bitpos := r'.bitpos, srcpos := r'.srcpos }
  length : r.rbuf.length = K.bufWords → r'.rbuf.length = K.bufWords
  srcpos : r.srcpos ≤ r.src.length → r'.srcpos ≤ r'.src.length

theorem Rx.Touched.refl (r : Rx) : r.Touched K r := ⟨rfl, id, id⟩

theorem Rx.Touched.trans {r s u : Rx} (h : r.Touched K s) (k : s.Touched K u) : r.Touched K u :=
  ⟨by rw [k.frame, h.frame], k.length ∘ h.length, k.srcpos ∘ h.srcpos⟩

theorem Rx.Advanced.touched {r r' : Rx} {bits : List Bool} (h : r.Advanced K r' bits) : r.Touched K r' :=
  ⟨by have := h.frame; rw [h.frame], fun _ => h.inv.length, fun _ => h.inv.srcpos⟩

theorem Rx.Advanced.refl {r : Rx} (h : r.ReaderInv K) : r.Advanced K r [] :=
  ⟨by simp, by simp, rfl, h⟩

theorem Rx.Advanced.trans {r s u : Rx} {a b : List Bool} (h : r.Advanced K s a) (k : s.Advanced K u b) :
    r.Advanced K u (a ++ b) := by
  refine ⟨?_, ?_, ?_, k.inv⟩
  · rw [k.frame, h.frame]
    simp [Nat.add_assoc]
  · rw [h.ahead, k.ahead, List.append_assoc]
  · have := h.pulled; have := k.pulled; omega

theorem Rx.Advanced.rest {r r' : Rx} {bits rest : List Bool} (h : r.Advanced K r' bits)
    (ha : r.ahead K = bits ++ rest) : r'.ahead K = rest := by
  have := h.ahead.symm.trans ha
  exact List.append_cancel_left this

/-- `Fill()` on an empty buffer: it ends in `EndOfStream` exactly when nothing is ahead; else the same bits are ahead
and the buffer is not empty (R161, R162). -/
theorem fill_spec (hK : K.Legal) {r : Rx} (h : r.ReaderInv K) (h0 : r.rcount = 0) :
    (r.ahead K = [] ∧ ∃ r', fill K r = .error r.endOfStream r' ∧ r.Touched K r' ∧ r'.srcEof = true) ∨
    ∃ r', fill K r = .ok () r' ∧ r.Advanced K r' [] ∧ 0 < r'.rcount := by
  have hW := hK.wordBits_eq
  have hwb : 0 < K.wordBytes := by have := hK.wordBits_pos; omega
  have hbuf := hK.bufWords_pos
  have hcap : 0 < K.bufWords * K.wordBytes := Nat.mul_pos hbuf hwb
  have hunread : r.unread K = [] := by simp [Rx.unread, h0]
  by_cases heof : r.srcEof = true
  · left
    refine ⟨by simp [Rx.ahead, hunread, heof], r, by simp [fill, heof], Rx.Touched.refl r, heof⟩
  · simp only [Bool.not_eq_true] at heof
    have hbytes : r.srcGet K = (r.src.drop r.srcpos).take (K.bufWords * K.wordBytes) := rfl
    generalize hb : r.srcGet K = bytes at hbytes
    have hblen : bytes.length = min (K.bufWords * K.wordBytes) (r.src.length - r.srcpos) := by
      rw [hbytes, List.length_take, List.length_drop]
    by_cases hz : bytes.length = 0
    · left
      refine ⟨?_, r.pull K bytes, by simp [fill, heof, hb, hz], ⟨?_, ?_, ?_⟩, ?_⟩
      · have : r.src.drop r.srcpos = [] := by
          apply List.eq_nil_of_length_eq_zero; rw [List.length_drop]; omega
        simp [Rx.ahead, hunread, heof, Rx.unpulled, this]
      · simp [Rx.pull]
      · intro hl; simpa [Rx.pull] using hl
      · intro hs; simpa [Rx.pull, hz] using hs
      · simp [Rx.pull, heof, hz, hbuf, hwb]
    · right
      have hwl : (packWords K.wordBytes bytes).length = ceilDiv bytes.length K.wordBytes := packWords_length _ _
      have hwle : ceilDiv bytes.length K.wordBytes ≤ K.bufWords := ceilDiv_le hwb (by omega)
      have hwpos : 0 < ceilDiv bytes.length K.wordBytes := ceilDiv_pos hwb (by omega)
      set r' : Rx := { r.pull K bytes with
        rbuf := packWords K.wordBytes bytes ++ r.rbuf.drop (packWords K.wordBytes bytes).length
        rcount := (packWords K.wordBytes bytes).length } with hr'
      have htake : r'.rbuf.take r'.rcount = packWords K.wordBytes bytes := by
        simp only [hr']; exact List.take_left
      have hp0 := h.empty h0
      have ho0 := h.emptyOff h0
      have hunread' : r'.unread K = wordsBits K (packWords K.wordBytes bytes) := by
        rw [Rx.unread, htake]; simp only [hr', Rx.pull, hp0, ho0, List.drop_zero]
      have hwhole := h.whole heof
      refine ⟨r', by simp only [fill, heof, hb, hz, if_false, Bool.false_eq_true]; rfl, ⟨?_, ?_, ?_, ?_⟩, ?_⟩
      · simp [hr', Rx.pull]
      · rw [Rx.ahead, Rx.ahead, hunread, hunread', heof, List.nil_append, List.nil_append, wordsBits_packWords hK]
        simp only [Bool.false_eq_true, if_false]
        rcases Nat.lt_or_ge bytes.length (K.bufWords * K.wordBytes) with hshort | hfull
        · have he : r'.srcEof = true := by simp [hr', Rx.pull, hshort]
          rw [he, if_pos rfl, List.append_nil, Rx.unpulled]
          have : r.src.drop r.srcpos = bytes := by
            rw [hbytes, List.take_of_length_le]; rw [List.length_drop]; omega
          rw [this]
        · have he : r'.srcEof = false := by simp [hr', Rx.pull, heof]; omega
          have hlen : bytes.length = K.bufWords * K.wordBytes := by omega
          have hsrc : r'.src.drop r'.srcpos = (r.src.drop r.srcpos).drop (K.bufWords * K.wordBytes) := by
            simp only [hr', Rx.pull, List.drop_drop, hlen]
          rw [he]
          simp only [Bool.false_eq_true, if_false, Rx.unpulled, hsrc]
          rw [hlen, Nat.mul_mod_left, Nat.sub_zero, Nat.mod_self, Nat.mul_zero, List.replicate_zero, List.append_nil,
            ← List.append_assoc, ← byteBits_append, hbytes, List.take_append_drop]
          congr 3
          have hge : K.bufWords * K.wordBytes ≤ (r.src.drop r.srcpos).length := by
            rw [List.length_drop]; omega
          rw [List.length_drop (i := K.bufWords * K.wordBytes)]
          congr 2
          conv_lhs => rw [← Nat.sub_add_cancel hge]
          rw [Nat.add_mul_mod_self_right]
      · simp only [hr', Rx.pull]; omega
      · refine ⟨?_, ?_, ?_, ?_, ?_, ?_, ?_, ?_, ?_, ?_⟩
        · simp only [hr', Rx.pull, List.length_append, List.length_drop, hwl, h.length]; omega
        · simp only [hr', hwl]; exact hwle
        · intro hc; simp only [hr', hwl] at hc; omega
        · intro _; simp only [hr', Rx.pull, hp0, hwl]; exact hwpos
        · simp only [hr', Rx.pull]; exact h.off
        · intro hc; simp only [hr', hwl] at hc; omega
        · rw [htake]; exact fun x hx => packWords_fits hK hx
        · intro he
          simp only [hr', Rx.pull, heof, Bool.false_or, decide_eq_false_iff_not, Nat.not_lt] at he ⊢
          have hlen : bytes.length = K.bufWords * K.wordBytes := by omega
          rw [hlen, Nat.add_mul_mod_self_right]; exact hwhole
        · rw [hunread', wordsBits_length, hwl]
          have hb0 := h.bitpos
          rw [hunread] at hb0
          simp only [hr', Rx.pull] at hb0 ⊢
          rw [ceilDiv_add hwb hwhole, hW]
          simp only [List.length_nil, Nat.add_zero] at hb0
          rw [hb0]; ring
        · simp only [hr', Rx.pull]; have := h.srcpos; omega
      · simp only [hr', hwl]; exact hwpos

/-! ## Reading bits -/

theorem fill_bitpos (r : Rx) (b : Nat) :
    fill K { r with bitpos := b } =
      match fill K r with
      | .ok _ r' => .ok () { r' with bitpos := b }
      | .error _ r' => .error ({ r with bitpos := b } : Rx).endOfStream { r' with bitpos := b } := by
  simp only [fill]
  split
  · rfl
  · show (if (r.srcGet K).length = 0 then _ else _) = _
    split <;> rfl

/-- The bits of the current word that are still unread. -/
abbrev Rx.current (K : Config) (r : Rx) : List Bool :=
  fieldBits (K.wordBits - r.roff) ((wordAt r.rbuf r.rptr).toNat >>> r.roff)

theorem Rx.unread_eq (hK : K.Legal) {r : Rx} (h : r.ReaderInv K) (hc : 0 < r.rcount) :
    r.unread K = r.current K ++ wordsBits K ((r.rbuf.take r.rcount).drop (r.rptr + 1)) := by
  have hp := h.ptr hc
  have hcnt := h.count
  have hlen := h.length
  have hlt : r.rptr < (r.rbuf.take r.rcount).length := by rw [List.length_take]; omega
  have hget : (r.rbuf.take r.rcount)[r.rptr] = wordAt r.rbuf r.rptr := by
    rw [List.getElem_take]
    simp [wordAt, List.getD_eq_getElem?_getD, show r.rptr < r.rbuf.length by omega]
  rw [Rx.unread, List.drop_eq_getElem_cons hlt, hget, Rx.current, fieldBits_shiftRight _ (le_of_lt h.off)]
  rw [show ∀ (x : Word) xs, wordsBits K (x :: xs) = fieldBits K.wordBits x.toNat ++ wordsBits K xs from fun _ _ => rfl,
    List.drop_append_of_le_length (by simpa using le_of_lt h.off)]

theorem Rx.word_fits {r : Rx} (h : r.ReaderInv K) (hc : 0 < r.rcount) :
    (wordAt r.rbuf r.rptr).toNat < 2 ^ K.wordBits := by
  have hp := h.ptr hc
  have hcnt := h.count
  have hlen := h.length
  apply h.fits
  have hlt : r.rptr < (r.rbuf.take r.rcount).length := by rw [List.length_take]; omega
  have hget : (r.rbuf.take r.rcount)[r.rptr] = wordAt r.rbuf r.rptr := by
    rw [List.getElem_take]
    simp [wordAt, List.getD_eq_getElem?_getD, show r.rptr < r.rbuf.length by omega]
  rw [← hget]; exact List.getElem_mem hlt

/-- The cursor moves inside the current word. -/
theorem Rx.skip_advanced (hK : K.Legal) {r : Rx} (h : r.ReaderInv K) (hc : 0 < r.rcount) {n : Nat}
    (hn : n < K.wordBits - r.roff) :
    r.Advanced K { r with roff := r.roff + n, bitpos := r.bitpos + n }
      (fieldBits n ((wordAt r.rbuf r.rptr).toNat >>> r.roff)) := by
  have hu := Rx.unread_eq hK h hc
  have hdrop : ({ r with roff := r.roff + n, bitpos := r.bitpos + n } : Rx).unread K = (r.unread K).drop n := by
    simp only [Rx.unread, List.drop_drop]
  have hlen : n ≤ (r.unread K).length := by
    rw [hu, List.length_append, fieldBits_length]; omega
  refine ⟨by simp, ?_, rfl, ⟨h.length, h.count, h.empty, h.ptr, by simp only; omega, ?_, h.fits, h.whole, ?_, h.srcpos⟩⟩
  · have htake : fieldBits n ((wordAt r.rbuf r.rptr).toNat >>> r.roff) = (r.unread K).take n := by
      rw [hu, List.take_append_of_le_length (by rw [fieldBits_length]; omega), fieldBits_take _ (by omega)]
    rw [Rx.ahead, Rx.ahead, hdrop, htake, ← List.append_assoc, List.take_append_drop]
    rfl
  · intro h0; simp only at h0; omega
  · rw [hdrop, List.length_drop]
    have := h.bitpos
    simp only; omega

/-- The rest of the current word is consumed and the cursor moves to the next one (R163). -/
theorem Rx.nextWord_advanced (hK : K.Legal) {r : Rx} (h : r.ReaderInv K) (hc : 0 < r.rcount) :
    r.Advanced K { r.nextWord with bitpos := r.bitpos + (K.wordBits - r.roff) } (r.current K) := by
  have hu := Rx.unread_eq hK h hc
  have hp := h.ptr hc
  have hcnt := h.count
  have hlen := h.length
  have hW := hK.wordBits_pos
  have hbp := h.bitpos
  rw [hu, List.length_append, fieldBits_length] at hbp
  by_cases hlast : r.rptr + 1 = r.rcount
  · have hr : r.nextWord = { r with roff := 0, rptr := 0, rcount := 0 } := by simp [Rx.nextWord, hlast]
    have htail : (r.rbuf.take r.rcount).drop (r.rptr + 1) = [] := by
      apply List.drop_eq_nil_of_le; rw [List.length_take]; omega
    rw [htail] at hu hbp
    rw [hr]
    refine ⟨by simp, ?_, rfl, ⟨h.length, by simp, fun _ => rfl, fun h0 => absurd h0 (by simp), hW, fun _ => rfl,
      by simp, h.whole, ?_, h.srcpos⟩⟩
    · rw [Rx.ahead, hu]; simp [Rx.ahead, Rx.unread, Rx.unpulled]
    · simpa [Rx.unread] using hbp
  · have hr : r.nextWord = { r with roff := 0, rptr := r.rptr + 1 } := by simp [Rx.nextWord, hlast]
    rw [hr]
    refine ⟨by simp, ?_, rfl, ⟨h.length, h.count, fun h0 => by simp only at h0; omega, fun _ => by simp only; omega, hW,
      fun _ => rfl, h.fits, h.whole, ?_, h.srcpos⟩⟩
    · rw [Rx.ahead, hu]; simp [Rx.ahead, Rx.unread, Rx.unpulled]
    · simp only [Rx.unread, List.drop_zero]
      omega

theorem bitsValue_two {a b x v : Nat} (hx : x < 2 ^ a) :
    bitsValue (fieldBits a x ++ fieldBits b v) = x ||| (v % 2 ^ b) <<< a := by
  rw [bitsValue_append, bitsValue_fieldBits, bitsValue_fieldBits, Nat.mod_eq_of_lt hx, fieldBits_length,
    Nat.shiftLeft_eq, Nat.or_comm, Nat.mul_comm _ (2 ^ a), ← Nat.two_pow_add_eq_or_of_lt hx, Nat.add_comm]

/-- What `GetBits(n)` runs over a non-empty buffer (R160). -/
theorem getBits_buffered {r : Rx} (hc : 0 < r.rcount) {n : Nat} (hn0 : n ≠ 0) :
    getBits K n r =
      (if n < K.wordBits - r.roff then
        .ok ((wordAt r.rbuf r.rptr).toNat >>> r.roff % 2 ^ n) { r with roff := r.roff + n, bitpos := r.bitpos + n }
      else if n = K.wordBits - r.roff then
        .ok ((wordAt r.rbuf r.rptr).toNat >>> r.roff) { r.nextWord with bitpos := r.bitpos + n }
      else
        match fillIfEmpty K r.nextWord with
        | .ok _ r2 => .ok ((wordAt r.rbuf r.rptr).toNat >>> r.roff |||
            (((wordAt r2.rbuf r2.rptr).toNat % 2 ^ (n - (K.wordBits - r.roff))) <<< (K.wordBits - r.roff)))
            { r2 with roff := n - (K.wordBits - r.roff), bitpos := r2.bitpos + n }
        | .error e r2 => .error e r2) := by
  have hfe : fillIfEmpty K r = .ok () r := by simp [fillIfEmpty, show r.rcount ≠ 0 by omega]
  rw [getBits, if_neg hn0]
  simp only [bind, EStateM.bind, hfe, get, getThe, MonadStateOf.get, EStateM.get]
  by_cases h1 : n < K.wordBits - r.roff
  · simp only [h1, if_true]; rfl
  · by_cases h2 : n = K.wordBits - r.roff
    · simp only [h1, h2, if_true, if_false]; simp; rfl
    · simp only [h1, h2, if_false]
      simp only [set, EStateM.set, EStateM.bind]
      cases fillIfEmpty K r.nextWord <;> rfl

/-- `GetBits(n)` with a non-empty buffer. -/
theorem getBits_nonempty (hK : K.Legal) {r : Rx} (h : r.ReaderInv K) (hc : 0 < r.rcount) {n : Nat} (hn0 : n ≠ 0)
    (hn : n ≤ K.wordBits) :
    (∃ bits r', bits.length = n ∧ getBits K n r = .ok (bitsValue bits) r' ∧ r.Advanced K r' bits) ∨
    ((r.ahead K).length < n ∧ ∃ r', getBits K n r = .error r.endOfStream r' ∧ r.Touched K r' ∧ r'.srcEof = true) := by
  have hfit := Rx.word_fits h hc
  have hoff := h.off
  have hrest : (wordAt r.rbuf r.rptr).toNat >>> r.roff < 2 ^ (K.wordBits - r.roff) := by
    rw [Nat.shiftRight_eq_div_pow]
    apply Nat.div_lt_of_lt_mul
    rw [← Nat.pow_add]; convert hfit using 2; omega
  rw [getBits_buffered hc hn0]
  have hnc := Rx.nextWord_advanced hK h hc
  split
  · rename_i h1
    left
    exact ⟨_, _, fieldBits_length _ _, by rw [bitsValue_fieldBits], Rx.skip_advanced hK h hc h1⟩
  · split
    · rename_i h1 h2
      left
      refine ⟨r.current K, { r.nextWord with bitpos := r.bitpos + n }, by rw [fieldBits_length, ← h2], ?_, ?_⟩
      · rw [bitsValue_fieldBits, Nat.mod_eq_of_lt hrest]
      · rw [h2]; exact hnc
    · rename_i h1 h2
      set r1 : Rx := { r.nextWord with bitpos := r.bitpos + (K.wordBits - r.roff) } with hr1
      have hnw : r.nextWord = { r1 with bitpos := r.bitpos } := by
        simp only [hr1, Rx.nextWord]; split <;> rfl
      have heos : ({ r1 with bitpos := r.bitpos } : Rx).endOfStream = r.endOfStream := rfl
      have hcount : r.nextWord.rcount = r1.rcount := rfl
      have hlast : ∀ r2 : Rx, r1.Advanced K r2 [] → 0 < r2.rcount → r2.roff = 0 →
          ∃ bits r', bits.length = n ∧
            (EStateM.Result.ok ((wordAt r.rbuf r.rptr).toNat >>> r.roff |||
              (((wordAt r2.rbuf r2.rptr).toNat % 2 ^ (n - (K.wordBits - r.roff))) <<< (K.wordBits - r.roff)))
              { r2 with roff := n - (K.wordBits - r.roff), bitpos := r.bitpos + n } : EStateM.Result Raise Rx Nat)
              = .ok (bitsValue bits) r' ∧ r.Advanced K r' bits := by
        intro r2 hc2 hcnt2 hro2
        have hadv := Rx.skip_advanced hK hc2.inv hcnt2 (n := n - (K.wordBits - r.roff)) (by rw [hro2]; omega)
        rw [hro2, Nat.shiftRight_zero, Nat.zero_add] at hadv
        have hall := (hnc.trans hc2).trans hadv
        rw [List.append_nil] at hall
        refine ⟨_, _, ?_, ?_, hall⟩
        · rw [List.length_append, fieldBits_length, fieldBits_length]; omega
        · rw [bitsValue_two hrest]
          congr 1
          have hb2 : r2.bitpos = r1.bitpos := by have := congrArg Rx.bitpos hc2.frame; simpa using this
          simp only [hb2, hr1, Rx.mk.injEq, true_and, and_true]
          omega
      by_cases hempty : r1.rcount = 0
      · rcases fill_spec hK hnc.inv hempty with ⟨hnil, r2, hf, ht, he⟩ | ⟨r2, hf, hc2, hcnt2⟩
        · right
          refine ⟨?_, { r2 with bitpos := r.bitpos }, ?_, ?_, he⟩
          · rw [hnc.ahead, hnil, List.append_nil, fieldBits_length]; omega
          · rw [fillIfEmpty, if_pos (by rw [hcount]; exact hempty), hnw, fill_bitpos, hf]; rfl
          · have ht2 := hnc.touched.trans ht
            exact ⟨by rw [ht2.frame], ht2.length, ht2.srcpos⟩
        · left
          rw [fillIfEmpty, if_pos (by rw [hcount]; exact hempty), hnw, fill_bitpos, hf]
          have hro : r2.roff = 0 := by
            simp only [fill] at hf
            split at hf
            · simp at hf
            · split at hf
              · simp at hf
              · simp only [EStateM.Result.ok.injEq, true_and] at hf
                rw [← hf]
                exact hnc.inv.emptyOff hempty
          exact hlast r2 hc2 hcnt2 hro
      · left
        rw [fillIfEmpty, if_neg (by rw [hcount]; exact hempty)]
        have hro : r1.roff = 0 := by simp only [hr1, Rx.nextWord]; split <;> rfl
        have := hlast r1 (Rx.Advanced.refl hnc.inv) (by omega) hro
        rw [hnw]
        exact this

/-- `GetBits(n)` (R160, R170): it takes the next `n` bits and answers their number, unless fewer than `n` are ahead;
then it ends in `EndOfStream(BITPOS)`. -/
theorem getBits_advances (hK : K.Legal) {r : Rx} (h : r.ReaderInv K) {n : Nat} (hn : n ≤ K.wordBits) :
    (∃ bits r', bits.length = n ∧ getBits K n r = .ok (bitsValue bits) r' ∧ r.Advanced K r' bits) ∨
    ((r.ahead K).length < n ∧ ∃ r', getBits K n r = .error r.endOfStream r' ∧ r.Touched K r' ∧ r'.srcEof = true) := by
  by_cases hn0 : n = 0
  · subst hn0
    exact .inl ⟨[], r, rfl, rfl, Rx.Advanced.refl h⟩
  by_cases hc : r.rcount = 0
  · have hstart : ∀ r1, fillIfEmpty K r = .ok () r1 → 0 < r1.rcount → getBits K n r = getBits K n r1 := by
      intro r1 hf hc1
      have hfe : fillIfEmpty K r1 = .ok () r1 := by simp [fillIfEmpty, show r1.rcount ≠ 0 by omega]
      rw [getBits, if_neg hn0]
      simp only [bind, EStateM.bind, hf, hfe]
    rcases fill_spec hK h hc with ⟨hnil, r2, hf, ht, he⟩ | ⟨r2, hf, hc2, hcnt2⟩
    · right
      refine ⟨by rw [hnil]; simp; omega, r2, ?_, ht, he⟩
      rw [getBits, if_neg hn0]
      simp only [bind, EStateM.bind, fillIfEmpty, hc, if_true, hf]
    · have hf' : fillIfEmpty K r = .ok () r2 := by rw [fillIfEmpty, if_pos hc, hf]
      rw [hstart r2 hf' hcnt2]
      have hah : r.ahead K = r2.ahead K := hc2.ahead
      have heos : r2.endOfStream = r.endOfStream := by
        have hb : r2.bitpos = r.bitpos := by have := congrArg Rx.bitpos hc2.frame; simpa using this
        simp only [Rx.endOfStream, hb]
      rcases getBits_nonempty hK hc2.inv hcnt2 hn0 hn with ⟨bits, r', hl, hg, hcon⟩ | ⟨hlt, r', hg, ht, he⟩
      · exact .inl ⟨bits, r', hl, hg, hc2.trans hcon⟩
      · right
        rw [hah]
        exact ⟨hlt, r', by rw [hg, heos], hc2.touched.trans ht, he⟩
  · exact getBits_nonempty hK h (by omega) hn0 hn

/-- The source's part of the state stands still. -/
def Rx.SourceKept (r r' : Rx) : Prop := r'.pulled = r.pulled ∧ r'.srcpos = r.srcpos ∧ r'.srcEof = r.srcEof

/-- One `Fill()` has taken bytes from the source: a whole buffer, or what is left of it (R161). -/
def Rx.FilledOnce (K : Config) (r r' : Rx) : Prop :=
  r'.pulled = r.pulled + (r.srcGet K).length ∧ r'.srcpos = r.srcpos + (r.srcGet K).length ∧
    (r'.srcEof = true ↔ (r.srcGet K).length < K.bufWords * K.wordBytes)

/-- What `Fill()` does to the source (R161, R162). -/
theorem fill_source (hK : K.Legal) (r : Rx) :
    (∃ r', fill K r = .ok () r' ∧ 0 < r'.rcount ∧ r'.roff = r.roff ∧ r.FilledOnce K r') ∨
    ∃ e r', fill K r = .error e r' ∧ r'.pulled = r.pulled ∧ r'.srcpos = r.srcpos := by
  have hwb : 0 < K.wordBytes := by have := hK.wordBits_eq; have := hK.wordBits_pos; omega
  simp only [fill]
  split
  · exact .inr ⟨_, _, rfl, rfl, rfl⟩
  · rename_i heof
    split
    · rename_i hz
      exact .inr ⟨_, _, rfl, by simp [Rx.pull, hz], by simp [Rx.pull, hz]⟩
    · refine .inl ⟨_, rfl, ?_, rfl, rfl, rfl, ?_⟩
      · rw [packWords_length]; exact ceilDiv_pos hwb (by omega)
      · simp only [Bool.not_eq_true] at heof
        simp [Rx.pull, heof]

/-- When `GetBits(n)` fills the buffer, and how much it pulls: not at all while the buffer holds the `n` bits, else one
buffer; an underrun has pulled nothing (R160, R161). -/
theorem getBits_pulls (hK : K.Legal) {r : Rx} (h : r.ReaderInv K) {n : Nat} (hn : n ≤ K.wordBits) :
    (∀ v r', getBits K n r = .ok v r' →
      (n ≤ (r.unread K).length → r.SourceKept r') ∧ ((r.unread K).length < n → r.FilledOnce K r')) ∧
    ∀ e r', getBits K n r = .error e r' → r'.pulled = r.pulled ∧ r'.srcpos = r.srcpos := by
  by_cases hn0 : n = 0
  · subst hn0
    refine ⟨fun v r' he => ?_, fun e r' he => by cases he⟩
    cases he
    exact ⟨fun _ => ⟨rfl, rfl, rfl⟩, fun hl => absurd hl (Nat.not_lt_zero _)⟩
  by_cases hc : r.rcount = 0
  · have hu : (r.unread K).length = 0 := by simp [Rx.unread, hc]
    have hoff := h.emptyOff hc
    rcases fill_source hK r with ⟨r1, hf, hc1, ho, hp⟩ | ⟨e, r1, hf, hp⟩
    · have hstart : getBits K n r = getBits K n r1 := by
        rw [getBits, if_neg hn0]
        simp only [bind, EStateM.bind, fillIfEmpty, hc, show r1.rcount ≠ 0 by omega, if_true, if_false, hf]
      rw [hstart, getBits_buffered hc1 hn0, ho, hoff, Nat.sub_zero]
      split
      · refine ⟨fun v r' he => ?_, fun e r' he => by cases he⟩
        cases he
        exact ⟨fun hl => by omega, fun _ => hp⟩
      · rw [if_pos (by omega)]
        refine ⟨fun v r' he => ?_, fun e r' he => by cases he⟩
        cases he
        refine ⟨fun hl => by omega, fun _ => ?_⟩
        simp only [Rx.nextWord]
        split <;> exact hp
    · have he : getBits K n r = .error e r1 := by
        rw [getBits, if_neg hn0]
        simp only [bind, EStateM.bind, fillIfEmpty, hc, if_true, hf]
      rw [he]
      refine ⟨fun v r' he => (by cases he), fun e r' he => ?_⟩
      cases he
      exact hp
  · have hc : 0 < r.rcount := by omega
    have hu := congrArg List.length (Rx.unread_eq hK h hc)
    rw [List.length_append, fieldBits_length, wordsBits_length, List.length_drop, List.length_take, h.length,
      Nat.min_eq_left h.count] at hu
    have hptr := h.ptr hc
    have hoff := h.off
    rw [getBits_buffered hc hn0]
    have hkept : r.SourceKept r.nextWord := by
      simp only [Rx.nextWord]
      split <;> exact ⟨rfl, rfl, rfl⟩
    split
    · refine ⟨fun v r' he => ?_, fun e r' he => by cases he⟩
      cases he
      exact ⟨fun _ => ⟨rfl, rfl, rfl⟩, fun hl => by omega⟩
    · split
      · refine ⟨fun v r' he => ?_, fun e r' he => by cases he⟩
        cases he
        exact ⟨fun _ => hkept, fun hl => by omega⟩
      · by_cases hlast : r.rptr + 1 = r.rcount
        · have h0 : r.nextWord.rcount = 0 := by simp [Rx.nextWord, hlast]
          have hget : r.nextWord.srcGet K = r.srcGet K := by simp only [Rx.nextWord]; split <;> rfl
          have hz : r.rcount - (r.rptr + 1) = 0 := by omega
          rw [hz, Nat.mul_zero] at hu
          rcases fill_source hK r.nextWord with ⟨r1, hf, -, -, hp⟩ | ⟨e, r1, hf, hp⟩ <;>
            rw [fillIfEmpty, if_pos h0, hf]
          · refine ⟨fun v r' he => ?_, fun e r' he => by cases he⟩
            cases he
            refine ⟨fun hl => by omega, fun _ => ?_⟩
            simp only [Rx.FilledOnce, hget, hkept.1, hkept.2.1] at hp
            exact hp
          · refine ⟨fun v r' he => (by cases he), fun e r' he => ?_⟩
            cases he
            exact ⟨hp.1.trans hkept.1, hp.2.trans hkept.2.1⟩
        · have h0 : r.nextWord.rcount ≠ 0 := by simp [Rx.nextWord, hlast]; omega
          rw [fillIfEmpty, if_neg h0]
          refine ⟨fun v r' he => ?_, fun e r' he => by cases he⟩
          cases he
          have : K.wordBits * 1 ≤ K.wordBits * (r.rcount - (r.rptr + 1)) := Nat.mul_le_mul_left _ (by omega)
          exact ⟨fun _ => hkept, fun hl => by omega⟩

/-! ## What is asked of the source -/

theorem ceilDiv_zero {b : Nat} (hb : 0 < b) : ceilDiv 0 b = 0 := by
  simp only [ceilDiv, Nat.zero_add]; exact Nat.div_eq_of_lt (by omega)

theorem ceilDiv_bounds {x b : Nat} (hb : 0 < b) : x ≤ b * ceilDiv x b ∧ b * ceilDiv x b < x + b := by
  have h1 := Nat.div_add_mod (x + b - 1) b
  have h2 := Nat.mod_lt (x + b - 1) hb
  simp only [ceilDiv]
  omega

theorem ceilDiv_unique {x b m : Nat} (h1 : x ≤ b * m) (h2 : b * m < x + b) : ceilDiv x b = m := by
  simp only [ceilDiv]
  exact Nat.div_eq_of_lt_le (by rw [Nat.mul_comm]; omega) (by rw [Nat.mul_comm, Nat.mul_succ]; omega)

theorem Rx.unpulled_length (hwb : 0 < K.wordBytes) (r : Rx) :
    (r.unpulled K).length = 8 * (K.wordBytes * ceilDiv (r.src.length - r.srcpos) K.wordBytes) := by
  have h1 := Nat.div_add_mod (r.src.length - r.srcpos) K.wordBytes
  have h2 := Nat.mod_lt (r.src.length - r.srcpos) hwb
  rw [Rx.unpulled, List.length_append, byteBits_length, List.length_replicate, List.length_drop, ← Nat.mul_add]
  congr 1
  rcases Nat.eq_zero_or_pos ((r.src.length - r.srcpos) % K.wordBytes) with hz | hp
  · rw [hz, Nat.sub_zero, Nat.mod_self]
    rw [ceilDiv_unique (m := (r.src.length - r.srcpos) / K.wordBytes) (by omega) (by omega)]
    omega
  · rw [Nat.mod_eq_of_lt (show K.wordBytes - (r.src.length - r.srcpos) % K.wordBytes < K.wordBytes by omega),
      ceilDiv_unique (m := (r.src.length - r.srcpos) / K.wordBytes + 1) (by rw [Nat.mul_succ]; omega)
        (by rw [Nat.mul_succ]; omega), Nat.mul_succ]
    omega

theorem Rx.asked_none {r : Rx} {n : Nat} (h : n ≤ (r.unread K).length) : r.asked K n = 0 := by
  rw [Rx.asked, Nat.sub_eq_zero_of_le h]
  rcases Nat.eq_zero_or_pos (K.bufWords * K.wordBytes) with hz | hp
  · rw [hz, Nat.zero_mul]
  · rw [ceilDiv_zero (by omega), Nat.mul_zero]

/-- Up to a word more than is held asks for one buffer. -/
theorem Rx.asked_one (hK : K.Legal) {r : Rx} {n : Nat} (h : (r.unread K).length < n) (hn : n ≤ K.wordBits) :
    r.asked K n = K.bufWords * K.wordBytes := by
  have := Nat.le_mul_of_pos_left K.wordBytes hK.bufWords_pos
  have := hK.wordBits_eq
  rw [Rx.asked, ceilDiv_unique (m := 1) (by omega) (by omega), Nat.mul_one]

/-- What is consumed in two parts asks for what the parts ask for. -/
theorem Rx.asked_add {r s u : Rx} {a b : List Bool} (h : r.Consumed K s a) (k : s.Advanced K u b) :
    r.asked K (a.length + b.length) = r.asked K a.length + s.asked K b.length ∧
    s.src.length - s.srcpos = r.src.length - r.srcpos - r.asked K a.length := by
  have hsrc : s.src = r.src := by have := congrArg Rx.src h.frame; simpa using this
  have hleft : s.src.length - s.srcpos = r.src.length - r.srcpos - r.asked K a.length := by
    have := h.filled; have := h.pulled; rw [hsrc]; omega
  refine ⟨?_, hleft⟩
  rcases Nat.eq_zero_or_pos (K.bufWords * K.wordBytes) with hz | hq
  · simp only [Rx.asked, hz, Nat.zero_mul]
  have hwb : 0 < K.wordBytes := Nat.pos_of_mul_pos_left hq
  have hB : 0 < 8 * (K.bufWords * K.wordBytes) := by omega
  have hh := congrArg List.length h.ahead
  have hk := congrArg List.length k.ahead
  have he : s.srcEof = true ↔ r.srcEof = true ∨ r.src.length - r.srcpos < r.asked K a.length := by
    rw [h.eof, Bool.or_eq_true, decide_eq_true_iff]
  simp only [Rx.ahead, List.length_append, apply_ite List.length, List.length_nil, Rx.unpulled_length hwb] at hh hk
  rw [hleft] at hh hk
  simp only [Rx.asked] at *
  have b1 := ceilDiv_bounds (x := a.length - (r.unread K).length) hB
  have b2 := ceilDiv_bounds (x := b.length - (s.unread K).length) hB
  have z1 : a.length ≤ (r.unread K).length → ceilDiv (a.length - (r.unread K).length) (8 * (K.bufWords * K.wordBytes)) = 0 :=
    fun h => by rw [Nat.sub_eq_zero_of_le h, ceilDiv_zero hB]
  have z2 : b.length ≤ (s.unread K).length → ceilDiv (b.length - (s.unread K).length) (8 * (K.bufWords * K.wordBytes)) = 0 :=
    fun h => by rw [Nat.sub_eq_zero_of_le h, ceilDiv_zero hB]
  generalize ceilDiv (a.length - (r.unread K).length) (8 * (K.bufWords * K.wordBytes)) = m1 at *
  generalize ceilDiv (b.length - (s.unread K).length) (8 * (K.bufWords * K.wordBytes)) = m2 at *
  rw [Nat.mul_assoc] at b1 b2
  rw [← Nat.mul_add]
  congr 1
  refine ceilDiv_unique ?_ ?_ <;> rw [Nat.mul_assoc, Nat.mul_add]
  all_goals
    by_cases hr : r.srcEof = true
    · simp only [hr, he.2 (.inl hr), if_true] at hh hk
      rw [z1 (by omega), z2 (by omega)]
      omega
    · simp only [hr, Bool.false_eq_true, if_false] at hh
      by_cases hf : r.src.length - r.srcpos < K.bufWords * K.wordBytes * m1
      · simp only [he.2 (.inr hf), if_true] at hh hk
        have hc := ceilDiv_le (a := r.src.length - r.srcpos) (c := K.bufWords * m1) hwb (by
          rw [Nat.mul_right_comm]; omega)
        have hc' : K.wordBytes * ceilDiv (r.src.length - r.srcpos) K.wordBytes ≤ K.bufWords * K.wordBytes * m1 := by
          calc _ ≤ K.wordBytes * (K.bufWords * m1) := Nat.mul_le_mul_left _ hc
            _ = _ := by ring
        rw [z2 (by omega)]
        omega
      · simp only [show ¬ s.srcEof = true from fun h => (he.1 h).elim hr hf, Bool.false_eq_true, if_false] at hh hk
        have hc := ceilDiv_add (p := K.bufWords * K.wordBytes * m1) (k := r.src.length - r.srcpos - K.bufWords * K.wordBytes * m1)
          hwb (by rw [Nat.mul_right_comm]; exact Nat.mul_mod_left _ _)
        have hd : K.wordBytes * ceilDiv (K.bufWords * K.wordBytes * m1) K.wordBytes = K.bufWords * K.wordBytes * m1 := by
          have e : K.wordBytes * (K.bufWords * m1) = K.bufWords * K.wordBytes * m1 := by ring
          rw [ceilDiv_unique (x := K.bufWords * K.wordBytes * m1) (m := K.bufWords * m1) (by omega) (by omega), e]
        rw [show K.bufWords * K.wordBytes * m1 + (r.src.length - r.srcpos - K.bufWords * K.wordBytes * m1) =
          r.src.length - r.srcpos by omega] at hc
        rw [hc, Nat.mul_add, hd] at hh
        by_cases ha : a.length ≤ (r.unread K).length
        · obtain rfl := z1 ha
          omega
        · by_cases hb : b.length ≤ (s.unread K).length
          · rw [z2 hb]
            omega
          · omega

/-! ## Consuming -/

theorem Rx.Consumed.touched {r r' : Rx} {bits : List Bool} (h : r.Consumed K r' bits) : r.Touched K r' :=
  h.toAdvanced.touched

theorem Rx.Consumed.rest {r r' : Rx} {bits rest : List Bool} (h : r.Consumed K r' bits)
    (ha : r.ahead K = bits ++ rest) : r'.ahead K = rest := h.toAdvanced.rest ha

/-- What the buffer holds is consumed without the source. -/
theorem Rx.Advanced.kept {r r' : Rx} {bits : List Bool} (h : r.Advanced K r' bits)
    (hn : bits.length ≤ (r.unread K).length) (hs : r.SourceKept r') : r.Consumed K r' bits :=
  ⟨h, by rw [Rx.asked_none hn, hs.1]; omega, by rw [Rx.asked_none hn, hs.2.2]; simp⟩

theorem Rx.Consumed.refl {r : Rx} (h : r.ReaderInv K) : r.Consumed K r [] :=
  (Rx.Advanced.refl h).kept (Nat.zero_le _) ⟨rfl, rfl, rfl⟩

theorem Rx.Consumed.trans {r s u : Rx} {a b : List Bool} (h : r.Consumed K s a) (k : s.Consumed K u b) :
    r.Consumed K u (a ++ b) := by
  obtain ⟨h1, h2⟩ := Rx.asked_add h k.toAdvanced
  refine ⟨h.toAdvanced.trans k.toAdvanced, ?_, ?_⟩
  · rw [List.length_append, h1, k.filled, h.filled, h2]; omega
  · rw [List.length_append, h1, k.eof, h.eof, h2, Bool.or_assoc]
    congr 1
    rw [← Bool.decide_or, decide_eq_decide]
    omega

/-- `GetBits(n)` (R160, R161, R170): it takes the next `n` bits and answers their number, unless fewer than `n` are ahead;
then it ends in `EndOfStream(BITPOS)`. -/
theorem getBits_spec (hK : K.Legal) {r : Rx} (h : r.ReaderInv K) {n : Nat} (hn : n ≤ K.wordBits) :
    (∃ bits r', bits.length = n ∧ getBits K n r = .ok (bitsValue bits) r' ∧ r.Consumed K r' bits) ∨
    ((r.ahead K).length < n ∧ ∃ r', getBits K n r = .error r.endOfStream r' ∧ r.Touched K r' ∧ r'.srcEof = true) := by
  refine (getBits_advances hK h hn).imp_left fun ⟨bits, r', hl, hg, ha⟩ => ⟨bits, r', hl, hg, ?_⟩
  obtain ⟨hkept, hfill⟩ := (getBits_pulls hK h hn).1 _ _ hg
  by_cases hu : n ≤ (r.unread K).length
  · exact ha.kept (by omega) (hkept hu)
  · obtain ⟨h1, -, h2⟩ := hfill (by omega)
    have he : r.srcEof = false := by
      by_contra hne
      have := congrArg List.length ha.ahead
      rw [Rx.ahead, if_pos (by simpa using hne), List.append_nil, List.length_append] at this
      omega
    have hask : r.asked K bits.length = K.bufWords * K.wordBytes := Rx.asked_one hK (by omega) (by omega)
    have hget : (r.srcGet K).length = min (K.bufWords * K.wordBytes) (r.src.length - r.srcpos) := by
      rw [Rx.srcGet, List.length_take, List.length_drop]
    refine ⟨ha, ?_, ?_⟩
    · rw [h1, hask, hget, Nat.min_comm]
    · rw [hask, he, Bool.false_or, Bool.eq_iff_iff, h2, decide_eq_true_iff, hget]
      omega

/-- Reading a field that is ahead. -/
theorem getBits_field (hK : K.Legal) {r : Rx} (h : r.ReaderInv K) {bits rest : List Bool}
    (hb : bits.length ≤ K.wordBits) (ha : r.ahead K = bits ++ rest) :
    ∃ r', getBits K bits.length r = .ok (bitsValue bits) r' ∧ r.Consumed K r' bits ∧ r'.ahead K = rest := by
  rcases getBits_spec hK h hb with ⟨b, r', hl, hg, hc⟩ | ⟨hlt, _⟩
  · have : b = bits := by
      have := hc.ahead.symm.trans ha
      exact (List.append_inj this hl).1
    subst this
    exact ⟨r', hg, hc, hc.rest ha⟩
  · rw [ha, List.length_append] at hlt; omega

/-! ## Windup -/

theorem Rx.bitpos_mod (hK : K.Legal) {r : Rx} (h : r.ReaderInv K) : r.bitpos % 8 = r.roff % 8 := by
  have hb := h.bitpos
  have hW := hK.wordBits_eq
  have hoff := h.off
  by_cases hc : r.rcount = 0
  · have : r.unread K = [] := by simp [Rx.unread, hc]
    rw [this, List.length_nil] at hb
    rw [h.emptyOff hc]; omega
  · rw [Rx.unread_eq hK h (by omega), List.length_append, fieldBits_length, wordsBits_length, hW, Nat.mul_assoc] at hb
    omega

/-- `GetWindup()` skips what is left up to a byte boundary of the stream, whatever the bits (R165). -/
theorem Rx.windup_consumed (hK : K.Legal) {r : Rx} (h : r.ReaderInv K) :
    ∃ bits, bits.length = (padBits r.bitpos).length ∧ r.Consumed K (r.windup K) bits := by
  have hmod := Rx.bitpos_mod hK h
  have hW := hK.wordBits_eq
  have hoff := h.off
  have hlen : (padBits r.bitpos).length = (8 - r.roff % 8) % 8 := by
    rw [padBits, List.length_replicate, hmod]
  rw [hlen, Rx.windup]
  dsimp only
  split
  · rename_i h0
    exact ⟨[], by rw [h0]; rfl, Rx.Consumed.refl h⟩
  · rename_i h0
    have hc : 0 < r.rcount := by
      rcases Nat.eq_zero_or_pos r.rcount with hz | hz
      · rw [h.emptyOff hz] at h0; simp at h0
      · exact hz
    have hheld : K.wordBits - r.roff ≤ (r.unread K).length := by
      rw [Rx.unread_eq hK h hc, List.length_append, fieldBits_length]; omega
    split
    · rename_i hend
      have hend : r.roff + (8 - r.roff % 8) % 8 = K.wordBits := hend
      refine ⟨r.current K, by rw [fieldBits_length]; omega, ?_⟩
      have hcon := (Rx.nextWord_advanced hK h hc).kept (by rw [fieldBits_length]; exact hheld)
        (by simp only [Rx.nextWord]; split <;> exact ⟨rfl, rfl, rfl⟩)
      have heq : ({ r with roff := r.roff + (8 - r.roff % 8) % 8, bitpos := r.bitpos + (8 - r.roff % 8) % 8 } : Rx).nextWord
          = { r.nextWord with bitpos := r.bitpos + (K.wordBits - r.roff) } := by
        rw [show (8 - r.roff % 8) % 8 = K.wordBits - r.roff by omega]
        simp only [Rx.nextWord]
        split <;> rfl
      rw [heq]
      exact hcon
    · rename_i hend
      have hend : ¬ r.roff + (8 - r.roff % 8) % 8 = K.wordBits := hend
      exact ⟨_, fieldBits_length _ _, (Rx.skip_advanced hK h hc (by omega)).kept (by rw [fieldBits_length]; omega) ⟨rfl, rfl, rfl⟩⟩

/-! ## Unary and exponential-Golomb codes -/

theorem getBits_one (hK : K.Legal) {r : Rx} (h : r.ReaderInv K) {b : Bool} {rest : List Bool}
    (ha : r.ahead K = b :: rest) :
    ∃ r', getBits K 1 r = .ok (bit b) r' ∧ r.Consumed K r' [b] ∧ r'.ahead K = rest := by
  have := getBits_field hK h (bits := [b]) (rest := rest) (by have := hK.wordBits_ge; simp; omega) ha
  simpa [bitsValue] using this

/-- `GetUnary()` on a unary code within the bound (R164, R111). -/
theorem getUnaryFrom_code (hK : K.Legal) (left c m : Nat) (hm : m ≤ left) {r : Rx} (h : r.ReaderInv K)
    {rest : List Bool} (ha : r.ahead K = unaryBits m ++ rest) :
    ∃ r', getUnaryFrom K left c r = .ok (c + m) r' ∧ r.Consumed K r' (unaryBits m) ∧ r'.ahead K = rest := by
  induction m generalizing left c r with
  | zero =>
    obtain ⟨r', hg, hc, hr⟩ := getBits_one hK h (b := false) (rest := rest) ha
    refine ⟨r', ?_, hc, hr⟩
    cases left <;> simp [getUnaryFrom, bind, EStateM.bind, hg, bit] <;> rfl
  | succ m ih =>
    obtain ⟨left, rfl⟩ : ∃ l, left = l + 1 := ⟨left - 1, by omega⟩
    have ha' : r.ahead K = true :: (unaryBits m ++ rest) := by
      rw [ha]; simp [unaryBits, List.replicate_succ]
    obtain ⟨r1, hg, hc, hr⟩ := getBits_one hK h ha'
    obtain ⟨r', hg', hc', hr'⟩ := ih left (c + 1) (by omega) hc.inv hr
    refine ⟨r', ?_, ?_, hr'⟩
    · simp only [getUnaryFrom, bind, EStateM.bind, hg, bit]
      simp only [if_true, Nat.one_ne_zero, if_false, hg', Nat.succ_eq_add_one]
      congr 1; omega
    · have := hc.trans hc'
      simpa [unaryBits, List.replicate_succ] using this

theorem getUnary_code (hK : K.Legal) {v : Nat} (hv : v ≤ K.unaryMax) {r : Rx} (h : r.ReaderInv K) {rest : List Bool}
    (ha : r.ahead K = unaryBits v ++ rest) :
    ∃ r', getUnary K r = .ok v r' ∧ r.Consumed K r' (unaryBits v) ∧ r'.ahead K = rest := by
  simpa [getUnary] using getUnaryFrom_code hK K.unaryMax 0 v hv h ha

/-- What `fitCount` answers has at most `W` bits, and is the count where that has; the count of draws alone may move. -/
theorem fitCount_ok (v : Nat) (r : Rx) : ∃ w k, fitCount K v r = .ok w { r with freeTick := k } ∧ w < 2 ^ K.wordBits ∧
    (v < 2 ^ K.wordBits → w = v ∧ k = r.freeTick) := by
  unfold fitCount
  split
  · exact ⟨v, r.freeTick, rfl, ‹_›, fun _ => ⟨rfl, rfl⟩⟩
  · exact ⟨_, r.freeTick + 1, rfl, Nat.mod_lt _ (Nat.two_pow_pos _), fun h => absurd h ‹_›⟩

/-- The number of draws is no business of the reader's. -/
theorem Rx.Consumed.withTick {r r' : Rx} {bits : List Bool} (h : r.Consumed K r' bits) (k : Nat) :
    ({ r with freeTick := k } : Rx).Consumed K { r' with freeTick := k } bits where
  frame := by have e := congrArg (fun q : Rx => { q with freeTick := k }) h.frame; exact e
  ahead := h.ahead
  pulled := h.pulled
  inv := ⟨h.inv.length, h.inv.count, h.inv.empty, h.inv.ptr, h.inv.off, h.inv.emptyOff, h.inv.fits, h.inv.whole,
    h.inv.bitpos, h.inv.srcpos⟩
  filled := h.filled
  eof := h.eof

/-- One one-bit too many ends in `UnaryOverrun` (R164). -/
theorem getUnaryFrom_overrun (hK : K.Legal) (left c : Nat) {r : Rx} (h : r.ReaderInv K) {rest : List Bool}
    (ha : r.ahead K = List.replicate (left + 1) true ++ rest) :
    ∃ r', getUnaryFrom K left c r = .error ⟨.unaryOverrun, c + left + 1, K.unaryMax⟩ r' ∧ r.Touched K r' := by
  induction left generalizing c r with
  | zero =>
    obtain ⟨r', hg, hc, -⟩ := getBits_one hK h (b := true) (rest := rest) (by simpa using ha)
    refine ⟨r', ?_, hc.touched⟩
    simp [getUnaryFrom, bind, EStateM.bind, hg, bit, throw, throwThe, MonadExceptOf.throw, EStateM.throw]
  | succ left ih =>
    have ha' : r.ahead K = true :: (List.replicate (left + 1) true ++ rest) := by
      rw [ha, List.replicate_succ (n := left + 1)]; rfl
    obtain ⟨r1, hg, hc, hr⟩ := getBits_one hK h ha'
    obtain ⟨r', hg', ht⟩ := ih (c + 1) hc.inv hr
    refine ⟨r', ?_, hc.touched.trans ht⟩
    simp only [getUnaryFrom, bind, EStateM.bind, hg, bit]
    simp only [if_true, Nat.one_ne_zero, if_false, hg']
    congr 2; omega

/-- A stream that ends inside the one-bits ends in `EndOfStream` (R164, R161). -/
theorem getUnaryFrom_end (hK : K.Legal) (left c m : Nat) (hm : m ≤ left) {r : Rx} (h : r.ReaderInv K)
    (ha : r.ahead K = List.replicate m true) :
    ∃ r', getUnaryFrom K left c r =
      .error ⟨.endOfStream, (counterLo (r.bitpos + m)).toNat, (counterHi (r.bitpos + m)).toNat⟩ r' ∧
      r.Touched K r' ∧ r'.srcEof = true := by
  induction m generalizing left c r with
  | zero =>
    rcases getBits_spec hK h (n := 1) (by have := hK.wordBits_ge; omega) with ⟨b, r', hl, _, hc⟩ | ⟨_, r', hg, ht, he⟩
    · have := hc.ahead.symm.trans ha
      have := congrArg List.length this
      simp [hl] at this
    · refine ⟨r', ?_, ht, he⟩
      cases left <;> simp [getUnaryFrom, bind, EStateM.bind, hg, Rx.endOfStream]
  | succ m ih =>
    obtain ⟨left, rfl⟩ : ∃ l, left = l + 1 := ⟨left - 1, by omega⟩
    obtain ⟨r1, hg, hc, hr⟩ := getBits_one hK h (b := true) (rest := List.replicate m true)
      (by rw [ha, List.replicate_succ])
    obtain ⟨r', hg', ht, he⟩ := ih left (c + 1) (by omega) hc.inv hr
    have hb : r1.bitpos = r.bitpos + 1 := by have := congrArg Rx.bitpos hc.frame; simpa using this
    refine ⟨r', ?_, hc.touched.trans ht, he⟩
    simp only [getUnaryFrom, bind, EStateM.bind, hg, bit]
    simp only [if_true, Nat.one_ne_zero, if_false, hg', hb]
    rw [show r.bitpos + 1 + m = r.bitpos + (m + 1) by omega]

theorem bitSize_pos {u : Nat} (h : u ≠ 0) : bitSize u = Nat.log2 u + 1 := by simp [bitSize, h]

theorem lt_two_pow_bitSize (u : Nat) : u < 2 ^ bitSize u := by
  by_cases h : u = 0
  · subst h; simp
  · rw [bitSize_pos h]; exact Nat.lt_log2_self

theorem bitSize_le {u n : Nat} (h : u < 2 ^ n) : bitSize u ≤ n := by
  by_cases h0 : u = 0
  · subst h0; simp [bitSize]
  · rw [bitSize_pos h0]; have := (Nat.log2_lt h0).2 h; omega

theorem restore_leading_one {u : Nat} (h : 0 < bitSize u) :
    u % 2 ^ (bitSize u - 1) ||| 2 ^ (bitSize u - 1) = u := by
  have h0 : u ≠ 0 := by rintro rfl; simp [bitSize] at h
  have hb := bitSize_pos h0
  have hle : 2 ^ (bitSize u - 1) ≤ u := by rw [hb]; exact Nat.log2_self_le h0
  have hlt := lt_two_pow_bitSize u
  rw [show bitSize u = (bitSize u - 1) + 1 by omega, Nat.pow_succ] at hlt
  generalize bitSize u - 1 = a at *
  have hm : u % 2 ^ a = u - 2 ^ a := by
    rw [Nat.mod_eq_sub_mod hle]; exact Nat.mod_eq_of_lt (by omega)
  have := Nat.two_pow_add_eq_or_of_lt (b := u % 2 ^ a) (i := a) (Nat.mod_lt _ (Nat.two_pow_pos a)) 1
  rw [Nat.mul_one] at this
  rw [Nat.or_comm, ← this, hm]; omega

/-- `MexpgGet(k)` on the code of `u` answers `u` and consumes exactly the code (R184). -/
theorem mexpgGet_code (hK : K.Legal) {u k : Nat} (hu : u < 2 ^ K.wordBits) (hk : k ≤ 31) {r : Rx}
    (h : r.ReaderInv K) {rest : List Bool} (ha : r.ahead K = mexpgBits k u ++ rest) :
    ∃ r', mexpgGet K k r = .ok u r' ∧ r.Consumed K r' (mexpgBits k u) ∧ r'.ahead K = rest := by
  have hW := hK.wordBits_ge
  have hb := bitSize_le hu
  have hmax := hK.unaryMax
  rw [mexpgBits] at ha ⊢
  split at ha <;> rename_i hlt
  · rw [if_pos hlt, List.append_assoc] at *
    obtain ⟨r1, hg1, hc1, hr1⟩ := getUnary_code hK (show bitSize u - k ≤ K.unaryMax by omega) h ha
    obtain ⟨r2, hg2, hc2, hr2⟩ := getBits_field hK hc1.inv (by rw [fieldBits_length]; omega) hr1
    rw [fieldBits_length, bitsValue_fieldBits, Nat.mod_mod] at hg2
    refine ⟨r2, ?_, hc1.trans hc2, hr2⟩
    simp only [mexpgGet, bind, EStateM.bind, hg1]
    simp only [show ¬ bitSize u - k = 0 by omega, show ¬ K.wordBits < bitSize u - k + k by omega, if_false,
      show bitSize u - k + k - 1 = bitSize u - 1 by omega, EStateM.bind, hg2]
    show EStateM.Result.ok _ _ = _
    rw [restore_leading_one (by omega)]
  · rw [if_neg hlt, List.append_assoc] at *
    obtain ⟨r1, hg1, hc1, hr1⟩ := getUnary_code hK (Nat.zero_le _) h ha
    obtain ⟨r2, hg2, hc2, hr2⟩ := getBits_field hK hc1.inv (by rw [fieldBits_length]; omega) hr1
    have hu' : u % 2 ^ k = u := Nat.mod_eq_of_lt (Nat.lt_of_lt_of_le (lt_two_pow_bitSize u)
      (Nat.pow_le_pow_right (by omega) (by omega)))
    rw [fieldBits_length, bitsValue_fieldBits, hu'] at hg2
    refine ⟨r2, ?_, hc1.trans hc2, hr2⟩
    simp only [mexpgGet, bind, EStateM.bind, hg1]
    simp only [if_true, hg2]

end Sys2Proof.Machine
end

