-- ==== Sys2Proof/Laws/Codec.lean ====
section
/-! SUPPORT. Laws of the codec procedures: the arithmetic of 42_codec_primitives.md R181 and R194 to R197, the code each
encode procedure appends (R186, R189, R192, R198; 43_codec_encode.md R210) and that each decode procedure takes it back
(R187, R190, R195, R199; 44_codec_decode.md R225, R229). -/

namespace Sys2Proof.Machine

variable {K : Config}

/-! ## Channels -/

theorem DType.width_cases (d : DType) : d.width = 8 ∨ d.width = 16 ∨ d.width = 32 := by cases d <;> simp [DType.width, DType.size]

theorem Channel.width_eq (ch : Channel) : ch.width = 8 * ch.size := rfl

theorem Channel.width_cases (ch : Channel) : ch.width = 8 ∨ ch.width = 16 ∨ ch.width = 32 := DType.width_cases _

theorem Channel.width_le (ch : Channel) : ch.width ≤ 32 := by rcases ch.width_cases with h | h | h <;> omega

theorem Channel.width_ge (ch : Channel) : 8 ≤ ch.width := by rcases ch.width_cases with h | h | h <;> omega

theorem Channel.size_pos (ch : Channel) : 0 < ch.size := by have := ch.width_ge; rw [ch.width_eq] at this; omega

theorem Channel.size_le (ch : Channel) : ch.size ≤ 4 := by have := ch.width_le; rw [ch.width_eq] at this; omega

theorem channelAt_mem {chans : List Channel} {c : Nat} (h : c < chans.length) : channelAt chans c ∈ chans := by
  simp [channelAt, List.getD_eq_getElem?_getD, h]

theorem channelAt_eq {chans : List Channel} {c : Nat} (h : c < chans.length) : channelAt chans c = chans[c] := by
  simp [channelAt, List.getD_eq_getElem?_getD, h]

theorem channelAt_set_self {chans : List Channel} {c : Nat} (h : c < chans.length) (ch : Channel) :
    channelAt (chans.set c ch) c = ch := by simp [channelAt, List.getD_eq_getElem?_getD, h]

theorem channelAt_set_ne {chans : List Channel} {c d : Nat} (h : c ≠ d) (ch : Channel) :
    channelAt (chans.set c ch) d = channelAt chans d := by
  simp [channelAt, List.getD_eq_getElem?_getD, List.getElem?_set_ne h]

theorem chanCheck_eq_none {cw : U32} {chans : List Channel} {c : Nat} :
    chanCheck cw chans c = none ↔
      c < chans.length ∧ (channelAt chans c).Codable ∧
        ((channelAt chans c).rot = 0 ∨ (channelAt chans c).permrot = true) := by
  simp only [chanCheck, orElse_eq_none, refuseIf_eq_none]
  constructor
  · rintro ⟨h1, h2, h3, h4⟩
    refine ⟨by omega, ⟨by omega, fun ha => ?_⟩, ?_⟩
    · by_contra hn; exact h4 ⟨ha, by omega⟩
    · by_cases hr : (channelAt chans c).rot = 0
      · exact .inl hr
      · right; by_contra hp; exact h3 ⟨hr, by simpa using hp⟩
  · rintro ⟨h1, h2, h3⟩
    refine ⟨by omega, by have := h2.rot; omega, ?_, ?_⟩
    · rintro ⟨hr, hp⟩; rcases h3 with h3 | h3 <;> simp_all
    · rintro ⟨ha, hn⟩; have := h2.nbits ha; omega

theorem vecCheck_eq_none {cw : U32} {chans : List Channel} {c addr nbytes : Nat} :
    vecCheck K cw chans c addr nbytes = none ↔
      chanCheck cw chans c = none ∧ nbytes ≠ 0 ∧ addr + nbytes ≤ K.rawBytes := by
  simp only [vecCheck, rangeCheck, orElse_eq_none, refuseIf_eq_none, not_lt]

/-! ## Arithmetic -/

theorem subMod_lt (w a b : Nat) : subMod w a b < 2 ^ w := Nat.mod_lt _ (Nat.two_pow_pos w)

theorem addMod_lt (w a b : Nat) : addMod w a b < 2 ^ w := Nat.mod_lt _ (Nat.two_pow_pos w)

/-- The decode side undoes the subtraction of the encode side (R181). -/
theorem addMod_subMod {w a : Nat} (h : a < 2 ^ w) (b : Nat) : addMod w (subMod w a b) b = a := by
  simp only [addMod, subMod]
  rw [Nat.mod_add_mod, Nat.mod_eq_of_lt h]
  have hb : b % 2 ^ w < 2 ^ w := Nat.mod_lt _ (Nat.two_pow_pos w)
  have := Nat.div_add_mod b (2 ^ w)
  rw [show a + (2 ^ w - b % 2 ^ w) + b = a + 2 ^ w * (b / 2 ^ w + 1) by rw [Nat.mul_add]; omega,
    Nat.add_mul_mod_self_left, Nat.mod_eq_of_lt h]

/-- The subtraction modulo `2^w` by arithmetic (R181). -/
theorem subMod_eq (w a b : Nat) : (subMod w a b : Int) = ((a : Int) - b) % 2 ^ w := by
  have hb : b % 2 ^ w < 2 ^ w := Nat.mod_lt _ (Nat.two_pow_pos w)
  have h : ((a % 2 ^ w + (2 ^ w - b % 2 ^ w) : Nat) : Int) = (a % 2 ^ w : Int) + (2 ^ w - (b % 2 ^ w : Int)) := by
    push_cast [Nat.le_of_lt hb]; rfl
  simp only [subMod]
  push_cast [Nat.le_of_lt hb]
  rw [show ∀ x y z : Int, x + (y - z) = x - z + y from fun _ _ _ => by ring, Int.add_emod_right, ← Int.sub_emod]

theorem rorW_lt {w v : Nat} (h : v < 2 ^ w) (s : Nat) : rorW w v s < 2 ^ w := by
  rw [rorW]; split
  · exact h
  · exact Nat.mod_lt _ (Nat.two_pow_pos w)

theorem rolW_lt {w v : Nat} (h : v < 2 ^ w) (s : Nat) : rolW w v s < 2 ^ w := by
  rw [rolW]; split
  · exact h
  · exact Nat.mod_lt _ (Nat.two_pow_pos w)

theorem testBit_rorW {w v s i : Nat} (hv : v < 2 ^ w) (hs : s < w) :
    (rorW w v s).testBit i = (decide (i < w) && v.testBit (if i < w - s then i + s else i - (w - s))) := by
  have hhi : ∀ j, w ≤ j → v.testBit j = false := fun j hj =>
    Nat.testBit_lt_two_pow (Nat.lt_of_lt_of_le hv (Nat.pow_le_pow_right (by omega) hj))
  rw [rorW]
  split
  · subst_vars
    by_cases h : i < w
    · simp [h]
    · simp [h, hhi i (by omega)]
  · rw [Nat.testBit_mod_two_pow, Nat.testBit_or, Nat.testBit_shiftRight, Nat.testBit_shiftLeft]
    by_cases h : i < w - s
    · have h2 : i < w := by omega
      have h3 : ¬ w - s ≤ i := by omega
      simp [h, h2, h3, Nat.add_comm]
    · by_cases h2 : i < w
      · have h3 : w - s ≤ i := by omega
        simp [h, h2, h3, hhi (s + i) (by omega)]
      · simp [h2]

theorem testBit_rolW {w v s i : Nat} (hv : v < 2 ^ w) (hs : s < w) :
    (rolW w v s).testBit i = (decide (i < w) && v.testBit (if i < s then i + (w - s) else i - s)) := by
  have hhi : ∀ j, w ≤ j → v.testBit j = false := fun j hj =>
    Nat.testBit_lt_two_pow (Nat.lt_of_lt_of_le hv (Nat.pow_le_pow_right (by omega) hj))
  rw [rolW]
  split
  · subst_vars
    by_cases h : i < w
    · simp [h]
    · simp [h, hhi i (by omega)]
  · rw [Nat.testBit_mod_two_pow, Nat.testBit_or, Nat.testBit_shiftRight, Nat.testBit_shiftLeft]
    by_cases h : i < s
    · have h2 : i < w := by omega
      have h3 : ¬ s ≤ i := by omega
      simp [h, h2, h3, Nat.add_comm]
    · by_cases h2 : i < w
      · have h3 : s ≤ i := by omega
        simp [h, h2, h3, hhi (w - s + i) (by omega)]
      · simp [h2]

/-- The right rotation by arithmetic: the low `s` bits become the high ones (R196). -/
theorem rorW_eq {w v s : Nat} (hv : v < 2 ^ w) (hs : s < w) :
    rorW w v s = v / 2 ^ s + v % 2 ^ s * 2 ^ (w - s) := by
  have hlt : v / 2 ^ s < 2 ^ (w - s) := by
    rw [Nat.div_lt_iff_lt_mul (Nat.two_pow_pos s), ← Nat.pow_add]
    rwa [show w - s + s = w by omega]
  apply Nat.eq_of_testBit_eq
  intro i
  rw [Nat.add_comm, Nat.mul_comm, Nat.testBit_two_pow_mul_add _ hlt, testBit_rorW hv hs, Nat.testBit_div_two_pow,
    Nat.testBit_mod_two_pow]
  split
  · rename_i h; have : i < w := by omega
    simp [this, Nat.add_comm]
  · rename_i h; have : (i < w) = (i - (w - s) < s) := by apply propext; omega
    simp only [this]

/-- The left rotation by arithmetic: the high `s` bits become the low ones (R197). -/
theorem rolW_eq {w v s : Nat} (hv : v < 2 ^ w) (hs : s < w) :
    rolW w v s = v % 2 ^ (w - s) * 2 ^ s + v / 2 ^ (w - s) := by
  have hlt : v / 2 ^ (w - s) < 2 ^ s := by
    rw [Nat.div_lt_iff_lt_mul (Nat.two_pow_pos _), ← Nat.pow_add]
    rwa [show s + (w - s) = w by omega]
  apply Nat.eq_of_testBit_eq
  intro i
  rw [Nat.mul_comm, Nat.testBit_two_pow_mul_add _ hlt, testBit_rolW hv hs, Nat.testBit_div_two_pow,
    Nat.testBit_mod_two_pow]
  split
  · rename_i h; have : i < w := by omega
    simp [this]
  · rename_i h; have : (i < w) = (i - s < w - s) := by apply propext; omega
    simp only [this]

/-- The left rotation undoes the right rotation (R196, R197). -/
theorem rolW_rorW {w v s : Nat} (hv : v < 2 ^ w) (hs : s < w) : rolW w (rorW w v s) s = v := by
  apply Nat.eq_of_testBit_eq
  intro i
  rw [testBit_rolW (rorW_lt hv s) hs]
  by_cases hi : i < w
  · simp only [hi, decide_true, Bool.true_and]
    rw [testBit_rorW hv hs]
    split
    · have h1 : i + (w - s) < w := by omega
      have h2 : ¬ i + (w - s) < w - s := by omega
      simp [h1, h2]
    · have h1 : i - s < w := by omega
      have h2 : i - s < w - s := by omega
      have h3 : i - s + s = i := by omega
      simp [h1, h2, h3]
  · simp only [hi, decide_false, Bool.false_and]
    exact (Nat.testBit_lt_two_pow (Nat.lt_of_lt_of_le hv (Nat.pow_le_pow_right (by omega) (by omega)))).symm

/-- The right rotation undoes the left rotation (R196, R197). -/
theorem rorW_rolW {w v s : Nat} (hv : v < 2 ^ w) (hs : s < w) : rorW w (rolW w v s) s = v := by
  apply Nat.eq_of_testBit_eq
  intro i
  rw [testBit_rorW (rolW_lt hv s) hs]
  by_cases hi : i < w
  · simp only [hi, decide_true, Bool.true_and]
    rw [testBit_rolW hv hs]
    split
    · have h1 : i + s < w := by omega
      have h2 : ¬ i + s < s := by omega
      have h3 : i + s - s = i := by omega
      simp [h1, h2]
    · have h1 : i - (w - s) < w := by omega
      have h2 : i - (w - s) < s := by omega
      have h3 : i - (w - s) + (w - s) = i := by omega
      simp [h1, h2, h3]
  · simp only [hi, decide_false, Bool.false_and]
    exact (Nat.testBit_lt_two_pow (Nat.lt_of_lt_of_le hv (Nat.pow_le_pow_right (by omega) (by omega)))).symm

/-! ## The delta and rotation stages -/

theorem deltaOut_lt (w prev : Nat) (xs : List Nat) : ∀ y ∈ (deltaOut w prev xs).1, y < 2 ^ w := by
  induction xs generalizing prev with
  | nil => simp [deltaOut]
  | cons x xs ih =>
    intro y hy
    rcases List.mem_cons.1 hy with rfl | hy
    · exact subMod_lt ..
    · exact ih x y hy

theorem deltaOut_length (w prev : Nat) (xs : List Nat) : (deltaOut w prev xs).1.length = xs.length := by
  induction xs generalizing prev with
  | nil => rfl
  | cons x xs ih => simp [deltaOut, ih]

/-- Word `i` of a vector is differenced against the word before it, the first against the history (R194). -/
theorem deltaOut_getD (w prev : Nat) (xs : List Nat) (i : Nat) (h : i < xs.length) :
    (deltaOut w prev xs).1.getD i 0 = subMod w (xs.getD i 0) (if i = 0 then prev else xs.getD (i - 1) 0) := by
  induction xs generalizing prev i with
  | nil => simp at h
  | cons x xs ih =>
    cases i with
    | zero => rfl
    | succ i =>
      simp only [deltaOut, List.getD_cons_succ]
      rw [ih x i (by simpa using h)]
      cases i <;> simp

/-- The new history is the last word, or the old history where there is none (R194). -/
theorem deltaOut_prev (w prev : Nat) (xs : List Nat) : (deltaOut w prev xs).2 = xs.getLastD prev := by
  induction xs generalizing prev with
  | nil => rfl
  | cons x xs ih => rw [deltaOut, ih, List.getLastD_cons]

theorem deltaIn_prev_lt {w prev : Nat} (hp : prev < 2 ^ w) (ys : List Nat) : (deltaIn w prev ys).2 < 2 ^ w := by
  induction ys generalizing prev with
  | nil => exact hp
  | cons y ys ih => exact ih (addMod_lt ..)

theorem deltaIn_length (w prev : Nat) (ys : List Nat) : (deltaIn w prev ys).1.length = ys.length := by
  induction ys generalizing prev with
  | nil => rfl
  | cons y ys ih => simp [deltaIn, ih]

/-- The decode side's delta stage undoes the encode side's, and both bring the history to the same value (R194,
R195). -/
theorem deltaIn_deltaOut {w : Nat} (prev : Nat) {xs : List Nat} (h : ∀ x ∈ xs, x < 2 ^ w) :
    deltaIn w prev (deltaOut w prev xs).1 = (xs, (deltaOut w prev xs).2) := by
  induction xs generalizing prev with
  | nil => rfl
  | cons x xs ih =>
    have hx := h x (List.mem_cons_self ..)
    simp only [deltaOut, deltaIn, addMod_subMod hx, ih x fun y hy => h y (List.mem_cons_of_mem _ hy)]

theorem stageOut_lt {ch : Channel} {rs : List Nat} (h : ∀ r ∈ rs, r < 2 ^ ch.width) :
    ∀ y ∈ (stageOut ch rs).1, y < 2 ^ ch.width := by
  intro y hy
  simp only [stageOut] at hy
  split at hy
  · exact deltaOut_lt _ _ _ y hy
  · obtain ⟨r, hr, rfl⟩ := List.mem_map.1 hy
    exact rorW_lt (h r hr) _

theorem stageOut_length (ch : Channel) (rs : List Nat) : (stageOut ch rs).1.length = rs.length := by
  simp only [stageOut]; split <;> simp [deltaOut_length]

theorem stageIn_length (ch : Channel) (ys : List Nat) : (stageIn ch ys).1.length = ys.length := by
  simp only [stageIn]; split <;> simp [deltaIn_length]

/-- The two stages together are undone, and the channel comes to the same state on both sides (R198, R199, R229). -/
theorem stageIn_stageOut {ch : Channel} (hrot : ch.rot.toNat < ch.width) {rs : List Nat}
    (h : ∀ r ∈ rs, r < 2 ^ ch.width) : stageIn ch (stageOut ch rs).1 = (rs, (stageOut ch rs).2) := by
  have hback : (rs.map fun r => rorW ch.width r ch.rot.toNat).map (fun x => rolW ch.width x ch.rot.toNat) = rs := by
    rw [List.map_map]
    conv_rhs => rw [← List.map_id rs]
    exact List.map_congr_left fun r hr => rolW_rorW (h r hr) hrot
  simp only [stageIn, stageOut]
  split
  · rw [deltaIn_deltaOut]
    · simp only [hback]
    · intro x hx
      obtain ⟨r, hr, rfl⟩ := List.mem_map.1 hx
      exact rorW_lt (h r hr) _
  · simp only [hback]

/-- What the two stages make of word `i`, by arithmetic (R194, R196). -/
theorem stageOut_getD {ch : Channel} (hrot : ch.rot.toNat < ch.width) {rs : List Nat} (h : ∀ r ∈ rs, r < 2 ^ ch.width)
    {x : Nat → Nat}
    (hx : ∀ i, x i = rs.getD i 0 / 2 ^ ch.rot.toNat + rs.getD i 0 % 2 ^ ch.rot.toNat * 2 ^ (ch.width - ch.rot.toNat))
    {i : Nat} (hi : i < rs.length) :
    ((stageOut ch rs).1.getD i 0 : Int) =
      if ch.delta then ((x i : Int) - if i = 0 then (ch.prev.toNat : Int) else x (i - 1)) % 2 ^ ch.width else x i := by
  have hmap : ∀ j < rs.length, (rs.map fun r => rorW ch.width r ch.rot.toNat).getD j 0 = x j := by
    intro j hj
    rw [hx, ← rorW_eq (by rw [List.getD_eq_getElem _ _ hj]; exact h _ (List.getElem_mem hj)) hrot]
    simp [List.getD_eq_getElem?_getD, hj]
  simp only [stageOut]
  split
  · rw [deltaOut_getD _ _ _ _ (by simpa using hi), subMod_eq, hmap i hi]
    split
    · rfl
    · rw [hmap _ (by omega)]
  · rw [hmap i hi]

theorem constantWord_lt {ch : Channel} : constantWord ch < 2 ^ ch.width :=
  rolW_lt (Nat.mod_lt _ (Nat.two_pow_pos _)) _

/-! ## Channels after a vector -/

theorem stageOut_channel (ch : Channel) (rs : List Nat) :
    (stageOut ch rs).2 = { ch with prev := (stageOut ch rs).2.prev } := by simp only [stageOut]; split <;> rfl

theorem stageIn_channel (ch : Channel) (ys : List Nat) :
    (stageIn ch ys).2 = { ch with prev := (stageIn ch ys).2.prev } := by simp only [stageIn]; split <;> rfl

/-- Coding a vector changes nothing of a channel but its history (R198). -/
theorem chanAfter_eq (ch : Channel) (rs : List Nat) : chanAfter ch rs = { ch with prev := (chanAfter ch rs).prev } := by
  simp only [chanAfter]; split
  · rfl
  · exact stageOut_channel ch rs

/-- The history a vector whose last word is `l` leaves, by arithmetic (R194, R196). -/
theorem chanAfter_last {ch : Channel} (hrot : ch.rot.toNat < ch.width) {rs : List Nat} (h : ∀ r ∈ rs, r < 2 ^ ch.width)
    (h0 : rs ≠ []) {l : Nat} (hl : l = rs.getD (rs.length - 1) 0) :
    chanAfter ch rs = if ch.delta = true ∧ ch.alg ≠ .constant then
        { ch with prev := BitVec.ofNat 32 (l / 2 ^ ch.rot.toNat + l % 2 ^ ch.rot.toNat * 2 ^ (ch.width - ch.rot.toNat)) }
      else ch := by
  have hlast : (rs.map fun r => rorW ch.width r ch.rot.toNat).getLastD ch.prev.toNat =
      l / 2 ^ ch.rot.toNat + l % 2 ^ ch.rot.toNat * 2 ^ (ch.width - ch.rot.toNat) := by
    obtain ⟨ys, y, rfl⟩ := List.eq_nil_or_concat' rs |>.resolve_left h0
    have : l = y := by simp [hl]
    subst this
    rw [List.map_append, List.map_singleton, List.getLastD_concat, rorW_eq (h _ (by simp)) hrot]
  simp only [chanAfter, stageOut]
  by_cases ha : ch.alg = .constant
  · simp [ha]
  · cases hd : ch.delta
    · simp [ha]
    · simp only [ha, if_false, if_true, deltaOut_prev, hlast, ne_eq, not_false_eq_true, and_self]

theorem prev_toNat_lt {w n : Nat} (h : n < 2 ^ w) : (BitVec.ofNat 32 n).toNat < 2 ^ w := by
  rw [BitVec.toNat_ofNat]; exact Nat.lt_of_le_of_lt (Nat.mod_le _ _) h

theorem getLastD_mem (x : Nat) (xs : List Nat) : xs.getLastD x ∈ x :: xs := by
  induction xs generalizing x with
  | nil => simp
  | cons y ys ih => rw [List.getLastD_cons]; exact List.mem_cons_of_mem _ (ih y)

theorem stageOut_ok {ch : Channel} (h : ch.Ok) {rs : List Nat} (hr : ∀ r ∈ rs, r < 2 ^ ch.width) :
    (stageOut ch rs).2.Ok := by
  simp only [stageOut]
  split
  · refine ⟨h.reps, h.nbits, prev_toNat_lt ?_⟩
    rw [deltaOut_prev]
    generalize hxs : rs.map (fun r => rorW ch.width r ch.rot.toNat) = xs
    have hx : ∀ x ∈ xs, x < 2 ^ ch.width := by
      subst hxs
      intro x hx
      obtain ⟨r, hrm, rfl⟩ := List.mem_map.1 hx
      exact rorW_lt (hr r hrm) _
    cases xs with
    | nil => exact h.prev
    | cons x xs =>
      rw [List.getLastD_cons]
      exact hx _ (getLastD_mem x xs)
  · exact h

theorem stageIn_ok {ch : Channel} (h : ch.Ok) (ys : List Nat) : (stageIn ch ys).2.Ok := by
  simp only [stageIn]
  split
  · exact ⟨h.reps, h.nbits, prev_toNat_lt (deltaIn_prev_lt h.prev _)⟩
  · exact h

theorem chanAfter_ok {ch : Channel} (h : ch.Ok) {rs : List Nat} (hr : ∀ r ∈ rs, r < 2 ^ ch.width) :
    (chanAfter ch rs).Ok := by
  simp only [chanAfter]; split
  · exact h
  · exact stageOut_ok h hr

end Sys2Proof.Machine
end

