-- ==== Sys2Proof/Laws/Encode.lean ====
section
/-! SUPPORT. What the encode procedures append, and that runs are maximal (42_codec_primitives.md R186, R189, R192, R193, R198;
43_codec_encode.md R210). -/

namespace Sys2Proof.Machine

variable {K : Config}

/-! ## Runs (R189) -/

theorem runs_mem {ys : List Nat} {p : Nat × Nat} (h : p ∈ runs ys) : p.1 ∈ ys ∧ 1 ≤ p.2 ∧ p.2 ≤ ys.length := by
  induction ys generalizing p with
  | nil => simp [runs] at h
  | cons y ys ih =>
    simp only [runs] at h
    split at h
    · simp only [List.mem_singleton] at h; subst h; simp
    · rename_i v c rest hr
      have hv := ih (p := (v, c)) (by rw [hr]; simp)
      split at h
      · rename_i hvy
        subst hvy
        rcases List.mem_cons.1 h with rfl | h
        · simp only [List.length_cons] at *; exact ⟨by simp, by omega, by omega⟩
        · have := ih (p := p) (by rw [hr]; simp [h])
          exact ⟨List.mem_cons_of_mem _ this.1, this.2.1, by simp only [List.length_cons]; omega⟩
      · rcases List.mem_cons.1 h with rfl | h
        · simp
        · have := ih (p := p) (by rw [hr]; exact h)
          exact ⟨List.mem_cons_of_mem _ this.1, this.2.1, by simp only [List.length_cons]; omega⟩

/-- The runs written out are the vector. -/
theorem runs_flatten (ys : List Nat) : (runs ys).flatMap (fun p => List.replicate p.2 p.1) = ys := by
  induction ys with
  | nil => rfl
  | cons y ys ih =>
    simp only [runs]
    split
    · rename_i hr; rw [hr] at ih; simp at ih; simp [← ih]
    · rename_i v c rest hr
      rw [hr] at ih
      simp only [List.flatMap_cons] at ih
      split
      · rename_i hvy; subst hvy
        simp only [List.flatMap_cons, List.replicate_succ, List.cons_append, ih]
      · simp only [List.flatMap_cons, ih]; rfl

theorem runs_total (ys : List Nat) : ((runs ys).map (·.2)).sum = ys.length := by
  conv_rhs => rw [← runs_flatten ys]
  rw [List.length_flatMap]
  simp

/-- Adjacent runs have different values: they are maximal. -/
theorem runs_chain (ys : List Nat) : (runs ys).IsChain fun p q => p.1 ≠ q.1 := by
  induction ys with
  | nil => exact .nil
  | cons y ys ih =>
    simp only [runs]
    split
    · exact .singleton _
    · rename_i v c rest hr
      rw [hr] at ih
      split
      · cases rest with
        | nil => exact .singleton _
        | cons q rest => rw [List.isChain_cons_cons] at ih ⊢; exact ih
      · rename_i hne
        exact List.isChain_cons_cons.2 ⟨fun h => hne h.symm, ih⟩

/-! ## The codecs -/

/-- `RbPut(y)` appends the Reduced-Binary code of `y` (R186, R114). -/
theorem Tx.rbPut_appended (hK : K.Legal) {t : Tx} (h : t.WriterInv K) {ch : Channel} (hch : ch.Ok) (y : Nat) :
    t.Appended K (t.rbPut K ch y) (rbBits ch y) := by
  have hW := hK.wordBits_ge
  have hn : ch.nbits.toNat ≤ K.wordBits := by have := hch.nbits; omega
  have hw : ch.width ≤ K.wordBits := by have := ch.width_le; omega
  simp only [Tx.rbPut, rbBits]
  split
  · exact Tx.putBits_appended hK h _ hn
  · have h1 := Tx.putBits_appended hK h (rbSentinel ch) hn
    exact h1.trans hK (Tx.putBits_appended hK h1.inv y hw)

/-- `RlPut` appends the Run-Length code of the vector (R189, R115). -/
theorem Tx.rlPut_appended (hK : K.Legal) {t : Tx} (h : t.WriterInv K) {ys : List Nat}
    (hy : ∀ y ∈ ys, y < 2 ^ K.wordBits) (hlen : ys.length < 2 ^ K.wordBits) :
    t.Appended K (t.rlPut K ys) (rlBits ys) := by
  refine Tx.foldl_appended hK _ (fun p : Nat × Nat => mexpgBits 1 p.1 ++ mexpgBits 1 p.2) _ ?_ h
  intro p hp u hu
  obtain ⟨h1, _, h3⟩ := runs_mem hp
  have ha := Tx.mexpgPut_appended hK hu (hy _ h1) (show 1 ≤ 31 by omega)
  exact ha.trans hK (Tx.mexpgPut_appended hK ha.inv (show p.2 < 2 ^ K.wordBits by omega) (by omega))

/-- The codec in force appends its code of the vector (R192, R198, R121). -/
theorem Tx.codecPut_appended (hK : K.Legal) {t : Tx} (h : t.WriterInv K) {ch : Channel} (hch : ch.Ok)
    {ys : List Nat} (hy : ∀ y ∈ ys, y < 2 ^ ch.width) (hlen : ys.length < 2 ^ K.wordBits) :
    t.Appended K (t.codecPut K ch ys) (codecBits ch ys) := by
  have hW := hK.wordBits_ge
  have hw : ch.width ≤ K.wordBits := by have := ch.width_le; omega
  simp only [Tx.codecPut, codecBits]
  cases ch.alg
  · exact Tx.foldl_appended hK _ _ _ (fun y _ u hu => Tx.putBits_appended hK hu y hw) h
  · exact Tx.foldl_appended hK _ _ _ (fun y _ u hu => Tx.rbPut_appended hK hu hch y) h
  · exact Tx.rlPut_appended hK h (fun y hm => Nat.lt_of_lt_of_le (hy y hm) (Nat.pow_le_pow_right (by omega) hw)) hlen
  · exact Tx.Appended.refl hK h

/-! ## The pipelines -/

theorem Tx.WriterInv.withChans {t : Tx} (h : t.WriterInv K) (cs : List Channel) :
    ({ t with chans := cs } : Tx).WriterInv K := ⟨h.length, h.ptr, h.off, h.fits, h.here, h.beyond, h.bitpos⟩

/-- `EncWords` brings the channel's history forward and appends the code of the vector (R198). -/
theorem Tx.encWords_appended (hK : K.Legal) {t : Tx} (h : t.WriterInv K) {c : Nat} (hc : c < t.chans.length)
    (hch : (channelAt t.chans c).Ok) {rs : List Nat} (hr : ∀ r ∈ rs, r < 2 ^ (channelAt t.chans c).width)
    (hlen : rs.length < 2 ^ K.wordBits) :
    ({ t with chans := t.chans.set c (chanAfter (channelAt t.chans c) rs) } : Tx).Appended K (t.encWords K c rs)
      (vectorBits (channelAt t.chans c) rs) := by
  simp only [Tx.encWords, chanAfter, vectorBits]
  split
  · rename_i ha
    have : t.chans.set c (channelAt t.chans c) = t.chans := by
      rw [channelAt_eq hc]; exact List.set_getElem_self hc
    rw [this]
    simp only [codecBits, ha]
    exact Tx.Appended.refl hK h
  · exact Tx.codecPut_appended hK (h.withChans _) hch (stageOut_lt hr) (by rw [stageOut_length]; exact hlen)

theorem RawMem.read_lt (m : RawMem) (addr n : Nat) : m.read addr n < 2 ^ (8 * n) := by
  have := bytesValue_lt (m.bytes addr n)
  simpa [RawMem.read, RawMem.bytes] using this

theorem readWords_lt (raw : RawMem) (addr nbytes : Nat) {ws : Nat} (hws : 0 < ws) :
    ∀ r ∈ readWords raw addr ws nbytes, r < 2 ^ (8 * ws) := by
  intro r hr
  simp only [readWords, List.mem_append, List.mem_map] at hr
  rcases hr with ⟨i, _, rfl⟩ | hr
  · exact raw.read_lt _ _
  · split at hr
    · simp at hr
    · simp only [List.mem_singleton] at hr
      subst hr
      have := Nat.mod_lt nbytes hws
      exact Nat.lt_of_lt_of_le (raw.read_lt _ _) (Nat.pow_le_pow_right (by omega) (by omega))

theorem readWords_length (raw : RawMem) (addr nbytes : Nat) {ws : Nat} (hws : 0 < ws) :
    (readWords raw addr ws nbytes).length = ceilDiv nbytes ws := by
  have h1 := Nat.div_add_mod nbytes ws
  have h2 := Nat.mod_lt nbytes hws
  simp only [readWords, List.length_append, List.length_map, List.length_range, ceilDiv]
  split
  · rename_i h0
    rw [List.length_nil, Nat.add_zero, show nbytes + ws - 1 = (ws - 1) + ws * (nbytes / ws) by omega,
      Nat.add_mul_div_left _ _ hws, Nat.div_eq_of_lt (show ws - 1 < ws by omega), Nat.zero_add]
  · rename_i h0
    rw [List.length_singleton, show nbytes + ws - 1 = (nbytes % ws - 1) + ws * (nbytes / ws + 1) by
      rw [Nat.mul_add]; omega, Nat.add_mul_div_left _ _ hws, Nat.div_eq_of_lt (show nbytes % ws - 1 < ws by omega),
      Nat.zero_add]

/-- The generator's words: those of the bytes, with zero ghost bytes (R84, R210). -/
theorem readWords_of (raw : RawMem) : WordsOf raw (readWords raw) where
  length _ _ _ hws := readWords_length _ _ _ hws
  lt _ _ _ hws := readWords_lt _ _ _ hws
  byte _ _ _ _ _ hj hin := readWords_byte hj hin

theorem ceilDiv_le_self {n ws : Nat} (hws : 0 < ws) : ceilDiv n ws ≤ n :=
  ceilDiv_le hws (Nat.le_mul_of_pos_right n hws)

/-- `EncVec` codes the words of the vector, taken from the raw memory (R210). -/
theorem Tx.encVec_appended (hK : K.Legal) {t : Tx} (h : t.WriterInv K) {c addr nbytes : Nat}
    (hc : c < t.chans.length) (hch : (channelAt t.chans c).Ok) (hn : nbytes < 2 ^ K.wordBits) :
    ({ t with chans := t.chans.set c (chanAfter (channelAt t.chans c)
        (readWords t.raw addr (channelAt t.chans c).size nbytes)) } : Tx).Appended K (t.encVec K c addr nbytes)
      (vectorBits (channelAt t.chans c) (readWords t.raw addr (channelAt t.chans c).size nbytes)) := by
  have hs := (channelAt t.chans c).size_pos
  refine Tx.encWords_appended hK h hc hch (readWords_lt t.raw addr nbytes hs) ?_
  rw [readWords_length _ _ _ hs]
  exact Nat.lt_of_le_of_lt (ceilDiv_le_self hs) hn

end Sys2Proof.Machine
end

