-- ==== Sys2Proof/Laws/Decoders.lean ====
section
/-! SUPPORT. The decode procedures take back what the encode procedures append, and every other code that R125 lets the decode
side accept (42_codec_primitives.md R187, R190, R193, R199; 44_codec_decode.md R225, R229). -/

namespace Sys2Proof.Machine

variable {K : Config} {α β : Type}

/-- `x` runs out of bits: it ends in `EndOfStream`, where a transfer of at most a word asked for more than is left
(41_bitstream_reader.md R161). -/
def RxM.Cut (K : Config) (x : RxM α) (r : Rx) : Prop :=
  ∃ r' p, x r = .error (endOfStreamAt p) r' ∧ r.bitpos ≤ p ∧ p ≤ r.bitpos + (r.ahead K).length ∧
    r.bitpos + (r.ahead K).length < p + K.wordBits

/-- With `bits` next in the stream, `x` answers `a` and consumes exactly `bits`; where the stream ends inside `bits`, it
runs out of bits. -/
structure RxM.Reads (K : Config) (x : RxM α) (bits : List Bool) (a : α) : Prop where
  takes : ∀ r : Rx, r.ReaderInv K → ∀ rest, r.ahead K = bits ++ rest →
    ∃ r', x r = .ok a r' ∧ r.Consumed K r' bits ∧ r'.ahead K = rest
  cut : ∀ r : Rx, r.ReaderInv K → ∀ more, more ≠ [] → bits = r.ahead K ++ more → x.Cut K r

theorem Rx.Consumed.bitpos_eq {r r' : Rx} {bits : List Bool} (h : r.Consumed K r' bits) :
    r'.bitpos = r.bitpos + bits.length := by have := congrArg Rx.bitpos h.frame; simpa using this

theorem RxM.Cut.bind {x : RxM α} {r : Rx} (h : x.Cut K r) (f : α → RxM β) : RxM.Cut K (x >>= f) r := by
  obtain ⟨r', p, h1, h2⟩ := h
  exact ⟨r', p, by simp only [Bind.bind, EStateM.bind, h1], h2⟩

/-- What comes after `bits` were taken runs out of bits. -/
theorem RxM.Cut.after {x : RxM α} {f : α → RxM β} {r r1 : Rx} {a : α} {bits : List Bool} (h : x r = .ok a r1)
    (hb : r1.bitpos = r.bitpos + bits.length) (ha : r.ahead K = bits ++ r1.ahead K) (hf : (f a).Cut K r1) :
    RxM.Cut K (x >>= f) r := by
  obtain ⟨r', p, h1, h2, h3, h4⟩ := hf
  have hl : (r.ahead K).length = bits.length + (r1.ahead K).length := by rw [ha, List.length_append]
  exact ⟨r', p, by simp only [Bind.bind, EStateM.bind, h, h1], by omega, by omega, by omega⟩

/-- Where the end of a stream lies in two pieces. -/
theorem append_cut {u v a m : List Bool} (h : u ++ v = a ++ m) (hm : m ≠ []) :
    (∃ w, w ≠ [] ∧ u = a ++ w) ∨ ∃ w, a = u ++ w ∧ v = w ++ m := by
  rcases List.append_eq_append_iff.1 h with ⟨w, h1, h2⟩ | ⟨w, h1, h2⟩
  · exact .inr ⟨w, h1, h2⟩
  · by_cases hw : w = []
    · subst hw
      exact .inr ⟨[], by simpa using h1.symm, by simpa using h2.symm⟩
    · exact .inl ⟨w, hw, h1⟩

theorem RxM.Reads.pure (a : α) : RxM.Reads K (Pure.pure a) [] a where
  takes r h _ ha := ⟨r, rfl, Rx.Consumed.refl h, ha⟩
  cut _ _ _ hm h := absurd (List.append_eq_nil_iff.1 h.symm).2 hm

theorem RxM.Reads.bind {x : RxM α} {f : α → RxM β} {u v : List Bool} {a : α} {b : β} (hx : x.Reads K u a)
    (hf : (f a).Reads K v b) : RxM.Reads K (x >>= f) (u ++ v) b where
  takes r h rest ha := by
    rw [List.append_assoc] at ha
    obtain ⟨r1, h1, c1, a1⟩ := hx.takes r h _ ha
    obtain ⟨r2, h2, c2, a2⟩ := hf.takes r1 c1.inv _ a1
    refine ⟨r2, ?_, c1.trans c2, a2⟩
    simp only [Bind.bind, EStateM.bind, h1, h2]
  cut r h more hm he := by
    rcases append_cut he hm with ⟨w, hw, hu⟩ | ⟨w, ha, hv⟩
    · exact (hx.cut r h w hw hu).bind f
    · obtain ⟨r1, h1, c1, a1⟩ := hx.takes r h w ha
      exact RxM.Cut.after h1 c1.bitpos_eq (a1 ▸ ha) (hf.cut r1 c1.inv more hm (a1 ▸ hv))

/-- A field of which not all bits are left. -/
theorem getBits_cut (hK : K.Legal) {n : Nat} (hn : n ≤ K.wordBits) {r : Rx} (h : r.ReaderInv K)
    (hlt : (r.ahead K).length < n) : ∃ r', getBits K n r = .error (endOfStreamAt r.bitpos) r' ∧ r.Touched K r' := by
  rcases getBits_spec hK h hn with ⟨b, r', hl, _, hc⟩ | ⟨_, r', hg, ht, _⟩
  · have := congrArg List.length hc.ahead
    rw [List.length_append] at this
    omega
  · exact ⟨r', hg, ht⟩

theorem getBits_reads (hK : K.Legal) {n : Nat} (hn : n ≤ K.wordBits) (v : Nat) :
    (getBits K n).Reads K (fieldBits n v) (v % 2 ^ n) where
  takes r h rest ha := by
    obtain ⟨r', h1, h2, h3⟩ := getBits_field hK h (by rw [fieldBits_length]; exact hn) ha
    rw [fieldBits_length, bitsValue_fieldBits] at h1
    exact ⟨r', h1, h2, h3⟩
  cut r h more hm he := by
    have hl := congrArg List.length he
    rw [fieldBits_length, List.length_append] at hl
    have := List.length_pos_of_ne_nil hm
    obtain ⟨r', hg, _⟩ := getBits_cut hK hn h (by omega)
    exact ⟨r', r.bitpos, hg, by omega, by omega, by omega⟩

theorem getBits_reads_lt (hK : K.Legal) {n v : Nat} (hn : n ≤ K.wordBits) (hv : v < 2 ^ n) :
    (getBits K n).Reads K (fieldBits n v) v := by
  have := getBits_reads hK hn v; rwa [Nat.mod_eq_of_lt hv] at this

theorem getUnary_reads (hK : K.Legal) {v : Nat} (hv : v ≤ K.unaryMax) : (getUnary K).Reads K (unaryBits v) v where
  takes _ h _ ha := getUnary_code hK hv h ha
  cut r h more hm he := by
    have hW := hK.wordBits_pos
    rcases append_cut he hm with ⟨w, hw, hu⟩ | ⟨w, ha, hw⟩
    · obtain ⟨h1, h2⟩ := List.append_eq_replicate_iff.1 hu.symm |>.2
      have hl := congrArg List.length hu
      rw [List.length_replicate, List.length_append] at hl
      obtain ⟨r', hg, _⟩ := getUnaryFrom_end hK K.unaryMax 0 _ (by omega) h h1
      exact ⟨r', _, hg, by omega, by omega, by omega⟩
    · cases w with
      | nil =>
        rw [List.append_nil] at ha
        obtain ⟨r', hg, _⟩ := getUnaryFrom_end hK K.unaryMax 0 v hv h ha
        have hl := congrArg List.length ha
        rw [List.length_replicate] at hl
        exact ⟨r', _, hg, by omega, by omega, by omega⟩
      | cons b w =>
        have := congrArg List.length hw
        simp only [List.length_cons, List.length_nil, List.length_append] at this
        have := List.length_pos_of_ne_nil hm
        omega

/-- `MexpgGet(k)` takes back the code of a number of at most a word (R184). -/
theorem mexpgGet_reads (hK : K.Legal) {u k : Nat} (hu : u < 2 ^ K.wordBits) (hk : k ≤ 31) :
    (mexpgGet K k).Reads K (mexpgBits k u) u where
  takes _ h _ ha := mexpgGet_code hK hu hk h ha
  cut r h more hm he := by
    have hW := hK.wordBits_ge
    have hb := bitSize_le hu
    have hmax := hK.unaryMax
    rw [mexpgBits] at he
    split at he
    · rename_i hlt
      refine ((getUnary_reads hK (show bitSize u - k ≤ K.unaryMax by omega)).bind
        (b := u % 2 ^ (bitSize u - 1) ||| 2 ^ (bitSize u - k + k - 1)) ?_).cut r h more hm he
      rw [if_neg (by omega), if_neg (by omega), show bitSize u - k + k - 1 = bitSize u - 1 by omega,
        ← List.append_nil (fieldBits _ _)]
      refine (getBits_reads hK (by omega) _).bind ?_
      rw [Nat.mod_mod]
      exact RxM.Reads.pure _
    · refine ((getUnary_reads hK (Nat.zero_le _)).bind (b := u % 2 ^ k) ?_).cut r h more hm he
      rw [if_pos rfl]
      exact getBits_reads hK (by omega) u

/-! ## The codecs -/

/-- Words coded one after the other by their first codes. -/
theorem WordsCoded.flatMap {code : Nat → List Bool → Prop} {bits : Nat → List Bool} (h : ∀ y, code y (bits y)) :
    ∀ ys : List Nat, WordsCoded code ys (ys.flatMap bits)
  | [] => rfl
  | y :: ys => ⟨bits y, ys.flatMap bits, h y, WordsCoded.flatMap h ys, rfl⟩

/-- The generator's code of a vector is one of those the decode side accepts (R125). -/
theorem codecBits_coded (ch : Channel) (ys : List Nat) : CodecCoded ch ys (codecBits ch ys) := by
  simp only [CodecCoded, codecBits]
  cases ch.alg
  · rfl
  · exact WordsCoded.flatMap (fun _ => .inl rfl) ys
  · exact ⟨runs ys, fun _ hp => (runs_mem hp).2.1, runs_flatten ys, rfl⟩
  · rfl

theorem vectorBits_coded (ch : Channel) (rs : List Nat) : VectorCoded ch rs (vectorBits ch rs) := codecBits_coded ..

/-- `RbGet` takes back either Reduced-Binary code (R187). -/
theorem rbGet_reads (hK : K.Legal) {ch : Channel} (hch : ch.Ok) (hcd : ch.nbits.toNat ≤ ch.width) {y : Nat}
    (hy : y < 2 ^ ch.width) {bits : List Bool} (hb : RbCoded ch y bits) : (rbGet K ch).Reads K bits y := by
  have hW := hK.wordBits_ge
  have hw : ch.width ≤ K.wordBits := by have := ch.width_le; omega
  have hn : ch.nbits.toNat ≤ K.wordBits := by omega
  have hpos := Nat.two_pow_pos ch.nbits.toNat
  have hesc : (rbGet K ch).Reads K (fieldBits ch.nbits.toNat (rbSentinel ch) ++ fieldBits ch.width y) y := by
    refine (getBits_reads_lt hK hn (v := rbSentinel ch) (by simp only [rbSentinel]; omega)).bind ?_
    rw [if_pos rfl]
    exact getBits_reads_lt hK hw hy
  rcases hb with rfl | rfl
  · rw [rbBits]
    split
    · rename_i hd
      have hlt : subMod ch.width y (ch.offset.toNat % 2 ^ ch.width) < 2 ^ ch.nbits.toNat := by
        simp only [rbSentinel] at hd; omega
      rw [← List.append_nil (fieldBits _ _)]
      refine (getBits_reads_lt hK hn hlt).bind ?_
      rw [if_neg (by omega), addMod_subMod hy]
      exact RxM.Reads.pure y
    · exact hesc
  · exact hesc

theorem repeatGet_reads {get1 : RxM Nat} {code : Nat → List Bool → Prop} {ys : List Nat} {bits : List Bool}
    (h : ∀ y ∈ ys, ∀ b, code y b → get1.Reads K b y) (hb : WordsCoded code ys bits) :
    (repeatGet get1 ys.length).Reads K bits ys := by
  induction ys generalizing bits with
  | nil => cases hb; exact RxM.Reads.pure []
  | cons y ys ih =>
    obtain ⟨u, v, hu, hv, rfl⟩ := hb
    have h1 := h y (List.mem_cons_self ..) u hu
    have h2 := ih (fun z hz => h z (List.mem_cons_of_mem _ hz)) hv
    have h3 : RxM.Reads K (repeatGet get1 ys.length >>= fun zs => pure (y :: zs)) (v ++ []) (y :: ys) :=
      h2.bind (RxM.Reads.pure (y :: ys))
    rw [List.append_nil] at h3
    exact h1.bind h3

theorem rlGetFrom_reads (hK : K.Legal) {w : Nat} (hw : w ≤ K.wordBits) (ps : List (Nat × Nat)) (fuel left : Nat)
    (hps : ∀ p ∈ ps, p.1 < 2 ^ w ∧ 1 ≤ p.2) (hleft : (ps.map (·.2)).sum = left) (hfuel : left ≤ fuel)
    (hlt : left < 2 ^ K.wordBits) :
    (rlGetFrom K w fuel left).Reads K (pairsBits ps)
      (ps.flatMap fun p => List.replicate p.2 p.1) := by
  induction ps generalizing fuel left with
  | nil =>
    simp only [List.map_nil, List.sum_nil] at hleft
    subst hleft
    cases fuel <;> exact RxM.Reads.pure []
  | cons p ps ih =>
    obtain ⟨h1, h2⟩ := hps p (List.mem_cons_self ..)
    simp only [List.map_cons, List.sum_cons] at hleft
    obtain ⟨fuel, rfl⟩ : ∃ f, fuel = f + 1 := ⟨fuel - 1, by omega⟩
    have ih' := ih fuel (left - p.2) (fun q hq => hps q (List.mem_cons_of_mem _ hq)) (by omega) (by omega) (by omega)
    have hv := mexpgGet_reads hK (u := p.1) (k := 1)
      (Nat.lt_of_lt_of_le h1 (Nat.pow_le_pow_right (by omega) hw)) (by omega)
    have hc := mexpgGet_reads hK (u := p.2) (k := 1) (by omega) (by omega)
    rw [rlGetFrom, if_neg (by omega), pairsBits, List.flatMap_cons, List.flatMap_cons, List.append_assoc]
    refine hv.bind ?_
    rw [if_neg (by omega)]
    refine hc.bind ?_
    rw [if_neg (by omega)]
    have := ih'.bind (f := fun rest => pure (List.replicate p.2 p.1 ++ rest)) (RxM.Reads.pure _)
    rwa [List.append_nil] at this

/-- `RlGet` takes back any Run-Length code (R190). -/
theorem rlGet_reads (hK : K.Legal) {w : Nat} (hw : w ≤ K.wordBits) {ys : List Nat} (hy : ∀ y ∈ ys, y < 2 ^ w)
    (hlen : ys.length < 2 ^ K.wordBits) {bits : List Bool} (hb : RlCoded ys bits) :
    (rlGet K w ys.length).Reads K bits ys := by
  obtain ⟨ps, hpos, rfl, rfl⟩ := hb
  have hsum : (ps.map (·.2)).sum = (ps.flatMap fun p => List.replicate p.2 p.1).length := by
    rw [List.length_flatMap]; simp
  refine rlGetFrom_reads hK hw ps _ _ (fun p hp => ⟨hy _ ?_, hpos p hp⟩) hsum (le_refl _) hlen
  exact List.mem_flatMap.2 ⟨p, hp, List.mem_replicate.2 ⟨by have := hpos p hp; omega, rfl⟩⟩

/-- The codec in force takes back any of its codes (R199, R121, R125). -/
theorem codecGet_reads (hK : K.Legal) {ch : Channel} (hch : ch.Ok) (hcd : ch.Codable) (hna : ch.alg ≠ .constant)
    {ys : List Nat} (hy : ∀ y ∈ ys, y < 2 ^ ch.width) (hlen : ys.length < 2 ^ K.wordBits) {bits : List Bool}
    (hb : CodecCoded ch ys bits) : (codecGet K ch ys.length).Reads K bits ys := by
  have hW := hK.wordBits_ge
  have hw : ch.width ≤ K.wordBits := by have := ch.width_le; omega
  simp only [codecGet, CodecCoded] at hb ⊢
  cases ha : ch.alg <;> rw [ha] at hb
  · subst hb
    exact repeatGet_reads (code := fun y b => b = fieldBits ch.width y)
      (fun y hm b hb => hb ▸ getBits_reads_lt hK hw (hy y hm)) (WordsCoded.flatMap (code := fun y b => b = fieldBits ch.width y)
        (fun _ => rfl) ys)
  · exact repeatGet_reads (fun y hm b hb => rbGet_reads hK hch (hcd.nbits ha) (hy y hm) hb) hb
  · exact rlGet_reads hK hw hy hlen hb
  · exact absurd ha hna

/-! ## The pipelines -/

theorem decoded_length (ch : Channel) (rs : List Nat) : (decoded ch rs).length = rs.length := by
  unfold decoded; split <;> simp

theorem Rx.ReaderInv.withChans {r : Rx} (h : r.ReaderInv K) (cs : List Channel) :
    ({ r with chans := cs } : Rx).ReaderInv K :=
  ⟨h.length, h.count, h.empty, h.ptr, h.off, h.emptyOff, h.fits, h.whole, h.bitpos, h.srcpos⟩

theorem Rx.ReaderInv.withRaw {r : Rx} (h : r.ReaderInv K) (m : RawMem) : ({ r with raw := m } : Rx).ReaderInv K :=
  ⟨h.length, h.count, h.empty, h.ptr, h.off, h.emptyOff, h.fits, h.whole, h.bitpos, h.srcpos⟩

theorem Rx.Consumed.withChans {r r' : Rx} {bits : List Bool} (h : r.Consumed K r' bits) (cs : List Channel) :
    ({ r with chans := cs } : Rx).Consumed K { r' with chans := cs } bits :=
  ⟨⟨congrArg (fun x : Rx => { x with chans := cs }) h.frame, h.ahead, h.pulled, h.inv.withChans cs⟩, h.filled, h.eof⟩

theorem Rx.Consumed.withRaw {r r' : Rx} {bits : List Bool} (h : r.Consumed K r' bits) (m : RawMem) :
    ({ r with raw := m } : Rx).Consumed K { r' with raw := m } bits :=
  ⟨⟨congrArg (fun x : Rx => { x with raw := m }) h.frame, h.ahead, h.pulled, h.inv.withRaw m⟩, h.filled, h.eof⟩

/-- `DecWords` on a code of `rs` under the same channel context answers `rs` (for Constant, its word) and brings the
history forward as the encode side did (R199, R229). -/
theorem decWords_reads (hK : K.Legal) {r : Rx} (h : r.ReaderInv K) {c : Nat} (hc : c < r.chans.length)
    (hch : (channelAt r.chans c).Ok) (hcd : (channelAt r.chans c).Codable) {rs : List Nat}
    (hr : ∀ x ∈ rs, x < 2 ^ (channelAt r.chans c).width) (hlen : rs.length < 2 ^ K.wordBits) {bits rest : List Bool}
    (hb : VectorCoded (channelAt r.chans c) rs bits) (ha : r.ahead K = bits ++ rest) :
    ∃ r', decWords K c rs.length r = .ok (decoded (channelAt r.chans c) rs) r' ∧
      ({ r with chans := r.chans.set c (chanAfter (channelAt r.chans c) rs) } : Rx).Consumed K r' bits ∧
      r'.ahead K = rest := by
  generalize hx : channelAt r.chans c = ch at *
  simp only [decWords, decoded, chanAfter, VectorCoded] at *
  simp only [bind, EStateM.bind, get, MonadState.get, getThe, MonadStateOf.get, EStateM.get, hx]
  by_cases hna : ch.alg = .constant
  · have : r.chans.set c ch = r.chans := by
      rw [← hx, channelAt_eq hc]; exact List.set_getElem_self hc
    simp only [if_pos hna, this]
    simp only [CodecCoded, hna] at hb
    subst hb
    exact ⟨r, rfl, Rx.Consumed.refl h, ha⟩
  · simp only [if_neg hna]
    have hs := stageOut_length ch rs
    obtain ⟨r1, h1, c1, a1⟩ := (codecGet_reads hK hch hcd hna (stageOut_lt hr) (by rw [hs]; exact hlen) hb).takes r h rest ha
    rw [hs] at h1
    have hback := stageIn_stageOut hcd.rot hr
    refine ⟨{ r1 with chans := r.chans.set c (stageOut ch rs).2 }, ?_, c1.withChans _, a1⟩
    have hch1 : r1.chans = r.chans := by have := congrArg Rx.chans c1.frame; simpa using this
    simp only [EStateM.bind, h1, modify, modifyGet, MonadStateOf.modifyGet, EStateM.modifyGet, hback, hch1]
    rfl

/-- `DecWords` where the stream ends inside the code (R161, R230). -/
theorem decWords_cut (hK : K.Legal) {r : Rx} (h : r.ReaderInv K) {c : Nat} (hch : (channelAt r.chans c).Ok)
    (hcd : (channelAt r.chans c).Codable) {rs : List Nat} (hr : ∀ x ∈ rs, x < 2 ^ (channelAt r.chans c).width)
    (hlen : rs.length < 2 ^ K.wordBits) {bits more : List Bool} (hb : VectorCoded (channelAt r.chans c) rs bits)
    (hm : more ≠ []) (he : bits = r.ahead K ++ more) : RxM.Cut K (decWords K c rs.length) r := by
  have hna : (channelAt r.chans c).alg ≠ .constant := fun ha => by
    simp only [VectorCoded, CodecCoded, ha] at hb
    exact hm (List.append_eq_nil_iff.1 (he.symm.trans hb)).2
  have hs := stageOut_length (channelAt r.chans c) rs
  have h1 := (codecGet_reads hK hch hcd hna (stageOut_lt hr) (by rw [hs]; exact hlen) hb).cut r h more hm he
  rw [hs] at h1
  obtain ⟨r', p, hg, hp⟩ := h1
  refine ⟨r', p, ?_, hp⟩
  simp only [decWords, bind, EStateM.bind, get, MonadState.get, getThe, MonadStateOf.get, EStateM.get, if_neg hna, hg]

/-- `DecVec` on a code of `rs`: the words go to raw memory (R225). -/
theorem decVec_reads (hK : K.Legal) {r : Rx} (h : r.ReaderInv K) {c addr nbytes : Nat} (hc : c < r.chans.length)
    (hch : (channelAt r.chans c).Ok) (hcd : (channelAt r.chans c).Codable) {rs : List Nat}
    (hr : ∀ x ∈ rs, x < 2 ^ (channelAt r.chans c).width) (hrl : rs.length = ceilDiv nbytes (channelAt r.chans c).size)
    (hn : nbytes < 2 ^ K.wordBits) {bits rest : List Bool} (hb : VectorCoded (channelAt r.chans c) rs bits)
    (ha : r.ahead K = bits ++ rest) :
    ∃ r', decVec K c addr nbytes r = .ok () r' ∧
      ({ r with
          chans := r.chans.set c (chanAfter (channelAt r.chans c) rs)
          raw := writeWords r.raw addr (channelAt r.chans c).size nbytes (decoded (channelAt r.chans c) rs) } : Rx).Consumed
        K r' bits ∧ r'.ahead K = rest := by
  have hs := (channelAt r.chans c).size_pos
  have hlen : rs.length < 2 ^ K.wordBits := by rw [hrl]; exact Nat.lt_of_le_of_lt (ceilDiv_le_self hs) hn
  obtain ⟨r1, h1, c1, a1⟩ := decWords_reads hK h hc hch hcd hr hlen hb ha
  rw [hrl] at h1
  have hraw : r1.raw = r.raw := by have := congrArg Rx.raw c1.frame; simpa using this
  refine ⟨{ r1 with raw := writeWords r.raw addr (channelAt r.chans c).size nbytes (decoded (channelAt r.chans c) rs) },
    ?_, c1.withRaw _, a1⟩
  simp only [decVec, bind, EStateM.bind, get, MonadState.get, getThe, MonadStateOf.get, EStateM.get, h1, modify,
    modifyGet, MonadStateOf.modifyGet, EStateM.modifyGet, hraw]

end Sys2Proof.Machine
end

