-- ==== Sys2Proof/Laws/Encoding.lean ====
section
/-! SUPPORT. The fields of the command words the encoder builds (30_encoding.md R101, R102). -/

namespace Sys2Proof

/-- A byte has no bit at or beyond place 8. -/
theorem Byte.getLsbD_high (op : Byte) {i : Nat} (h : 8 ≤ i) : op.getLsbD i = false := op.getLsbD_of_ge i h

section Fields

variable (op n : Byte) (ch : BitVec 16)

@[simp] theorem cwZ_op : (cwZ op).extractLsb' 0 8 = op := by
  refine BitVec.eq_of_getLsbD_eq fun i hi => ?_
  rw [cwZ, BitVec.getLsbD_extractLsb', BitVec.getLsbD_setWidth]
  simp [hi, show i < 32 by omega]

@[simp] theorem cwZ_n : (cwZ op).extractLsb' 8 8 = 0 := by
  refine BitVec.eq_of_getLsbD_eq fun i hi => ?_
  rw [cwZ, BitVec.getLsbD_extractLsb', BitVec.getLsbD_setWidth, Byte.getLsbD_high op (by omega)]
  simp

@[simp] theorem cwZ_ch : (cwZ op).extractLsb' 16 16 = 0 := by
  refine BitVec.eq_of_getLsbD_eq fun i hi => ?_
  rw [cwZ, BitVec.getLsbD_extractLsb', BitVec.getLsbD_setWidth, Byte.getLsbD_high op (by omega)]
  simp

@[simp] theorem cwN_op : (cwN op n).extractLsb' 0 8 = op := by
  refine BitVec.eq_of_getLsbD_eq fun i hi => ?_
  rw [cwN, BitVec.getLsbD_extractLsb', BitVec.getLsbD_or, BitVec.getLsbD_shiftLeft, BitVec.getLsbD_setWidth]
  simp [hi, show i < 32 by omega]

@[simp] theorem cwN_n : (cwN op n).extractLsb' 8 8 = n := by
  refine BitVec.eq_of_getLsbD_eq fun i hi => ?_
  rw [cwN, BitVec.getLsbD_extractLsb', BitVec.getLsbD_or, BitVec.getLsbD_shiftLeft, BitVec.getLsbD_setWidth,
    BitVec.getLsbD_setWidth, Byte.getLsbD_high op (by omega)]
  simp [hi, show 8 + i < 32 by omega, show i < 32 by omega]

@[simp] theorem cwN_ch : (cwN op n).extractLsb' 16 16 = 0 := by
  refine BitVec.eq_of_getLsbD_eq fun i hi => ?_
  rw [cwN, BitVec.getLsbD_extractLsb', BitVec.getLsbD_or, BitVec.getLsbD_shiftLeft, BitVec.getLsbD_setWidth,
    BitVec.getLsbD_setWidth, Byte.getLsbD_high op (by omega), Byte.getLsbD_high n (by omega)]
  simp

@[simp] theorem cwC_op : (cwC op ch).extractLsb' 0 8 = op := by
  refine BitVec.eq_of_getLsbD_eq fun i hi => ?_
  rw [cwC, BitVec.getLsbD_extractLsb', BitVec.getLsbD_or, BitVec.getLsbD_shiftLeft, BitVec.getLsbD_setWidth]
  simp [hi, show i < 32 by omega, show i < 16 by omega]

@[simp] theorem cwC_n : (cwC op ch).extractLsb' 8 8 = 0 := by
  refine BitVec.eq_of_getLsbD_eq fun i hi => ?_
  rw [cwC, BitVec.getLsbD_extractLsb', BitVec.getLsbD_or, BitVec.getLsbD_shiftLeft, BitVec.getLsbD_setWidth,
    Byte.getLsbD_high op (by omega)]
  simp [hi, show 8 + i < 16 by omega]

@[simp] theorem cwC_ch : (cwC op ch).extractLsb' 16 16 = ch := by
  refine BitVec.eq_of_getLsbD_eq fun i hi => ?_
  rw [cwC, BitVec.getLsbD_extractLsb', BitVec.getLsbD_or, BitVec.getLsbD_shiftLeft, BitVec.getLsbD_setWidth,
    BitVec.getLsbD_setWidth, Byte.getLsbD_high op (by omega)]
  simp [hi, show 16 + i < 32 by omega, show i < 32 by omega]

/-- The bits of the opcode byte stand where they stood (R101). -/
theorem cwZ_low {i : Nat} (h : i < 8) : (cwZ op).getLsbD i = op.getLsbD i := by
  rw [cwZ, BitVec.getLsbD_setWidth]; simp [show i < 32 by omega]

theorem cwN_low {i : Nat} (h : i < 8) : (cwN op n).getLsbD i = op.getLsbD i := by
  rw [cwN, BitVec.getLsbD_or, BitVec.getLsbD_shiftLeft, BitVec.getLsbD_setWidth]; simp [h, show i < 32 by omega]

theorem cwC_low {i : Nat} (h : i < 8) : (cwC op ch).getLsbD i = op.getLsbD i := by
  rw [cwC, BitVec.getLsbD_or, BitVec.getLsbD_shiftLeft, BitVec.getLsbD_setWidth]
  simp [show i < 16 by omega, show i < 32 by omega]

end Fields

/-- A command word is its three fields (R101). -/
theorem cw_fields {cw w : U32} (h0 : cw.extractLsb' 0 8 = w.extractLsb' 0 8)
    (h1 : cw.extractLsb' 8 8 = w.extractLsb' 8 8) (h2 : cw.extractLsb' 16 16 = w.extractLsb' 16 16) : cw = w := by
  refine BitVec.eq_of_getLsbD_eq fun i hi => ?_
  by_cases h8 : i < 8
  · simpa [h8] using congrArg (·.getLsbD i) h0
  · by_cases h16 : i < 16
    · have := congrArg (·.getLsbD (i - 8)) h1
      simpa [show i - 8 < 8 by omega, show 8 + (i - 8) = i by omega] using this
    · have := congrArg (·.getLsbD (i - 16)) h2
      simpa [show i - 16 < 16 by omega, show 16 + (i - 16) = i by omega] using this

/-- `B` of a well-formed command is not cut when it is latched (R106). -/
theorem Machine.narrowed_of_fits {K : Config} {c : Command} (h : Word.fits K c.b = true) : Machine.narrowed K c = c := by
  cases c with | mk cw a b =>
  simp only [Machine.narrowed, Word.fits, decide_eq_true_eq] at *
  rw [Nat.mod_eq_of_lt h]
  simp

end Sys2Proof
end

