-- ==== Sys2Proof/Laws/Generator.lean ====
section
/-! SUPPORT. What the generator's procedures append (45_container_generator.md R245 to R253): each is the format of
30_encoding.md R116 to R121, and a section's frame data is the list of its vectors. -/

namespace Sys2Proof.Machine

variable {K : Config}

/-- The engine `q` with the writer's registers and the sink of `t`. -/
def Tx.withWriter (q t : Tx) : Tx :=
  { q with wbuf := t.wbuf, wptr := t.wptr, woff := t.woff, bitpos := t.bitpos, sunk := t.sunk, sink := t.sink }

theorem Tx.WriterInv.rebase {t : Tx} (h : t.WriterInv K) (q : Tx) : (q.withWriter t).WriterInv K :=
  ⟨h.length, h.ptr, h.off, h.fits, h.here, h.beyond, h.bitpos⟩

/-- The invariants and the appended bits are matters of the writer's registers and the sink alone. -/
theorem Tx.Appended.rebase {t t' : Tx} {bits : List Bool} (h : t.Appended K t' bits) (q : Tx) :
    (q.withWriter t).Appended K (q.withWriter t') bits :=
  ⟨⟨congrArg q.withWriter h.frame, h.stream, h.sink, h.sunk, h.inv.rebase q⟩, h.sent⟩

theorem Tx.Extended.withWriter_eq {t t' : Tx} {bits : List Bool} (h : t.Extended K t' bits) :
    t.withWriter t' = t' := by
  have := h.frame
  rw [← h.bitpos_eq] at this
  exact this.symm

theorem Tx.Appended.cast {t t' : Tx} {a b : List Bool} (h : t.Appended K t' a) (e : a = b) : t.Appended K t' b := e ▸ h

theorem Tx.Extended.chans_eq {t t' : Tx} {bits : List Bool} (h : t.Extended K t' bits) : t'.chans = t.chans := by
  have := congrArg Tx.chans h.frame; simpa using this

theorem Tx.Extended.raw_eq {t t' : Tx} {bits : List Bool} (h : t.Extended K t' bits) : t'.raw = t.raw := by
  have := congrArg Tx.raw h.frame; simpa using this

theorem Tx.Extended.flags_eq {t t' : Tx} {bits : List Bool} (h : t.Extended K t' bits) : t'.flags = t.flags := by
  have := congrArg Tx.flags h.frame; simpa using this

theorem Tx.Appended.ifThen (hK : K.Legal) {t : Tx} (h : t.WriterInv K) {c : Bool} {f : Tx → Tx} {bits : List Bool}
    (hf : c = true → t.Appended K (f t) bits) :
    t.Appended K (if c then f t else t) (if c then bits else []) := by
  cases c
  · exact Tx.Appended.refl hK h
  · exact hf rfl

/-! ## Headers -/

/-- The file header (R246, R116). -/
theorem Tx.putFileHeader_appended (hK : K.Legal) {t : Tx} (h : t.WriterInv K) :
    t.Appended K (t.putFileHeader K) (headerBits K t.flags t.mtime t.rawSize t.name) := by
  have hW := hK.wordBits_ge
  simp only [Tx.putFileHeader, headerBits]
  have h1 := Tx.putBits_appended hK h K.magic0.toNat (show 8 ≤ K.wordBits by omega)
  have h2 := h1.trans hK (Tx.putBits_appended hK h1.inv K.magic1.toNat (show 8 ≤ K.wordBits by omega))
  have h3 := h2.trans hK (Tx.putBits_appended hK h2.inv t.mtime.toNat (show 32 ≤ K.wordBits by omega))
  have h4 := h3.trans hK (Tx.putBits_appended hK h3.inv t.flags.toNat (show 8 ≤ K.wordBits by omega))
  have h5 := h4.trans hK (Tx.Appended.ifThen hK (c := flagSize t.flags) h4.inv fun _ =>
    Tx.putBits_appended hK h4.inv t.rawSize.toNat (show 32 ≤ K.wordBits by omega))
  have h6 := h5.trans hK (Tx.Appended.ifThen hK (c := flagName t.flags) h5.inv fun _ =>
    Tx.putBytes_appended hK (nameField t.name) h5.inv)
  exact h6.trans hK (Tx.Appended.ifThen hK (c := flagXtra t.flags) h6.inv fun _ =>
    Tx.putBits_appended hK h6.inv 0 (show 16 ≤ K.wordBits by omega))

/-- One channel of a section header (R247, R119, R120). -/
theorem Tx.putChanHeader_appended (hK : K.Legal) {t : Tx} (h : t.WriterInv K) (withReps : Bool) (ch : Channel) :
    t.Appended K (t.putChanHeader K withReps ch) (chanHeaderBits K withReps ch) := by
  have hW := hK.wordBits_ge
  have hr := hK.repsBits
  have hn := hK.nbitsBits
  have ha := hK.algBits
  have ht := hK.typeBits
  have hw : ch.width ≤ K.wordBits := by have := ch.width_le; omega
  simp only [Tx.putChanHeader, chanHeaderBits, paramBits]
  have h1 := Tx.Appended.ifThen hK (c := withReps) h fun _ =>
    Tx.putBits_appended hK h ch.reps.toNat (show K.repsBits ≤ K.wordBits by omega)
  have h2 := h1.trans hK (Tx.putBits_appended hK h1.inv (bit ch.delta) (show 1 ≤ K.wordBits by omega))
  have h3 := h2.trans hK (Tx.putBits_appended hK h2.inv ch.rot.toNat (show K.nbitsBits ≤ K.wordBits by omega))
  have h4 := h3.trans hK (Tx.putBits_appended hK h3.inv ch.alg.code (show K.algBits ≤ K.wordBits by omega))
  have h5 := h4.trans hK (Tx.putBits_appended hK h4.inv ch.dtype.code (show K.typeBits ≤ K.wordBits by omega))
  cases hal : ch.alg <;> simp only [hal] at h5 ⊢
  · simpa using h5
  · have h6 := h5.trans hK (Tx.putBits_appended hK h5.inv (ch.offset.toNat % 2 ^ ch.width) hw)
    have h7 := h6.trans hK (Tx.putBits_appended hK h6.inv (ch.nbits.toNat - 1) (show K.nbitsBits ≤ K.wordBits by omega))
    simpa [List.append_assoc] using h7
  · simpa using h5
  · exact h5.trans hK (Tx.putBits_appended hK h5.inv (ch.const.toNat % 2 ^ ch.width) hw)

/-- The padding, the section header and the padding after it (R247). -/
theorem Tx.putSectionHeader_appended (hK : K.Legal) {t : Tx} (h : t.WriterInv K) (len : Nat) :
    let head := padBits t.bitpos ++ sectionHeaderBits K t.flags t.chans len
    ({ t with gstate := .sectionOpen } : Tx).Appended K (t.putSectionHeader K len)
      (head ++ padBits (t.bitpos + head.length)) := by
  intro head
  have hW := hK.wordBits_ge
  have hs := hK.sectSizeBits
  have hc := hK.numChanBits
  have h1 := Tx.putWindup_appended hK h
  have h2 := h1.trans hK (Tx.putBits_appended hK h1.inv len (show K.sectSizeBits ≤ K.wordBits by omega))
  have h3 : t.Appended K (if flagOneChan t.flags then Tx.putBits K len K.sectSizeBits (Tx.putWindup K t)
      else Tx.putBits K t.chans.length K.numChanBits (Tx.putBits K len K.sectSizeBits (Tx.putWindup K t)))
      (padBits t.bitpos ++ fieldBits K.sectSizeBits len ++
        (if flagOneChan t.flags then [] else fieldBits K.numChanBits t.chans.length)) := by
    split
    · simpa using h2
    · exact h2.trans hK (Tx.putBits_appended hK h2.inv t.chans.length (show K.numChanBits ≤ K.wordBits by omega))
  have h4 := h3.trans hK (Tx.foldl_appended hK _ (chanHeaderBits K (repsPresent t.flags t.chans.length)) t.chans
    (fun ch _ u hu => Tx.putChanHeader_appended hK hu (repsPresent t.flags t.chans.length) ch) h3.inv)
  have h5 := h4.trans hK (Tx.putWindup_appended hK h4.inv)
  rw [h4.bitpos_eq] at h5
  have hbits : padBits t.bitpos ++ fieldBits K.sectSizeBits len ++
      (if flagOneChan t.flags then [] else fieldBits K.numChanBits t.chans.length) ++
      t.chans.flatMap (chanHeaderBits K (repsPresent t.flags t.chans.length)) = head := by
    simp only [head, sectionHeaderBits, List.append_assoc]
  rw [hbits] at h5
  have h6 := h5.withWriter_eq
  have h7 := h5.rebase { t with gstate := .sectionOpen }
  simp only [Tx.putSectionHeader]
  generalize Tx.putWindup K (List.foldl _ _ _) = v at h6 h7 ⊢
  have h8 : ({ t with gstate := .sectionOpen } : Tx).withWriter v = { v with gstate := .sectionOpen } := by
    conv_rhs => rw [← h6]
    rfl
  rw [h8] at h7
  exact h7

/-! ## The frame layout -/

theorem Channel.share_pos {ch : Channel} (h : ch.Ok) : 0 < ch.share := by
  have h1 := ch.size_pos
  have h2 : ch.reps.toNat ≠ 0 := fun h0 => h.reps (BitVec.eq_of_toNat_eq (by simpa using h0))
  exact Nat.mul_pos (by omega) h1

theorem chanAfter_share (ch : Channel) (rs : List Nat) : (chanAfter ch rs).share = ch.share := by
  rw [chanAfter_eq]; rfl

theorem frameSize_congr {cs ds : List Channel} (h : cs.map Channel.share = ds.map Channel.share) :
    frameSize cs = frameSize ds := by simp only [frameSize, h]

theorem frameOffset_congr {cs ds : List Channel} (h : cs.map Channel.share = ds.map Channel.share) (c : Nat) :
    frameOffset cs c = frameOffset ds c := by
  apply frameSize_congr
  rw [List.map_take, List.map_take, h]

theorem share_congr {cs ds : List Channel} (h : cs.map Channel.share = ds.map Channel.share) (c : Nat) :
    (channelAt cs c).share = (channelAt ds c).share := by
  have : ∀ es : List Channel, (channelAt es c).share = ((es.map Channel.share)[c]?).getD (default : Channel).share := by
    intro es
    simp only [channelAt, List.getD_eq_getElem?_getD, List.getElem?_map]
    cases es[c]? <;> rfl
  rw [this, this, h]

theorem partialVectors_congr {cs ds : List Channel} (h : cs.map Channel.share = ds.map Channel.share)
    (base c rem : Nat) : partialVectors base c cs rem = partialVectors base c ds rem := by
  induction cs generalizing ds base c rem with
  | nil => cases ds <;> simp_all [partialVectors]
  | cons x xs ih =>
    cases ds with
    | nil => simp at h
    | cons y ys =>
      simp only [List.map_cons, List.cons.injEq] at h
      simp only [partialVectors, h.1]
      split
      · rfl
      · rw [ih h.2]

theorem frameVectors_congr {cs ds : List Channel} (h : cs.map Channel.share = ds.map Channel.share) (base : Nat) :
    frameVectors base cs = frameVectors base ds := by
  simp only [frameVectors, partialVectors_congr h, frameSize_congr h]

theorem map_share_set {cs : List Channel} {c : Nat} {ch : Channel} (hc : c < cs.length)
    (h : ch.share = (channelAt cs c).share) : (cs.set c ch).map Channel.share = cs.map Channel.share := by
  rw [List.map_set, h, channelAt_eq hc, ← List.getElem_map (f := Channel.share) (h := by simpa using hc)]
  exact List.set_getElem_self _

theorem frameOffset_succ {cs : List Channel} {c : Nat} (hc : c < cs.length) :
    frameOffset cs (c + 1) = frameOffset cs c + (channelAt cs c).share := by
  simp only [frameOffset, frameSize, List.take_succ_eq_append_getElem hc, List.map_append, List.sum_append,
    channelAt_eq hc]
  simp

theorem frameOffset_add_share_le {cs : List Channel} {c : Nat} (hc : c < cs.length) :
    frameOffset cs c + (channelAt cs c).share ≤ frameSize cs := by
  rw [← frameOffset_succ hc]
  simp only [frameOffset, frameSize]
  conv_rhs => rw [← List.take_append_drop (c + 1) cs, List.map_append, List.sum_append]
  omega

/-- The vectors of a partial frame: registered channels, and bytes between `base` and `base + rem`. -/
theorem partialVectors_mem {cs : List Channel} {base c rem : Nat} {v : Nat × Nat × Nat}
    (h : v ∈ partialVectors base c cs rem) :
    c ≤ v.1 ∧ v.1 < c + cs.length ∧ base ≤ v.2.1 ∧ v.2.1 + v.2.2 ≤ base + rem ∧ v.2.2 ≤ rem := by
  induction cs generalizing base c rem with
  | nil => simp [partialVectors] at h
  | cons x xs ih =>
    simp only [partialVectors] at h
    split at h
    · simp at h
    · rcases List.mem_cons.1 h with rfl | h
      · simp only [List.length_cons]; omega
      · have hle : min rem x.share ≤ rem := Nat.min_le_left ..
        have := ih h
        simp only [List.length_cons]
        by_cases hs : rem ≤ x.share
        · have hz : rem - min rem x.share = 0 := by omega
          rw [hz] at h
          cases xs <;> simp [partialVectors] at h
        · have hm : min rem x.share = x.share := Nat.min_eq_right (by omega)
          rw [hm] at this
          omega

theorem sectionVectors_mem {cs : List Channel} {len : Nat} {v : Nat × Nat × Nat} (h : v ∈ sectionVectors cs len) :
    v.1 < cs.length ∧ v.2.1 + v.2.2 ≤ len := by
  have hd := Nat.div_add_mod len (frameSize cs)
  simp only [sectionVectors, List.mem_append, List.mem_flatMap, List.mem_range] at h
  rcases h with ⟨f, hf, h⟩ | h
  · have h1 := partialVectors_mem h
    have h2 : f * frameSize cs + frameSize cs ≤ len / frameSize cs * frameSize cs := by
      have := Nat.mul_le_mul_right (frameSize cs) (show f + 1 ≤ len / frameSize cs from hf)
      rwa [Nat.succ_mul] at this
    rw [Nat.mul_comm (len / frameSize cs)] at h2
    omega
  · have h1 := partialVectors_mem h
    rw [Nat.mul_comm (len / frameSize cs)] at h1
    omega

/-! ## Frame data -/

/-- The vectors of a list, coded in order. -/
def Tx.encVectors (K : Config) (vs : List (Nat × Nat × Nat)) (t : Tx) : Tx :=
  vs.foldl (fun u v => Tx.encVec K v.1 v.2.1 v.2.2 u) t

theorem Tx.encVectors_append (vs ws : List (Nat × Nat × Nat)) (t : Tx) :
    t.encVectors K (vs ++ ws) = (t.encVectors K vs).encVectors K ws := by simp [Tx.encVectors]

theorem vectorsAfter_share (words : WordsAt) (vs : List (Nat × Nat × Nat)) (cs : List Channel)
    (hv : ∀ v ∈ vs, v.1 < cs.length) : (vectorsAfter words cs vs).map Channel.share = cs.map Channel.share := by
  induction vs generalizing cs with
  | nil => rfl
  | cons v vs ih =>
    obtain ⟨c, addr, nbytes⟩ := v
    have hc : c < cs.length := hv _ (List.mem_cons_self ..)
    simp only [vectorsAfter]
    rw [ih _ (fun v hm => by rw [List.length_set]; exact hv v (List.mem_cons_of_mem _ hm)),
      map_share_set hc (chanAfter_share ..)]

theorem chansOk_set {cs : List Channel} {c : Nat} {ch : Channel} (h : ∀ x ∈ cs, x.Ok) (hch : ch.Ok) :
    ∀ x ∈ cs.set c ch, x.Ok := by
  intro x hx
  rcases List.mem_or_eq_of_mem_set hx with hm | rfl
  · exact h x hm
  · exact hch

theorem vectorsAfter_ok {src : RawMem} {words : WordsAt} (hw : WordsOf src words) (vs : List (Nat × Nat × Nat)) (cs : List Channel) (h : ∀ x ∈ cs, x.Ok)
    (hv : ∀ v ∈ vs, v.1 < cs.length) : ∀ x ∈ vectorsAfter words cs vs, x.Ok := by
  induction vs generalizing cs with
  | nil => exact h
  | cons v vs ih =>
    obtain ⟨c, addr, nbytes⟩ := v
    have hc : c < cs.length := hv _ (List.mem_cons_self ..)
    simp only [vectorsAfter]
    refine ih _ (chansOk_set h (chanAfter_ok (h _ (channelAt_mem hc)) ?_)) fun v hm => by
      rw [List.length_set]; exact hv v (List.mem_cons_of_mem _ hm)
    exact hw.lt _ _ _ (Channel.size_pos _)

theorem vectorsAfter_length (words : WordsAt) (vs : List (Nat × Nat × Nat)) (cs : List Channel) :
    (vectorsAfter words cs vs).length = cs.length := by
  induction vs generalizing cs with
  | nil => rfl
  | cons v vs ih => simp [vectorsAfter, ih]

/-- A list of vectors appends their codes in order, the histories brought forward (R198, R210). -/
theorem Tx.encVectors_appended (hK : K.Legal) (vs : List (Nat × Nat × Nat)) {t : Tx} (h : t.WriterInv K)
    (hch : ∀ x ∈ t.chans, x.Ok) (hv : ∀ v ∈ vs, v.1 < t.chans.length ∧ v.2.2 < 2 ^ K.wordBits) :
    ({ t with chans := vectorsAfter (readWords t.raw) t.chans vs } : Tx).Appended K (t.encVectors K vs)
      (vectorsBits (readWords t.raw) t.chans vs) := by
  induction vs generalizing t with
  | nil => exact Tx.Appended.refl hK h
  | cons v vs ih =>
    obtain ⟨c, addr, nbytes⟩ := v
    obtain ⟨hc, hn⟩ := hv _ (List.mem_cons_self ..)
    have h1 := Tx.encVec_appended hK h (addr := addr) hc (hch _ (channelAt_mem hc)) hn
    have hcs := h1.chans_eq
    have hraw := h1.raw_eq
    simp only at hcs hraw
    have hok : ∀ x ∈ t.chans.set c (chanAfter (channelAt t.chans c)
        (readWords t.raw addr (channelAt t.chans c).size nbytes)), x.Ok :=
      chansOk_set hch (chanAfter_ok (hch _ (channelAt_mem hc)) (readWords_lt _ _ _ (Channel.size_pos _)))
    have h2 := ih h1.inv (by rw [hcs]; exact hok) fun v hm => by
      rw [hcs, List.length_set]; exact hv v (List.mem_cons_of_mem _ hm)
    have hva : vectorsAfter (readWords (t.encVec K c addr nbytes).raw) (t.encVec K c addr nbytes).chans vs =
        vectorsAfter (readWords t.raw) t.chans ((c, addr, nbytes) :: vs) := by rw [hcs, hraw]; rfl
    have hvb : vectorsBits (readWords (t.encVec K c addr nbytes).raw) (t.encVec K c addr nbytes).chans vs =
        vectorsBits (readWords t.raw) (t.chans.set c (chanAfter (channelAt t.chans c)
          (readWords t.raw addr (channelAt t.chans c).size nbytes))) vs := by rw [hcs, hraw]
    rw [hva, hvb] at h2
    have h3 := h1.rebase { t with chans := vectorsAfter (readWords t.raw) t.chans ((c, addr, nbytes) :: vs) }
    have h4 := h1.withWriter_eq
    have h5 : ({ t with chans := vectorsAfter (readWords t.raw) t.chans ((c, addr, nbytes) :: vs) } : Tx).withWriter
        (t.encVec K c addr nbytes) = { t.encVec K c addr nbytes with
          chans := vectorsAfter (readWords t.raw) t.chans ((c, addr, nbytes) :: vs) } := by
      conv_rhs => rw [← h4]
      rfl
    rw [h5] at h3
    exact h3.trans hK h2

theorem Tx.encVec_chans (hK : K.Legal) {t : Tx} (h : t.WriterInv K) {c addr nbytes : Nat} (hc : c < t.chans.length)
    (hch : (channelAt t.chans c).Ok) (hn : nbytes < 2 ^ K.wordBits) :
    (t.encVec K c addr nbytes).chans.map Channel.share = t.chans.map Channel.share := by
  rw [(Tx.encVec_appended hK h (addr := addr) hc hch hn).chans_eq]
  exact map_share_set hc (chanAfter_share ..)

/-- The partial frame is its vectors (R251). -/
theorem Tx.encPartial_eq (hK : K.Legal) (base n c rem : Nat) {t : Tx} (h : t.WriterInv K) (hch : ∀ x ∈ t.chans, x.Ok)
    (hn : c + n = t.chans.length) (hrem : rem < 2 ^ K.wordBits) :
    t.encPartial K base (List.range' c n) rem =
      t.encVectors K (partialVectors (base + frameOffset t.chans c) c (t.chans.drop c) rem) := by
  induction n generalizing c rem t with
  | zero =>
    have : t.chans.drop c = [] := by rw [List.drop_eq_nil_iff]; omega
    rw [this]; rfl
  | succ n ih =>
    have hc : c < t.chans.length := by omega
    rw [List.drop_eq_getElem_cons hc, ← channelAt_eq hc, List.range'_succ]
    simp only [Tx.encPartial, partialVectors]
    split
    · rfl
    · have hch' := hch _ (channelAt_mem hc)
      have hlt : min rem (channelAt t.chans c).share < 2 ^ K.wordBits := by omega
      have h1 := Tx.encVec_appended hK h (addr := base + frameOffset t.chans c) hc hch' hlt
      have hcs := h1.chans_eq
      simp only at hcs
      have hsh := Tx.encVec_chans hK h (addr := base + frameOffset t.chans c) hc hch' hlt
      have hlen : (Tx.encVec K c (base + frameOffset t.chans c) (min rem (channelAt t.chans c).share) t).chans.length
          = t.chans.length := by rw [hcs, List.length_set]
      rw [ih (c + 1) _ h1.inv (by
        rw [hcs]; exact chansOk_set hch (chanAfter_ok hch' (readWords_lt _ _ _ (Channel.size_pos _))))
        (by rw [hlen]; omega) (by omega)]
      rw [frameOffset_congr hsh, frameOffset_succ hc, ← Nat.add_assoc,
        partialVectors_congr (ds := t.chans.drop (c + 1)) (by rw [List.map_drop, List.map_drop, hsh])]
      rfl

theorem Tx.encFrame_fold (hK : K.Legal) (base n c : Nat) {t : Tx} (h : t.WriterInv K) (hch : ∀ x ∈ t.chans, x.Ok)
    (hn : c + n = t.chans.length) (hfs : frameSize t.chans < 2 ^ K.wordBits) :
    (List.range' c n).foldl
      (fun u c => Tx.encVec K c (base + frameOffset u.chans c) (channelAt u.chans c).share u) t =
      t.encPartial K base (List.range' c n) (frameSize t.chans - frameOffset t.chans c) := by
  induction n generalizing c t with
  | zero => rfl
  | succ n ih =>
    have hc : c < t.chans.length := by omega
    have hch' := hch _ (channelAt_mem hc)
    have hpos := Channel.share_pos hch'
    have hle := frameOffset_add_share_le hc
    have hlt : (channelAt t.chans c).share < 2 ^ K.wordBits := by omega
    rw [List.range'_succ, List.foldl_cons, Tx.encPartial, if_neg (by omega)]
    have h1 := Tx.encVec_appended hK h (addr := base + frameOffset t.chans c) hc hch' hlt
    have hcs := h1.chans_eq
    simp only at hcs
    have hsh := Tx.encVec_chans hK h (addr := base + frameOffset t.chans c) hc hch' hlt
    have hmin : min (frameSize t.chans - frameOffset t.chans c) (channelAt t.chans c).share =
        (channelAt t.chans c).share := Nat.min_eq_right (by omega)
    simp only [hmin]
    rw [ih (c + 1) h1.inv (by
      rw [hcs]; exact chansOk_set hch (chanAfter_ok hch' (readWords_lt _ _ _ (Channel.size_pos _))))
      (by rw [hcs, List.length_set]; omega) (by rw [frameSize_congr hsh]; exact hfs)]
    rw [frameSize_congr hsh, frameOffset_congr hsh, frameOffset_succ hc]
    congr 1
    omega

/-- A whole frame is its vectors (R250). -/
theorem Tx.encFrame_eq (hK : K.Legal) (base : Nat) {t : Tx} (h : t.WriterInv K) (hch : ∀ x ∈ t.chans, x.Ok)
    (hfs : frameSize t.chans < 2 ^ K.wordBits) :
    t.encFrame K base = t.encVectors K (frameVectors base t.chans) := by
  have h1 := Tx.encFrame_fold hK base t.chans.length 0 h hch (by omega) hfs
  have h2 := Tx.encPartial_eq hK base t.chans.length 0 (frameSize t.chans) h hch (by omega) hfs
  have h0 : frameOffset t.chans 0 = 0 := rfl
  rw [h0, Nat.sub_zero] at h1
  rw [h0, Nat.add_zero, List.drop_zero] at h2
  rw [Tx.encFrame, List.range_eq_range', h1, h2]; rfl

theorem Tx.encFrames_eq (hK : K.Legal) (f n : Nat) {t : Tx} (h : t.WriterInv K) (hch : ∀ x ∈ t.chans, x.Ok)
    (hfs : frameSize t.chans < 2 ^ K.wordBits) :
    t.encFrames K f n =
      t.encVectors K ((List.range' f n).flatMap fun g => frameVectors (g * frameSize t.chans) t.chans) := by
  induction n generalizing f t with
  | zero => rfl
  | succ n ih =>
    have hv : ∀ v ∈ frameVectors (f * frameSize t.chans) t.chans, v.1 < t.chans.length ∧ v.2.2 < 2 ^ K.wordBits := by
      intro v hm
      have := partialVectors_mem hm
      exact ⟨by omega, by omega⟩
    have h1 := Tx.encVectors_appended hK _ h hch hv
    have hcs := h1.chans_eq
    simp only at hcs
    have hsh : (t.encVectors K (frameVectors (f * frameSize t.chans) t.chans)).chans.map Channel.share =
        t.chans.map Channel.share := by
      rw [hcs]; exact vectorsAfter_share _ _ _ fun v hm => (hv v hm).1
    rw [Tx.encFrames, Tx.encFrame_eq hK _ h hch hfs, ih (f + 1) h1.inv
      (by rw [hcs]; exact vectorsAfter_ok (readWords_of _) _ _ hch fun v hm => (hv v hm).1) (by rw [frameSize_congr hsh]; exact hfs),
      List.range'_succ, List.flatMap_cons, Tx.encVectors_append]
    congr 2
    funext g
    rw [frameSize_congr hsh, frameVectors_congr hsh]

/-- The frame data of a section is its vectors: whole frames, then the partial frame (R250, R251). -/
theorem Tx.encSection_eq (hK : K.Legal) (len : Nat) {t : Tx} (h : t.WriterInv K) (hch : ∀ x ∈ t.chans, x.Ok)
    (hlen : len < 2 ^ K.wordBits) :
    t.encSection K len = t.encVectors K (sectionVectors t.chans len) := by
  by_cases hfs : frameSize t.chans < 2 ^ K.wordBits
  · have hv : ∀ v ∈ (List.range' 0 (len / frameSize t.chans)).flatMap
        (fun g => frameVectors (g * frameSize t.chans) t.chans),
        v.1 < t.chans.length ∧ v.2.2 < 2 ^ K.wordBits := by
      intro v hm
      obtain ⟨g, _, hm⟩ := List.mem_flatMap.1 hm
      have := partialVectors_mem hm
      exact ⟨by omega, by omega⟩
    have h1 := Tx.encVectors_appended hK _ h hch hv
    have hcs := h1.chans_eq
    simp only at hcs
    have hsh : (t.encVectors K ((List.range' 0 (len / frameSize t.chans)).flatMap
        fun g => frameVectors (g * frameSize t.chans) t.chans)).chans.map Channel.share = t.chans.map Channel.share := by
      rw [hcs]; exact vectorsAfter_share _ _ _ fun v hm => (hv v hm).1
    have hl : (t.encVectors K ((List.range' 0 (len / frameSize t.chans)).flatMap
        fun g => frameVectors (g * frameSize t.chans) t.chans)).chans.length = t.chans.length := by
      rw [hcs, vectorsAfter_length]
    have hrem : len % frameSize t.chans < 2 ^ K.wordBits := Nat.lt_of_le_of_lt (Nat.mod_le _ _) hlen
    have h2 := Tx.encPartial_eq hK (len / frameSize t.chans * frameSize t.chans) t.chans.length 0
      (len % frameSize t.chans) h1.inv (by rw [hcs]; exact vectorsAfter_ok (readWords_of _) _ _ hch fun v hm => (hv v hm).1)
      (by rw [hl]; omega) hrem
    have h0 : ∀ cs, frameOffset cs 0 = 0 := fun _ => rfl
    rw [h0, Nat.add_zero, List.drop_zero, partialVectors_congr hsh] at h2
    simp only [Tx.encSection]
    rw [Tx.encFrames_eq hK 0 _ h hch hfs, List.range_eq_range', h2, ← Tx.encVectors_append, sectionVectors,
      List.range_eq_range']
  · have hz : len / frameSize t.chans = 0 := Nat.div_eq_of_lt (by omega)
    have hmod : len % frameSize t.chans = len := Nat.mod_eq_of_lt (by omega)
    simp only [Tx.encSection, sectionVectors, hz, hmod]
    have h2 := Tx.encPartial_eq hK (0 * frameSize t.chans) t.chans.length 0 len h hch (by omega) hlen
    have h0 : frameOffset t.chans 0 = 0 := rfl
    rw [h0, Nat.add_zero, List.drop_zero] at h2
    rw [Tx.encFrames, List.range_eq_range', h2]
    rfl

/-! ## A section -/

theorem resetHistories_ok {cs : List Channel} (h : ∀ x ∈ cs, x.Ok) : ∀ x ∈ resetHistories cs, x.Ok := by
  intro x hx
  obtain ⟨y, hy, rfl⟩ := List.mem_map.1 hx
  exact ⟨(h y hy).reps, (h y hy).nbits, Nat.two_pow_pos _⟩

theorem resetHistories_share (cs : List Channel) :
    (resetHistories cs).map Channel.share = cs.map Channel.share := by
  simp only [resetHistories, List.map_map]; rfl

theorem resetHistories_length (cs : List Channel) : (resetHistories cs).length = cs.length := by
  simp [resetHistories]

theorem sectionVectors_congr {cs ds : List Channel} (h : cs.map Channel.share = ds.map Channel.share) (len : Nat) :
    sectionVectors cs len = sectionVectors ds len := by
  simp only [sectionVectors, frameSize_congr h, frameVectors_congr h, partialVectors_congr h]

theorem Tx.beginSection_appended (hK : K.Legal) {t : Tx} (h : t.WriterInv K) (q : Tx) :
    (q.withWriter t).Appended K (q.withWriter (t.beginSection K)) (t.leadBits K) := by
  have hW := hK.wordBits_ge
  simp only [Tx.beginSection, Tx.leadBits]
  split
  · exact (Tx.putFileHeader_appended hK h).rebase q
  · exact (Tx.putBits_appended hK h 0x8 (by omega)).rebase q

theorem Tx.beginSection_rest (hK : K.Legal) {t : Tx} (h : t.WriterInv K) :
    (t.beginSection K) = { t.withWriter (t.beginSection K) with gstate := (t.beginSection K).gstate } := by
  have hW := hK.wordBits_ge
  simp only [Tx.beginSection]
  split
  · conv_lhs => rw [← (Tx.putFileHeader_appended hK h).withWriter_eq]
    rfl
  · have e := (Tx.putBits_appended hK h 0x8 (show 4 ≤ K.wordBits by omega)).withWriter_eq
    generalize Tx.putBits K 0x8 4 t = x at e
    rw [show x.gstate = t.gstate by rw [← e]; rfl]
    exact e.symm

/-- `G.SECTION` appends what R245 to R252 say and leaves the engine as R253 says. -/
theorem Tx.writeSection_appended (hK : K.Legal) {t : Tx} (h : t.WriterInv K) (hch : ∀ x ∈ t.chans, x.Ok) {len : Nat}
    (hlen : len < 2 ^ K.wordBits) :
    (Tx.forgetSource K len (t.sectionClosed K len)).Appended K (t.writeSection K len)
      (t.leadBits K ++ sectionBits K t.flags t.chans t.raw len (t.bitpos + (t.leadBits K).length)) := by
  have hW := hK.wordBits_ge
  set q := Tx.forgetSource K len (t.sectionClosed K len) with hq
  have h1 := Tx.beginSection_appended hK h q
  have hfr := Tx.beginSection_rest hK h
  generalize hb : t.beginSection K = b at *
  have hbi : b.WriterInv K := h1.inv.rebase b
  have hbp : b.bitpos = t.bitpos + (t.leadBits K).length := h1.bitpos_eq
  have hbf : b.flags = t.flags := by rw [hfr]; rfl
  have hbc : b.chans = t.chans := by rw [hfr]; rfl
  have h2 := (Tx.putSectionHeader_appended hK hbi len).cast (b :=
    padBits (t.bitpos + (t.leadBits K).length) ++ sectionHeaderBits K t.flags t.chans len ++
      padBits (t.bitpos + (t.leadBits K).length +
        (padBits (t.bitpos + (t.leadBits K).length) ++ sectionHeaderBits K t.flags t.chans len).length))
    (by rw [hbf, hbc, hbp])
  have he2 := h2.withWriter_eq
  generalize hu : b.putSectionHeader K len = u at *
  have hu2 : u = { t.withWriter u with gstate := .sectionOpen } := by
    conv_lhs => rw [← he2, hfr]
    rfl
  have huf : u.flags = t.flags := by rw [hu2]; rfl
  have huc : u.chans = t.chans := by rw [hu2]; rfl
  have hur : u.raw = t.raw := by rw [hu2]; rfl
  generalize hp : u.prepareSection K len = p
  have hpi : p.WriterInv K := hp ▸ h2.inv.rebase (u.prepareSection K len)
  have hpc : p.chans = resetHistories t.chans := by rw [← hp, Tx.prepareSection_chans, huc]
  have hpr : p.raw = t.raw := by rw [← hp, Tx.prepareSection_raw, hur]
  have hpf : p.flags = t.flags := by rw [← hp, Tx.prepareSection_flags, huf]
  have hrok := resetHistories_ok hch
  have hsv : sectionVectors (resetHistories t.chans) len = sectionVectors t.chans len :=
    sectionVectors_congr (resetHistories_share _) len
  have h3 := Tx.encVectors_appended hK (sectionVectors t.chans len) hpi (by rw [hpc]; exact hrok) fun v hm => by
    have := sectionVectors_mem hm
    rw [hpc, resetHistories_length]
    exact ⟨this.1, by omega⟩
  have henc := Tx.encSection_eq hK len hpi (by rw [hpc]; exact hrok) hlen
  rw [hpc, hsv] at henc
  rw [← henc, hpc, hpr] at h3
  have he3 := h3.withWriter_eq
  generalize he : p.encSection K len = e at *
  have hef : e.flags = t.flags := by rw [← he3]; exact hpf
  have hes : e.sectCrc = q.sectCrc := by
    rw [← he3]
    show p.sectCrc = _
    rw [← hp, Tx.prepareSection_sectCrc, huf, hur, show u.sectCrc = t.sectCrc by rw [hu2]; rfl]
    rfl
  have h4 := Tx.Appended.ifThen hK (c := flagCrc t.flags) h3.inv fun _ =>
    Tx.putBits_appended hK h3.inv e.sectCrc.toNat (show 32 ≤ K.wordBits by omega)
  have hcrc : (if flagCrc t.flags then fieldBits 32 e.sectCrc.toNat else []) =
      (if flagCrc t.flags then fieldBits 32 (crc32 K (t.raw.bytes 0 len)).toNat else []) := by
    split
    · rename_i hf
      rw [hes]; simp only [hq, Tx.forgetSource, Tx.sectionClosed, hf, if_true]
    · rfl
  rw [hcrc] at h4
  have hfin : t.writeSection K len = Tx.finishSection K len
      (if flagCrc t.flags then Tx.putBits K e.sectCrc.toNat 32 e else e) := by
    simp only [Tx.writeSection, hb, hu, hp, he, hef]
  rw [hfin]
  have hx4 := h4.withWriter_eq
  generalize (if flagCrc t.flags then Tx.putBits K e.sectCrc.toNat 32 e else e) = x at *
  have hend : Tx.finishSection K len x = q.withWriter x := by
    conv_lhs => rw [← hx4, ← he3, ← hp, hu2]
    rfl
  rw [hend]
  have w2 := h2.rebase q
  have w3 : (q.withWriter u).Appended K (q.withWriter e)
      (vectorsBits (readWords t.raw) (resetHistories t.chans) (sectionVectors t.chans len)) := by
    rw [← hp] at h3; exact h3.rebase q
  have w4 := h4.rebase q
  have w := ((h1.trans hK w2).trans hK w3).trans hK w4
  have hbits : t.leadBits K ++
      (padBits (t.bitpos + (t.leadBits K).length) ++ sectionHeaderBits K t.flags t.chans len ++
        padBits (t.bitpos + (t.leadBits K).length +
          (padBits (t.bitpos + (t.leadBits K).length) ++ sectionHeaderBits K t.flags t.chans len).length)) ++
      vectorsBits (readWords t.raw) (resetHistories t.chans) (sectionVectors t.chans len) ++
      (if flagCrc t.flags then fieldBits 32 (crc32 K (t.raw.bytes 0 len)).toNat else []) =
      t.leadBits K ++ sectionBits K t.flags t.chans t.raw len (t.bitpos + (t.leadBits K).length) := by
    simp only [sectionBits, List.append_assoc]
  rw [hbits] at w
  exact w

end Sys2Proof.Machine
end

