-- ==== Sys2Proof/Laws/Touches.lean ====
section
/-! SUPPORT. What the reading procedures leave alone in every state, and that those which answer have consumed some
bits: the frames of 41_bitstream_reader.md R160 to R165 and 42_codec_primitives.md R184, R187, R190, R199. -/

namespace Sys2Proof.Machine

variable {K : Config} {α β : Type}

/-- Whatever the state, `x` touches the reader's registers and the source's position only. -/
def RxM.Touches (K : Config) (x : RxM α) : Prop := ∀ r : Rx,
  match x r with
  | .ok _ r' => r.Touched K r'
  | .error _ r' => r.Touched K r'

/-- In a state with the reader's invariants, `x` consumes some bits and keeps them, or faults. -/
def RxM.Consumes (K : Config) (x : RxM α) : Prop := ∀ r : Rx, r.ReaderInv K → ∀ a r', x r = .ok a r' →
  ∃ bits, r.Consumed K r' bits

theorem RxM.Touches.ok {x : RxM α} (h : x.Touches K) {r r' : Rx} {a : α} (hx : x r = .ok a r') : r.Touched K r' := by
  have := h r; rwa [hx] at this

theorem RxM.Touches.error {x : RxM α} (h : x.Touches K) {r r' : Rx} {e : Raise} (hx : x r = .error e r') :
    r.Touched K r' := by
  have := h r; rwa [hx] at this

theorem RxM.Touches.pure (a : α) : RxM.Touches K (Pure.pure a) := fun r => Rx.Touched.refl r

theorem RxM.Touches.throw (e : Raise) : RxM.Touches K (MonadExcept.throw e : RxM α) := fun r => Rx.Touched.refl r

theorem RxM.Touches.bind {x : RxM α} {f : α → RxM β} (h : x.Touches K) (k : ∀ a, (f a).Touches K) :
    RxM.Touches K (x >>= f) := by
  intro r
  simp only [Bind.bind, EStateM.bind]
  cases hx : x r with
  | ok a r' =>
    have h1 := h.ok hx
    simp only
    cases hf : f a r' with
    | ok b r'' => exact h1.trans ((k a).ok hf)
    | error e r'' => exact h1.trans ((k a).error hf)
  | error e r' => exact h.error hx

theorem RxM.Touches.ite {c : Prop} [Decidable c] {x y : RxM α} (hx : x.Touches K) (hy : y.Touches K) :
    RxM.Touches K (if c then x else y) := by split <;> assumption

theorem RxM.Consumes.pure (a : α) : RxM.Consumes K (Pure.pure a) := by
  intro r h b r' hx
  cases hx
  exact ⟨[], Rx.Consumed.refl h⟩

theorem RxM.Consumes.throw (e : Raise) : RxM.Consumes K (MonadExcept.throw e : RxM α) := by
  intro r h b r' hx
  cases hx

theorem RxM.Consumes.bind {x : RxM α} {f : α → RxM β} (h : x.Consumes K) (k : ∀ a, (f a).Consumes K) :
    RxM.Consumes K (x >>= f) := by
  intro r hr b r' hx
  simp only [Bind.bind, EStateM.bind] at hx
  cases hx1 : x r with
  | ok a r1 =>
    rw [hx1] at hx
    obtain ⟨u, hu⟩ := h r hr a r1 hx1
    obtain ⟨v, hv⟩ := k a r1 hu.inv b r' hx
    exact ⟨u ++ v, hu.trans hv⟩
  | error e r1 => rw [hx1] at hx; cases hx

theorem RxM.Consumes.ite {c : Prop} [Decidable c] {x y : RxM α} (hx : x.Consumes K) (hy : y.Consumes K) :
    RxM.Consumes K (if c then x else y) := by split <;> assumption

/-! ## The bit reader -/

theorem fill_touches (hK : K.Legal) : (fill K).Touches K := by
  intro r
  have hwb : 0 < K.wordBytes := by have := hK.wordBits_eq; have := hK.wordBits_pos; omega
  have hlen : (r.srcGet K).length ≤ K.bufWords * K.wordBytes := by simp [Rx.srcGet]
  have hsrc : (r.srcGet K).length ≤ r.src.length - r.srcpos := by simp [Rx.srcGet]
  simp only [fill]
  by_cases heof : r.srcEof = true
  · simp only [heof, if_true]; exact Rx.Touched.refl r
  by_cases hz : (r.srcGet K).length = 0
  · simp only [heof, hz, if_true]
    exact ⟨rfl, id, fun hs => by simp only [Rx.pull_srcpos, Rx.pull_src]; omega⟩
  · simp only [heof, hz, if_false]
    refine ⟨rfl, fun hl => ?_, fun hs => ?_⟩
    · have h1 : (packWords K.wordBytes (r.srcGet K)).length ≤ K.bufWords := by
        rw [packWords_length]; exact ceilDiv_le hwb hlen
      simp only [List.length_append, List.length_drop, Rx.pull_rbuf]; omega
    · show r.srcpos + (r.srcGet K).length ≤ r.src.length
      omega

theorem fillIfEmpty_touches (hK : K.Legal) : (fillIfEmpty K).Touches K := by
  intro r
  simp only [fillIfEmpty]
  by_cases h : r.rcount = 0
  · simp only [h, if_true]; exact fill_touches hK r
  · simp only [h, if_false]; exact Rx.Touched.refl r

theorem getBits_touches (hK : K.Legal) (n : Nat) : (getBits K n).Touches K := by
  intro r
  rw [getBits]
  by_cases hn : n = 0
  · rw [if_pos hn]; exact Rx.Touched.refl r
  rw [if_neg hn]
  have hnw : ∀ (u : Rx) (p : Nat), u.Touched K { u.nextWord with bitpos := p } := by
    intro u p; simp only [Rx.nextWord]; split <;> exact ⟨rfl, id, id⟩
  have hset : ∀ (u : Rx) (o p : Nat), u.Touched K { u with roff := o, bitpos := p } := fun u o p => ⟨rfl, id, id⟩
  refine RxM.Touches.bind (fillIfEmpty_touches hK) (fun _ => ?_) r
  intro u
  simp only [bind, EStateM.bind, get, MonadState.get, getThe, MonadStateOf.get, EStateM.get, set]
  by_cases h1 : n < K.wordBits - u.roff
  · simp only [h1, if_true]; exact hset u _ _
  · by_cases h2 : n = K.wordBits - u.roff
    · simp only [h1, h2, if_true, if_false]; simp; exact hnw u _
    · simp only [h1, h2, if_false]
      have h3 : u.Touched K u.nextWord := hnw u u.nextWord.bitpos
      have h4 := fillIfEmpty_touches hK u.nextWord
      simp only [set, EStateM.set, EStateM.bind]
      cases hf : fillIfEmpty K u.nextWord with
      | ok a v => rw [hf] at h4; exact (h3.trans h4).trans (hset v _ _)
      | error e v => rw [hf] at h4; exact h3.trans h4

theorem getUnaryFrom_touches (hK : K.Legal) (left c : Nat) : (getUnaryFrom K left c).Touches K := by
  induction left generalizing c with
  | zero =>
    exact (getBits_touches hK 1).bind fun b => RxM.Touches.ite (RxM.Touches.pure c) (RxM.Touches.throw _)
  | succ left ih =>
    exact (getBits_touches hK 1).bind fun b => RxM.Touches.ite (RxM.Touches.pure c) (ih (c + 1))

theorem mexpgGet_touches (hK : K.Legal) (k : Nat) : (mexpgGet K k).Touches K :=
  (getUnaryFrom_touches hK _ _).bind fun _ => RxM.Touches.ite (getBits_touches hK k)
    (RxM.Touches.ite (RxM.Touches.throw _) ((getBits_touches hK _).bind fun _ => RxM.Touches.pure _))

theorem getBits_consumes (hK : K.Legal) {n : Nat} (hn : n ≤ K.wordBits) : (getBits K n).Consumes K := by
  intro r h a r' hx
  rcases getBits_spec hK h hn with ⟨bits, r1, _, hg, hc⟩ | ⟨_, r1, hg, _⟩
  · rw [hg] at hx; cases hx; exact ⟨bits, hc⟩
  · rw [hg] at hx; cases hx

theorem getUnaryFrom_consumes (hK : K.Legal) (left c : Nat) : (getUnaryFrom K left c).Consumes K := by
  have h1 : 1 ≤ K.wordBits := hK.wordBits_pos
  induction left generalizing c with
  | zero => exact (getBits_consumes hK h1).bind fun b => RxM.Consumes.ite (RxM.Consumes.pure c) (RxM.Consumes.throw _)
  | succ left ih => exact (getBits_consumes hK h1).bind fun b => RxM.Consumes.ite (RxM.Consumes.pure c) (ih (c + 1))

/-- `MexpgGet(k)` never reads a field wider than a word (R184). -/
theorem mexpgGet_consumes (hK : K.Legal) {k : Nat} (hk : k ≤ K.wordBits) : (mexpgGet K k).Consumes K :=
  (getUnaryFrom_consumes hK _ _).bind fun q => RxM.Consumes.ite (getBits_consumes hK hk) (by
    by_cases h : K.wordBits < q + k
    · rw [if_pos h]; exact RxM.Consumes.throw _
    · rw [if_neg h]; exact (getBits_consumes hK (by omega)).bind fun _ => RxM.Consumes.pure _)

/-! ## The codecs -/

theorem repeatGet_touches {get1 : RxM Nat} (h : get1.Touches K) (m : Nat) : (repeatGet get1 m).Touches K := by
  induction m with
  | zero => exact RxM.Touches.pure _
  | succ m ih => exact h.bind fun _ => ih.bind fun _ => RxM.Touches.pure _

theorem repeatGet_consumes {get1 : RxM Nat} (h : get1.Consumes K) (m : Nat) : (repeatGet get1 m).Consumes K := by
  induction m with
  | zero => exact RxM.Consumes.pure _
  | succ m ih => exact h.bind fun _ => ih.bind fun _ => RxM.Consumes.pure _

theorem rbGet_touches (hK : K.Legal) (ch : Channel) : (rbGet K ch).Touches K :=
  (getBits_touches hK _).bind fun _ => RxM.Touches.ite (getBits_touches hK _) (RxM.Touches.pure _)

theorem rbGet_consumes (hK : K.Legal) {ch : Channel} (h : ch.Ok) : (rbGet K ch).Consumes K := by
  have hW := hK.wordBits_ge
  have := ch.width_le
  have := h.nbits
  exact (getBits_consumes hK (by omega)).bind fun _ =>
    RxM.Consumes.ite (getBits_consumes hK (by omega)) (RxM.Consumes.pure _)

theorem rlGetFrom_touches (hK : K.Legal) (w fuel left : Nat) : (rlGetFrom K w fuel left).Touches K := by
  induction fuel generalizing left with
  | zero => exact RxM.Touches.pure _
  | succ fuel ih =>
    exact RxM.Touches.ite (RxM.Touches.pure _) ((mexpgGet_touches hK 1).bind fun v =>
      RxM.Touches.ite (RxM.Touches.throw _) ((mexpgGet_touches hK 1).bind fun c =>
        RxM.Touches.ite (RxM.Touches.throw _) ((ih _).bind fun _ => RxM.Touches.pure _)))

theorem rlGetFrom_consumes (hK : K.Legal) (w fuel left : Nat) : (rlGetFrom K w fuel left).Consumes K := by
  have h1 : 1 ≤ K.wordBits := hK.wordBits_pos
  induction fuel generalizing left with
  | zero => exact RxM.Consumes.pure _
  | succ fuel ih =>
    exact RxM.Consumes.ite (RxM.Consumes.pure _) ((mexpgGet_consumes hK h1).bind fun v =>
      RxM.Consumes.ite (RxM.Consumes.throw _) ((mexpgGet_consumes hK h1).bind fun c =>
        RxM.Consumes.ite (RxM.Consumes.throw _) ((ih _).bind fun _ => RxM.Consumes.pure _)))

theorem codecGet_touches (hK : K.Legal) (ch : Channel) (m : Nat) : (codecGet K ch m).Touches K := by
  rw [codecGet]
  cases ch.alg
  · exact repeatGet_touches (getBits_touches hK _) m
  · exact repeatGet_touches (rbGet_touches hK ch) m
  · exact rlGetFrom_touches hK _ _ _
  · exact RxM.Touches.pure _

theorem codecGet_consumes (hK : K.Legal) {ch : Channel} (h : ch.Ok) (m : Nat) : (codecGet K ch m).Consumes K := by
  have hW := hK.wordBits_ge
  have := ch.width_le
  rw [codecGet]
  cases ch.alg
  · exact repeatGet_consumes (getBits_consumes hK (by omega)) m
  · exact repeatGet_consumes (rbGet_consumes hK h) m
  · exact rlGetFrom_consumes hK _ _ _
  · exact RxM.Consumes.pure _

/-! ## The pipelines, whatever the stream -/

/-- The engine `q` with the reader's registers and the source's position of `r`. -/
def Rx.withReader (q r : Rx) : Rx :=
  { q with
    rbuf := r.rbuf, rcount := r.rcount, rptr := r.rptr, roff := r.roff, srcEof := r.srcEof, pulled := r.pulled,
    bitpos := r.bitpos, src := r.src, srcpos := r.srcpos }

theorem Rx.Touched.withReader_eq {r r' : Rx} (h : r.Touched K r') : r.withReader r' = r' := by
  have := h.frame
  have hs : r'.src = r.src := by have := congrArg Rx.src h.frame; simpa using this
  rw [← hs] at this
  exact this.symm

theorem Rx.Touched.src_eq {r r' : Rx} (h : r.Touched K r') : r'.src = r.src := by
  have := congrArg Rx.src h.frame; simpa using this

theorem Rx.Touched.chans_eq {r r' : Rx} (h : r.Touched K r') : r'.chans = r.chans := by
  have := congrArg Rx.chans h.frame; simpa using this

theorem Rx.Touched.raw_eq {r r' : Rx} (h : r.Touched K r') : r'.raw = r.raw := by
  have := congrArg Rx.raw h.frame; simpa using this

theorem Rx.ReaderInv.rebase {r : Rx} (h : r.ReaderInv K) (q : Rx) : (q.withReader r).ReaderInv K :=
  ⟨h.length, h.count, h.empty, h.ptr, h.off, h.emptyOff, h.fits, h.whole, h.bitpos, h.srcpos⟩

theorem Rx.Consumed.rebase {r r' : Rx} {bits : List Bool} (h : r.Consumed K r' bits) (q : Rx) :
    (q.withReader r).Consumed K (q.withReader r') bits :=
  ⟨⟨congrArg q.withReader h.frame, h.ahead, h.pulled, h.inv.rebase q⟩, h.filled, h.eof⟩

theorem Rx.Consumed.withReader_eq {r r' : Rx} {bits : List Bool} (h : r.Consumed K r' bits) :
    r.withReader r' = r' := h.touched.withReader_eq

/-- `DecWords`, whether or not it comes to an end: of the engine it touches the reader's registers, the source's
position and the channel's history (R199, R230). -/
theorem decWords_ends (hK : K.Legal) (c m : Nat) (r : Rx) :
    match decWords K c m r with
    | .ok _ r' => ∃ ys, ({ r with chans := (if (channelAt r.chans c).alg = .constant then r.chans
        else r.chans.set c (stageIn (channelAt r.chans c) ys).2) } : Rx).Touched K r'
    | .error _ r' => r.Touched K r' := by
  simp only [decWords, bind, EStateM.bind, get, MonadState.get, getThe, MonadStateOf.get, EStateM.get]
  by_cases ha : (channelAt r.chans c).alg = .constant
  · simp only [ha, if_true]
    exact ⟨[], Rx.Touched.refl r⟩
  · simp only [ha, if_false]
    have h := codecGet_touches hK (channelAt r.chans c) m r
    cases hx : codecGet K (channelAt r.chans c) m r with
    | ok ys r1 =>
      rw [hx] at h
      simp only [EStateM.bind, modify, modifyGet, MonadStateOf.modifyGet, EStateM.modifyGet, hx]
      refine ⟨ys, ?_⟩
      have h1 : r1.chans = r.chans := h.chans_eq
      rw [h1]
      exact ⟨congrArg (fun x : Rx => { x with chans := r.chans.set c (stageIn (channelAt r.chans c) ys).2 }) h.frame,
        h.length, h.srcpos⟩
    | error e r1 =>
      rw [hx] at h
      simp only [EStateM.bind, hx]
      exact h

/-- `DecWords` that answers has consumed some bits. -/
theorem decWords_consumes (hK : K.Legal) {c m : Nat} {r r' : Rx} {rs : List Nat} (h : r.ReaderInv K)
    (hch : (channelAt r.chans c).Ok) (hx : decWords K c m r = .ok rs r') :
    ∃ ys bits, ({ r with chans := (if (channelAt r.chans c).alg = .constant then r.chans
        else r.chans.set c (stageIn (channelAt r.chans c) ys).2) } : Rx).Consumed K r' bits := by
  simp only [decWords, bind, EStateM.bind, get, MonadState.get, getThe, MonadStateOf.get, EStateM.get] at hx
  by_cases ha : (channelAt r.chans c).alg = .constant
  · simp only [ha, if_true] at hx ⊢
    cases hx
    exact ⟨[], [], Rx.Consumed.refl h⟩
  · simp only [ha, if_false] at hx ⊢
    cases hg : codecGet K (channelAt r.chans c) m r with
    | ok ys r1 =>
      simp only [EStateM.bind, modify, modifyGet, MonadStateOf.modifyGet, EStateM.modifyGet, hg] at hx
      cases hx
      obtain ⟨bits, hc⟩ := codecGet_consumes hK hch m r h ys r1 hg
      refine ⟨ys, bits, ?_⟩
      rw [hc.touched.chans_eq]
      exact hc.withChans _
    | error e r1 => simp only [EStateM.bind, hg] at hx; cases hx

end Sys2Proof.Machine
end

