-- ==== Sys2Proof/Laws/Parser.lean ====
section
/-! SUPPORT. The parser's procedures take back what the generator's write (46_container_parser.md R271, R275 to R281;
30_encoding.md R116 to R122). -/

namespace Sys2Proof.Machine

variable {K : Config} {α β : Type}

/-! ## Procedures that read and also load registers -/

/-- `f` loads registers that are none of the reader's. -/
def Rx.Aside (f : Rx → Rx) : Prop := ∀ q r : Rx, f (q.withReader r) = (f q).withReader r

/-- With `bits` next in the stream and `P` of the other registers, `x` answers `a`, consumes exactly `bits` and makes
the change `f` to the other registers; where the stream ends inside `bits`, it runs out of bits. -/
structure RxM.ReadsTo (K : Config) (P : Rx → Prop) (x : RxM α) (bits : List Bool) (a : α) (f : Rx → Rx) : Prop where
  takes : ∀ r : Rx, r.ReaderInv K → P r → ∀ rest, r.ahead K = bits ++ rest →
    ∃ r', x r = .ok a r' ∧ (f r).Consumed K r' bits ∧ r'.ahead K = rest
  cut : ∀ r : Rx, r.ReaderInv K → P r → ∀ more, more ≠ [] → bits = r.ahead K ++ more → x.Cut K r
  pos : ∀ r : Rx, P r → (f r).bitpos = r.bitpos

/-- A condition on registers that are none of the reader's. -/
def Rx.AsideProp (P : Rx → Prop) : Prop := ∀ q r : Rx, P q → P (q.withReader r)

variable {P P' : Rx → Prop}

theorem Rx.aside_id : Rx.Aside id := fun _ _ => rfl

theorem Rx.Aside.comp {f g : Rx → Rx} (hf : Rx.Aside f) (hg : Rx.Aside g) : Rx.Aside (g ∘ f) := by
  intro q r; simp only [Function.comp, hf q r, hg (f q) r]

theorem Rx.withReader_self (r : Rx) : r.withReader r = r := rfl

theorem Rx.Aside.self {g : Rx → Rx} (hg : Rx.Aside g) (r : Rx) : (g r).withReader r = g r := (hg r r).symm

theorem RxM.Reads.to {x : RxM α} {bits : List Bool} {a : α} (h : x.Reads K bits a) : x.ReadsTo K P bits a id where
  takes r hr _ := h.takes r hr
  cut r hr _ := h.cut r hr
  pos _ _ := rfl

theorem RxM.ReadsTo.pure (a : α) : RxM.ReadsTo K P (Pure.pure a) [] a id := (RxM.Reads.pure a).to

theorem RxM.ReadsTo.bind {x : RxM α} {k : α → RxM β} {u v : List Bool} {a : α} {b : β} {f g : Rx → Rx}
    (hx : x.ReadsTo K P u a f) (hk : (k a).ReadsTo K P' v b g) (hP : ∀ r, P r → P' (f r)) (hA : Rx.AsideProp P')
    (hg : Rx.Aside g) : RxM.ReadsTo K P (x >>= k) (u ++ v) b (g ∘ f) where
  takes r hr hp rest ha := by
    rw [List.append_assoc] at ha
    obtain ⟨r1, h1, c1, a1⟩ := hx.takes r hr hp _ ha
    have e1 := c1.withReader_eq
    obtain ⟨r2, h2, c2, a2⟩ := hk.takes r1 c1.inv (e1 ▸ hA (f r) r1 (hP r hp)) rest a1
    refine ⟨r2, by simp only [Bind.bind, EStateM.bind, h1, h2], ?_, a2⟩
    have c3 := c1.rebase (g (f r))
    rw [hg.self (f r), ← hg (f r) r1, e1] at c3
    exact c3.trans c2
  cut r hr hp more hm he := by
    rcases append_cut he hm with ⟨w, hw, hu⟩ | ⟨w, ha, hv⟩
    · exact (hx.cut r hr hp w hw hu).bind k
    · obtain ⟨r1, h1, c1, a1⟩ := hx.takes r hr hp w ha
      have e1 := c1.withReader_eq
      exact RxM.Cut.after h1 (by rw [c1.bitpos_eq, hx.pos r hp]) (a1 ▸ ha)
        (hk.cut r1 c1.inv (e1 ▸ hA (f r) r1 (hP r hp)) more hm (a1 ▸ hv))
  pos r hp := (hk.pos (f r) (hP r hp)).trans (hx.pos r hp)

theorem RxM.ReadsTo.seq {x : RxM α} {y : RxM β} {u v : List Bool} {a : α} {b : β} {f g : Rx → Rx}
    (hx : x.ReadsTo K P u a f) (hy : y.ReadsTo K P' v b g) (hP : ∀ r, P r → P' (f r)) (hA : Rx.AsideProp P')
    (hg : Rx.Aside g) : RxM.ReadsTo K P (x >>= fun _ => y) (u ++ v) b (g ∘ f) := hx.bind (k := fun _ => y) hy hP hA hg

/-- A procedure that only reads, then one that also loads registers. -/
theorem RxM.Reads.thenTo {x : RxM α} {u : List Bool} {a : α} (hx : x.Reads K u a) {k : α → RxM β} {v : List Bool} {b : β}
    {g : Rx → Rx} (hk : (k a).ReadsTo K P v b g) (hA : Rx.AsideProp P) (hg : Rx.Aside g) :
    RxM.ReadsTo K P (x >>= k) (u ++ v) b g := hx.to.bind (f := id) hk (fun _ h => h) hA hg

theorem RxM.Reads.raiseIf {c : Option Raise} (h : c = none) : RxM.Reads K (raiseIf c) [] () := by
  subst h; exact RxM.Reads.pure ()

theorem RxM.ReadsTo.modify {f : Rx → Rx} (hf : Rx.Aside f) : RxM.ReadsTo K P (modify f : RxM PUnit) [] ⟨⟩ f where
  takes r hr _ rest ha := by
    have h := (Rx.Consumed.refl hr).rebase (f r)
    rw [hf.self r] at h
    have : (f r).ahead K = r.ahead K := by rw [← hf.self r]; rfl
    exact ⟨f r, rfl, h, by rw [this]; exact ha⟩
  cut _ _ _ _ hm h := absurd (List.append_eq_nil_iff.1 h.symm).2 hm
  pos r _ := by rw [← hf.self r]; rfl

theorem RxM.ReadsTo.raiseIf {c : Option Raise} (h : c = none) : RxM.ReadsTo K P (raiseIf c) [] () id := by
  subst h; exact RxM.ReadsTo.pure ()

theorem RxM.ReadsTo.getBind {k : Rx → RxM β} {y : RxM β} {v : List Bool} {b : β} {g : Rx → Rx}
    (hk : ∀ r, P r → k r = y) (hy : y.ReadsTo K P v b g) : RxM.ReadsTo K P (get >>= k) v b g where
  takes r hr hp rest ha := by
    obtain ⟨r', h1, h2⟩ := hy.takes r hr hp rest ha
    refine ⟨r', ?_, h2⟩
    rw [← hk r hp] at h1
    exact h1
  cut r hr hp more hm he := by
    obtain ⟨r', p, h1, h2⟩ := hy.cut r hr hp more hm he
    refine ⟨r', p, ?_, h2⟩
    rw [← hk r hp] at h1
    exact h1
  pos := hy.pos

theorem RxM.ReadsTo.congr {x : RxM α} {u v : List Bool} {a b : α} {f g : Rx → Rx} (h : x.ReadsTo K P u a f)
    (hu : u = v) (ha : a = b) (hf : ∀ r, P r → f r = g r) : x.ReadsTo K P v b g := by
  subst hu; subst ha
  exact ⟨fun r hr hp rest h1 => by rw [← hf r hp]; exact h.takes r hr hp rest h1, h.cut,
    fun r hp => by rw [← hf r hp]; exact h.pos r hp⟩

theorem RxM.ReadsTo.weaken {x : RxM α} {u : List Bool} {a : α} {f : Rx → Rx} (h : x.ReadsTo K P u a f)
    (hp : ∀ r, P' r → P r) : x.ReadsTo K P' u a f :=
  ⟨fun r hr h' => h.takes r hr (hp r h'), fun r hr h' => h.cut r hr (hp r h'), fun r h' => h.pos r (hp r h')⟩

theorem Rx.asideProp_true : Rx.AsideProp fun _ => True := fun _ _ _ => trivial

/-! ## The file header (R271) -/

theorem nameField_length_le (bs : List Byte) : (nameField bs).length ≤ bs.length := by
  induction bs with
  | nil => simp [nameField]
  | cons b bs ih => simp only [nameField]; split <;> simp_all

/-- The name's characters go to `NAME[i]` and on, the terminator included. -/
theorem getName_reads (hK : K.Legal) (bs : List Byte) (i left : Nat) (h0 : (0 : Byte) ∈ bs)
    (hlen : (nameField bs).length ≤ left) :
    RxM.ReadsTo K (fun r => i + left ≤ r.name.length) (getName K i left) (byteBits (nameField bs)) ()
      (fun r => { r with name := r.name.take i ++ nameField bs ++ r.name.drop (i + (nameField bs).length) }) := by
  have h8 : 8 ≤ K.wordBits := by have := hK.wordBits_ge; omega
  induction bs generalizing i left with
  | nil => simp at h0
  | cons b bs ih =>
    have hb := b.isLt
    have hread := getBits_reads_lt hK h8 hb
    have hset : Rx.Aside fun r : Rx => { r with name := r.name.set i (BitVec.ofNat 8 b.toNat) } := fun _ _ => rfl
    have hset1 : ∀ r : Rx, i + 1 ≤ r.name.length → r.name.set i b = r.name.take i ++ [b] ++ r.name.drop (i + 1) := by
      intro r hr
      rw [List.set_eq_take_append_cons_drop, if_pos (by omega), List.append_assoc]; rfl
    by_cases hz : b = 0
    · subst hz
      simp only [nameField, if_true] at hlen ⊢
      obtain ⟨left, rfl⟩ : ∃ l, left = l + 1 := ⟨left - 1, by simp at hlen; omega⟩
      rw [getName]
      refine RxM.ReadsTo.congr (hread.to.bind (RxM.ReadsTo.bind (RxM.ReadsTo.modify (P := fun _ => True) hset)
        (P' := fun _ => True) (RxM.ReadsTo.pure ()) (fun _ _ => trivial) Rx.asideProp_true Rx.aside_id)
        (fun _ _ => trivial) Rx.asideProp_true (Rx.Aside.comp hset Rx.aside_id)) ?_ rfl ?_
      · simp [byteBits]
      · intro r hr
        simp only [Function.comp, id]
        rw [show BitVec.ofNat 8 (0 : Byte).toNat = 0 from rfl, hset1 r (by omega)]
        rfl
    · simp only [nameField, hz, if_false] at hlen ⊢
      obtain ⟨left, rfl⟩ : ∃ l, left = l + 1 := ⟨left - 1, by simp at hlen; omega⟩
      have h0' : (0 : Byte) ∈ bs := by
        rcases List.mem_cons.1 h0 with h | h
        · exact absurd h.symm hz
        · exact h
      have hbz : b.toNat ≠ 0 := fun h => hz (BitVec.eq_of_toNat_eq (by simpa using h))
      have ih' := ih (i + 1) left h0' (by simpa using hlen)
      have hg : Rx.Aside fun r : Rx => { r with
          name := r.name.take (i + 1) ++ nameField bs ++ r.name.drop (i + 1 + (nameField bs).length) } := fun _ _ => rfl
      rw [getName]
      refine RxM.ReadsTo.congr (hread.to.bind (P' := fun r => i + (left + 1) ≤ r.name.length)
        (g := (fun r : Rx => { r with
          name := r.name.take (i + 1) ++ nameField bs ++ r.name.drop (i + 1 + (nameField bs).length) }) ∘
          fun r : Rx => { r with name := r.name.set i (BitVec.ofNat 8 b.toNat) })
        (RxM.ReadsTo.bind (RxM.ReadsTo.modify hset)
          (P' := fun r => i + 1 + left ≤ r.name.length) (by rw [if_neg hbz]; exact ih')
          (fun r hr => by simp only [List.length_set]; omega) (fun q r h => h) hg)
        (fun r hr => hr) (fun q r h => h) (Rx.Aside.comp hset hg)) ?_ rfl ?_
      · simp [byteBits]
      · intro r hr
        simp only [Function.comp, id, BitVec.ofNat_toNat, BitVec.setWidth_eq]
        congr 1
        rw [hset1 r (by omega)]
        have hl : (r.name.take i ++ [b]).length = i + 1 := by simp; omega
        rw [List.take_left' hl, List.drop_append, hl]
        rw [List.drop_eq_nil_of_le (by rw [hl]; omega), List.drop_drop, List.nil_append,
          show i + 1 + (nameField bs).length - (i + 1) = (nameField bs).length by omega,
          List.length_cons, show i + 1 + (nameField bs).length = i + ((nameField bs).length + 1) by omega]
        simp

theorem getMagic_reads (hK : K.Legal) :
    RxM.ReadsTo K P (getMagic K) (fieldBits 8 K.magic0.toNat ++ fieldBits 8 K.magic1.toNat) () id := by
  have h8 : 8 ≤ K.wordBits := by have := hK.wordBits_ge; omega
  have h1 := (getBits_reads_lt hK h8 K.magic0.isLt).bind (f := fun m0 => do
    let m1 ← getBits K 8
    raiseIf (refuseIf (m0 ≠ K.magic0.toNat ∨ m1 ≠ K.magic1.toNat)
      ⟨.notASlimFile, m0 + 256 * m1, K.magic0.toNat + 256 * K.magic1.toNat⟩))
    (v := fieldBits 8 K.magic1.toNat ++ []) (b := ())
    ((getBits_reads_lt hK h8 K.magic1.isLt).bind (by
      rw [refuseIf_neg (by simp)]; exact RxM.Reads.pure ()))
  rw [List.append_nil] at h1
  exact h1.to

theorem getMtimeFlags_reads (hK : K.Legal) (mtime : U32) {flags : BitVec 8} (hf : flagsUnsupported flags = false) :
    RxM.ReadsTo K P (getMtimeFlags K) (fieldBits 32 mtime.toNat ++ fieldBits 8 flags.toNat) flags.toNat
      (fun r => { r with mtime := mtime, flags := flags }) := by
  have h8 : 8 ≤ K.wordBits := by have := hK.wordBits_ge; omega
  have h32 : 32 ≤ K.wordBits := hK.wordBits_ge
  have g1 : Rx.Aside fun r : Rx => { r with mtime := BitVec.ofNat 32 mtime.toNat } := fun _ _ => rfl
  have g2 : Rx.Aside fun r : Rx => { r with flags := BitVec.ofNat 8 flags.toNat } := fun _ _ => rfl
  have s4 : RxM.ReadsTo K (fun _ => True) (Machine.raiseIf (refuseIf (flagsUnsupported (BitVec.ofNat 8 flags.toNat))
      ⟨.unsupportedFeature, flags.toNat, 0⟩) >>= fun _ => (Pure.pure flags.toNat : RxM Nat)) ([] ++ []) flags.toNat
      (id ∘ id) :=
    (RxM.ReadsTo.raiseIf (P := fun _ => True) (by simp [hf])).seq (RxM.ReadsTo.pure (P := fun _ => True) _)
      (fun _ _ => trivial) Rx.asideProp_true Rx.aside_id
  have s3 := (RxM.ReadsTo.modify (K := K) (P := fun _ => True) g2).seq s4 (fun _ _ => trivial) Rx.asideProp_true
    (Rx.aside_id.comp Rx.aside_id)
  have s2 := (getBits_reads_lt hK h8 flags.isLt).to (P := fun _ => True) |>.bind (k := fun fl => do
      modify fun r => { r with flags := BitVec.ofNat 8 fl }
      Machine.raiseIf (refuseIf (flagsUnsupported (BitVec.ofNat 8 fl)) ⟨.unsupportedFeature, fl, 0⟩)
      Pure.pure fl) s3 (fun _ _ => trivial) Rx.asideProp_true (g2.comp (Rx.aside_id.comp Rx.aside_id))
  have s1 := (RxM.ReadsTo.modify (K := K) (P := fun _ => True) g1).seq s2 (fun _ _ => trivial) Rx.asideProp_true
    (Rx.aside_id.comp (g2.comp (Rx.aside_id.comp Rx.aside_id)))
  have s0 := ((getBits_reads_lt hK h32 mtime.isLt).to (P := P)).bind (k := fun mtime => do
      modify fun r => { r with mtime := BitVec.ofNat 32 mtime }
      let fl ← getBits K 8
      modify fun r => { r with flags := BitVec.ofNat 8 fl }
      Machine.raiseIf (refuseIf (flagsUnsupported (BitVec.ofNat 8 fl)) ⟨.unsupportedFeature, fl, 0⟩)
      Pure.pure fl) s1 (fun _ _ => trivial) Rx.asideProp_true
    (g1.comp (Rx.aside_id.comp (g2.comp (Rx.aside_id.comp Rx.aside_id))))
  refine s0.congr ?_ rfl ?_
  · simp
  · intro r _; simp [Function.comp]

theorem getRawSize_reads (hK : K.Legal) (flags : BitVec 8) (size : U32) :
    RxM.ReadsTo K P (getRawSize K flags) (if flagSize flags then fieldBits 32 size.toNat else []) ()
      (fun r => { r with rawSize := if flagSize flags then size else r.rawSize }) := by
  have h32 : 32 ≤ K.wordBits := hK.wordBits_ge
  have g1 : Rx.Aside fun r : Rx => { r with rawSize := BitVec.ofNat 32 size.toNat } := fun _ _ => rfl
  rw [getRawSize]
  split
  · refine RxM.ReadsTo.congr ((getBits_reads_lt hK h32 size.isLt).to.bind (P' := fun _ => True)
      (RxM.ReadsTo.modify g1) (fun _ _ => trivial) Rx.asideProp_true g1) ?_ rfl ?_
    · simp
    · intro r _; simp [Function.comp]
  · exact RxM.ReadsTo.pure ()

theorem getXtra_reads (hK : K.Legal) (flags : BitVec 8) :
    RxM.ReadsTo K P (getXtra K flags) (if flagXtra flags then fieldBits 16 0 else []) ()
      (fun r => { r with xtraLen := if flagXtra flags then 0 else r.xtraLen }) := by
  have h16 : 16 ≤ K.wordBits := by have := hK.wordBits_ge; omega
  have g1 : Rx.Aside fun r : Rx => { r with xtraLen := BitVec.ofNat 16 0 } := fun _ _ => rfl
  rw [getXtra]
  split
  · refine RxM.ReadsTo.congr ((getBits_reads_lt hK h16 (Nat.two_pow_pos 16)).to.bind (P' := fun _ => True)
      (RxM.ReadsTo.bind (RxM.ReadsTo.modify g1) (P' := fun _ => True) (RxM.ReadsTo.raiseIf (by simp))
        (fun _ _ => trivial) Rx.asideProp_true Rx.aside_id) (fun _ _ => trivial) Rx.asideProp_true
      (Rx.Aside.comp g1 Rx.aside_id)) ?_ rfl ?_
    · simp
    · intro r _; rfl
  · exact RxM.ReadsTo.pure ()

theorem Rx.headerLoaded_aside (flags : BitVec 8) (mtime rawSize : U32) (name : List Byte) :
    Rx.Aside (Rx.headerLoaded flags mtime rawSize name) := fun _ _ => rfl

/-- `P.HEADER` past its check takes back a file header whose flags it supports and whose name ends (R271, R116). -/
theorem getFileHeader_reads (hK : K.Legal) {flags : BitVec 8} (mtime rawSize : U32) {name : List Byte}
    (hf : flagsUnsupported flags = false)
    (hn : flagName flags = true → (0 : Byte) ∈ name ∧ (nameField name).length ≤ K.nameMax) :
    RxM.ReadsTo K (fun r => r.name.length = K.nameMax) (getFileHeader K) (headerBits K flags mtime rawSize name)
      flags.toNat (Rx.headerLoaded flags mtime rawSize name) := by
  have ef : BitVec.ofNat 8 flags.toNat = flags := by simp
  let P0 : Rx → Prop := fun r => r.name.length = K.nameMax
  have hP0 : Rx.AsideProp P0 := fun q r h => h
  have hname : RxM.ReadsTo K P0 (getNameField K flags)
      (if flagName flags then byteBits (nameField name) else []) ()
      (fun r => { r with
        name := if flagName flags then nameField name ++ r.name.drop (nameField name).length else r.name }) := by
    rw [getNameField]
    split
    · rename_i h
      refine ((getName_reads hK name 0 K.nameMax (hn h).1 (hn h).2).weaken fun r hr => by
        have : r.name.length = K.nameMax := hr
        omega).congr rfl rfl ?_
      intro r _
      simp
    · exact RxM.ReadsTo.pure ()
  let g1 : Rx → Rx := fun r => { r with mtime := mtime, flags := flags }
  let g2 : Rx → Rx := fun r => { r with rawSize := if flagSize flags then rawSize else r.rawSize }
  let g3 : Rx → Rx := fun r => { r with
    name := if flagName flags then nameField name ++ r.name.drop (nameField name).length else r.name }
  let g4 : Rx → Rx := fun r => { r with xtraLen := if flagXtra flags then 0 else r.xtraLen }
  let g5 : Rx → Rx := fun r => { r with pstate := .headerRead }
  have a2 : Rx.Aside g2 := fun _ _ => rfl
  have a3 : Rx.Aside g3 := fun _ _ => rfl
  have a4 : Rx.Aside g4 := fun _ _ => rfl
  have a5 : Rx.Aside g5 := fun _ _ => rfl
  have s5 := (RxM.ReadsTo.modify (K := K) (P := fun _ => True) a5).seq (RxM.ReadsTo.pure (P := fun _ => True) flags.toNat)
    (fun _ _ => trivial) Rx.asideProp_true Rx.aside_id
  have s4 := RxM.ReadsTo.seq (f := g4) (getXtra_reads (P := fun _ => True) hK flags) s5 (fun _ _ => trivial)
    Rx.asideProp_true (a5.comp Rx.aside_id)
  have s3 := RxM.ReadsTo.seq (f := g3) hname s4 (fun _ _ => trivial) Rx.asideProp_true (a4.comp (a5.comp Rx.aside_id))
  have s2 := RxM.ReadsTo.seq (f := g2) (getRawSize_reads (P := P0) hK flags rawSize) s3 (fun _ h => h) hP0
    (a3.comp (a4.comp (a5.comp Rx.aside_id)))
  have s1 := RxM.ReadsTo.bind (f := g1) (getMtimeFlags_reads (P := P0) hK mtime hf)
    (k := fun fl => getRawSize K (BitVec.ofNat 8 fl) >>= fun _ =>
      getNameField K (BitVec.ofNat 8 fl) >>= fun _ =>
        getXtra K (BitVec.ofNat 8 fl) >>= fun _ => modify g5 >>= fun _ => (Pure.pure fl : RxM Nat))
    (by rw [ef]; exact s2) (fun _ h => h) hP0 (a2.comp (a3.comp (a4.comp (a5.comp Rx.aside_id))))
  have s0 := (getMagic_reads (P := P0) hK).seq s1 (fun _ h => h) hP0
    (Rx.Aside.comp (f := g1) (fun _ _ => rfl) (a2.comp (a3.comp (a4.comp (a5.comp Rx.aside_id)))))
  refine RxM.ReadsTo.congr (g := Rx.headerLoaded flags mtime rawSize name) s0 ?_ rfl ?_
  · simp [headerBits]
  · intro r _
    rfl

/-! ## The section header (R276, R277) -/

theorem Alg.ofCode_code (a : Alg) : Alg.ofCode a.code = some a := by cases a <;> rfl

theorem DType.ofCode_code (d : DType) : DType.ofCode d.code = some d := by cases d <;> rfl

theorem Alg.code_lt (a : Alg) : a.code < 4 := by cases a <;> decide

theorem DType.code_lt (d : DType) : d.code < 6 := by cases d <;> decide

theorem lt_two_pow_of_le {v a b : Nat} (h : v < 2 ^ a) (hab : a ≤ b) : v < 2 ^ b :=
  Nat.lt_of_lt_of_le h (Nat.pow_le_pow_right (by omega) hab)

theorem getSectionSize_reads (hK : K.Legal) {len : Nat} (h0 : 0 < len) (hl : len ≤ K.maxSectionLength) :
    (getSectionSize K).Reads K (fieldBits K.sectSizeBits len) len := by
  have h1 := hK.sectSizeBits
  have h2 := hK.maxSectionLength
  have hW := hK.wordBits_ge
  have := (getBits_reads_lt hK (show K.sectSizeBits ≤ K.wordBits by omega) (v := len) (by omega)).bind (f := fun size => do
    raiseIf (refuseIf (size = 0) ⟨.corruptStream, 0, 0⟩ <|>
      refuseIf (K.maxSectionLength < size) ⟨.bufferSizeExceeded, size, K.maxSectionLength⟩)
    pure size) (v := []) (b := len) (by
      rw [refuseIf_neg (by omega), refuseIf_neg (by omega)]; exact RxM.Reads.pure len)
  rwa [List.append_nil] at this

theorem getChannelCount_reads (hK : K.Legal) {flags : BitVec 8} {n : Nat} (h0 : 0 < n) (hn : n ≤ K.maxChannels)
    (h1 : flagOneChan flags = true → n = 1) :
    (getChannelCount K flags).Reads K (if flagOneChan flags then [] else fieldBits K.numChanBits n) n := by
  have hb := hK.numChanBits
  have hm := hK.maxChannels
  have hW := hK.wordBits_ge
  have hend : ∀ m, m = n → RxM.Reads K (do
    raiseIf (refuseIf (m = 0) ⟨.corruptStream, 0, 1⟩ <|>
      refuseIf (K.maxChannels < m) ⟨.bufferSizeExceeded, m, K.maxChannels⟩)
    pure m) [] n := by
    intro m hm; subst hm
    rw [refuseIf_neg (by omega), refuseIf_neg (by omega)]
    exact RxM.Reads.pure m
  simp only [getChannelCount]
  split
  · rename_i h
    exact (RxM.Reads.pure (K := K) 1).bind (hend 1 (h1 h).symm)
  · have := (getBits_reads_lt hK (show K.numChanBits ≤ K.wordBits by omega) (v := n) (by omega)).bind (f := fun m => do
      raiseIf (refuseIf (m = 0) ⟨.corruptStream, 0, 1⟩ <|>
        refuseIf (K.maxChannels < m) ⟨.bufferSizeExceeded, m, K.maxChannels⟩)
      pure m) (hend n rfl)
    rwa [List.append_nil] at this

/-- The parameters of an algorithm (R276, R120). -/
theorem getParams_reads (hK : K.Legal) {ch : Channel} (hch : ch.Ok) (hcd : ch.Codable) :
    (getParams K ch.alg ch.width).Reads K (paramBits K ch)
      (if ch.alg = .reducedBinary then ch.offset.toNat % 2 ^ ch.width else 0,
       if ch.alg = .reducedBinary then ch.nbits.toNat else ch.width,
       if ch.alg = .constant then ch.const.toNat % 2 ^ ch.width else 0) := by
  have hW := hK.wordBits_ge
  have hn := hK.nbitsBits
  have hw : ch.width ≤ K.wordBits := by have := ch.width_le; omega
  have hnb := hch.nbits
  have hmod : ∀ x, x % 2 ^ ch.width < 2 ^ ch.width := fun x => Nat.mod_lt _ (Nat.two_pow_pos _)
  have hcd' := hcd.nbits
  simp only [getParams, paramBits]
  cases ha : ch.alg
  · exact RxM.Reads.pure _
  · have hle := hcd' ha
    refine (getBits_reads_lt hK hw (hmod _)).bind ?_
    have h2 : ch.nbits.toNat - 1 < 2 ^ K.nbitsBits := lt_two_pow_of_le (a := 5) (by omega) hn.1
    have := (getBits_reads_lt hK (show K.nbitsBits ≤ K.wordBits by omega) h2).bind (f := fun nb => do
      raiseIf (refuseIf (ch.width < nb + 1) ⟨.corruptStream, nb + 1, 6⟩)
      pure (ch.offset.toNat % 2 ^ ch.width, nb + 1, 0)) (v := [])
      (b := (ch.offset.toNat % 2 ^ ch.width, ch.nbits.toNat, 0)) (by
        rw [refuseIf_neg (by omega), show ch.nbits.toNat - 1 + 1 = ch.nbits.toNat by omega]
        exact RxM.Reads.pure _)
    rw [List.append_nil] at this
    simpa using this
  · exact RxM.Reads.pure _
  · have := (getBits_reads_lt hK hw (hmod ch.const.toNat)).bind (f := fun const => pure (0, ch.width, const))
      (RxM.Reads.pure _)
    rw [List.append_nil] at this
    simpa using this

theorem channelOfFields_parsed {ch : Channel} (reps : Nat) (hr : reps = ch.reps.toNat) :
    channelOfFields reps (bit ch.delta) ch.rot.toNat ch.dtype ch.alg
      (if ch.alg = .reducedBinary then ch.offset.toNat % 2 ^ ch.width else 0,
       if ch.alg = .reducedBinary then ch.nbits.toNat else ch.width,
       if ch.alg = .constant then ch.const.toNat % 2 ^ ch.width else 0) = ch.parsed := by
  subst hr
  have hd : (bit ch.delta == 1) = ch.delta := by cases ch.delta <;> rfl
  simp only [channelOfFields, Channel.parsed, hd, BitVec.ofNat_toNat, BitVec.setWidth_eq]
  cases ch.alg <;> simp

/-- One channel of a section header (R276, R119). -/
theorem getChannel_reads (hK : K.Legal) {withReps : Bool} {ch : Channel} (hch : ch.Ok) (hcd : ch.Codable)
    (hreps : if withReps then ch.reps.toNat < 2 ^ K.repsBits else ch.reps = 1) (c : Nat) :
    RxM.ReadsTo K P (getChannel K withReps c) (chanHeaderBits K withReps ch) ()
      (fun r => { r with chans := r.chans ++ [ch.parsed] }) := by
  have hW := hK.wordBits_ge
  have hr := hK.repsBits
  have hn := hK.nbitsBits
  have ha := hK.algBits
  have ht := hK.typeBits
  have hrot := hcd.rot
  have hw5 : ch.rot.toNat < 2 ^ 5 := ch.rot.isLt
  have hac := ch.alg.code_lt
  have htc := ch.dtype.code_lt
  have hreads : RxM.Reads K (if withReps then getBits K K.repsBits else pure 1)
      (if withReps then fieldBits K.repsBits ch.reps.toNat else []) ch.reps.toNat := by
    split at hreps
    · rename_i h; simp only [h, if_true]; exact getBits_reads_lt hK (by omega) hreps
    · rename_i h; rw [if_neg h, if_neg h, hreps]; exact RxM.Reads.pure 1
  have hcheck : chanFieldsCheck c ch.reps.toNat ch.rot.toNat ch.alg.code ch.dtype.code = none := by
    have h0 : ch.reps.toNat ≠ 0 := fun h0 => hch.reps (BitVec.eq_of_toNat_eq (by simpa using h0))
    simp only [chanFieldsCheck, orElse_eq_none, refuseIf_eq_none, DType.ofCode_code, Option.getD_some]
    refine ⟨h0, by omega, by omega, by omega, ?_⟩
    show ¬ ch.width ≤ _
    omega
  have g1 : Rx.Aside fun r : Rx => { r with chans := r.chans ++ [ch.parsed] } := fun _ _ => rfl
  have last : RxM.ReadsTo K (fun _ => True) (do
      let params ← getParams K ((Alg.ofCode ch.alg.code).getD default) ((DType.ofCode ch.dtype.code).getD default).width
      modify fun r => { r with
        chans := r.chans ++ [channelOfFields ch.reps.toNat (bit ch.delta) ch.rot.toNat
          ((DType.ofCode ch.dtype.code).getD default) ((Alg.ofCode ch.alg.code).getD default) params] })
      (paramBits K ch ++ []) () (fun r => { r with chans := r.chans ++ [ch.parsed] }) := by
    rw [Alg.ofCode_code, DType.ofCode_code]
    simp only [Option.getD_some]
    refine (getParams_reads hK hch hcd).thenTo ?_ Rx.asideProp_true g1
    rw [channelOfFields_parsed _ rfl]
    exact RxM.ReadsTo.modify g1
  have htype := getBits_reads_lt hK (show K.typeBits ≤ K.wordBits by omega) (v := ch.dtype.code)
    (lt_two_pow_of_le (a := 3) (by omega) ht.1)
  have halg := getBits_reads_lt hK (show K.algBits ≤ K.wordBits by omega) (v := ch.alg.code)
    (lt_two_pow_of_le (a := 2) (by omega) ha.1)
  have hrt := getBits_reads_lt hK (show K.nbitsBits ≤ K.wordBits by omega) (v := ch.rot.toNat)
    (lt_two_pow_of_le hw5 hn.1)
  have hdl := getBits_reads_lt hK (show 1 ≤ K.wordBits by omega) (v := bit ch.delta) (by cases ch.delta <;> decide)
  have whole : RxM.ReadsTo K (fun _ => True) (getChannel K withReps c)
      ((if withReps then fieldBits K.repsBits ch.reps.toNat else []) ++ (fieldBits 1 (bit ch.delta) ++
        (fieldBits K.nbitsBits ch.rot.toNat ++ (fieldBits K.algBits ch.alg.code ++
          (fieldBits K.typeBits ch.dtype.code ++ ([] ++ (paramBits K ch ++ []))))))) ()
      (fun r => { r with chans := r.chans ++ [ch.parsed] }) := by
    unfold getChannel
    refine hreads.thenTo ?_ Rx.asideProp_true g1
    refine hdl.thenTo ?_ Rx.asideProp_true g1
    refine hrt.thenTo ?_ Rx.asideProp_true g1
    refine halg.thenTo ?_ Rx.asideProp_true g1
    refine htype.thenTo ?_ Rx.asideProp_true g1
    exact (RxM.Reads.raiseIf hcheck).thenTo last Rx.asideProp_true g1
  refine RxM.ReadsTo.congr (whole.weaken fun _ _ => trivial) ?_ rfl fun _ _ => rfl
  simp [chanHeaderBits]

theorem getChannels_reads (hK : K.Legal) {withReps : Bool} (chs : List Channel) (h : ∀ ch ∈ chs, ch.Ok ∧ ch.Codable)
    (hreps : if withReps then ∀ ch ∈ chs, ch.reps.toNat < 2 ^ K.repsBits else ∀ ch ∈ chs, ch.reps = 1) (c : Nat) :
    RxM.ReadsTo K P (getChannels K withReps c chs.length) (chs.flatMap (chanHeaderBits K withReps)) ()
      (fun r => { r with chans := r.chans ++ chs.map Channel.parsed }) := by
  induction chs generalizing c P with
  | nil => exact (RxM.ReadsTo.pure ()).congr rfl rfl fun r _ => by simp
  | cons ch chs ih =>
    have h1 := h ch (List.mem_cons_self ..)
    have hr1 : if withReps then ch.reps.toNat < 2 ^ K.repsBits else ch.reps = 1 := by
      cases withReps <;> simp_all
    have hr2 : if withReps then ∀ ch ∈ chs, ch.reps.toNat < 2 ^ K.repsBits else ∀ ch ∈ chs, ch.reps = 1 := by
      cases withReps <;> simp_all
    have ih' := ih (P := fun _ => True) (fun x hx => h x (List.mem_cons_of_mem _ hx)) hr2 (c + 1)
    refine RxM.ReadsTo.congr (g := fun r => { r with chans := r.chans ++ (ch :: chs).map Channel.parsed })
      ((getChannel_reads (P := P) hK h1.1 h1.2 hr1 c).seq ih' (fun _ _ => trivial) Rx.asideProp_true
        (fun _ _ => rfl)) ?_ rfl ?_
    · simp
    · intro r _; simp [Function.comp]

/-- The fields of a section header (R276, R119). -/
theorem getSectionFields_reads (hK : K.Legal) {flags : BitVec 8} {chans : List Channel} (hl : LayoutOk K flags chans)
    {len : Nat} (h0 : 0 < len) (hlen : len ≤ K.maxSectionLength) :
    RxM.ReadsTo K (fun r => r.flags = flags) (getSectionFields K) (sectionHeaderBits K flags chans len) len
      (fun r => { r with chans := chans.map Channel.parsed }) := by
  have hpos : 0 < chans.length := List.length_pos_of_ne_nil hl.some
  have g1 : Rx.Aside fun r : Rx => { r with chans := [] } := fun _ _ => rfl
  have g2 : Rx.Aside fun r : Rx => { r with chans := r.chans ++ chans.map Channel.parsed } := fun _ _ => rfl
  have hA : Rx.AsideProp fun r : Rx => r.flags = flags := fun _ _ h => h
  have s4 := (getChannels_reads (P := fun _ => True) hK chans hl.each hl.reps 0).seq
    (RxM.ReadsTo.pure (P := fun _ => True) len) (fun _ _ => trivial) Rx.asideProp_true Rx.aside_id
  have s3 := (RxM.ReadsTo.modify (K := K) (P := fun _ => True) g1).seq s4 (fun _ _ => trivial) Rx.asideProp_true
    (g2.comp Rx.aside_id)
  have s2 := ((getChannelCount_reads hK hpos hl.count hl.one).to (P := fun r => r.flags = flags)).bind
    (k := fun n => do
      modify fun r => { r with chans := [] }
      getChannels K (repsPresent flags n) 0 n
      pure len) s3 (fun _ _ => trivial) Rx.asideProp_true (g1.comp (g2.comp Rx.aside_id))
  have s1 := RxM.ReadsTo.getBind (K := K) (P := fun r => r.flags = flags) (k := fun r => do
      let n ← getChannelCount K r.flags
      modify fun r => { r with chans := [] }
      getChannels K (repsPresent r.flags n) 0 n
      pure len) (fun r hr => by rw [hr]) s2
  have s0 := ((getSectionSize_reads hK h0 hlen).to (P := fun r => r.flags = flags)).bind (k := fun size => do
      let r ← get
      let n ← getChannelCount K r.flags
      modify fun r => { r with chans := [] }
      getChannels K (repsPresent r.flags n) 0 n
      pure size) s1 (fun _ h => h) hA (Rx.aside_id.comp (g1.comp (g2.comp Rx.aside_id)))
  refine RxM.ReadsTo.congr (g := fun r => { r with chans := chans.map Channel.parsed }) s0 ?_ rfl ?_
  · simp [sectionHeaderBits]
  · intro r _; rfl

end Sys2Proof.Machine
end

