-- ==== Sys2Proof/Laws/Sections.lean ====
section
/-! SUPPORT. The frame data of a section and the section as a whole, on the side of the parser (46_container_parser.md
R278 to R284, R287). -/

namespace Sys2Proof.Machine

variable {K : Config}

/-! ## Frame data is a list of vectors -/

/-- The vectors of a list, decoded in order. -/
def decVectors (K : Config) : List (Nat × Nat × Nat) → RxM Unit
  | [] => pure ()
  | v :: vs => do
    decVec K v.1 v.2.1 v.2.2
    decVectors K vs

theorem decVec_eq (K : Config) (c addr nbytes : Nat) (r : Rx) :
    decVec K c addr nbytes r =
      match decWords K c (ceilDiv nbytes (channelAt r.chans c).size) r with
      | .ok rs r' => .ok () { r' with raw := writeWords r'.raw addr (channelAt r.chans c).size nbytes rs }
      | .error e r' => .error e r' := by
  simp only [decVec, bind, EStateM.bind, get, MonadState.get, getThe, MonadStateOf.get, EStateM.get]
  cases decWords K c (ceilDiv nbytes (channelAt r.chans c).size) r <;> rfl

/-- `DecVec`, whether or not it comes to an end (R225, R230). -/
theorem decVec_ends (hK : K.Legal) (c addr nbytes : Nat) (r : Rx) :
    match decVec K c addr nbytes r with
    | .ok _ r' => ∃ ys rs, ({ r with
        chans := (if (channelAt r.chans c).alg = .constant then r.chans
          else r.chans.set c (stageIn (channelAt r.chans c) ys).2)
        raw := writeWords r.raw addr (channelAt r.chans c).size nbytes rs } : Rx).Touched K r'
    | .error _ r' => r.Touched K r' := by
  rw [decVec_eq]
  have h := decWords_ends hK c (ceilDiv nbytes (channelAt r.chans c).size) r
  cases hx : decWords K c (ceilDiv nbytes (channelAt r.chans c).size) r with
  | ok rs r1 =>
    rw [hx] at h
    obtain ⟨ys, h⟩ := h
    refine ⟨ys, rs, ?_⟩
    have hr : r1.raw = r.raw := h.raw_eq
    rw [hr]
    exact ⟨congrArg (fun x : Rx => { x with raw := writeWords r.raw addr (channelAt r.chans c).size nbytes rs }) h.frame,
      h.length, h.srcpos⟩
  | error e r1 => rw [hx] at h; exact h

theorem stageIn_share (ch : Channel) (ys : List Nat) : (stageIn ch ys).2.share = ch.share := by
  rw [stageIn_channel]; rfl

theorem decVec_share (hK : K.Legal) {c addr nbytes : Nat} {r r' : Rx} (hc : c < r.chans.length)
    (h : decVec K c addr nbytes r = .ok () r') :
    r'.chans.map Channel.share = r.chans.map Channel.share ∧ r'.chans.length = r.chans.length := by
  have he := decVec_ends hK c addr nbytes r
  rw [h] at he
  obtain ⟨ys, rs, ht⟩ := he
  have hcs := ht.chans_eq
  simp only at hcs
  rw [hcs]
  split
  · exact ⟨rfl, rfl⟩
  · exact ⟨map_share_set hc (stageIn_share ..), by simp⟩

/-- The partial frame is its vectors (R279). -/
theorem decPartial_eq (hK : K.Legal) (base n c rem : Nat) {r : Rx} (hn : c + n = r.chans.length) :
    decPartial K base (List.range' c n) rem r =
      decVectors K (partialVectors (base + frameOffset r.chans c) c (r.chans.drop c) rem) r := by
  induction n generalizing c rem r with
  | zero =>
    have : r.chans.drop c = [] := by rw [List.drop_eq_nil_iff]; omega
    rw [this]; rfl
  | succ n ih =>
    have hc : c < r.chans.length := by omega
    rw [List.drop_eq_getElem_cons hc, ← channelAt_eq hc, List.range'_succ]
    simp only [decPartial, partialVectors]
    by_cases hrem : rem = 0
    · simp only [if_pos hrem]; rfl
    · simp only [if_neg hrem, bind, EStateM.bind, get, MonadState.get, getThe, MonadStateOf.get, EStateM.get, decVectors]
      cases hx : decVec K c (base + frameOffset r.chans c) (min rem (channelAt r.chans c).share) r with
      | ok u r1 =>
        obtain ⟨hsh, hl⟩ := decVec_share hK hc hx
        simp only
        rw [ih (c + 1) _ (by omega), frameOffset_congr hsh, frameOffset_succ hc, ← Nat.add_assoc,
          partialVectors_congr (ds := r.chans.drop (c + 1)) (by rw [List.map_drop, List.map_drop, hsh])]
      | error e r1 => rfl

theorem decFrame_eq_partial (hK : K.Legal) (base n c : Nat) {r : Rx} (hpos : ∀ x ∈ r.chans.map Channel.share, 0 < x)
    (hn : c + n = r.chans.length) :
    decFrame K base (List.range' c n) r =
      decPartial K base (List.range' c n) (frameSize r.chans - frameOffset r.chans c) r := by
  induction n generalizing c r with
  | zero => rfl
  | succ n ih =>
    have hc : c < r.chans.length := by omega
    have hs := hpos _ (List.mem_map_of_mem (channelAt_mem hc))
    have hle := frameOffset_add_share_le hc
    have hmin : min (frameSize r.chans - frameOffset r.chans c) (channelAt r.chans c).share =
        (channelAt r.chans c).share := Nat.min_eq_right (by omega)
    rw [List.range'_succ]
    simp only [decFrame, decPartial]
    rw [if_neg (by omega)]
    simp only [bind, EStateM.bind, get, MonadState.get, getThe, MonadStateOf.get, EStateM.get, hmin]
    cases hx : decVec K c (base + frameOffset r.chans c) (channelAt r.chans c).share r with
    | ok u r1 =>
      obtain ⟨hsh, hl⟩ := decVec_share hK hc hx
      simp only
      rw [ih (c + 1) (by rw [hsh]; exact hpos) (by omega), frameSize_congr hsh, frameOffset_congr hsh,
        frameOffset_succ hc]
      congr 1
      omega
    | error e r1 => rfl

/-- A whole frame is its vectors (R278). -/
theorem decFrame_eq (hK : K.Legal) (base : Nat) {r : Rx} (hpos : ∀ x ∈ r.chans.map Channel.share, 0 < x) :
    decFrame K base (List.range r.chans.length) r = decVectors K (frameVectors base r.chans) r := by
  have h0 : frameOffset r.chans 0 = 0 := rfl
  rw [List.range_eq_range', decFrame_eq_partial hK base _ 0 hpos (by omega), decPartial_eq hK _ _ 0 _ (by omega), h0,
    Nat.sub_zero, Nat.add_zero, List.drop_zero]
  rfl

theorem decVectors_append (vs ws : List (Nat × Nat × Nat)) (r : Rx) :
    decVectors K (vs ++ ws) r =
      match decVectors K vs r with
      | .ok _ r' => decVectors K ws r'
      | .error e r' => .error e r' := by
  induction vs generalizing r with
  | nil => rfl
  | cons v vs ih =>
    simp only [List.cons_append, decVectors, bind, EStateM.bind]
    cases decVec K v.1 v.2.1 v.2.2 r with
    | ok u r1 => exact ih r1
    | error e r1 => rfl

theorem decVectors_share (hK : K.Legal) (vs : List (Nat × Nat × Nat)) {r r' : Rx}
    (hv : ∀ v ∈ vs, v.1 < r.chans.length) (h : decVectors K vs r = .ok () r') :
    r'.chans.map Channel.share = r.chans.map Channel.share ∧ r'.chans.length = r.chans.length := by
  induction vs generalizing r with
  | nil => cases h; exact ⟨rfl, rfl⟩
  | cons v vs ih =>
    simp only [decVectors, bind, EStateM.bind] at h
    cases hx : decVec K v.1 v.2.1 v.2.2 r with
    | ok u r1 =>
      rw [hx] at h
      obtain ⟨hsh, hl⟩ := decVec_share hK (hv v (List.mem_cons_self ..)) hx
      obtain ⟨h1, h2⟩ := ih (fun w hw => by rw [hl]; exact hv w (List.mem_cons_of_mem _ hw)) h
      exact ⟨h1.trans hsh, h2.trans hl⟩
    | error e r1 => rw [hx] at h; cases h

theorem frameVectors_index {cs : List Channel} {base : Nat} {v : Nat × Nat × Nat} (h : v ∈ frameVectors base cs) :
    v.1 < cs.length := by
  have := partialVectors_mem h; omega

theorem decFrames_eq (hK : K.Legal) (f n : Nat) {r : Rx} (hpos : ∀ x ∈ r.chans.map Channel.share, 0 < x) :
    decFrames K f n r =
      decVectors K ((List.range' f n).flatMap fun g => frameVectors (g * frameSize r.chans) r.chans) r := by
  induction n generalizing f r with
  | zero => rfl
  | succ n ih =>
    simp only [decFrames, bind, EStateM.bind, get, MonadState.get, getThe, MonadStateOf.get, EStateM.get]
    rw [decFrame_eq hK _ hpos, List.range'_succ, List.flatMap_cons, decVectors_append]
    cases hx : decVectors K (frameVectors (f * frameSize r.chans) r.chans) r with
    | ok u r1 =>
      obtain ⟨hsh, hl⟩ := decVectors_share hK _ (fun v hv => frameVectors_index hv) hx
      simp only
      rw [ih (f + 1) (by rw [hsh]; exact hpos)]
      congr 2
      funext g
      rw [frameSize_congr hsh, frameVectors_congr hsh]
    | error e r1 => rfl

/-- The frame data of a section is its vectors (R278, R279). -/
theorem decSection_eq (hK : K.Legal) (size : Nat) {r : Rx} (hpos : ∀ x ∈ r.chans.map Channel.share, 0 < x) :
    decSection K size r = decVectors K (sectionVectors r.chans size) r := by
  simp only [decSection, bind, EStateM.bind, get, MonadState.get, getThe, MonadStateOf.get, EStateM.get]
  rw [decFrames_eq hK _ _ hpos, sectionVectors, decVectors_append]
  simp only [List.range_eq_range']
  cases hx : decVectors K ((List.range' 0 (size / frameSize r.chans)).flatMap
    fun g => frameVectors (g * frameSize r.chans) r.chans) r with
  | ok u r1 =>
    obtain ⟨hsh, hl⟩ := decVectors_share hK _ (fun v hv => by
      obtain ⟨g, _, hv⟩ := List.mem_flatMap.1 hv
      exact frameVectors_index hv) hx
    have h0 : ∀ cs, frameOffset cs 0 = 0 := fun _ => rfl
    simp only
    rw [decPartial_eq hK _ _ 0 _ (by omega), h0, Nat.add_zero, List.drop_zero,
      partialVectors_congr hsh]
  | error e r1 => rfl

/-! ## Channels that code alike -/

/-- `y` codes, decodes and lays out as `x` does: what a parser knows of a generator's channel. -/
structure Channel.Alike (x y : Channel) : Prop where
  reps : y.reps = x.reps
  dtype : y.dtype = x.dtype
  alg : y.alg = x.alg
  delta : y.delta = x.delta
  rot : y.rot = x.rot
  prev : y.prev = x.prev
  offset : x.alg = .reducedBinary → y.offset.toNat % 2 ^ x.width = x.offset.toNat % 2 ^ x.width
  nbits : x.alg = .reducedBinary → y.nbits = x.nbits
  const : x.alg = .constant → y.const.toNat % 2 ^ x.width = x.const.toNat % 2 ^ x.width

theorem Channel.Alike.width {x y : Channel} (h : x.Alike y) : y.width = x.width := by
  simp only [Channel.width, h.dtype]

theorem Channel.Alike.share {x y : Channel} (h : x.Alike y) : y.share = x.share := by
  simp only [Channel.share, Channel.size, h.dtype, h.reps]

theorem Channel.Alike.stageOut {x y : Channel} (h : x.Alike y) (rs : List Nat) :
    (stageOut y rs).1 = (stageOut x rs).1 ∧ (stageOut y rs).2.prev = (stageOut x rs).2.prev := by
  simp only [Machine.stageOut, h.width, h.rot, h.prev, h.delta]
  split <;> simp [h.prev]

theorem Channel.Alike.codecCoded {x y : Channel} (h : x.Alike y) (ys : List Nat) (bits : List Bool) :
    CodecCoded y ys bits ↔ CodecCoded x ys bits := by
  simp only [CodecCoded, h.width, h.alg]
  cases ha : x.alg
  · rfl
  · have hb : RbCoded y = RbCoded x := by
      funext v b
      simp only [RbCoded, rbBits, rbSentinel, h.width, h.offset ha, h.nbits ha]
      congr
    simp only [hb]
  · rfl
  · rfl

theorem Channel.Alike.vectorCoded {x y : Channel} (h : x.Alike y) (rs : List Nat) (bits : List Bool) :
    VectorCoded y rs bits ↔ VectorCoded x rs bits := by
  simp only [VectorCoded, (h.stageOut rs).1, h.codecCoded]

theorem Channel.Alike.chanAfter {x y : Channel} (h : x.Alike y) (rs : List Nat) :
    (chanAfter x rs).Alike (chanAfter y rs) := by
  have hp : (Machine.chanAfter y rs).prev = (Machine.chanAfter x rs).prev := by
    simp only [Machine.chanAfter, h.alg]
    split
    · exact h.prev
    · exact (h.stageOut rs).2
  have hx := chanAfter_eq x rs
  have hy := chanAfter_eq y rs
  rw [hx, hy]
  exact ⟨h.reps, h.dtype, h.alg, h.delta, h.rot, hp, h.offset, h.nbits, h.const⟩

theorem Channel.Alike.constantWord {x y : Channel} (h : x.Alike y) (ha : x.alg = .constant) :
    constantWord y = constantWord x := by
  simp only [Machine.constantWord, h.width, h.const ha, h.rot]

theorem Channel.parsed_alike (ch : Channel) : ({ ch with prev := 0 } : Channel).Alike ch.parsed := by
  have hw := ch.width_le
  have hmod : ∀ v : Nat, (BitVec.ofNat 32 (v % 2 ^ ch.width)).toNat % 2 ^ ch.width = v % 2 ^ ch.width := by
    intro v
    have : v % 2 ^ ch.width < 2 ^ 32 := lt_two_pow_of_le (Nat.mod_lt _ (Nat.two_pow_pos _)) hw
    rw [BitVec.toNat_ofNat, Nat.mod_eq_of_lt this, Nat.mod_mod]
  refine ⟨rfl, rfl, rfl, rfl, rfl, rfl, fun ha => ?_, fun ha => ?_, fun ha => ?_⟩
  · have ha' : ch.alg = .reducedBinary := ha
    show (Channel.parsed ch).offset.toNat % 2 ^ ch.width = ch.offset.toNat % 2 ^ ch.width
    simp only [Channel.parsed, ha', if_true, hmod]
  · have ha' : ch.alg = .reducedBinary := ha
    simp only [Channel.parsed, ha', if_true]
  · have ha' : ch.alg = .constant := ha
    show (Channel.parsed ch).const.toNat % 2 ^ ch.width = ch.const.toNat % 2 ^ ch.width
    simp only [Channel.parsed, ha', if_true, hmod]

theorem Channel.parsed_ok {ch : Channel} (h : ch.Ok) : ch.parsed.Ok := by
  have hw := ch.width_le
  have hg := ch.width_ge
  refine ⟨h.reps, ?_, Nat.two_pow_pos _⟩
  simp only [Channel.parsed]
  split
  · exact h.nbits
  · rw [BitVec.toNat_ofNat, Nat.mod_eq_of_lt (by omega)]; omega

theorem Channel.parsed_codable {ch : Channel} (h : ch.Codable) : ch.parsed.Codable := by
  refine ⟨h.rot, fun ha => ?_⟩
  have ha' : ch.alg = .reducedBinary := ha
  simp only [Channel.parsed, ha', if_true]
  exact h.nbits ha'

/-- Lists of channels that code alike, one by one. -/
def AllAlike (xs ys : List Channel) : Prop := List.Forall₂ Channel.Alike xs ys

theorem AllAlike.share {xs ys : List Channel} (h : AllAlike xs ys) :
    ys.map Channel.share = xs.map Channel.share := by
  induction h with
  | nil => rfl
  | cons h1 _ ih => simp only [List.map_cons, h1.share, ih]

theorem AllAlike.at {xs ys : List Channel} (h : AllAlike xs ys) {c : Nat} (hc : c < xs.length) :
    (channelAt xs c).Alike (channelAt ys c) := by
  induction h generalizing c with
  | nil => simp at hc
  | cons h1 _ ih =>
    cases c with
    | zero => exact h1
    | succ c => exact ih (by simpa using hc)

theorem AllAlike.set {xs ys : List Channel} (h : AllAlike xs ys) {c : Nat} {x y : Channel} (hxy : x.Alike y) :
    AllAlike (xs.set c x) (ys.set c y) := by
  induction h generalizing c with
  | nil => exact .nil
  | cons h1 h2 ih =>
    cases c with
    | zero => exact .cons hxy h2
    | succ c => exact .cons h1 ih

theorem AllAlike.vectorsCoded {xs ys : List Channel} (h : AllAlike xs ys) (words : WordsAt) (vs : List (Nat × Nat × Nat))
    (hv : ∀ v ∈ vs, v.1 < xs.length) (bits : List Bool) : VectorsCoded words ys vs bits ↔ VectorsCoded words xs vs bits := by
  induction vs generalizing xs ys bits with
  | nil => rfl
  | cons v vs ih =>
    obtain ⟨c, addr, nbytes⟩ := v
    have hc := hv _ (List.mem_cons_self ..)
    have ha := h.at hc
    have hs : (channelAt ys c).size = (channelAt xs c).size := by simp only [Channel.size, ha.dtype]
    simp only [VectorsCoded, hs, ha.vectorCoded]
    refine exists₂_congr fun u v => and_congr_right fun _ => and_congr_left fun _ => ?_
    exact ih (h.set (ha.chanAfter _)) (fun w hm => by rw [List.length_set]; exact hv w (List.mem_cons_of_mem _ hm)) v

theorem parsed_allAlike (chans : List Channel) : AllAlike (resetHistories chans) (chans.map Channel.parsed) := by
  induction chans with
  | nil => exact .nil
  | cons ch chs ih => exact .cons (Channel.parsed_alike ch) ih

/-! ## Frame data, read back -/

theorem Channel.Codable.chanAfter {ch : Channel} (h : ch.Codable) (rs : List Nat) : (chanAfter ch rs).Codable := by
  rw [chanAfter_eq]; exact ⟨h.rot, h.nbits⟩

theorem decVec_readsTo (hK : K.Legal) {src : RawMem} {words : WordsAt} (hwo : WordsOf src words) {cs : List Channel} {c addr nbytes : Nat} (hc : c < cs.length)
    (hch : (channelAt cs c).Ok) (hcd : (channelAt cs c).Codable) (hn : nbytes < 2 ^ K.wordBits) {bits : List Bool}
    (hb : VectorCoded (channelAt cs c) (words addr (channelAt cs c).size nbytes) bits) :
    RxM.ReadsTo K (fun r => r.chans = cs) (decVec K c addr nbytes) bits ()
      (fun r => { r with
        chans := cs.set c (chanAfter (channelAt cs c) (words addr (channelAt cs c).size nbytes))
        raw := writeWords r.raw addr (channelAt cs c).size nbytes
          (decoded (channelAt cs c) (words addr (channelAt cs c).size nbytes)) }) where
  takes r hr hp rest ha := by
    have hs := (channelAt cs c).size_pos
    subst hp
    exact decVec_reads hK hr hc hch hcd (hwo.lt addr _ nbytes hs) (hwo.length addr _ nbytes hs) hn hb ha
  cut r hr hp more hm he := by
    have hs := (channelAt cs c).size_pos
    subst hp
    have hl := hwo.length addr _ nbytes hs
    have h0 : RxM.Cut K (decWords K c (words addr (channelAt r.chans c).size nbytes).length) r :=
      decWords_cut hK hr hch hcd (hwo.lt addr _ nbytes hs)
        (Nat.lt_of_le_of_lt (le_of_eq_of_le hl (ceilDiv_le_self hs)) hn) hb hm he
    rw [hl] at h0
    obtain ⟨r', p, h1, h2⟩ := h0
    exact ⟨r', p, by rw [decVec_eq, h1], h2⟩
  pos _ _ := rfl

/-- The vectors of a list take back any codes of theirs (R278, R279, R229). -/
theorem decVectors_reads (hK : K.Legal) {src : RawMem} {words : WordsAt} (hwo : WordsOf src words) (vs : List (Nat × Nat × Nat)) (cs : List Channel)
    (hcs : ∀ ch ∈ cs, ch.Ok ∧ ch.Codable) (hv : ∀ v ∈ vs, v.1 < cs.length ∧ v.2.2 < 2 ^ K.wordBits) {bits : List Bool}
    (hb : VectorsCoded words cs vs bits) :
    RxM.ReadsTo K (fun r => r.chans = cs) (decVectors K vs) bits ()
      (fun r => { r with chans := vectorsAfter words cs vs, raw := vectorsStored words cs vs r.raw }) := by
  induction vs generalizing cs bits with
  | nil =>
    cases hb
    exact (RxM.ReadsTo.pure ()).congr rfl rfl fun r hr => by simp only [vectorsAfter, vectorsStored, ← hr]; rfl
  | cons v vs ih =>
    obtain ⟨c, addr, nbytes⟩ := v
    obtain ⟨hc, hn⟩ := hv _ (List.mem_cons_self ..)
    obtain ⟨u, w, hu, hw, rfl⟩ := hb
    have h1 := hcs _ (channelAt_mem hc)
    have ih' := ih (cs.set c (chanAfter (channelAt cs c) (words addr (channelAt cs c).size nbytes)))
      (by
        intro x hx
        rcases List.mem_or_eq_of_mem_set hx with hm | rfl
        · exact hcs x hm
        · exact ⟨chanAfter_ok h1.1 (hwo.lt _ _ _ (Channel.size_pos _)), h1.2.chanAfter _⟩)
      (fun v hm => by rw [List.length_set]; exact hv v (List.mem_cons_of_mem _ hm)) hw
    exact (decVec_readsTo hK hwo hc h1.1 h1.2 hn hu).seq ih' (fun _ _ => rfl) (fun _ _ h => h) (fun _ _ => rfl)

theorem shares_pos {cs : List Channel} (h : ∀ ch ∈ cs, ch.Ok) : ∀ x ∈ cs.map Channel.share, 0 < x := by
  intro x hx
  obtain ⟨ch, hm, rfl⟩ := List.mem_map.1 hx
  exact Channel.share_pos (h ch hm)

theorem decSection_of (hK : K.Legal) (len : Nat) {cs : List Channel} (hcs : ∀ ch ∈ cs, ch.Ok ∧ ch.Codable) (r : Rx)
    (hp : r.chans = cs) : decSection K len r = decVectors K (sectionVectors cs len) r := by
  rw [decSection_eq hK len (by rw [hp]; exact shares_pos fun ch hm => (hcs ch hm).1), hp]

theorem decSection_reads (hK : K.Legal) {src : RawMem} {words : WordsAt} (hwo : WordsOf src words) {cs : List Channel} (hcs : ∀ ch ∈ cs, ch.Ok ∧ ch.Codable)
    {len : Nat} (hlen : len < 2 ^ K.wordBits) {bits : List Bool} (hb : VectorsCoded words cs (sectionVectors cs len) bits) :
    RxM.ReadsTo K (fun r => r.chans = cs) (decSection K len) bits ()
      (fun r => { r with
        chans := vectorsAfter words cs (sectionVectors cs len)
        raw := vectorsStored words cs (sectionVectors cs len) r.raw }) := by
  have h := decVectors_reads hK hwo (sectionVectors cs len) cs hcs (fun v hv => by
    have := sectionVectors_mem hv; exact ⟨this.1, by omega⟩) hb
  have heq := decSection_of hK len hcs
  refine ⟨fun r hr hp rest ha => by rw [heq r hp]; exact h.takes r hr hp rest ha, fun r hr hp more hm he => ?_, fun _ _ => rfl⟩
  obtain ⟨r', p, h1, h2⟩ := h.cut r hr hp more hm he
  exact ⟨r', p, by rw [heq r hp, h1], h2⟩

/-! ## What the raw memory holds afterwards -/

theorem Channel.Carries.congr {x y : Channel} {src : RawMem} {addr nbytes : Nat} (h : x.Carries src addr nbytes)
    (ha : x.Alike y) : y.Carries src addr nbytes := by
  intro hy j hj
  have hx : x.alg = .constant := ha.alg ▸ hy
  rw [h hx j hj, ha.constantWord hx]
  simp only [Channel.size, ha.dtype]

/-- Coding a vector leaves a channel carrying what it carried. -/
theorem Channel.Carries.after {ch : Channel} {src : RawMem} {addr nbytes : Nat} (h : ch.Carries src addr nbytes)
    (rs : List Nat) : (chanAfter ch rs).Carries src addr nbytes := by
  rw [chanAfter_eq]; exact h

/-- Words of one raw memory put into another carry the real bytes over, whatever the ghost bytes (R84). -/
theorem WordsOf.readByte_writeWords {src m : RawMem} {words : WordsAt} (hw : WordsOf src words) (hm : m.Wf)
    {addr a ws nbytes j : Nat} (hws : 0 < ws) (hj : j < nbytes) :
    (writeWords m addr ws nbytes (words a ws nbytes)).readByte (addr + j) = src.readByte (a + j) := by
  have h1 := Nat.div_add_mod j ws
  have h2 := Nat.mod_lt j hws
  have hin : j / ws * ws + j % ws < nbytes := by rw [Nat.mul_comm]; omega
  have e : ∀ b, b + j = b + j / ws * ws + j % ws := fun b => by rw [Nat.mul_comm]; omega
  rw [e addr, e a, readByte_writeWords_inside hm (hw.length a ws nbytes hws) h2 hin, hw.byte a ws nbytes _ _ h2 hin]

theorem writeWords_decoded {src m : RawMem} {words : WordsAt} (hwo : WordsOf src words) (hm : m.Wf) {ch : Channel} {addr nbytes j : Nat}
    (hc : ch.Carries src addr nbytes) (hj : j < nbytes) :
    (writeWords m addr ch.size nbytes (decoded ch (words addr ch.size nbytes))).readByte (addr + j) =
      src.readByte (addr + j) := by
  have hs := ch.size_pos
  have hl := hwo.length addr _ nbytes hs
  by_cases ha : ch.alg = .constant
  · have h1 := Nat.div_add_mod j ch.size
    have h2 := Nat.mod_lt j hs
    have hin : j / ch.size * ch.size + j % ch.size < nbytes := by rw [Nat.mul_comm]; omega
    have hi : j / ch.size < (words addr ch.size nbytes).length := by
      rw [hl, ceilDiv, Nat.lt_iff_add_one_le, Nat.le_div_iff_mul_le hs, Nat.succ_mul]
      omega
    rw [hc ha j hj]
    conv_lhs => rw [show addr + j = addr + j / ch.size * ch.size + j % ch.size by rw [Nat.mul_comm]; omega]
    rw [readByte_writeWords_inside hm (by rw [decoded_length, hl]) h2 hin]
    simp only [decoded, ha, if_true, List.getD_eq_getElem?_getD, List.getElem?_replicate, hi, Option.getD_some]
  · simp only [decoded, ha, if_false]
    exact hwo.readByte_writeWords hm hs hj

/-- A byte some vector covers is the source's afterwards; a byte that was the source's stays so. -/
theorem vectorsStored_byte {src : RawMem} {words : WordsAt} (hwo : WordsOf src words) (vs : List (Nat × Nat × Nat)) (cs : List Channel) {m : RawMem} (hm : m.Wf)
    (hv : ∀ v ∈ vs, v.1 < cs.length ∧ (channelAt cs v.1).Carries src v.2.1 v.2.2) {a : Nat}
    (ha : (∃ v ∈ vs, v.2.1 ≤ a ∧ a < v.2.1 + v.2.2) ∨ m.readByte a = src.readByte a) :
    (vectorsStored words cs vs m).readByte a = src.readByte a := by
  induction vs generalizing cs m with
  | nil => simpa [vectorsStored] using ha
  | cons v vs ih =>
    obtain ⟨c, addr, nbytes⟩ := v
    obtain ⟨hc, hcar⟩ := hv _ (List.mem_cons_self ..)
    simp only at hc hcar
    simp only [vectorsStored]
    refine ih _ (writeWords_wf hm _ _ _ _) (fun w hw => ?_) ?_
    · obtain ⟨h1, h2⟩ := hv w (List.mem_cons_of_mem _ hw)
      refine ⟨by rw [List.length_set]; exact h1, ?_⟩
      by_cases hcw : c = w.1
      · subst hcw; rw [channelAt_set_self hc]; exact h2.after _
      · rw [channelAt_set_ne hcw]; exact h2
    · by_cases hin : addr ≤ a ∧ a < addr + nbytes
      · right
        rw [show a = addr + (a - addr) by omega]
        exact writeWords_decoded hwo hm hcar (by omega)
      · rcases ha with ⟨w, hw, h1, h2⟩ | ha
        · rcases List.mem_cons.1 hw with rfl | hw
          · exact absurd ⟨h1, h2⟩ hin
          · exact .inl ⟨w, hw, h1, h2⟩
        · right
          rw [readByte_writeWords_outside _ _ (by omega)]; exact ha

theorem vectorsStored_outside (words : WordsAt) (vs : List (Nat × Nat × Nat)) (cs : List Channel) (m : RawMem) {a : Nat}
    (ha : ∀ v ∈ vs, a < v.2.1 ∨ v.2.1 + v.2.2 ≤ a) : (vectorsStored words cs vs m).readByte a = m.readByte a := by
  induction vs generalizing cs m with
  | nil => rfl
  | cons v vs ih =>
    simp only [vectorsStored]
    rw [ih _ _ fun w hw => ha w (List.mem_cons_of_mem _ hw), readByte_writeWords_outside _ _ (ha v (List.mem_cons_self ..))]

theorem vectorsStored_wf (words : WordsAt) (vs : List (Nat × Nat × Nat)) (cs : List Channel) {m : RawMem} (hm : m.Wf) :
    (vectorsStored words cs vs m).Wf := by
  induction vs generalizing cs m with
  | nil => exact hm
  | cons v vs ih => exact ih _ (writeWords_wf hm _ _ _ _)

/-- The vectors of a partial frame cover all of it. -/
theorem partialVectors_cover {cs : List Channel} {base c rem a : Nat} (hrem : rem ≤ frameSize cs) (h1 : base ≤ a)
    (h2 : a < base + rem) : ∃ v ∈ partialVectors base c cs rem, v.2.1 ≤ a ∧ a < v.2.1 + v.2.2 := by
  induction cs generalizing base c rem with
  | nil => simp [frameSize] at hrem; omega
  | cons ch chs ih =>
    have hfs : frameSize (ch :: chs) = ch.share + frameSize chs := by simp [frameSize]
    simp only [partialVectors]
    rw [if_neg (by omega)]
    by_cases hin : a < base + min rem ch.share
    · exact ⟨_, List.mem_cons_self .., h1, hin⟩
    · have hm : min rem ch.share = ch.share := by omega
      obtain ⟨v, hv, h3⟩ := ih (base := base + ch.share) (c := c + 1) (rem := rem - min rem ch.share) (by omega) (by omega)
        (by omega)
      exact ⟨v, List.mem_cons_of_mem _ hv, h3⟩

/-- The vectors of a section cover all of it. -/
theorem sectionVectors_cover {cs : List Channel} (hfs : 0 < frameSize cs) {len a : Nat} (ha : a < len) :
    ∃ v ∈ sectionVectors cs len, v.2.1 ≤ a ∧ a < v.2.1 + v.2.2 := by
  have hd := Nat.div_add_mod len (frameSize cs)
  have hmod := Nat.mod_lt len hfs
  have hd2 := Nat.div_add_mod a (frameSize cs)
  have hmod2 := Nat.mod_lt a hfs
  simp only [sectionVectors, List.mem_append, List.mem_flatMap, List.mem_range]
  rw [Nat.mul_comm] at hd hd2
  by_cases hlt : a / frameSize cs < len / frameSize cs
  · obtain ⟨v, hv, h⟩ := partialVectors_cover (cs := cs) (base := a / frameSize cs * frameSize cs) (c := 0)
      (rem := frameSize cs) (a := a) (le_refl _) (by omega) (by omega)
    exact ⟨v, .inl ⟨_, hlt, hv⟩, h⟩
  · have hle : len / frameSize cs * frameSize cs ≤ a / frameSize cs * frameSize cs := Nat.mul_le_mul_right _ (by omega)
    obtain ⟨v, hv, h⟩ := partialVectors_cover (cs := cs) (base := len / frameSize cs * frameSize cs) (c := 0)
      (rem := len % frameSize cs) (a := a) (by omega) (by omega) (by omega)
    exact ⟨v, .inr hv, h⟩

theorem frameSize_pos {cs : List Channel} (h0 : cs ≠ []) (h : ∀ ch ∈ cs, ch.Ok) : 0 < frameSize cs := by
  cases cs with
  | nil => exact absurd rfl h0
  | cons ch chs =>
    have := Channel.share_pos (h ch (List.mem_cons_self ..))
    simp only [frameSize, List.map_cons, List.sum_cons]; omega

/-! ## The end of a section (R280, R281) -/

theorem getCrc_reads (hK : K.Legal) {flags : BitVec 8} (src : RawMem) (len : Nat) :
    RxM.ReadsTo K (fun r => r.flags = flags ∧ r.raw.bytes 0 len = src.bytes 0 len) (getCrc K len)
      (crcBits K flags src len) ()
      (fun r => { r with
        sectCrc := if flagCrc flags then crc32 K (src.bytes 0 len) else r.sectCrc
        storedCrc := if flagCrc flags then crc32 K (src.bytes 0 len) else r.storedCrc }) := by
  rw [crcBits]
  refine ⟨fun r hr hp rest ha => ?_, fun r hr hp more hm he => ?_, fun _ _ => rfl⟩
  swap
  · by_cases hc : flagCrc flags = true
    · rw [if_pos hc] at he
      have h1 := ((getBits_reads_lt hK (hK.wordBits_ge) (crc32 K (src.bytes 0 len)).isLt).cut r hr more hm he).bind
        fun stored => do
          modify fun r => { r with storedCrc := BitVec.ofNat 32 stored, sectCrc := crc32 K (r.raw.bytes 0 len) }
          let r ← get
          raiseIf (refuseIf (r.sectCrc ≠ r.storedCrc ∧ r.ignoreCrc = false)
            ⟨.crcMismatch, r.sectCrc.toNat, r.storedCrc.toNat⟩)
      have hf : flagCrc r.flags = true := by rw [hp.1]; exact hc
      obtain ⟨r', p, h2, h3⟩ := h1
      refine ⟨r', p, ?_, h3⟩
      rw [← h2]
      simp only [getCrc, bind, EStateM.bind, get, MonadState.get, getThe, MonadStateOf.get, EStateM.get, hf, if_true]
    · rw [if_neg hc] at he
      exact absurd (List.append_eq_nil_iff.1 he.symm).2 hm
  obtain ⟨rfl, hb⟩ := hp
  simp only [getCrc, bind, EStateM.bind, get, MonadState.get, getThe, MonadStateOf.get, EStateM.get]
  by_cases hc : flagCrc r.flags = true
  · simp only [hc, if_true] at ha ⊢
    obtain ⟨r1, h1, c1, a1⟩ := (getBits_reads_lt hK (hK.wordBits_ge) (crc32 K (src.bytes 0 len)).isLt).takes r hr rest ha
    have e1 := c1.withReader_eq
    have hb1 : r1.raw.bytes 0 len = src.bytes 0 len := by rw [← e1]; exact hb
    have h2 : ({ r with sectCrc := crc32 K (src.bytes 0 len), storedCrc := crc32 K (src.bytes 0 len) } : Rx).withReader r1 =
        { r1 with sectCrc := crc32 K (src.bytes 0 len), storedCrc := crc32 K (src.bytes 0 len) } := by
      conv_rhs => rw [← e1]
      rfl
    refine ⟨{ r1 with sectCrc := crc32 K (src.bytes 0 len), storedCrc := crc32 K (src.bytes 0 len) }, ?_, ?_, a1⟩
    · simp only [EStateM.bind, h1, modify, modifyGet, MonadStateOf.modifyGet, EStateM.modifyGet, hb1, BitVec.ofNat_toNat,
        BitVec.setWidth_eq, EStateM.get]
      rw [refuseIf_neg (by simp)]
      rfl
    · have := c1.rebase { r with sectCrc := crc32 K (src.bytes 0 len), storedCrc := crc32 K (src.bytes 0 len) }
      rw [h2] at this
      exact this
  · simp only [hc, Bool.false_eq_true, if_false] at ha ⊢
    exact ⟨r, rfl, Rx.Consumed.refl hr, ha⟩

theorem getFootTag_reads (hK : K.Legal) {P : Rx → Prop} (last : Bool) :
    RxM.ReadsTo K P (getFootTag K) (fieldBits 4 (if last then 0xF else 0x8)) ()
      (fun r => { r with pstate := if last then .exhausted else r.pstate }) := by
  have h4 : 4 ≤ K.wordBits := by have := hK.wordBits_ge; omega
  have g1 : Rx.Aside fun r : Rx => { r with pstate := if last then .exhausted else r.pstate } := fun _ _ => rfl
  cases last
  · refine RxM.ReadsTo.congr ((getBits_reads_lt hK h4 (v := 0x8) (by decide)).thenTo (P := fun _ => True) (g := id) (v := []) ?_
      Rx.asideProp_true Rx.aside_id |>.weaken fun _ _ => trivial) (by simp) rfl fun r _ => rfl
    rw [if_pos rfl]
    exact RxM.ReadsTo.pure ()
  · refine RxM.ReadsTo.congr ((getBits_reads_lt hK h4 (v := 0xF) (by decide)).thenTo (P := fun _ => True) (v := [])
      (g := fun r : Rx => { r with pstate := .exhausted }) ?_ Rx.asideProp_true (fun _ _ => rfl) |>.weaken
      fun _ _ => trivial) (by simp) rfl fun r _ => rfl
    rw [if_neg (by decide), if_pos rfl]
    exact RxM.ReadsTo.modify fun _ _ => rfl

/-- `GetWindup()` skips the padding, whatever its bits are (R165). -/
theorem getWindup_reads (hK : K.Legal) {r : Rx} (h : r.ReaderInv K) {pad rest : List Bool} (hp : PadsTo r.bitpos pad)
    (ha : r.ahead K = pad ++ rest) : r.Consumed K (r.windup K) pad ∧ (r.windup K).ahead K = rest := by
  obtain ⟨bits, hl, hc⟩ := Rx.windup_consumed hK h
  have : bits = pad :=
    (List.append_inj (hc.ahead.symm.trans ha) (by rw [hl, padBits, List.length_replicate, hp])).1
  subst this
  exact ⟨hc, hc.rest ha⟩

/-! ## A section, read back -/

theorem channelAt_resetHistories {chans : List Channel} {c : Nat} (hc : c < chans.length) :
    channelAt (resetHistories chans) c = { channelAt chans c with prev := 0 } := by
  rw [channelAt_eq hc, channelAt_eq (by rw [resetHistories_length]; exact hc)]
  simp [resetHistories]

theorem sectionVectors_parsed (chans : List Channel) (len : Nat) :
    sectionVectors (chans.map Channel.parsed) len = sectionVectors chans len := by
  refine sectionVectors_congr ?_ len
  rw [(parsed_allAlike chans).share, resetHistories_share]

/-- The frame data of a section is coded for the channels the parser has registered as for those it was written under. -/
theorem vectorsCoded_parsed (words : WordsAt) {chans : List Channel} {vs : List (Nat × Nat × Nat)}
    (hv : ∀ v ∈ vs, v.1 < chans.length) (bits : List Bool) :
    VectorsCoded words (chans.map Channel.parsed) vs bits ↔ VectorsCoded words (resetHistories chans) vs bits :=
  (parsed_allAlike chans).vectorsCoded words _ (fun v h => by rw [resetHistories_length]; exact hv v h) bits

theorem carries_parsed {src : RawMem} {chans : List Channel} {len : Nat}
    (h : ∀ v ∈ sectionVectors chans len, (channelAt chans v.1).Carries src v.2.1 v.2.2) :
    ∀ v ∈ sectionVectors chans len, v.1 < (chans.map Channel.parsed).length ∧
      (channelAt (chans.map Channel.parsed) v.1).Carries src v.2.1 v.2.2 := by
  intro v hv
  have hc := (sectionVectors_mem hv).1
  have h1 : Channel.Carries { channelAt chans v.1 with prev := 0 } src v.2.1 v.2.2 := h v hv
  rw [← channelAt_resetHistories hc] at h1
  exact ⟨by simpa using hc, h1.congr ((parsed_allAlike chans).at (by rw [resetHistories_length]; exact hc))⟩

/-- What the raw memory holds once a section is decoded: the section's bytes where its vectors lie, else what it held
(R278, R279). -/
theorem section_bytes {K : Config} {flags : BitVec 8} {src m : RawMem} {words : WordsAt} (hwo : WordsOf src words)
    {chans : List Channel} {len : Nat} (hl : LayoutOk K flags chans) (hm : m.Wf) (hcar : ∀ v ∈ sectionVectors chans len, (channelAt chans v.1).Carries src v.2.1 v.2.2) (a : Nat) :
    (vectorsStored words (chans.map Channel.parsed) (sectionVectors chans len) m).readByte a =
      if a < len then src.readByte a else m.readByte a := by
  split
  · rename_i ha
    exact vectorsStored_byte hwo _ _ hm (carries_parsed hcar)
      (.inl (sectionVectors_cover (frameSize_pos hl.some fun ch hx => (hl.each ch hx).1) ha))
  · refine vectorsStored_outside words _ _ m fun v hv => ?_
    have := (sectionVectors_mem hv).2
    omega

/-- What the parser has registered for a section header written under `chans` (R276). -/
theorem parsed_each {K : Config} {flags : BitVec 8} {chans : List Channel} (hl : LayoutOk K flags chans) :
    ∀ y ∈ chans.map Channel.parsed, y.Ok ∧ y.Codable := by
  intro y hy
  obtain ⟨x, hx, rfl⟩ := List.mem_map.1 hy
  exact ⟨Channel.parsed_ok (hl.each x hx).1, Channel.parsed_codable (hl.each x hx).2⟩

/-- The padding in front of anything is never cut: the reader's words are whole bytes (R162, R165). -/
theorem pad_whole (hK : K.Legal) {r : Rx} (h : r.ReaderInv K) {pad xs more : List Bool} (hp : PadsTo r.bitpos pad)
    (hm : more ≠ []) (he : pad ++ xs = r.ahead K ++ more) : ∃ w, r.ahead K = pad ++ w ∧ xs = w ++ more := by
  rcases append_cut he hm with ⟨w, hw, hu⟩ | hres
  · obtain ⟨bits, hl, hc⟩ := Rx.windup_consumed hK h
    have h1 := congrArg List.length hu
    have h2 := congrArg List.length hc.ahead
    rw [List.length_append] at h1 h2
    rw [padBits, List.length_replicate] at hl
    have := List.length_pos_of_ne_nil hw
    rw [PadsTo] at hp
    omega
  · exact hres

theorem padBits_pads (pos : Nat) : PadsTo pos (padBits pos) := by rw [PadsTo, padBits, List.length_replicate]

/-- The generator's codes are among those the parser accepts. -/
theorem vectorsBits_coded (words : WordsAt) (vs : List (Nat × Nat × Nat)) (chans : List Channel) :
    VectorsCoded words chans vs (vectorsBits words chans vs) := by
  induction vs generalizing chans with
  | nil => rfl
  | cons v vs ih => exact ⟨_, _, vectorBits_coded _ _, ih _, rfl⟩

/-- A section of a generator is, up to its CRC, one of those the parser accepts. -/
theorem sectionBits_coded (K : Config) (flags : BitVec 8) (chans : List Channel) (raw : RawMem) (len pos : Nat) :
    ∃ bits, SectionCoded K flags chans (readWords raw) len pos bits ∧
      sectionBits K flags chans raw len pos = bits ++ crcBits K flags raw len :=
  ⟨_, ⟨_, _, ⟨_, _, padBits_pads _, padBits_pads _, rfl⟩, vectorsBits_coded _ _ _, rfl⟩, by
    simp only [sectionBits, crcBits, List.append_assoc]⟩

/-- `GetSectionHeader()` takes back a section header (R276). -/
theorem getSectionHeader_reads (hK : K.Legal) {r : Rx} (h : r.ReaderInv K) {chans : List Channel}
    (hl : LayoutOk K r.flags chans) {len : Nat} (h0 : 0 < len) (hlen : len ≤ K.maxSectionLength) {head rest : List Bool}
    (hh : HeadCoded K r.flags chans len r.bitpos head) (ha : r.ahead K = head ++ rest) :
    ∃ r', getSectionHeader K r = .ok len r' ∧
      ({ r with chans := chans.map Channel.parsed } : Rx).Consumed K r' head ∧ r'.ahead K = rest := by
  obtain ⟨u, v, hu, hv, rfl⟩ := hh
  simp only [List.append_assoc] at ha
  obtain ⟨c1, a1⟩ := getWindup_reads hK h hu ha
  have e1 := c1.withReader_eq
  have p1 := c1.bitpos_eq
  have u1 : getWindup K r = .ok () (r.windup K) := rfl
  generalize r.windup K = r1 at *
  obtain ⟨r2, u2, c2, a2⟩ := (getSectionFields_reads hK hl h0 hlen).takes r1 c1.inv (by rw [← e1]; rfl) _ a1
  have e2 := c2.withReader_eq
  have p2 : r2.bitpos = r1.bitpos + (sectionHeaderBits K r.flags chans len).length := c2.bitpos_eq
  have p2' : r2.bitpos = r.bitpos + (u ++ sectionHeaderBits K r.flags chans len).length := by
    rw [p2, p1, List.length_append]; omega
  obtain ⟨c3, a3⟩ := getWindup_reads hK c2.inv (by rw [p2']; exact hv) a2
  have u3 : getWindup K r2 = .ok () (r2.windup K) := rfl
  have e3 := c3.withReader_eq
  generalize r2.windup K = r3 at *
  refine ⟨r3, by simp only [getSectionHeader, bind, EStateM.bind, u1, u2, u3]; rfl, ?_, a3⟩
  set q : Rx := { r with chans := chans.map Channel.parsed } with hq
  have hs := ((c1.rebase q).trans (c2.rebase q)).trans (c3.rebase q)
  have hq3 : q.withReader r3 = r3 := by
    conv_rhs => rw [← e3, ← e2, ← e1]
    rfl
  rw [hq3] at hs
  exact hs

/-- A section header whose end is not there (R276, R283). -/
theorem getSectionHeader_cut (hK : K.Legal) {r : Rx} (h : r.ReaderInv K) {chans : List Channel}
    (hl : LayoutOk K r.flags chans) {len : Nat} (h0 : 0 < len) (hlen : len ≤ K.maxSectionLength) {pad w : List Bool}
    (hp : PadsTo r.bitpos pad) (hw : w ≠ []) (he : pad ++ sectionHeaderBits K r.flags chans len = r.ahead K ++ w) :
    RxM.Cut K (getSectionHeader K) r := by
  obtain ⟨x, hx, hy⟩ := pad_whole hK h hp hw he
  obtain ⟨c1, a1⟩ := getWindup_reads hK h hp hx
  have e1 := c1.withReader_eq
  have hcut := (getSectionFields_reads hK hl h0 hlen).cut (r.windup K) c1.inv (by rw [← e1]; rfl) w hw (by rw [a1]; exact hy)
  exact RxM.Cut.after (x := getWindup K) (a := ()) rfl c1.bitpos_eq c1.ahead (hcut.bind _)

/-- A section up to its foot tag. -/
def getSectionBody (K : Config) : RxM Nat := do
  let size ← getSectionHeader K
  decSection K size
  getCrc K size
  pure size

theorem getSection_eq (K : Config) :
    getSection K = getSectionBody K >>= fun size => getFootTag K >>= fun _ =>
      modify (Rx.finishSection K size) >>= fun _ => (pure size : RxM Nat) := by
  funext r
  simp only [getSection, getSectionBody, bind, EStateM.bind]
  cases getSectionHeader K r with
  | error e r1 => rfl
  | ok size r1 =>
    simp only
    cases decSection K size r1 with
    | error e r2 => rfl
    | ok u r2 =>
      simp only
      cases getCrc K size r2 <;> rfl

/-- The RX engine after a section up to its foot tag, but for the reader's registers (R276 to R280). -/
def Rx.sectionBody (K : Config) (src : RawMem) (words : WordsAt) (chans : List Channel) (len : Nat) (r : Rx) : Rx :=
  let cs := chans.map Channel.parsed
  { r with
    chans := vectorsAfter words cs (sectionVectors cs len)
    raw := vectorsStored words cs (sectionVectors cs len) r.raw
    sectCrc := if flagCrc r.flags then crc32 K (src.bytes 0 len) else r.sectCrc
    storedCrc := if flagCrc r.flags then crc32 K (src.bytes 0 len) else r.storedCrc }

theorem sectionLength_lt (hK : K.Legal) {len : Nat} (hlen : len ≤ K.maxSectionLength) : len < 2 ^ K.wordBits := by
  have h1 := hK.maxSectionLength
  have h2 := hK.sectSizeBits
  have h3 := hK.wordBits_ge
  exact lt_two_pow_of_le (show len < 2 ^ K.sectSizeBits by omega) (by omega)

/-- Frame data and CRC, behind the header (R278 to R280). -/
theorem getData_reads (hK : K.Legal) {flags : BitVec 8} {chans : List Channel} (hl : LayoutOk K flags chans) {len : Nat}
    (hlen : len ≤ K.maxSectionLength) {src raw : RawMem}
    {words : WordsAt} (hwo : WordsOf src words) (hm : raw.Wf)
    (hcar : ∀ v ∈ sectionVectors chans len, (channelAt chans v.1).Carries src v.2.1 v.2.2) {data : List Bool}
    (hd : VectorsCoded words (resetHistories chans) (sectionVectors chans len) data) :
    RxM.ReadsTo K (fun x => x.chans = chans.map Channel.parsed ∧ x.flags = flags ∧ x.raw = raw)
      (decSection K len >>= fun _ => getCrc K len >>= fun _ => (pure len : RxM Nat))
      (data ++ crcBits K flags src len) len (Rx.sectionBody K src words chans len) := by
  rw [← vectorsCoded_parsed words fun v hv => (sectionVectors_mem hv).1] at hd
  generalize hcs : chans.map Channel.parsed = cs
  have hsv : sectionVectors cs len = sectionVectors chans len := by rw [← hcs]; exact sectionVectors_parsed chans len
  rw [hcs, ← hsv] at hd
  have hcok : ∀ ch ∈ cs, ch.Ok ∧ ch.Codable := by rw [← hcs]; exact parsed_each hl
  let g1 : Rx → Rx := fun x => { x with
    chans := vectorsAfter words cs (sectionVectors cs len), raw := vectorsStored words cs (sectionVectors cs len) x.raw }
  let g2 : Rx → Rx := fun x => { x with
    sectCrc := if flagCrc flags then crc32 K (src.bytes 0 len) else x.sectCrc
    storedCrc := if flagCrc flags then crc32 K (src.bytes 0 len) else x.storedCrc }
  have d2 : Rx.Aside g2 := fun _ _ => rfl
  have s2 := RxM.ReadsTo.seq (f := g2) (getCrc_reads hK (flags := flags) src len)
    (RxM.ReadsTo.pure (P := fun _ => True) len) (fun _ _ => trivial) Rx.asideProp_true Rx.aside_id
  have s1 := RxM.ReadsTo.seq (f := g1)
    ((decSection_reads hK hwo hcok (sectionLength_lt hK hlen) hd).weaken
      (P' := fun x => x.chans = cs ∧ x.flags = flags ∧ x.raw = raw)
      fun x hx => hx.1) s2 (fun x hx => ⟨hx.2.1, ?_⟩) (fun _ _ hx => hx) (d2.comp Rx.aside_id)
  swap
  · show (vectorsStored words cs (sectionVectors cs len) x.raw).bytes 0 len = src.bytes 0 len
    rw [hx.2.2, hsv, ← hcs]
    refine List.map_congr_left fun j hj => ?_
    rw [section_bytes hwo hl hm hcar, if_pos (by have := List.mem_range.1 hj; omega)]
  refine s1.congr ?_ rfl fun x hx => ?_
  · rw [List.append_nil]
  · simp only [Function.comp, id, g1, g2, Rx.sectionBody, hcs, hx.2.1]

/-- A section up to its foot tag is taken back (R275 to R280). -/
theorem getSectionBody_reads (hK : K.Legal) {r : Rx} (h : r.ReaderInv K) {chans : List Channel}
    (hl : LayoutOk K r.flags chans) {len : Nat} (h0 : 0 < len) (hlen : len ≤ K.maxSectionLength) {src : RawMem}
    {words : WordsAt} (hwo : WordsOf src words) (hm : r.raw.Wf) (hcar : ∀ v ∈ sectionVectors chans len, (channelAt chans v.1).Carries src v.2.1 v.2.2)
    {bits rest : List Bool} (hb : SectionCoded K r.flags chans words len r.bitpos bits)
    (ha : r.ahead K = bits ++ crcBits K r.flags src len ++ rest) :
    ∃ r', getSectionBody K r = .ok len r' ∧
      (r.sectionBody K src words chans len).Consumed K r' (bits ++ crcBits K r.flags src len) ∧ r'.ahead K = rest := by
  obtain ⟨head, data, hh, hd, rfl⟩ := hb
  obtain ⟨r1, u1, c1, a1⟩ := getSectionHeader_reads hK h hl h0 hlen hh (rest := data ++ crcBits K r.flags src len ++ rest)
    (by rw [ha]; simp only [List.append_assoc])
  have e1 := c1.withReader_eq
  obtain ⟨r2, u2, c2, a2⟩ := (getData_reads hK hl hlen hwo hm hcar hd).takes r1 c1.inv
    ⟨by rw [← e1]; rfl, by rw [← e1]; rfl, by rw [← e1]; rfl⟩ rest a1
  refine ⟨r2, ?_, ?_, a2⟩
  · rw [getSectionBody]
    conv_lhs => simp only [bind, EStateM.bind, u1]
    exact u2
  · set q := r.sectionBody K src words chans len with hq
    have hs := (c1.rebase q).trans (c2.rebase q)
    have hq2 : q.withReader r2 = r2 := by
      conv_rhs => rw [← c2.withReader_eq, ← e1]
      rfl
    rw [hq2, ← List.append_assoc] at hs
    exact hs

/-- A section that the stream does not hold to its foot tag (R283). -/
theorem getSectionBody_cut (hK : K.Legal) {r : Rx} (h : r.ReaderInv K) {chans : List Channel}
    (hl : LayoutOk K r.flags chans) {len : Nat} (h0 : 0 < len) (hlen : len ≤ K.maxSectionLength) {src : RawMem}
    {words : WordsAt} (hwo : WordsOf src words) (hm : r.raw.Wf) (hcar : ∀ v ∈ sectionVectors chans len, (channelAt chans v.1).Carries src v.2.1 v.2.2)
    {bits more : List Bool} (hb : SectionCoded K r.flags chans words len r.bitpos bits) (hmore : more ≠ [])
    (he : bits ++ crcBits K r.flags src len = r.ahead K ++ more) : RxM.Cut K (getSectionBody K) r := by
  obtain ⟨head, data, hh, hd, rfl⟩ := hb
  obtain ⟨u, v, hu, hv, rfl⟩ := hh
  have he1 : (u ++ sectionHeaderBits K r.flags chans len) ++ (v ++ (data ++ crcBits K r.flags src len)) =
      r.ahead K ++ more := by rw [← he]; simp only [List.append_assoc]
  rcases append_cut he1 hmore with ⟨w, hw, hx⟩ | ⟨w, ha, hw⟩
  · exact (getSectionHeader_cut hK h hl h0 hlen hu hw hx).bind _
  · -- the header is there: cut behind the second padding
    obtain ⟨c1, a1⟩ := getWindup_reads hK h hu (rest := sectionHeaderBits K r.flags chans len ++ w) (by
      rw [ha, List.append_assoc])
    have e1 := c1.withReader_eq
    obtain ⟨r2, _, c2, a2⟩ := (getSectionFields_reads hK hl h0 hlen).takes (r.windup K) c1.inv (by rw [← e1]; rfl) _ a1
    have p2 : r2.bitpos = r.bitpos + (u ++ sectionHeaderBits K r.flags chans len).length := by
      have h2 : r2.bitpos = (r.windup K).bitpos + (sectionHeaderBits K r.flags chans len).length := c2.bitpos_eq
      rw [h2, c1.bitpos_eq, List.length_append]; omega
    obtain ⟨x, hx, hdata⟩ := pad_whole hK c2.inv (by rw [p2]; exact hv) hmore (by rw [a2]; exact hw)
    rw [a2] at hx
    obtain ⟨r3, u3, c3, a3⟩ := getSectionHeader_reads hK h hl h0 hlen ⟨u, v, hu, hv, rfl⟩ (rest := x) (by
      rw [ha, hx]; simp only [List.append_assoc])
    have e3 := c3.withReader_eq
    have hcut := (getData_reads hK hl hlen hwo hm hcar hd).cut r3 c3.inv
      ⟨by rw [← e3]; rfl, by rw [← e3]; rfl, by rw [← e3]; rfl⟩ more hmore (by rw [a3]; exact hdata)
    exact RxM.Cut.after u3 c3.bitpos_eq c3.ahead hcut

/-- `P.SECTION` past its checks takes back a section and the tag behind it (R275 to R284). -/
theorem getSection_reads (hK : K.Legal) {r : Rx} (h : r.ReaderInv K) {chans : List Channel}
    (hl : LayoutOk K r.flags chans) {len : Nat} (h0 : 0 < len) (hlen : len ≤ K.maxSectionLength) {src : RawMem}
    {words : WordsAt} (hwo : WordsOf src words) (hm : r.raw.Wf) (hcar : ∀ v ∈ sectionVectors chans len, (channelAt chans v.1).Carries src v.2.1 v.2.2)
    (last : Bool) {bits rest : List Bool} (hb : SectionCoded K r.flags chans words len r.bitpos bits)
    (ha : r.ahead K = bits ++ crcBits K r.flags src len ++ (fieldBits 4 (if last then 0xF else 0x8) ++ rest)) :
    ∃ r', getSection K r = .ok len r' ∧
      (Rx.forgetGhost K len { r.sectionLoaded K src words chans len last with
        raw := vectorsStored words (chans.map Channel.parsed) (sectionVectors (chans.map Channel.parsed) len) r.raw }).Consumed
        K r' (bits ++ crcBits K r.flags src len ++ fieldBits 4 (if last then 0xF else 0x8)) ∧ r'.ahead K = rest := by
  obtain ⟨r1, u1, c1, a1⟩ := getSectionBody_reads hK h hl h0 hlen hwo hm hcar hb ha
  have e1 := c1.withReader_eq
  let g3 : Rx → Rx := fun x => { x with pstate := if last then .exhausted else x.pstate }
  let g4 : Rx → Rx := Rx.finishSection K len
  have d4 : Rx.Aside g4 := fun _ _ => rfl
  have s4 := (RxM.ReadsTo.modify (K := K) (P := fun _ => True) d4).seq (RxM.ReadsTo.pure (P := fun _ => True) len)
    (fun _ _ => trivial) Rx.asideProp_true Rx.aside_id
  have s3 := RxM.ReadsTo.seq (f := g3) (getFootTag_reads (P := fun _ => True) hK last) s4 (fun _ _ => trivial)
    Rx.asideProp_true (d4.comp Rx.aside_id)
  obtain ⟨r2, u2, c2, a2⟩ := s3.takes r1 c1.inv trivial rest (by rw [a1]; simp only [List.append_nil])
  refine ⟨r2, ?_, ?_, a2⟩
  · rw [getSection_eq]
    conv_lhs => simp only [bind, EStateM.bind, u1]
    exact u2
  · set q := Rx.forgetGhost K len { r.sectionLoaded K src words chans len last with
        raw := vectorsStored words (chans.map Channel.parsed) (sectionVectors (chans.map Channel.parsed) len) r.raw } with hq
    have hs := (c1.rebase q).trans (c2.rebase q)
    have hq2 : q.withReader r2 = r2 := by
      conv_rhs => rw [← c2.withReader_eq, ← e1]
      rfl
    rw [hq2] at hs
    simp only [List.append_nil] at hs
    exact hs

end Sys2Proof.Machine
end

