-- ==== Sys2Proof/Laws/Invariants.lean ====
section
/-! SUPPORT. The invariants of the engines under the shared procedures, whatever the stream holds: one lemma for each
procedure that loads registers (46_container_parser.md R271 to R284), and what keeps the invariants on the TX side. -/

namespace Sys2Proof.Machine

variable {K : Config} {α β : Type}

/-! ## TX -/

theorem Tx.reset_writerInv (hK : K.Legal) : (Tx.reset K).WriterInv K := by
  have hz : ∀ i, wordAt (List.replicate K.bufWords (0 : Word)) i = 0 := by
    intro i; simp only [wordAt, List.getD_eq_getElem?_getD, List.getElem?_replicate]; split <;> rfl
  refine ⟨by simp [Tx.reset], hK.bufWords_pos, hK.wordBits_pos, ?_, ?_, ?_, ?_⟩
  · intro x hx
    rw [(List.mem_replicate.1 hx).2]; exact Nat.two_pow_pos _
  · show (wordAt (List.replicate K.bufWords (0 : Word)) 0).toNat < _
    rw [hz]; exact Nat.two_pow_pos _
  · intro i _; exact hz i
  · simp [Tx.reset]

theorem ChansOk.nil : ChansOk K [] := ⟨by simp, by simp⟩

theorem Tx.Inv.raise {t : Tx} (h : t.Inv K) (e : Raise) : (t.raise e).Inv K :=
  ⟨h.writer.rebase (t.raise e), h.gstate, h.finalized, h.closed, h.layout, h.counted, h.chans,
    FaultRecord.record_ok h.flt e, h.name, h.raw⟩

theorem Tx.Inv.withPort {t : Tx} (h : t.Inv K) (p : Port) : ({ t with port := p } : Tx).Inv K :=
  ⟨h.writer.rebase { t with port := p }, h.gstate, h.finalized, h.closed, h.layout, h.counted, h.chans, h.flt, h.name,
    h.raw⟩

/-- Appending to an engine that is not closed keeps its invariants. -/
theorem Tx.Inv.extended {t t' : Tx} {bits : List Bool} (h : t.Inv K) (hc : t.closed = false)
    (ha : t.Extended K t' bits) : t'.Inv K := by
  have e := ha.withWriter_eq
  have hi := ha.inv
  rw [← e] at hi ⊢
  exact ⟨hi, h.gstate, h.finalized, fun h1 => absurd (hc ▸ h1 : false = true) (by decide), h.layout, h.counted, h.chans,
    h.flt, h.name, h.raw⟩

theorem Tx.Inv.withChans {t : Tx} (h : t.Inv K) {cs : List Channel} (hc : ChansOk K cs) :
    ({ t with chans := cs } : Tx).Inv K :=
  ⟨h.writer.withChans cs, h.gstate, h.finalized, h.closed, h.layout, h.counted, hc, h.flt, h.name, h.raw⟩

theorem ChansOk.set {cs : List Channel} (h : ChansOk K cs) {c : Nat} {ch : Channel} (hch : ch.Ok) :
    ChansOk K (cs.set c ch) := ⟨by rw [List.length_set]; exact h.1, chansOk_set h.2 hch⟩

theorem ChansOk.modify {cs : List Channel} (h : ChansOk K cs) {c : Nat} {f : Channel → Channel}
    (hf : ∀ ch : Channel, ch.Ok → (f ch).Ok) : ChansOk K (cs.modify c f) := by
  refine ⟨by rw [List.length_modify]; exact h.1, fun x hx => ?_⟩
  obtain ⟨i, hi, rfl⟩ := List.getElem_of_mem hx
  rw [List.getElem_modify]
  split
  · exact hf _ (h.2 _ (List.getElem_mem _))
  · exact h.2 _ (List.getElem_mem _)

theorem Channel.Ok.historyReset {ch : Channel} (h : ch.Ok) : ({ ch with prev := 0 } : Channel).Ok :=
  ⟨h.reps, h.nbits, Nat.two_pow_pos _⟩

theorem Channel.Ok.restored {ch : Channel} (h : ch.Ok) : ch.restored.Ok := ⟨h.reps, h.nbits, h.prev⟩

/-- The channel an `ADDCH` that passes its checks registers is in order (R241). -/
theorem descChannel_ok {reps : U32} {desc : Word} {n : Nat} (h : descCheck K reps desc n = none) :
    (descChannel reps desc).Ok ∧ n ≠ K.maxChannels := by
  simp only [descCheck, orElse_eq_none, refuseIf_eq_none] at h
  obtain ⟨-, -, -, -, h5, h6⟩ := h
  refine ⟨⟨h5, ?_, Nat.two_pow_pos _⟩, h6⟩
  simp only [descChannel]
  rcases DType.width_cases ((DType.ofCode (descType desc)).getD default) with hw | hw | hw <;> rw [hw] <;> decide

theorem ChansOk.append {cs : List Channel} (h : ChansOk K cs) {ch : Channel} (hch : ch.Ok) (hn : cs.length ≠ K.maxChannels) :
    ChansOk K (cs ++ [ch]) := by
  have := h.1
  refine ⟨by simp only [List.length_append, List.length_singleton]; omega, fun x hx => ?_⟩
  rcases List.mem_append.1 hx with hx | hx
  · exact h.2 x hx
  · rw [List.mem_singleton.1 hx]; exact hch

/-- A legal value of a writable channel field leaves the channel in order (R310, R44). -/
theorem chanStore_ok {ch ch' : Channel} (h : ch.Ok) {f : ChanField} {v : Nat} (hs : chanStore ch f v = some ch') :
    ch'.Ok := by
  cases f <;> simp only [chanStore, Option.map_eq_some_iff, Option.ite_none_right_eq_some, Option.some.injEq, reduceCtorEq] at hs
  · obtain ⟨a, _, rfl⟩ := hs; exact ⟨h.reps, h.nbits, h.prev⟩
  · obtain ⟨_, rfl⟩ := hs; exact ⟨h.reps, h.nbits, h.prev⟩
  · obtain ⟨_, rfl⟩ := hs; exact ⟨h.reps, h.nbits, h.prev⟩
  · subst hs; exact ⟨h.reps, h.nbits, h.prev⟩
  · obtain ⟨hv, rfl⟩ := hs
    refine ⟨h.reps, ?_, h.prev⟩
    show 1 ≤ (BitVec.ofNat 6 v).toNat ∧ (BitVec.ofNat 6 v).toNat ≤ 32
    rw [BitVec.toNat_ofNat, Nat.mod_eq_of_lt (by omega)]; exact hv
  · subst hs; exact ⟨h.reps, h.nbits, h.prev⟩

/-! ## RX: a procedure under way -/

/-- What holds of RX while a reading command is under way without a fault; `f0` is the fault record it found. -/
structure Rx.Going (K : Config) (f0 : FaultRecord) (r : Rx) : Prop where
  reader : r.ReaderInv K
  chans : ChansOk K r.chans
  counted : r.pstate = .noHeader → r.nsect = 0 ∧ r.total = 0 ∧ r.sectSize = 0
  flt : r.flt = f0
  name : r.name.length = K.nameMax
  raw : r.raw.Wf

/-- What is left of it once the command has faulted. -/
structure Rx.Broken (K : Config) (f0 : FaultRecord) (r : Rx) : Prop where
  length : r.rbuf.length = K.bufWords
  srcpos : r.srcpos ≤ r.src.length
  counted : r.pstate = .noHeader → r.nsect = 0 ∧ r.total = 0 ∧ r.sectSize = 0
  flt : r.flt = f0
  name : r.name.length = K.nameMax
  raw : r.raw.Wf

variable {f0 : FaultRecord}

theorem Rx.Going.broken {r : Rx} (h : r.Going K f0) : r.Broken K f0 :=
  ⟨h.reader.length, h.reader.srcpos, h.counted, h.flt, h.name, h.raw⟩

theorem Rx.Inv.going {r : Rx} (h : r.Inv K) (hf : r.flt.fault = 0) : r.Going K r.flt :=
  ⟨h.reader hf, h.chans hf, h.counted, rfl, h.name, h.raw⟩

theorem Rx.Going.inv {r : Rx} (h : r.Going K f0) (hok : f0.Ok) : r.Inv K :=
  ⟨fun _ => h.reader, fun _ => h.chans, h.reader.length, h.reader.srcpos, h.counted, h.flt ▸ hok, h.name, h.raw⟩

theorem Rx.Going.consumed {r r' : Rx} {bits : List Bool} (h : r.Going K f0) (hc : r.Consumed K r' bits) :
    r'.Going K f0 := by
  have e := hc.withReader_eq
  have hi := hc.inv
  rw [← e] at hi ⊢
  exact ⟨hi, h.chans, h.counted, h.flt, h.name, h.raw⟩

theorem Rx.Broken.touched {r r' : Rx} (h : r.Broken K f0) (ht : r.Touched K r') : r'.Broken K f0 := by
  have e := ht.withReader_eq
  have h1 := ht.length h.length
  have h2 := ht.srcpos h.srcpos
  rw [← e] at h1 h2 ⊢
  exact ⟨h1, h2, h.counted, h.flt, h.name, h.raw⟩

/-- A procedure that only reads, with any condition on the other registers kept. -/
theorem RxM.ends_of_reads {x : RxM α} (ht : x.Touches K) (hc : x.Consumes K) {P : Rx → Prop} (hP : Rx.AsideProp P) :
    x.Ends (fun r => r.Going K f0 ∧ P r) (fun _ r => r.Going K f0 ∧ P r) (fun r => r.Broken K f0) := by
  rintro r ⟨hg, hp⟩
  cases hx : x r with
  | ok a r' =>
    obtain ⟨bits, hb⟩ := hc r hg.reader a r' hx
    exact ⟨hg.consumed hb, hb.withReader_eq ▸ hP r r' hp⟩
  | error e r' => exact hg.broken.touched (ht.error hx)

theorem getBits_ends (hK : K.Legal) {n : Nat} (hn : n ≤ K.wordBits) {P : Rx → Prop} (hP : Rx.AsideProp P) :
    (getBits K n).Ends (fun r => r.Going K f0 ∧ P r) (fun v r => v < 2 ^ n ∧ r.Going K f0 ∧ P r)
      (fun r => r.Broken K f0) := by
  rintro r ⟨hg, hp⟩
  cases hx : getBits K n r with
  | ok a r' =>
    rcases getBits_spec hK hg.reader hn with ⟨bits, r1, hl, hgb, hc⟩ | ⟨_, r1, hgb, _⟩
    · rw [hgb] at hx; cases hx
      exact ⟨hl ▸ bitsValue_lt bits, hg.consumed hc, hc.withReader_eq ▸ hP r _ hp⟩
    · rw [hgb] at hx; cases hx
  | error e r' => exact hg.broken.touched ((getBits_touches hK n).error hx)

theorem RxM.ends_const {x : RxM α} {c : Prop} {P : Rx → Prop} {Q : α → Rx → Prop} {E : Rx → Prop}
    (h : c → x.Ends P Q E) : x.Ends (fun r => c ∧ P r) Q E := fun r hr => h hr.1 r hr.2

/-! ## The container -/

theorem getName_ends (hK : K.Legal) (i left : Nat) :
    (getName K i left).Ends (fun r => r.Going K f0) (fun _ r => r.Going K f0) (fun r => r.Broken K f0) := by
  have h8 : 8 ≤ K.wordBits := by have := hK.wordBits_ge; omega
  induction left generalizing i with
  | zero => exact RxM.Ends.throw fun r h => h.broken
  | succ left ih =>
    rw [getName]
    refine RxM.Ends.bind ((getBits_ends hK h8 Rx.asideProp_true).weaken (fun r h => ⟨h, trivial⟩) (fun _ _ h => h.2.1)
      fun _ h => h) fun b => ?_
    refine RxM.Ends.bind (Q := fun _ r => r.Going K f0) (RxM.Ends.modify fun r h => ?_) fun _ => ?_
    · exact ⟨h.reader.rebase { r with name := r.name.set i (BitVec.ofNat 8 b) }, h.chans, h.counted, h.flt,
        by rw [List.length_set]; exact h.name, h.raw⟩
    · exact RxM.Ends.ite (fun _ => RxM.Ends.pure fun _ h => h) fun _ => ih _

/-- Loading a header register keeps what holds under way. -/
theorem Rx.Going.loadHeader {r r' : Rx} (h : r.Going K f0)
    (e : r' = { r with mtime := r'.mtime, flags := r'.flags, rawSize := r'.rawSize, xtraLen := r'.xtraLen }) :
    r'.Going K f0 := by
  rw [e]
  exact ⟨h.reader.rebase { r with mtime := r'.mtime, flags := r'.flags, rawSize := r'.rawSize, xtraLen := r'.xtraLen },
    h.chans, h.counted, h.flt, h.name, h.raw⟩

/-- `P.HEADER` past its check, whatever the stream (R271). -/
theorem getFileHeader_ends (hK : K.Legal) :
    (getFileHeader K).Ends (fun r => r.Going K f0) (fun _ r => r.Going K f0 ∧ r.pstate = .headerRead)
      (fun r => r.Broken K f0) := by
  have hW := hK.wordBits_ge
  have hget : ∀ n, n ≤ K.wordBits → (getBits K n).Ends (fun r => r.Going K f0) (fun _ r => r.Going K f0)
      (fun r => r.Broken K f0) := fun n hn =>
    (getBits_ends hK hn Rx.asideProp_true).weaken (fun r h => ⟨h, trivial⟩) (fun _ _ h => h.2.1) fun _ h => h
  have hchk : ∀ c, (raiseIf c).Ends (fun r => r.Going K f0) (fun _ r => r.Going K f0) (fun r => r.Broken K f0) :=
    fun c => RxM.Ends.raiseIf (fun _ r h => h) fun r h => h.broken
  have hload : ∀ f : Rx → Rx, (∀ r : Rx, f r = { r with
      mtime := (f r).mtime, flags := (f r).flags, rawSize := (f r).rawSize, xtraLen := (f r).xtraLen }) →
      (modify f : RxM PUnit).Ends (fun r => r.Going K f0) (fun _ r => r.Going K f0) (fun r => r.Broken K f0) :=
    fun f hf => RxM.Ends.modify fun r h => h.loadHeader (hf r)
  have hpure : ∀ {γ : Type} (a : γ), (pure a : RxM γ).Ends (fun r => r.Going K f0) (fun _ r => r.Going K f0)
      (fun r => r.Broken K f0) := fun a => RxM.Ends.pure fun _ h => h
  refine RxM.Ends.bind (Q := fun _ r => r.Going K f0) ?_ fun _ => RxM.Ends.bind (Q := fun _ r => r.Going K f0) ?_ fun fl =>
    RxM.Ends.bind (Q := fun _ r => r.Going K f0) ?_ fun _ => RxM.Ends.bind (Q := fun _ r => r.Going K f0) ?_ fun _ =>
    RxM.Ends.bind (Q := fun _ r => r.Going K f0) ?_ fun _ =>
    RxM.Ends.bind (Q := fun _ r => r.Going K f0 ∧ r.pstate = .headerRead) ?_ fun _ => RxM.Ends.pure fun _ h => h
  · exact (hget 8 (by omega)).bind fun _ => (hget 8 (by omega)).bind fun _ => hchk _
  · exact (hget 32 (by omega)).bind fun _ => (hload _ fun _ => rfl).bind fun _ => (hget 8 (by omega)).bind fun _ =>
      (hload _ fun _ => rfl).bind fun _ => (hchk _).bind fun _ => hpure _
  · exact RxM.Ends.ite (fun _ => (hget 32 (by omega)).bind fun _ => hload _ fun _ => rfl) fun _ => hpure ()
  · exact RxM.Ends.ite (fun _ => getName_ends hK 0 K.nameMax) fun _ => hpure ()
  · exact RxM.Ends.ite (fun _ => (hget 16 (by omega)).bind fun _ => (hload _ fun _ => rfl).bind fun _ => hchk _)
      fun _ => hpure ()
  · exact RxM.Ends.modify fun r h => ⟨⟨h.reader.rebase { r with pstate := .headerRead }, h.chans,
      fun hp => (by cases hp), h.flt, h.name, h.raw⟩, rfl⟩

/-- A section header, whatever the stream: the channels it registers are in order (R276, R277). -/
theorem getChannel_ends (hK : K.Legal) (withReps : Bool) (c m : Nat) (hm : m < K.maxChannels) {P : Rx → Prop}
    (hP : Rx.AsideProp P) (hPc : ∀ r cs, P r → P { r with chans := cs }) :
    (getChannel K withReps c).Ends (fun r => r.Going K f0 ∧ r.chans.length = m ∧ P r)
      (fun _ r => r.Going K f0 ∧ r.chans.length = m + 1 ∧ P r) (fun r => r.Broken K f0) := by
  have hW := hK.wordBits_ge
  have hr := hK.repsBits
  have hn := hK.nbitsBits
  have ha := hK.algBits
  have ht := hK.typeBits
  have hP' : Rx.AsideProp fun r : Rx => r.chans.length = m ∧ P r := fun q r h => ⟨h.1, hP q r h.2⟩
  have hget : ∀ n, n ≤ K.wordBits → (getBits K n).Ends (fun r => r.Going K f0 ∧ r.chans.length = m ∧ P r)
      (fun v r => v < 2 ^ n ∧ r.Going K f0 ∧ r.chans.length = m ∧ P r) (fun r => r.Broken K f0) := fun n hn =>
    getBits_ends hK hn hP'
  unfold getChannel
  have hreps : (if withReps then getBits K K.repsBits else pure 1).Ends
      (fun r => r.Going K f0 ∧ r.chans.length = m ∧ P r)
      (fun v r => v < 2 ^ 32 ∧ r.Going K f0 ∧ r.chans.length = m ∧ P r) (fun r => r.Broken K f0) := by
    refine RxM.Ends.ite (fun _ => (hget _ (by omega)).weaken (fun _ h => h)
      (fun v r h => ⟨lt_two_pow_of_le h.1 hr.2, h.2⟩) fun _ h => h) fun _ => RxM.Ends.pure fun r h => ⟨by decide, h⟩
  refine hreps.bind fun reps => RxM.ends_const fun hreps32 => ?_
  refine (hget 1 (by omega)).bind fun delta => RxM.ends_const fun _ => ?_
  refine (hget K.nbitsBits (by omega)).bind fun rot => RxM.ends_const fun _ => ?_
  refine (hget K.algBits (by omega)).bind fun alg => RxM.ends_const fun _ => ?_
  refine (hget K.typeBits (by omega)).bind fun type => RxM.ends_const fun _ => ?_
  refine RxM.Ends.bind (Q := fun _ r => reps ≠ 0 ∧ r.Going K f0 ∧ r.chans.length = m ∧ P r)
    (RxM.Ends.raiseIf (fun hc r h => ⟨?_, h⟩) fun r h => h.1.broken) fun _ => RxM.ends_const fun h0 => ?_
  · simp only [chanFieldsCheck, orElse_eq_none, refuseIf_eq_none] at hc; exact hc.1
  have hwle : ((DType.ofCode type).getD default).width ≤ 32 := by
    rcases DType.width_cases ((DType.ofCode type).getD default) with h | h | h <;> omega
  have hwge : 8 ≤ ((DType.ofCode type).getD default).width := by
    rcases DType.width_cases ((DType.ofCode type).getD default) with h | h | h <;> omega
  generalize ((DType.ofCode type).getD default) = dtype at hwle hwge
  have hpar : (getParams K ((Alg.ofCode alg).getD default) dtype.width).Ends
      (fun r => r.Going K f0 ∧ r.chans.length = m ∧ P r)
      (fun p r => (1 ≤ p.2.1 ∧ p.2.1 ≤ 32) ∧ r.Going K f0 ∧ r.chans.length = m ∧ P r) (fun r => r.Broken K f0) := by
    unfold getParams
    cases (Alg.ofCode alg).getD default
    · exact RxM.Ends.pure fun r h => ⟨⟨by simp only; omega, hwle⟩, h⟩
    · refine (hget _ (by omega)).bind fun offset => RxM.ends_const fun _ => ?_
      refine (hget _ (by omega)).bind fun nb => RxM.ends_const fun _ => ?_
      refine RxM.Ends.bind (Q := fun _ r => nb + 1 ≤ dtype.width ∧ r.Going K f0 ∧ r.chans.length = m ∧ P r)
        (RxM.Ends.raiseIf (fun hc r h => ⟨by simpa using hc, h⟩) fun r h => h.1.broken) fun _ => RxM.ends_const fun hnb => ?_
      exact RxM.Ends.pure fun r h => ⟨⟨by simp, by simp only; omega⟩, h⟩
    · exact RxM.Ends.pure fun r h => ⟨⟨by simp only; omega, hwle⟩, h⟩
    · refine (hget _ (by omega)).bind fun const => RxM.ends_const fun _ => ?_
      exact RxM.Ends.pure fun r h => ⟨⟨by simp only; omega, hwle⟩, h⟩
  refine hpar.bind fun params => RxM.ends_const fun hnb => RxM.Ends.modify fun r h => ?_
  obtain ⟨hg, hlen, hp⟩ := h
  have hok : (channelOfFields reps delta rot dtype ((Alg.ofCode alg).getD default) params).Ok := by
    refine ⟨fun h1 => h0 ?_, ?_, Nat.two_pow_pos _⟩
    · have := congrArg BitVec.toNat h1
      simp only [channelOfFields, BitVec.toNat_ofNat] at this
      rwa [Nat.mod_eq_of_lt hreps32] at this
    · simp only [channelOfFields, BitVec.toNat_ofNat]
      rw [Nat.mod_eq_of_lt (by omega)]; exact hnb
  refine ⟨⟨hg.reader.withChans _, hg.chans.append hok (by omega), hg.counted, hg.flt, hg.name, hg.raw⟩, ?_, hPc r _ hp⟩
  simp [hlen]

theorem getChannels_ends (hK : K.Legal) (withReps : Bool) (c n m : Nat) (hm : m + n ≤ K.maxChannels) {P : Rx → Prop}
    (hP : Rx.AsideProp P) (hPc : ∀ r cs, P r → P { r with chans := cs }) :
    (getChannels K withReps c n).Ends (fun r => r.Going K f0 ∧ r.chans.length = m ∧ P r)
      (fun _ r => r.Going K f0 ∧ P r) (fun r => r.Broken K f0) := by
  induction n generalizing c m with
  | zero => exact RxM.Ends.pure fun r h => ⟨h.1, h.2.2⟩
  | succ n ih =>
    exact (getChannel_ends hK withReps c m (by omega) hP hPc).bind fun _ => ih (c + 1) (m + 1) (by omega)

/-- `GetSectionHeader`, whatever the stream (R276, R277). -/
theorem getSectionHeader_ends (hK : K.Legal) :
    (getSectionHeader K).Ends (fun r => r.Going K f0 ∧ r.pstate ≠ .noHeader)
      (fun _ r => r.Going K f0 ∧ r.pstate ≠ .noHeader) (fun r => r.Broken K f0) := by
  have hW := hK.wordBits_ge
  have hs := hK.sectSizeBits
  have hn := hK.numChanBits
  have hP : Rx.AsideProp fun r : Rx => r.pstate ≠ .noHeader := fun _ _ h => h
  have hwind : (getWindup K).Ends (fun r => r.Going K f0 ∧ r.pstate ≠ .noHeader)
      (fun _ r => r.Going K f0 ∧ r.pstate ≠ .noHeader) (fun r => r.Broken K f0) :=
    RxM.Ends.modify fun r h => by
      obtain ⟨bits, _, hc⟩ := Rx.windup_consumed hK h.1.reader
      exact ⟨h.1.consumed hc, hc.withReader_eq ▸ hP r _ h.2⟩
  have hget : ∀ n, n ≤ K.wordBits → (getBits K n).Ends (fun r => r.Going K f0 ∧ r.pstate ≠ .noHeader)
      (fun _ r => r.Going K f0 ∧ r.pstate ≠ .noHeader) (fun r => r.Broken K f0) := fun n hn =>
    (getBits_ends hK hn hP).weaken (fun _ h => h) (fun _ _ h => h.2) fun _ h => h
  refine hwind.bind fun _ => RxM.Ends.bind (Q := fun _ r => r.Going K f0 ∧ r.pstate ≠ .noHeader) ?_ fun _ =>
    hwind.bind fun _ => RxM.Ends.pure fun _ h => h
  refine RxM.Ends.bind (Q := fun _ r => r.Going K f0 ∧ r.pstate ≠ .noHeader) ?_ fun size => ?_
  · exact (hget _ (by omega)).bind fun _ => RxM.Ends.bind (Q := fun _ r => r.Going K f0 ∧ r.pstate ≠ .noHeader)
      (RxM.Ends.raiseIf (fun _ r h => h) fun r h => h.1.broken) fun _ => RxM.Ends.pure fun _ h => h
  refine RxM.Ends.bind (Q := fun _ r => r.Going K f0 ∧ r.pstate ≠ .noHeader) (RxM.Ends.get fun r h => h) fun r0 => ?_
  refine RxM.Ends.bind (Q := fun n r => n ≤ K.maxChannels ∧ r.Going K f0 ∧ r.pstate ≠ .noHeader) ?_ fun n =>
    RxM.ends_const fun hle => ?_
  · rw [getChannelCount]
    refine RxM.Ends.bind (Q := fun _ r => r.Going K f0 ∧ r.pstate ≠ .noHeader)
      (RxM.Ends.ite (fun _ => RxM.Ends.pure fun _ h => h) fun _ => hget _ (by omega)) fun n => ?_
    refine RxM.Ends.bind (Q := fun _ r => n ≤ K.maxChannels ∧ r.Going K f0 ∧ r.pstate ≠ .noHeader)
      (RxM.Ends.raiseIf (fun hc r h => ⟨?_, h⟩) fun r h => h.1.broken) fun _ => RxM.Ends.pure fun _ h => h
    simp only [orElse_eq_none, refuseIf_eq_none] at hc
    omega
  refine RxM.Ends.bind (Q := fun _ r => r.Going K f0 ∧ r.chans.length = 0 ∧ r.pstate ≠ .noHeader)
    (RxM.Ends.modify fun r h => ?_) fun _ => ?_
  · exact ⟨⟨h.1.reader.withChans [], ChansOk.nil, h.1.counted, h.1.flt, h.1.name, h.1.raw⟩, rfl, h.2⟩
  · exact (getChannels_ends hK _ 0 n 0 (by omega) hP fun _ _ h => h).bind fun _ => RxM.Ends.pure fun _ h => h

/-- `DecVec`, whatever the stream (R225, R230). -/
theorem decVec_going (hK : K.Legal) (c addr nbytes : Nat) {P : Rx → Prop} (hP : Rx.AsideProp P)
    (hPc : ∀ r cs m, P r → P { r with chans := cs, raw := m }) (n : Nat) (hc : c < n) :
    (decVec K c addr nbytes).Ends (fun r => r.Going K f0 ∧ r.chans.length = n ∧ P r)
      (fun _ r => r.Going K f0 ∧ r.chans.length = n ∧ P r) (fun r => r.Broken K f0) := by
  rintro r ⟨hg, hn, hp⟩
  have hch := hg.chans.2 _ (channelAt_mem (show c < r.chans.length by omega))
  have he := decVec_ends hK c addr nbytes r
  cases hx : decVec K c addr nbytes r with
  | error e r1 => rw [hx] at he; exact hg.broken.touched he
  | ok u r1 =>
    rw [decVec_eq] at hx
    cases hw : decWords K c (ceilDiv nbytes (channelAt r.chans c).size) r with
    | error e r2 => rw [hw] at hx; cases hx
    | ok rs r2 =>
      rw [hw] at hx
      cases hx
      obtain ⟨ys, bits, hcon⟩ := decWords_consumes hK hg.reader hch hw
      have e2 := hcon.withReader_eq
      have h2 : r2.Going K f0 := by
        refine Rx.Going.consumed (r := { r with chans := (if (channelAt r.chans c).alg = .constant then r.chans
          else r.chans.set c (stageIn (channelAt r.chans c) ys).2) })
          ⟨hg.reader.withChans _, ?_, hg.counted, hg.flt, hg.name, hg.raw⟩ hcon
        simp only
        split
        · exact hg.chans
        · exact hg.chans.set (stageIn_ok hch ys)
      refine ⟨⟨h2.reader.withRaw _, h2.chans, h2.counted, h2.flt, h2.name, writeWords_wf h2.raw _ _ _ _⟩, ?_, ?_⟩
      · simp only
        rw [← e2]
        show List.length (if _ then _ else _) = n
        split <;> simp [hn]
      · have : P r2 := by
          rw [← e2]
          exact hP _ r2 (hPc r _ r.raw hp)
        exact hPc r2 r2.chans _ this

theorem decVectors_ends (hK : K.Legal) (vs : List (Nat × Nat × Nat)) {P : Rx → Prop} (hP : Rx.AsideProp P)
    (hPc : ∀ r cs m, P r → P { r with chans := cs, raw := m }) (n : Nat) (hv : ∀ v ∈ vs, v.1 < n) :
    (decVectors K vs).Ends (fun r => r.Going K f0 ∧ r.chans.length = n ∧ P r)
      (fun _ r => r.Going K f0 ∧ r.chans.length = n ∧ P r) (fun r => r.Broken K f0) := by
  induction vs with
  | nil => exact RxM.Ends.pure fun _ h => h
  | cons v vs ih =>
    exact (decVec_going hK v.1 v.2.1 v.2.2 hP hPc n (hv v (List.mem_cons_self ..))).bind fun _ =>
      ih fun w hw => hv w (List.mem_cons_of_mem _ hw)

/-- `P.SECTION` past its checks, whatever the stream (R275 to R284). -/
theorem getSection_ends (hK : K.Legal) :
    (getSection K).Ends (fun r => r.Going K f0 ∧ r.pstate ≠ .noHeader) (fun _ r => r.Going K f0)
      (fun r => r.Broken K f0) := by
  have hW := hK.wordBits_ge
  have hP : Rx.AsideProp fun r : Rx => r.pstate ≠ .noHeader := fun _ _ h => h
  have hget : ∀ n, n ≤ K.wordBits → (getBits K n).Ends (fun r => r.Going K f0 ∧ r.pstate ≠ .noHeader)
      (fun _ r => r.Going K f0 ∧ r.pstate ≠ .noHeader) (fun r => r.Broken K f0) := fun n hn =>
    (getBits_ends hK hn hP).weaken (fun _ h => h) (fun _ _ h => h.2) fun _ h => h
  refine (getSectionHeader_ends hK).bind fun size => ?_
  refine RxM.Ends.bind (Q := fun _ r => r.Going K f0 ∧ r.pstate ≠ .noHeader) ?_ fun _ => ?_
  · rintro r ⟨hg, hp⟩
    rw [decSection_eq hK size (shares_pos hg.chans.2)]
    exact ((decVectors_ends hK (sectionVectors r.chans size) hP (fun _ _ _ h => h) r.chans.length
      fun v hv => (sectionVectors_mem hv).1).weaken (fun _ h => h) (fun _ _ h => ⟨h.1, h.2.2⟩) fun _ h => h) r ⟨hg, rfl, hp⟩
  refine RxM.Ends.bind (Q := fun _ r => r.Going K f0 ∧ r.pstate ≠ .noHeader) ?_ fun _ => ?_
  · rw [getCrc]
    refine RxM.Ends.bind (Q := fun _ r => r.Going K f0 ∧ r.pstate ≠ .noHeader) (RxM.Ends.get fun r h => h) fun r0 => ?_
    refine RxM.Ends.ite (fun _ => (hget 32 (by omega)).bind fun stored => ?_) fun _ => RxM.Ends.pure fun _ h => h
    refine RxM.Ends.bind (Q := fun _ r => r.Going K f0 ∧ r.pstate ≠ .noHeader) (RxM.Ends.modify fun r h => ?_) fun _ => ?_
    · exact ⟨⟨h.1.reader.rebase { r with
        storedCrc := BitVec.ofNat 32 stored, sectCrc := crc32 K (r.raw.bytes 0 size) }, h.1.chans, h.1.counted, h.1.flt,
        h.1.name, h.1.raw⟩, h.2⟩
    · exact RxM.Ends.bind (Q := fun _ r => r.Going K f0 ∧ r.pstate ≠ .noHeader) (RxM.Ends.get fun r h => h) fun r1 =>
        RxM.Ends.raiseIf (fun _ r h => h) fun r h => h.1.broken
  refine RxM.Ends.bind (Q := fun _ r => r.Going K f0 ∧ r.pstate ≠ .noHeader) ?_ fun _ => ?_
  · rw [getFootTag]
    refine (hget 4 (by omega)).bind fun tag => RxM.Ends.ite (fun _ => RxM.Ends.pure fun _ h => h) fun _ =>
      RxM.Ends.ite (fun _ => RxM.Ends.modify fun r h => ?_) fun _ => RxM.Ends.throw fun r h => h.1.broken
    exact ⟨⟨h.1.reader.rebase { r with pstate := .exhausted }, h.1.chans, fun hp => (by cases hp), h.1.flt, h.1.name,
      h.1.raw⟩, by simp⟩
  · refine RxM.Ends.bind (Q := fun _ r => r.Going K f0) (RxM.Ends.modify fun r h => ?_) fun _ => RxM.Ends.pure fun _ h => h
    exact ⟨h.1.reader.rebase (Rx.finishSection K size r), h.1.chans, fun hp => absurd hp h.2, h.1.flt, h.1.name,
      RawMem.forget_wf h.1.raw _ _ _⟩

/-! ## Strings -/

/-- The characters of `R.STR`, whatever the stream (R168). -/
theorem getStr_ends (hK : K.Legal) (addr left n : Nat) :
    (getStr K addr left n).Ends (fun r => r.Going K f0) (fun _ r => r.Going K f0) (fun r => r.Broken K f0) := by
  have h8 : 8 ≤ K.wordBits := by have := hK.wordBits_ge; omega
  induction left generalizing addr n with
  | zero => exact RxM.Ends.pure fun _ h => h
  | succ left ih =>
    rw [getStr]
    refine RxM.Ends.bind ((getBits_ends hK h8 Rx.asideProp_true).weaken (fun r h => ⟨h, trivial⟩) (fun _ _ h => h.2.1)
      fun _ h => h) fun b => ?_
    refine RxM.Ends.bind (Q := fun _ r => r.Going K f0) (RxM.Ends.modify fun r h => ?_) fun _ => ?_
    · exact ⟨h.reader.withRaw _, h.chans, h.counted, h.flt, h.name, RawMem.writeByte_wf h.raw _ _⟩
    · exact RxM.Ends.ite (fun _ => RxM.Ends.pure fun _ h => h) fun _ => ih _ _

end Sys2Proof.Machine
end

