-- ==== Sys2Proof/Laws/Registers.lean ====
section
/-! SUPPORT. Register access (10_state.md R39, R48; 47_system_commands.md R302 to R305, R310): where the map leads, what a
legal write leaves, and that it reads back. -/

namespace Sys2Proof.Machine

variable {K : Config}

theorem ChanField.ofNat_toNat (f : ChanField) : ChanField.ofNat? f.toNat = some f := by cases f <;> rfl

theorem ChanField.toNat_lt (f : ChanField) : f.toNat < 13 := by cases f <;> decide

/-- Addresses at and above 0x20 are the `NAME` rows, the channel fields, or nothing. -/
theorem csrAt_high {nchan addr : Nat} (h : 0x20 ≤ addr) :
    csrAt K nchan addr =
      if 0x100 ≤ addr ∧ addr < 0x100 + K.nameMax then some (.name (addr - 0x100))
      else if 0x1000 ≤ addr ∧ (addr - 0x1000) / 16 < nchan then
        (ChanField.ofNat? ((addr - 0x1000) % 16)).map (Csr.chan ((addr - 0x1000) / 16))
      else none := by
  unfold csrAt
  split <;> first | omega | rfl

/-- The address of a channel field leads to it (R48). -/
theorem csrAt_chan {nchan c : Nat} (hc : c < nchan) (hn : K.nameMax ≤ 0xF00) (f : ChanField) :
    csrAt K nchan (chanAddress c f) = some (.chan c f) := by
  have hf := f.toNat_lt
  have hd : (chanAddress c f - 0x1000) / 16 = c := by simp only [chanAddress]; omega
  have hm : (chanAddress c f - 0x1000) % 16 = f.toNat := by simp only [chanAddress]; omega
  rw [csrAt_high (by simp only [chanAddress]; omega), if_neg (by simp only [chanAddress]; omega), hd, hm,
    if_pos ⟨by simp only [chanAddress]; omega, hc⟩, ChanField.ofNat_toNat]
  rfl

/-- The address of a name byte leads to it (R35, R39). -/
theorem csrAt_name {nchan i : Nat} (hi : i < K.nameMax) : csrAt K nchan (0x100 + i) = some (.name i) := by
  rw [csrAt_high (by omega), if_pos (by omega)]
  simp

/-- A map entry for a name byte is inside `NAME`. -/
theorem csrAt_name_lt {nchan addr i : Nat} (h : csrAt K nchan addr = some (.name i)) : i < K.nameMax := by
  unfold csrAt at h
  split at h <;> try (simp at h; done)
  split at h
  · simp only [Option.some.injEq, Csr.name.injEq] at h; omega
  · split at h
    · cases hf : ChanField.ofNat? ((addr - 0x1000) % 16) <;> rw [hf] at h <;> simp at h
    · simp at h

/-- A map entry for a channel is a registered one. -/
theorem csrAt_chan_lt {nchan addr c : Nat} {f : ChanField} (h : csrAt K nchan addr = some (.chan c f)) : c < nchan := by
  unfold csrAt at h
  split at h <;> try (simp at h; done)
  split at h
  · simp at h
  · split at h
    · cases hf : ChanField.ofNat? ((addr - 0x1000) % 16) <;> rw [hf] at h <;> simp at h
      omega
    · simp at h

/-- A legal write of a channel field reads back (R48, R310). -/
theorem chanFieldValue_store {chans chans' : List Channel} {c v : Nat} {f : ChanField} (hc : c < chans.length)
    (hv : v < 2 ^ 32) (h : chansStore chans c f v = some chans') : (chanFieldValue chans' c f).toNat = v := by
  simp only [chansStore, Option.map_eq_some_iff] at h
  obtain ⟨ch, hs, rfl⟩ := h
  have hat : channelAt (chans.set c ch) c = ch := channelAt_set_self hc ch
  cases f <;> simp only [chanStore, Option.map_eq_some_iff, Option.ite_none_right_eq_some, Option.some.injEq, reduceCtorEq] at hs <;>
    simp only [chanFieldValue, hat]
  · obtain ⟨a, ha, rfl⟩ := hs
    have hav : a.code = v := by
      unfold Alg.ofCode at ha
      split at ha <;> simp at ha <;> subst ha <;> rfl
    simp only [BitVec.toNat_ofNat, hav]; omega
  · obtain ⟨h1, rfl⟩ := hs
    rcases (show v = 0 ∨ v = 1 by omega) with rfl | rfl <;> rfl
  · obtain ⟨h1, rfl⟩ := hs
    simp only [BitVec.toNat_setWidth, BitVec.toNat_ofNat]; omega
  · subst hs; simp only [BitVec.toNat_ofNat]; omega
  · obtain ⟨h1, rfl⟩ := hs
    simp only [BitVec.toNat_setWidth, BitVec.toNat_ofNat]; omega
  · subst hs; simp only [BitVec.toNat_ofNat]; omega

/-- A write to a channel list changes one entry only. -/
theorem chansStore_eq {chans chans' : List Channel} {c v : Nat} {f : ChanField}
    (h : chansStore chans c f v = some chans') : ∃ ch, chanStore (channelAt chans c) f v = some ch ∧ chans' = chans.set c ch := by
  simp only [chansStore, Option.map_eq_some_iff] at h
  obtain ⟨ch, h1, h2⟩ := h
  exact ⟨ch, h1, h2.symm⟩

theorem Tx.Inv.csrStore {t t' : Tx} (h : t.Inv K) {nchan addr v : Nat} {reg : Csr} (hn : nchan = t.chans.length)
    (hreg : csrAt K nchan addr = some reg) (hs : t.csrStore reg v = some t') : t'.Inv K := by
  cases reg <;> simp only [Tx.csrStore, Option.map_eq_some_iff, Option.ite_none_right_eq_some, Option.some.injEq, reduceCtorEq] at hs
  · obtain ⟨_, rfl⟩ := hs
    exact ⟨h.writer.rebase { t with flags := BitVec.ofNat 8 v }, h.gstate, h.finalized, h.closed, h.layout, h.counted,
      h.chans, h.flt, h.name, h.raw⟩
  · subst hs
    exact ⟨h.writer.rebase { t with mtime := BitVec.ofNat 32 v }, h.gstate, h.finalized, h.closed, h.layout, h.counted,
      h.chans, h.flt, h.name, h.raw⟩
  · subst hs
    exact ⟨h.writer.rebase { t with rawSize := BitVec.ofNat 32 v }, h.gstate, h.finalized, h.closed, h.layout, h.counted,
      h.chans, h.flt, h.name, h.raw⟩
  · rename_i i
    obtain ⟨_, rfl⟩ := hs
    exact ⟨h.writer.rebase { t with name := t.name.set i (BitVec.ofNat 8 v) }, h.gstate, h.finalized, h.closed, h.layout,
      h.counted, h.chans, h.flt, by rw [List.length_set]; exact h.name, h.raw⟩
  · rename_i c f
    obtain ⟨cs, hcs, rfl⟩ := hs
    obtain ⟨ch, h1, rfl⟩ := chansStore_eq hcs
    have hc := csrAt_chan_lt hreg
    exact h.withChans (h.chans.set (chanStore_ok (h.chans.2 _ (channelAt_mem (hn ▸ hc))) h1))

theorem Rx.csrStore_cases {r r' : Rx} {nchan addr v : Nat} {reg : Csr} (hn : nchan = r.chans.length)
    (hch : ChansOk K r.chans) (hreg : csrAt K nchan addr = some reg) (hs : r.csrStore reg v = some r') :
    ∃ b cs, r' = { r with ignoreCrc := b, chans := cs } ∧ ChansOk K cs := by
  cases reg <;> simp only [Rx.csrStore, Option.map_eq_some_iff, Option.ite_none_right_eq_some, Option.some.injEq, reduceCtorEq] at hs
  · obtain ⟨_, rfl⟩ := hs
    exact ⟨_, r.chans, rfl, hch⟩
  · obtain ⟨cs, hcs, rfl⟩ := hs
    obtain ⟨ch, h1, rfl⟩ := chansStore_eq hcs
    have hc := csrAt_chan_lt hreg
    exact ⟨r.ignoreCrc, _, rfl, hch.set (chanStore_ok (hch.2 _ (channelAt_mem (hn ▸ hc))) h1)⟩

end Sys2Proof.Machine
end

