-- ==== Sys2Proof/Laws/Keeps.lean ====
section
/-! SUPPORT. What keeps the engines' invariants: a command's preamble and end, a change of a field the invariant does not
speak of, a fault past the checks; and that the checks of `G.SECTION` are `SectionOk` (45_container_generator.md R244). -/

namespace Sys2Proof.Machine

variable {K : Config} {f0 : FaultRecord}

theorem afterCheck_eq_ok {α : Type} {c : Option Raise} {a b : α} (h : afterCheck c a = .ok b) : c = none ∧ a = b := by
  unfold afterCheck at h
  split at h <;> simp_all

/-! ## TX -/

theorem Tx.WriterInv.same {t t' : Tx} (w : t.WriterInv K) (h1 : t'.wbuf = t.wbuf) (h2 : t'.wptr = t.wptr)
    (h3 : t'.woff = t.woff) (h4 : t'.bitpos = t.bitpos) (h5 : t'.sunk = t.sunk) : t'.WriterInv K :=
  ⟨by rw [h1]; exact w.1, by rw [h2]; exact w.2, by rw [h3]; exact w.3, by rw [h1]; exact w.4,
    by rw [h1, h2, h3]; exact w.5, by rw [h1, h2]; exact w.6, by rw [h4, h5, h2, h3]; exact w.7⟩

theorem Tx.Inv.command {t : Tx} (h : t.Inv K) {body : Tx → Except Raise (Nat × Tx)}
    (hb : ∀ v t', t.flt.fault = 0 → body t = .ok (v, t') → t'.Inv K) : (t.command body).Inv K := by
  rcases Tx.command_cases t body with ⟨-, e⟩ | ⟨-, x, -, e⟩ | ⟨hr, v, t', hbd, e⟩ <;> rw [e]
  · exact h.withPort _
  · exact h.raise _
  · exact (hb v t' hr hbd).withPort _

theorem Tx.Inv.streamCommand {t : Tx} (h : t.Inv K) {cw : U32} {body : Tx → Except Raise (Nat × Tx)}
    (hb : ∀ v t', t.Ready → body t = .ok (v, t') → t'.Inv K) : (t.streamCommand cw body).Inv K := by
  rcases Tx.streamCommand_cases t cw body with ⟨-, e⟩ | ⟨-, x, e⟩ | ⟨hr, v, t', hbd, e⟩ <;> rw [e]
  · exact h.withPort _
  · exact h.raise _
  · exact (hb v t' hr hbd).withPort _

/-! ## RX -/

theorem Rx.Inv.withPort {r : Rx} (h : r.Inv K) (p : Port) : ({ r with port := p } : Rx).Inv K :=
  ⟨fun hf => (h.reader hf).rebase { r with port := p }, h.chans, h.length, h.srcpos, h.counted, h.flt, h.name, h.raw⟩

theorem Rx.Inv.raise {r : Rx} (h : r.Inv K) (e : Raise) : (r.raise e).Inv K :=
  ⟨fun hf => absurd hf (FaultRecord.record_ne_zero _ _), fun hf => absurd hf (FaultRecord.record_ne_zero _ _), h.length,
    h.srcpos, h.counted, FaultRecord.record_ok h.flt e, h.name, h.raw⟩

theorem Rx.Inv.withChans {r : Rx} (h : r.Inv K) {cs : List Channel} (hc : ChansOk K cs) :
    ({ r with chans := cs } : Rx).Inv K :=
  ⟨fun hf => (h.reader hf).withChans cs, fun _ => hc, h.length, h.srcpos, h.counted, h.flt, h.name, h.raw⟩

theorem Rx.Inv.withRaw {r : Rx} (h : r.Inv K) {m : RawMem} (hm : m.Wf) (k : Nat) :
    ({ r with raw := m, freeTick := k } : Rx).Inv K :=
  ⟨fun hf => (h.reader hf).rebase { r with raw := m, freeTick := k }, h.chans, h.length, h.srcpos, h.counted, h.flt,
    h.name, hm⟩

/-- Whatever a fault past the checks leaves in the cursor, the channels, the raw memory and the CRC registers, the
invariant holds: a fault is recorded (R230, R275). -/
theorem Rx.Broken.raise_inv {r r' : Rx} (h : r.Broken K f0) (hok : f0.Ok) (e : Raise)
    (hr : r' = { r with
      rptr := r'.rptr, roff := r'.roff, rcount := r'.rcount, bitpos := r'.bitpos, freeTick := r'.freeTick,
      chans := r'.chans, raw := r'.raw, sectCrc := r'.sectCrc, storedCrc := r'.storedCrc })
    (hw : r'.raw.Wf) : (r'.raise e).Inv K := by
  have hl := h.length
  have hs := h.srcpos
  have hc := h.counted
  have hf := h.flt
  have hn := h.name
  rw [hr]
  refine ⟨fun hf => absurd hf (FaultRecord.record_ne_zero _ _), fun hf => absurd hf (FaultRecord.record_ne_zero _ _), hl,
    hs, hc, ?_, hn, hw⟩
  show (FaultRecord.record r.flt e).Ok
  rw [hf]
  exact FaultRecord.record_ok hok e

theorem Rx.Broken.cursorLost_inv {r r' : Rx} {e : Raise} (hb : r'.Broken K r.flt) (hok : r.flt.Ok) :
    (cursorLost e r').Inv K := hb.raise_inv hok e rfl hb.raw

theorem Rx.Inv.command {r : Rx} (h : r.Inv K) {check : Rx → Option Raise} {work : RxM Nat} {onFault : Raise → Rx → Rx}
    (hw : r.flt.fault = 0 → check r = none →
      (∀ v r', work r = .ok v r' → r'.Inv K) ∧ (∀ e r', work r = .error e r' → (onFault e r').Inv K)) :
    (r.command check work onFault).Inv K := by
  rcases Rx.command_cases r check work onFault with ⟨-, e⟩ | ⟨-, x, -, e⟩ | ⟨hf, hc, v, r', hx, e⟩ | ⟨hf, hc, x, r', hx, e⟩ <;>
    rw [e]
  · exact h.withPort _
  · exact h.raise _
  · exact ((hw hf hc).1 v r' hx).withPort _
  · exact (hw hf hc).2 x r' hx

theorem Rx.Inv.simpleCommand {r : Rx} (h : r.Inv K) {body : Rx → Except Raise (Nat × Rx)}
    (hb : ∀ v r', r.flt.fault = 0 → body r = .ok (v, r') → r'.Inv K) : (r.simpleCommand body).Inv K := by
  rcases Rx.simpleCommand_cases r body with ⟨-, e⟩ | ⟨-, x, -, e⟩ | ⟨hr, v, r', hbd, e⟩ <;> rw [e]
  · exact h.withPort _
  · exact h.raise _
  · exact (hb v r' hr hbd).withPort _

/-- A procedure that only reads bits keeps the invariant, whether it answers or faults (R171). -/
theorem Rx.Inv.reads {x : RxM Nat} (ht : x.Touches K) (hc : x.Consumes K) {r : Rx} (h : r.Inv K) (hf : r.flt.fault = 0) :
    (∀ v r', x r = .ok v r' → r'.Inv K) ∧ (∀ e r', x r = .error e r' → (cursorLost e r').Inv K) := by
  have he := RxM.ends_of_reads (f0 := r.flt) ht hc (P := fun _ => True) fun _ _ _ => trivial
  have hg := h.going hf
  exact ⟨fun v r' hx => (he.ok ⟨hg, trivial⟩ hx).1.inv h.flt, fun e r' hx => (he.error ⟨hg, trivial⟩ hx).cursorLost_inv h.flt⟩

/-- `R.UNARY` keeps the invariant: it only reads bits, and its answer moves at most the count of draws. -/
theorem Rx.Inv.unary (hK : K.Legal) {r : Rx} (h : r.Inv K) (hf : r.flt.fault = 0) :
    (∀ v r', (getUnary K >>= fitCount K) r = .ok v r' → r'.Inv K) ∧
    (∀ e r', (getUnary K >>= fitCount K) r = .error e r' → (cursorLost e r').Inv K) := by
  obtain ⟨hok, herr⟩ := Rx.Inv.reads (getUnaryFrom_touches hK K.unaryMax 0) (getUnaryFrom_consumes hK K.unaryMax 0) h hf
  simp only [bind, EStateM.bind, getUnary]
  cases hu : getUnaryFrom K K.unaryMax 0 r with
  | ok v q =>
    obtain ⟨w, k, hw, -⟩ := fitCount_ok (K := K) v q
    simp only [hw]
    refine ⟨fun v' r' hx => ?_, nofun⟩
    cases hx
    exact (hok v q hu).withRaw (hok v q hu).raw k
  | error e q => exact ⟨nofun, fun e' r' hx => by cases hx; exact herr e q hu⟩

theorem Rx.Inv.decWords (hK : K.Legal) {r : Rx} (h : r.Inv K) (hf : r.flt.fault = 0) {c : Nat} (hc : c < r.chans.length)
    (m : Nat) :
    (∀ v r', decWords K c m r = .ok v r' → r'.Inv K) ∧
    (∀ e r', decWords K c m r = .error e r' → ((r'.forgetDecode K c 0 0).raise e).Inv K) := by
  have hch : (channelAt r.chans c).Ok := (h.chans hf).2 _ (channelAt_mem hc)
  have he := decWords_ends hK c m r
  refine ⟨fun v r' hx => ?_, fun e r' hx => ?_⟩
  · obtain ⟨ys, bits, hcons⟩ := decWords_consumes hK (h.reader hf) hch hx
    have hok : ChansOk K (if (channelAt r.chans c).alg = .constant then r.chans
        else r.chans.set c (stageIn (channelAt r.chans c) ys).2) := by
      split
      · exact h.chans hf
      · exact (h.chans hf).set (stageIn_ok hch ys)
    have hi := (h.withChans hok).going (K := K) hf
    exact (hi.consumed hcons).inv h.flt
  · rw [hx] at he
    have hb := (h.going hf).broken.touched he
    exact hb.raise_inv h.flt e (by simp [Rx.forgetDecode, Rx.forgetCursor]) (RawMem.forget_wf hb.raw _ _ _)

theorem Rx.Inv.decVec (hK : K.Legal) {r : Rx} (h : r.Inv K) (hf : r.flt.fault = 0) {c : Nat} (hc : c < r.chans.length)
    (addr n : Nat) :
    (∀ v r', decVec K c addr n r = .ok v r' → r'.Inv K) ∧ (∀ e r', decVec K c addr n r = .error e r' → r'.Broken K r.flt) := by
  have he := decVec_going (f0 := r.flt) hK c addr n (P := fun _ => True) (fun _ _ _ => trivial) (fun _ _ _ _ => trivial)
    r.chans.length hc
  have hp : r.Going K r.flt ∧ r.chans.length = r.chans.length ∧ True := ⟨h.going hf, rfl, trivial⟩
  exact ⟨fun v r' hx => (he.ok hp hx).1.inv h.flt, fun e r' hx => he.error hp hx⟩

/-! ## The checks of a section -/

theorem repsCheck_eq_none {cw : U32} {flags : BitVec 8} {chans : List Channel} :
    repsCheck K cw flags chans = none ↔
      if repsPresent flags chans.length then ∀ ch ∈ chans, ch.reps.toNat < 2 ^ K.repsBits else ∀ ch ∈ chans, ch.reps = 1 := by
  unfold repsCheck
  split
  · simp [firstChannel, List.findIdx?_eq_none_iff]
  · simp

theorem allChanCheck_eq_none {cw : U32} {chans : List Channel} :
    allChanCheck cw chans = none ↔ ∀ ch ∈ chans, ch.Codable ∧ (ch.rot = 0 ∨ ch.permrot = true) := by
  simp only [allChanCheck, List.findSome?_eq_none_iff, List.mem_range, chanCheck_eq_none]
  constructor
  · intro h ch hch
    obtain ⟨c, hc, rfl⟩ := List.mem_iff_getElem.1 hch
    have := (h c hc).2
    rwa [channelAt_eq hc] at this
  · intro h c hc
    have := h _ (channelAt_mem hc)
    exact ⟨hc, this⟩

/-- A section goes through iff it is `SectionOk` (R244). -/
theorem sectionCheck_eq_none {cw : U32} {len : Nat} {t : Tx} (ht : ChansOk K t.chans) :
    sectionCheck K cw len t = none ↔ SectionOk K len t := by
  simp only [sectionCheck, headerCheck, orElse_eq_none, refuseIf_eq_none, repsCheck_eq_none, allChanCheck_eq_none]
  constructor
  · rintro ⟨h1, h2, h3, h4, h5, h6, h7⟩
    refine ⟨by omega, by omega, ⟨fun h => h3 (by rw [h]; rfl), ht.1, ?_, h6, fun ch hc => ⟨ht.2 ch hc, (h7 ch hc).1⟩⟩,
      fun ch hc => (h7 ch hc).2, fun hg => ?_, fun hg hn => ?_⟩
    · intro ho
      by_contra hne
      exact h5 ⟨ho, hne⟩
    · rw [if_pos hg] at h4
      simp only [orElse_eq_none, refuseIf_eq_none] at h4
      simpa using h4.1
    · rw [if_pos hg] at h4
      simp only [orElse_eq_none, refuseIf_eq_none] at h4
      by_contra h0
      exact h4.2 ⟨hn, fun b hb h => h0 (h ▸ hb)⟩
  · intro h
    refine ⟨by have := h.some; omega, by have := h.fits; omega, fun h0 => h.layout.some (List.length_eq_zero_iff.1 h0), ?_,
      fun ho => ho.2 (h.layout.one ho.1), h.layout.reps, fun ch hc => ⟨(h.layout.each ch hc).2, h.permit ch hc⟩⟩
    split
    · rename_i hg
      simp only [orElse_eq_none, refuseIf_eq_none]
      exact ⟨by simp [h.supported hg], fun hn => hn.2 0 (h.named hg hn.1) rfl⟩
    · rfl

end Sys2Proof.Machine
end

