-- ==== Sys2Proof/Laws/PerInstr.lean ====
section
/-! SUPPORT. The family `EncodesItsRow`: the command word the encoder gives a command matches that command's row of
spec/opcode_table.json (30_encoding.md R102, R103). -/

namespace Sys2Proof.Laws

/-- The command word of `i` matches the row of `i`: `CW and mask = match` (R102). -/
def EncodesItsRow.Statement (i : Instr) : Prop := i.commandWord &&& i.tableRow.2 = i.tableRow.1

/-- A word of format `Z` matches the row of its opcode. -/
theorem cwZ_and (op : Byte) : cwZ op &&& 0xFFFFFFFF = op.setWidth 32 := BitVec.and_allOnes

/-- A word of format `N` matches the row of its opcode. -/
theorem cwN_and (op n : Byte) : cwN op n &&& 0xFFFF00FF = op.setWidth 32 := by
  have key : ∀ i : Fin 32, (0xFFFF00FF : U32).getLsbD i = decide (i.val < 8 ∨ 16 ≤ i.val) := by decide
  refine BitVec.eq_of_getLsbD_eq fun i hi => ?_
  have hop := op.getLsbD_of_ge i
  have hn := n.getLsbD_of_ge (i - 8)
  rw [BitVec.getLsbD_and, key ⟨i, hi⟩]
  by_cases h8 : i < 8
  · simp [cwN, h8, hi]
  · by_cases h16 : 16 ≤ i
    · simp [cwN, h8, h16, hop (by omega), hn (by omega), hi]
    · simp [cwN, h8, h16, hop (by omega)]

/-- A word of format `C` matches the row of its opcode. -/
theorem cwC_and (op : Byte) (ch : BitVec 16) : cwC op ch &&& 0x0000FFFF = op.setWidth 32 := by
  have key : ∀ i : Fin 32, (0x0000FFFF : U32).getLsbD i = decide (i.val < 16) := by decide
  refine BitVec.eq_of_getLsbD_eq fun i hi => ?_
  have hop := op.getLsbD_of_ge i
  rw [BitVec.getLsbD_and, key ⟨i, hi⟩]
  by_cases h16 : i < 16
  · simp [cwC, h16, hi]
  · simp [cwC, h16, hop (by omega)]

theorem EncodesItsRow.txReset : EncodesItsRow.Statement (.txReset) :=
  cwZ_and 0x00

theorem EncodesItsRow.txCsrr (addr : U32) : EncodesItsRow.Statement (.txCsrr addr) :=
  cwZ_and 0x01

theorem EncodesItsRow.txCsrw (addr : U32) (value : Word) : EncodesItsRow.Statement (.txCsrw addr value) :=
  cwZ_and 0x02

theorem EncodesItsRow.txRawld (addr : U32) (size : Byte) : EncodesItsRow.Statement (.txRawld addr size) :=
  cwN_and 0x03 size

theorem EncodesItsRow.txRawst (addr : U32) (value : Word) (size : Byte) : EncodesItsRow.Statement (.txRawst addr value size) :=
  cwN_and 0x04 size

theorem EncodesItsRow.wBits (value : Word) (n : Byte) : EncodesItsRow.Statement (.wBits value n) :=
  cwN_and 0x10 n

theorem EncodesItsRow.wUnary (v : Word) : EncodesItsRow.Statement (.wUnary v) :=
  cwZ_and 0x11

theorem EncodesItsRow.wStr (addr : U32) (cap : Word) : EncodesItsRow.Statement (.wStr addr cap) :=
  cwZ_and 0x12

theorem EncodesItsRow.wWindup : EncodesItsRow.Statement (.wWindup) :=
  cwZ_and 0x13

theorem EncodesItsRow.wFlush (discard : Byte) : EncodesItsRow.Statement (.wFlush discard) :=
  cwN_and 0x14 discard

theorem EncodesItsRow.wClose : EncodesItsRow.Statement (.wClose) :=
  cwZ_and 0x15

theorem EncodesItsRow.eMexpg (u : Word) (k : Byte) : EncodesItsRow.Statement (.eMexpg u k) :=
  cwN_and 0x20 k

theorem EncodesItsRow.eWord (ch : BitVec 16) (value : Word) : EncodesItsRow.Statement (.eWord ch value) :=
  cwC_and 0x21 ch

theorem EncodesItsRow.eVec (ch : BitVec 16) (addr : U32) (nbytes : Word) : EncodesItsRow.Statement (.eVec ch addr nbytes) :=
  cwC_and 0x22 ch

theorem EncodesItsRow.eHreset (ch : BitVec 16) : EncodesItsRow.Statement (.eHreset ch) :=
  cwC_and 0x23 ch

theorem EncodesItsRow.gAddch (reps : U32) (desc : Word) : EncodesItsRow.Statement (.gAddch reps desc) :=
  cwZ_and 0x30

theorem EncodesItsRow.gResetch : EncodesItsRow.Statement (.gResetch) :=
  cwZ_and 0x31

theorem EncodesItsRow.gRestore (ch : BitVec 16) : EncodesItsRow.Statement (.gRestore ch) :=
  cwC_and 0x32 ch

theorem EncodesItsRow.gSection (len : Word) : EncodesItsRow.Statement (.gSection len) :=
  cwZ_and 0x33

theorem EncodesItsRow.gFinal : EncodesItsRow.Statement (.gFinal) :=
  cwZ_and 0x34

theorem EncodesItsRow.rxReset : EncodesItsRow.Statement (.rxReset) :=
  cwZ_and 0x80

theorem EncodesItsRow.rxCsrr (addr : U32) : EncodesItsRow.Statement (.rxCsrr addr) :=
  cwZ_and 0x81

theorem EncodesItsRow.rxCsrw (addr : U32) (value : Word) : EncodesItsRow.Statement (.rxCsrw addr value) :=
  cwZ_and 0x82

theorem EncodesItsRow.rxRawld (addr : U32) (size : Byte) : EncodesItsRow.Statement (.rxRawld addr size) :=
  cwN_and 0x83 size

theorem EncodesItsRow.rxRawst (addr : U32) (value : Word) (size : Byte) : EncodesItsRow.Statement (.rxRawst addr value size) :=
  cwN_and 0x84 size

theorem EncodesItsRow.rBits (n : Byte) : EncodesItsRow.Statement (.rBits n) :=
  cwN_and 0x90 n

theorem EncodesItsRow.rUnary : EncodesItsRow.Statement (.rUnary) :=
  cwZ_and 0x91

theorem EncodesItsRow.rStr (addr : U32) (cap : Word) : EncodesItsRow.Statement (.rStr addr cap) :=
  cwZ_and 0x92

theorem EncodesItsRow.rWindup : EncodesItsRow.Statement (.rWindup) :=
  cwZ_and 0x93

theorem EncodesItsRow.dMexpg (k : Byte) : EncodesItsRow.Statement (.dMexpg k) :=
  cwN_and 0xA0 k

theorem EncodesItsRow.dWord (ch : BitVec 16) : EncodesItsRow.Statement (.dWord ch) :=
  cwC_and 0xA1 ch

theorem EncodesItsRow.dVec (ch : BitVec 16) (addr : U32) (nbytes : Word) : EncodesItsRow.Statement (.dVec ch addr nbytes) :=
  cwC_and 0xA2 ch

theorem EncodesItsRow.dHreset (ch : BitVec 16) : EncodesItsRow.Statement (.dHreset ch) :=
  cwC_and 0xA3 ch

theorem EncodesItsRow.pHeader : EncodesItsRow.Statement (.pHeader) :=
  cwZ_and 0xB0

theorem EncodesItsRow.pSection : EncodesItsRow.Statement (.pSection) :=
  cwZ_and 0xB1

theorem EncodesItsRow.pAddch (reps : U32) (desc : Word) : EncodesItsRow.Statement (.pAddch reps desc) :=
  cwZ_and 0xB2

theorem EncodesItsRow.pResetch : EncodesItsRow.Statement (.pResetch) :=
  cwZ_and 0xB3

end Sys2Proof.Laws
end

