-- ==== Sys2Proof/Laws/Refusals.lean ====
section
/-! SUPPORT. Where and with what a reading procedure fails: a small calculus beside `RxM.ReadsTo`, and by it the refusals of
`MexpgGet` and `RlGet` (42_codec_primitives.md R184, R190), of the file header (46_container_parser.md R271, R272), of the
section header (R276, R277) and of a codec inside a section (R283). -/

namespace Sys2Proof.Machine

variable {K : Config} {α β : Type}

/-- With `bits` next in the stream, `Q` of what is behind them, and `P` of the other registers, `x` raises `e pos`, `pos`
being the position where `bits` begin; it has touched the reader's registers and made the change `f` to the others. -/
def RxM.Fails (K : Config) (P : Rx → Prop) (Q : List Bool → Prop) (x : RxM α) (bits : List Bool) (e : Nat → Raise)
    (f : Rx → Rx) : Prop :=
  ∀ r : Rx, r.ReaderInv K → P r → ∀ rest, Q rest → r.ahead K = bits ++ rest →
    ∃ r', x r = .error (e r.bitpos) r' ∧ (f r).Touched K r'

/-- Whatever is behind the bits. -/
abbrev anyRest : List Bool → Prop := fun _ => True

/-- Fewer than `n` bits are behind them. -/
abbrev shortOf (n : Nat) : List Bool → Prop := fun rest => rest.length < n

/-- `EndOfStream` behind `bits`. -/
abbrev endBehind (bits : List Bool) : Nat → Raise := fun pos => endOfStreamAt (pos + bits.length)

variable {P P' : Rx → Prop} {Q : List Bool → Prop}

theorem RxM.Fails.throw (e : Raise) : RxM.Fails K P Q (MonadExcept.throw e : RxM α) [] (fun _ => e) id :=
  fun r _ _ _ _ _ => ⟨r, rfl, Rx.Touched.refl r⟩

theorem RxM.Fails.raiseIf {c : Option Raise} {e : Raise} (h : c = some e) : RxM.Fails K P Q (raiseIf c) [] (fun _ => e) id := by
  subst h; exact RxM.Fails.throw e

theorem RxM.Fails.getBits (hK : K.Legal) {n : Nat} (hn : n ≤ K.wordBits) :
    RxM.Fails K P (shortOf n) (getBits K n) [] (endBehind []) id := by
  intro r hr _ rest hq ha
  have hl : (r.ahead K).length < n := by rw [ha]; exact hq
  obtain ⟨r', h, ht⟩ := getBits_cut hK hn hr hl
  exact ⟨r', h, ht⟩

/-- What fails first fails the whole. -/
theorem RxM.Fails.bind {x : RxM α} {bits : List Bool} {e : Nat → Raise} {f : Rx → Rx} (h : x.Fails K P Q bits e f)
    (k : α → RxM β) : RxM.Fails K P Q (x >>= k) bits e f := by
  intro r hr hp rest hq ha
  obtain ⟨r', h1, h2⟩ := h r hr hp rest hq ha
  exact ⟨r', by simp only [Bind.bind, EStateM.bind, h1], h2⟩

theorem RxM.Fails.congr {x : RxM α} {u v : List Bool} {e e' : Nat → Raise} {f g : Rx → Rx} (h : x.Fails K P Q u e f)
    (hu : u = v) (he : ∀ p, e p = e' p) (hf : ∀ r, P r → f r = g r) : x.Fails K P Q v e' g := by
  subst hu
  intro r hr hp rest hq ha
  rw [← hf r hp, ← he]
  exact h r hr hp rest hq ha

theorem RxM.Fails.weaken {x : RxM α} {u : List Bool} {e : Nat → Raise} {f : Rx → Rx} (h : x.Fails K P Q u e f)
    (hp : ∀ r, P' r → P r) : x.Fails K P' Q u e f := fun r hr h' => h r hr (hp r h')

/-- What is behind a procedure that answers fails. -/
theorem RxM.ReadsTo.thenFails {x : RxM α} {k : α → RxM β} {u v : List Bool} {a : α} {e : Nat → Raise} {f g : Rx → Rx}
    (hx : x.ReadsTo K P u a f) (hk : (k a).Fails K P' Q v e g) (hP : ∀ r, P r → P' (f r)) (hA : Rx.AsideProp P')
    (hg : Rx.Aside g) : RxM.Fails K P Q (x >>= k) (u ++ v) (fun p => e (p + u.length)) (g ∘ f) := by
  intro r hr hp rest hq ha
  rw [List.append_assoc] at ha
  obtain ⟨r1, h1, c1, a1⟩ := hx.takes r hr hp _ ha
  have e1 := c1.withReader_eq
  obtain ⟨r2, h2, t2⟩ := hk r1 c1.inv (e1 ▸ hA (f r) r1 (hP r hp)) rest hq a1
  have hb : r1.bitpos = r.bitpos + u.length := by rw [c1.bitpos_eq, hx.pos r hp]
  refine ⟨r2, by simp only [Bind.bind, EStateM.bind, h1, h2, hb], ?_⟩
  have c3 := c1.rebase (g (f r))
  rw [hg.self (f r), ← hg (f r) r1, e1] at c3
  exact c3.touched.trans t2

theorem RxM.Reads.thenFails {x : RxM α} {k : α → RxM β} {u v : List Bool} {a : α} {e : Nat → Raise} {g : Rx → Rx}
    (hx : x.Reads K u a) (hk : (k a).Fails K P Q v e g) (hA : Rx.AsideProp P) (hg : Rx.Aside g) :
    RxM.Fails K P Q (x >>= k) (u ++ v) (fun p => e (p + u.length)) g :=
  hx.to.thenFails (f := id) hk (fun _ h => h) hA hg

/-- A position is counted on over the pieces. -/
theorem endBehind_append (u v : List Bool) (p : Nat) : endBehind v (p + u.length) = endBehind (u ++ v) p := by
  rw [endBehind, endBehind, List.length_append, Nat.add_assoc]

/-- A field behind a procedure that answers, cut short. -/
theorem RxM.ReadsTo.thenEnds {x : RxM α} {k : α → RxM β} {u v : List Bool} {a : α} {f g : Rx → Rx}
    (hx : x.ReadsTo K P u a f) (hk : (k a).Fails K P' Q v (endBehind v) g) (hP : ∀ r, P r → P' (f r))
    (hA : Rx.AsideProp P') (hg : Rx.Aside g) : RxM.Fails K P Q (x >>= k) (u ++ v) (endBehind (u ++ v)) (g ∘ f) :=
  (hx.thenFails hk hP hA hg).congr rfl (endBehind_append u v) fun _ _ => rfl

theorem RxM.Reads.thenEnds {x : RxM α} {k : α → RxM β} {u v : List Bool} {a : α} {g : Rx → Rx}
    (hx : x.Reads K u a) (hk : (k a).Fails K P Q v (endBehind v) g) (hA : Rx.AsideProp P) (hg : Rx.Aside g) :
    RxM.Fails K P Q (x >>= k) (u ++ v) (endBehind (u ++ v)) g :=
  (hx.thenFails hk hA hg).congr rfl (endBehind_append u v) fun _ _ => rfl

theorem RxM.ReadsTo.seqFails {x : RxM α} {y : RxM β} {u v : List Bool} {a : α} {e : Nat → Raise} {f g : Rx → Rx}
    (hx : x.ReadsTo K P u a f) (hy : y.Fails K P' Q v e g) (hP : ∀ r, P r → P' (f r)) (hA : Rx.AsideProp P')
    (hg : Rx.Aside g) : RxM.Fails K P Q (x >>= fun _ => y) (u ++ v) (fun p => e (p + u.length)) (g ∘ f) :=
  hx.thenFails (k := fun _ => y) hy hP hA hg

theorem RxM.ReadsTo.seqEnds {x : RxM α} {y : RxM β} {u v : List Bool} {a : α} {f g : Rx → Rx}
    (hx : x.ReadsTo K P u a f) (hy : y.Fails K P' Q v (endBehind v) g) (hP : ∀ r, P r → P' (f r))
    (hA : Rx.AsideProp P') (hg : Rx.Aside g) :
    RxM.Fails K P Q (x >>= fun _ => y) (u ++ v) (endBehind (u ++ v)) (g ∘ f) := hx.thenEnds (k := fun _ => y) hy hP hA hg

theorem RxM.Fails.getBind {k : Rx → RxM β} {y : RxM β} {v : List Bool} {e : Nat → Raise} {g : Rx → Rx}
    (hk : ∀ r, P r → k r = y) (hy : y.Fails K P Q v e g) : RxM.Fails K P Q (get >>= k) v e g := by
  intro r hr hp rest hq ha
  obtain ⟨r', h1, h2⟩ := hy r hr hp rest hq ha
  refine ⟨r', ?_, h2⟩
  rw [← hk r hp] at h1
  exact h1

/-! ## Codes of numbers (R164, R184) -/

theorem getUnary_overrun (hK : K.Legal) : RxM.Fails K P anyRest (getUnary K) (List.replicate (K.unaryMax + 1) true)
    (fun _ => ⟨.unaryOverrun, K.unaryMax + 1, K.unaryMax⟩) id := by
  intro r hr _ rest _ ha
  obtain ⟨r', h1, h2⟩ := getUnaryFrom_overrun hK K.unaryMax 0 hr ha
  rw [Nat.zero_add] at h1
  exact ⟨r', h1, h2⟩

/-- A refused code of a number (R184). -/
theorem mexpgGet_refused (hK : K.Legal) {k : Nat} {bits : List Bool} {e : Raise} (h : MexpgRefused K k bits e) :
    RxM.Fails K (fun _ => True) anyRest (mexpgGet K k) bits (fun _ => e) id := by
  cases h with
  | overrun => exact (getUnary_overrun hK).bind _
  | @wide q h0 hq hl =>
    rw [← List.append_nil (unaryBits q)]
    refine (getUnary_reads hK hq).thenFails (e := fun _ => ⟨.corruptStream, q, k⟩) ?_ Rx.asideProp_true Rx.aside_id
    rw [if_neg (by omega), if_pos hl]
    exact RxM.Fails.throw _

/-- A code of a number that the stream does not hold: it ends among the ones of the prefix, or among the bits behind it; the
fault has the position where the transfer that fails begins (R161, R164, R184). -/
theorem mexpgGet_ends (hK : K.Legal) (k : Nat) :
    (∀ (r : Rx) (m : Nat), r.ReaderInv K → m ≤ K.unaryMax → r.ahead K = List.replicate m true →
      ∃ r', mexpgGet K k r = .error (endOfStreamAt (r.bitpos + m)) r' ∧ r.Touched K r') ∧
    (k ≤ K.wordBits → ∀ q ≤ K.unaryMax, q = 0 ∨ q + k ≤ K.wordBits → RxM.Fails K (fun _ => True)
      (shortOf (if q = 0 then k else q + k - 1)) (mexpgGet K k) (unaryBits q) (endBehind (unaryBits q)) id) := by
  refine ⟨fun r m hr hm ha => ?_, fun hk q hq hl => ?_⟩
  · obtain ⟨r', h1, h2, -⟩ := getUnaryFrom_end hK K.unaryMax 0 m hm hr ha
    refine ⟨r', ?_, h2⟩
    have h3 : getUnary K r = _ := h1
    simp only [mexpgGet, bind, EStateM.bind, h3]
    rfl
  · have h := (getUnary_reads hK hq).thenEnds (Q := shortOf (if q = 0 then k else q + k - 1)) (P := fun _ => True)
      (k := fun q => if q = 0 then getBits K k else if K.wordBits < q + k then throw ⟨.corruptStream, q, k⟩
        else do let low ← getBits K (q + k - 1); pure (low ||| 2 ^ (q + k - 1))) (v := []) (g := id) (by
        by_cases h0 : q = 0
        · rw [if_pos h0, if_pos h0]; exact RxM.Fails.getBits hK hk
        · rw [if_neg h0, if_neg h0, if_neg (by omega)]
          exact (RxM.Fails.getBits hK (by omega)).bind _) Rx.asideProp_true Rx.aside_id
    rw [List.append_nil] at h
    exact h

/-! ## Run-Length (R190) -/

/-- The pairs that are there are taken, then something behind them fails. -/
theorem rlGetFrom_pairs (hK : K.Legal) {w : Nat} (hw : w ≤ K.wordBits) (ps : List (Nat × Nat)) (fuel left : Nat)
    (hps : ∀ p ∈ ps, p.1 < 2 ^ w ∧ 0 < p.2) (hsum : (ps.map (·.2)).sum < left) (hfuel : left ≤ fuel)
    (hlt : left < 2 ^ K.wordBits) {bits : List Bool} {e : Raise}
    (hend : ∀ fuel' left', left' = left - (ps.map (·.2)).sum → left' ≤ fuel' →
      RxM.Fails K (fun _ => True) anyRest (rlGetFrom K w fuel' left') bits (fun _ => e) id) :
    RxM.Fails K (fun _ => True) anyRest (rlGetFrom K w fuel left) (pairsBits ps ++ bits) (fun _ => e) id := by
  induction ps generalizing fuel left with
  | nil => exact hend fuel left (by simp) hfuel
  | cons p ps ih =>
    obtain ⟨h1, h2⟩ := hps p (List.mem_cons_self ..)
    simp only [List.map_cons, List.sum_cons] at hsum hend
    obtain ⟨fuel, rfl⟩ : ∃ f, fuel = f + 1 := ⟨fuel - 1, by omega⟩
    have ih' := ih fuel (left - p.2) (fun q hq => hps q (List.mem_cons_of_mem _ hq)) (by omega) (by omega) (by omega)
      (fun f l hl hf => hend f l (by omega) hf)
    have hv := mexpgGet_reads hK (u := p.1) (k := 1)
      (Nat.lt_of_lt_of_le h1 (Nat.pow_le_pow_right (by omega) hw)) (by omega)
    have hc := mexpgGet_reads hK (u := p.2) (k := 1) (by omega) (by omega)
    rw [rlGetFrom, if_neg (by omega), pairsBits, List.flatMap_cons, List.append_assoc, List.append_assoc]
    refine hv.thenFails (e := fun _ => e) ?_ Rx.asideProp_true Rx.aside_id
    rw [if_neg (by omega)]
    refine hc.thenFails (e := fun _ => e) ?_ Rx.asideProp_true Rx.aside_id
    rw [if_neg (by omega)]
    exact ih'.bind _

/-- A refused pair, behind pairs for fewer than the words wanted (R190). -/
theorem rlGet_refused (hK : K.Legal) {w m : Nat} (hw : w ≤ K.wordBits) {ps : List (Nat × Nat)}
    (hps : ∀ p ∈ ps, p.1 < 2 ^ w ∧ 0 < p.2) (hsum : (ps.map (·.2)).sum < m) (hm : m < 2 ^ K.wordBits) {bits : List Bool}
    {e : Raise} (h : PairRefused K w (m - (ps.map (·.2)).sum) bits e) :
    RxM.Fails K (fun _ => True) anyRest (rlGet K w m) (pairsBits ps ++ bits) (fun _ => e) id := by
  refine rlGetFrom_pairs hK hw ps m m hps hsum (le_refl _) hm fun fuel left hl hf => ?_
  obtain ⟨fuel, rfl⟩ : ∃ f, fuel = f + 1 := ⟨fuel - 1, by omega⟩
  rw [← hl] at h
  have word : ∀ {v}, v < 2 ^ w → v < 2 ^ K.wordBits := fun hv =>
    Nat.lt_of_lt_of_le hv (Nat.pow_le_pow_right (by omega) hw)
  rw [rlGetFrom, if_neg (by omega)]
  cases h with
  | value h => exact (mexpgGet_refused hK h).bind _
  | @wide v hv hv2 =>
    rw [← List.append_nil (mexpgBits 1 v)]
    refine (mexpgGet_reads hK hv2 (by omega)).thenFails (e := fun _ => ⟨.corruptStream, v % 2 ^ 32, w⟩) ?_
      Rx.asideProp_true Rx.aside_id
    rw [if_pos hv]
    exact RxM.Fails.throw _
  | count hv h =>
    refine (mexpgGet_reads hK (word hv) (by omega)).thenFails (e := fun _ => e) ?_ Rx.asideProp_true Rx.aside_id
    rw [if_neg (by omega)]
    exact (mexpgGet_refused hK h).bind _
  | @run v n hv hoff hn =>
    rw [← List.append_nil (mexpgBits 1 n)]
    refine (mexpgGet_reads hK (word hv) (by omega)).thenFails (e := fun _ => ⟨.corruptStream, n % 2 ^ 32, left⟩) ?_
      Rx.asideProp_true Rx.aside_id
    rw [if_neg (by omega)]
    refine (mexpgGet_reads hK hn (by omega)).thenFails (e := fun _ => ⟨.corruptStream, n % 2 ^ 32, left⟩) ?_
      Rx.asideProp_true Rx.aside_id
    rw [if_pos hoff]
    exact RxM.Fails.throw _

/-- A Run-Length channel whose stream its codec refuses (R190, R199, R230). -/
theorem decWords_runLength_fails {c m : Nat} {r : Rx} (h : r.ReaderInv K) (ha : (channelAt r.chans c).alg = .runLength)
    {bits rest : List Bool} {e : Raise}
    (hf : RxM.Fails K (fun _ => True) anyRest (rlGet K (channelAt r.chans c).width m) bits (fun _ => e) id)
    (hs : r.ahead K = bits ++ rest) : ∃ r', decWords K c m r = .error e r' ∧ r.Touched K r' := by
  obtain ⟨r', h1, h2⟩ := hf r h trivial rest trivial hs
  refine ⟨r', ?_, h2⟩
  simp only [decWords, bind, EStateM.bind, get, MonadState.get, getThe, MonadStateOf.get, EStateM.get, ha, codecGet,
    reduceCtorEq, if_false, h1]

/-! ## A codec's refusal inside a section (R283) -/

/-- Coding vectors changes nothing of a channel but its history. -/
theorem vectorsAfter_at (words : WordsAt) (vs : List (Nat × Nat × Nat)) (cs : List Channel) (c : Nat) :
    channelAt (vectorsAfter words cs vs) c = { channelAt cs c with prev := (channelAt (vectorsAfter words cs vs) c).prev } := by
  induction vs generalizing cs with
  | nil => rfl
  | cons v vs ih =>
    obtain ⟨d, addr, nbytes⟩ := v
    simp only [vectorsAfter]
    rw [ih]
    by_cases hd : d < cs.length
    · by_cases hdc : d = c
      · subst hdc
        rw [channelAt_set_self hd, chanAfter_eq]
      · rw [channelAt_set_ne hdc]
    · rw [List.set_eq_of_length_le (by omega)]

/-- `P.SECTION` past its checks where, behind the section header, whole vectors and whole pairs, the codec of a Run-Length
channel refuses its stream (R190, R283). -/
theorem getSection_codecFails (hK : K.Legal) {r : Rx} (h : r.ReaderInv K) {chans : List Channel}
    (hl : LayoutOk K r.flags chans) {len : Nat} (h0 : 0 < len) (hlen : len ≤ K.maxSectionLength) {src : RawMem}
    {words : WordsAt} (hwo : WordsOf src words) {vs us : List (Nat × Nat × Nat)} {c addr nbytes : Nat} (hv : sectionVectors chans len = vs ++ (c, addr, nbytes) :: us)
    (hrl : (channelAt chans c).alg = .runLength) {head data : List Bool} (hh : HeadCoded K r.flags chans len r.bitpos head)
    (hd : VectorsCoded words (resetHistories chans) vs data) {bits rest : List Bool} {e : Raise}
    (hf : RxM.Fails K (fun _ => True) anyRest
      (rlGet K (channelAt chans c).width (ceilDiv nbytes (channelAt chans c).size)) bits (fun _ => e) id)
    (ha : r.ahead K = head ++ data ++ bits ++ rest) : ∃ r', getSection K r = .error e r' := by
  have hin : ∀ v ∈ vs ++ (c, addr, nbytes) :: us, v.1 < chans.length ∧ v.2.2 < 2 ^ K.wordBits := fun v h => by
    have := sectionVectors_mem (hv ▸ h)
    have := sectionLength_lt hK hlen
    exact ⟨by omega, by omega⟩
  obtain ⟨r1, u1, c1, a1⟩ := getSectionHeader_reads hK h hl h0 hlen hh (rest := data ++ (bits ++ rest)) (by
    rw [ha]; simp only [List.append_assoc])
  have e1 := c1.withReader_eq
  have p1 : r1.chans = chans.map Channel.parsed := by rw [← e1]; rfl
  rw [← vectorsCoded_parsed words fun v h => (hin v (List.mem_append_left _ h)).1] at hd
  obtain ⟨r2, u2, c2, a2⟩ := (decVectors_reads hK hwo vs _ (parsed_each hl) (fun v h => by
    rw [List.length_map]; exact hin v (List.mem_append_left _ h)) hd).takes r1 c1.inv p1 _ a1
  have hc : c < chans.length := (hin _ (List.mem_append_right _ (List.mem_cons_self ..))).1
  have hat : channelAt r1.chans c = (channelAt chans c).parsed := by
    rw [p1, channelAt_eq (by simpa using hc), channelAt_eq hc, List.getElem_map]
  have hat2 : channelAt r2.chans c = { (channelAt chans c).parsed with prev := (channelAt r2.chans c).prev } := by
    have e2 : r2.chans = vectorsAfter words (chans.map Channel.parsed) vs := by rw [← c2.withReader_eq]; rfl
    rw [← hat, p1, e2]
    exact vectorsAfter_at ..
  have hw : (channelAt r2.chans c).width = (channelAt chans c).width := by rw [hat2]; rfl
  have hs : (channelAt r2.chans c).size = (channelAt chans c).size := by rw [hat2]; rfl
  obtain ⟨r3, u3, -⟩ := decWords_runLength_fails (m := ceilDiv nbytes (channelAt r2.chans c).size) c2.inv
    (by rw [hat2]; exact hrl) (by rw [hw, hs]; exact hf) a2
  have u4 : decSection K len r1 = .error e r3 := by
    rw [decSection_of hK len (parsed_each hl) r1 p1, sectionVectors_parsed, hv, decVectors_append, u2]
    simp only [decVectors, bind, EStateM.bind, decVec_eq, u3]
  exact ⟨r3, by simp only [getSection, bind, EStateM.bind, u1, u4]⟩

/-! ## The file header (R271, R272) -/

theorem getMagic_wrong (hK : K.Legal) {m0 m1 : Byte} (h : m0 ≠ K.magic0 ∨ m1 ≠ K.magic1) :
    RxM.Fails K P anyRest (getMagic K) (fieldBits 8 m0.toNat ++ fieldBits 8 m1.toNat)
      (fun _ => ⟨.notASlimFile, m0.toNat + 256 * m1.toNat, K.magic0.toNat + 256 * K.magic1.toNat⟩) id := by
  have h8 : 8 ≤ K.wordBits := by have := hK.wordBits_ge; omega
  have h1 : m0.toNat ≠ K.magic0.toNat ∨ m1.toNat ≠ K.magic1.toNat :=
    h.imp (fun h e => h (BitVec.eq_of_toNat_eq e)) fun h e => h (BitVec.eq_of_toNat_eq e)
  rw [← List.append_nil (fieldBits 8 m1.toNat)]
  exact ((getBits_reads_lt hK h8 m0.isLt).thenFails (e := fun _ => _) ((getBits_reads_lt hK h8 m1.isLt).thenFails
    (e := fun _ => _) (RxM.Fails.raiseIf (P := fun _ => True) (refuseIf_pos h1 _)) Rx.asideProp_true Rx.aside_id)
    Rx.asideProp_true Rx.aside_id).weaken fun _ _ => trivial

theorem getMagic_ends (hK : K.Legal) :
    RxM.Fails K P (shortOf 8) (getMagic K) [] (endBehind []) id ∧
    ∀ m0 : Byte, RxM.Fails K P (shortOf 8) (getMagic K) (fieldBits 8 m0.toNat) (endBehind (fieldBits 8 m0.toNat)) id := by
  have h8 : 8 ≤ K.wordBits := by have := hK.wordBits_ge; omega
  refine ⟨(RxM.Fails.getBits hK h8).bind _, fun m0 => ?_⟩
  have := (getBits_reads_lt hK h8 m0.isLt).thenEnds (k := fun m0 => do
      let m1 ← getBits K 8
      raiseIf (refuseIf (m0 ≠ K.magic0.toNat ∨ m1 ≠ K.magic1.toNat)
        ⟨.notASlimFile, m0 + 256 * m1, K.magic0.toNat + 256 * K.magic1.toNat⟩))
    ((RxM.Fails.getBits (P := fun _ => True) hK h8).bind _) Rx.asideProp_true Rx.aside_id
  rw [List.append_nil] at this
  exact this.weaken fun _ _ => trivial

theorem getMtimeFlags_ends (hK : K.Legal) :
    RxM.Fails K P (shortOf 32) (getMtimeFlags K) [] (endBehind []) id ∧
    ∀ mtime : U32, RxM.Fails K P (shortOf 8) (getMtimeFlags K) (fieldBits 32 mtime.toNat)
      (endBehind (fieldBits 32 mtime.toNat)) (fun r => { r with mtime := mtime }) := by
  have h8 : 8 ≤ K.wordBits := by have := hK.wordBits_ge; omega
  refine ⟨(RxM.Fails.getBits hK hK.wordBits_ge).bind _, fun mtime => ?_⟩
  have g1 : Rx.Aside fun r : Rx => { r with mtime := BitVec.ofNat 32 mtime.toNat } := fun _ _ => rfl
  have s1 := (RxM.ReadsTo.modify (K := K) (P := fun _ => True) g1).thenEnds (k := fun _ => do
      let fl ← getBits K 8
      modify fun r => { r with flags := BitVec.ofNat 8 fl }
      raiseIf (refuseIf (flagsUnsupported (BitVec.ofNat 8 fl)) ⟨.unsupportedFeature, fl, 0⟩)
      pure fl) ((RxM.Fails.getBits (P := fun _ => True) hK h8).bind _) (fun _ _ => trivial) Rx.asideProp_true Rx.aside_id
  have s0 := (getBits_reads_lt hK hK.wordBits_ge mtime.isLt).thenEnds (k := fun mtime => do
      modify fun r => { r with mtime := BitVec.ofNat 32 mtime }
      let fl ← getBits K 8
      modify fun r => { r with flags := BitVec.ofNat 8 fl }
      raiseIf (refuseIf (flagsUnsupported (BitVec.ofNat 8 fl)) ⟨.unsupportedFeature, fl, 0⟩)
      pure fl) s1 Rx.asideProp_true (g1.comp Rx.aside_id)
  refine (s0.weaken fun _ _ => trivial).congr (by simp) (fun p => by simp) fun r _ => ?_
  simp [Function.comp]

theorem getMtimeFlags_unsupported (hK : K.Legal) (mtime : U32) {flags : BitVec 8} (hf : flagsUnsupported flags = true) :
    RxM.Fails K P anyRest (getMtimeFlags K) (fieldBits 32 mtime.toNat ++ fieldBits 8 flags.toNat)
      (fun _ => ⟨.unsupportedFeature, flags.toNat, 0⟩) (fun r => { r with mtime := mtime, flags := flags }) := by
  have h8 : 8 ≤ K.wordBits := by have := hK.wordBits_ge; omega
  have g1 : Rx.Aside fun r : Rx => { r with mtime := BitVec.ofNat 32 mtime.toNat } := fun _ _ => rfl
  have g2 : Rx.Aside fun r : Rx => { r with flags := BitVec.ofNat 8 flags.toNat } := fun _ _ => rfl
  have s3 := (RxM.ReadsTo.modify (K := K) (P := fun _ => True) g2).thenFails (Q := anyRest)
    (e := fun _ => ⟨.unsupportedFeature, flags.toNat, 0⟩) (k := fun _ => do
      raiseIf (refuseIf (flagsUnsupported (BitVec.ofNat 8 flags.toNat)) ⟨.unsupportedFeature, flags.toNat, 0⟩)
      (pure flags.toNat : RxM Nat)) ((RxM.Fails.raiseIf (P := fun _ => True) (refuseIf_pos (by simpa using hf) _)).bind _)
      (fun _ _ => trivial) Rx.asideProp_true Rx.aside_id
  have s2 := (getBits_reads_lt hK h8 flags.isLt).thenFails (k := fun fl => do
      modify fun r => { r with flags := BitVec.ofNat 8 fl }
      raiseIf (refuseIf (flagsUnsupported (BitVec.ofNat 8 fl)) ⟨.unsupportedFeature, fl, 0⟩)
      pure fl) s3 Rx.asideProp_true (g2.comp Rx.aside_id)
  have s1 := (RxM.ReadsTo.modify (K := K) (P := fun _ => True) g1).thenFails (k := fun _ => do
      let fl ← getBits K 8
      modify fun r => { r with flags := BitVec.ofNat 8 fl }
      raiseIf (refuseIf (flagsUnsupported (BitVec.ofNat 8 fl)) ⟨.unsupportedFeature, fl, 0⟩)
      pure fl) s2 (fun _ _ => trivial) Rx.asideProp_true (g2.comp Rx.aside_id)
  have s0 := (getBits_reads_lt hK hK.wordBits_ge mtime.isLt).thenFails (k := fun mtime => do
      modify fun r => { r with mtime := BitVec.ofNat 32 mtime }
      let fl ← getBits K 8
      modify fun r => { r with flags := BitVec.ofNat 8 fl }
      raiseIf (refuseIf (flagsUnsupported (BitVec.ofNat 8 fl)) ⟨.unsupportedFeature, fl, 0⟩)
      pure fl) s1 Rx.asideProp_true (g1.comp (g2.comp Rx.aside_id))
  refine (s0.weaken fun _ _ => trivial).congr (by simp) (fun _ => rfl) fun r _ => ?_
  simp [Function.comp]

/-- The characters of a name that does not end where the stream, or `NAME`, does. -/
theorem getName_open (hK : K.Legal) (bs : List Byte) (i left : Nat) (h0 : (0 : Byte) ∉ bs) :
    (bs.length < left → RxM.Fails K (fun r => i + left ≤ r.name.length) (shortOf 8) (getName K i left) (byteBits bs)
      (endBehind (byteBits bs)) (fun r => { r with name := r.name.take i ++ bs ++ r.name.drop (i + bs.length) })) ∧
    (bs.length = left → RxM.Fails K (fun r => i + left ≤ r.name.length) anyRest (getName K i left) (byteBits bs)
      (fun _ => ⟨.corruptStream, K.nameMax, 0⟩)
      (fun r => { r with name := r.name.take i ++ bs ++ r.name.drop (i + bs.length) })) := by
  have h8 : 8 ≤ K.wordBits := by have := hK.wordBits_ge; omega
  induction bs generalizing i left with
  | nil =>
    refine ⟨fun hl => ?_, fun hl => ?_⟩
    · obtain ⟨left, rfl⟩ : ∃ l, left = l + 1 := ⟨left - 1, by simp at hl; omega⟩
      rw [getName]
      exact ((RxM.Fails.getBits hK h8).bind _).congr rfl (fun _ => rfl) fun r _ => by simp
    · simp only [List.length_nil] at hl
      subst hl
      rw [getName]
      exact (RxM.Fails.throw _).congr rfl (fun _ => rfl) fun r _ => by simp
  | cons b bs ih =>
    have hbz : b.toNat ≠ 0 := fun h => h0 (by
      rw [show b = 0 from BitVec.eq_of_toNat_eq (by simpa using h)]; exact List.mem_cons_self ..)
    have hset : Rx.Aside fun r : Rx => { r with name := r.name.set i (BitVec.ofNat 8 b.toNat) } := fun _ _ => rfl
    have hg : Rx.Aside fun r : Rx => { r with
        name := r.name.take (i + 1) ++ bs ++ r.name.drop (i + 1 + bs.length) } := fun _ _ => rfl
    have hcomp : ∀ left, ∀ r : Rx, i + (left + 1) ≤ r.name.length →
        ((fun r : Rx => { r with name := r.name.take (i + 1) ++ bs ++ r.name.drop (i + 1 + bs.length) }) ∘
          fun r : Rx => { r with name := r.name.set i (BitVec.ofNat 8 b.toNat) }) r =
        { r with name := r.name.take i ++ (b :: bs) ++ r.name.drop (i + (b :: bs).length) } := by
      intro left r hr
      simp only [Function.comp, BitVec.ofNat_toNat, BitVec.setWidth_eq]
      congr 1
      rw [List.set_eq_take_append_cons_drop, if_pos (by omega),
        show List.take i r.name ++ b :: List.drop (i + 1) r.name = (r.name.take i ++ [b]) ++ r.name.drop (i + 1) by simp]
      have hl : (r.name.take i ++ [b]).length = i + 1 := by simp; omega
      rw [List.take_left' hl, List.drop_append, hl]
      rw [List.drop_eq_nil_of_le (by rw [hl]; omega), List.drop_drop, List.nil_append,
        show i + 1 + bs.length - (i + 1) = bs.length by omega,
        List.length_cons, show i + 1 + bs.length = i + (bs.length + 1) by omega]
      simp
    have hbits : byteBits (b :: bs) = fieldBits 8 b.toNat ++ ([] ++ byteBits bs) := by simp [byteBits]
    refine ⟨fun hl => ?_, fun hl => ?_⟩ <;>
      obtain ⟨left, rfl⟩ : ∃ l, left = l + 1 := ⟨left - 1, by simp at hl; omega⟩
    · have ih' := (ih (i + 1) left fun h => h0 (List.mem_cons_of_mem _ h)).1 (by simpa using hl)
      rw [getName, hbits]
      refine RxM.Fails.congr ((getBits_reads_lt hK h8 b.isLt).thenEnds (P := fun r => i + (left + 1) ≤ r.name.length)
        (RxM.ReadsTo.thenEnds (RxM.ReadsTo.modify hset) (P' := fun r => i + 1 + left ≤ r.name.length)
          (by rw [if_neg hbz]; exact ih') (fun r hr => by simp only [List.length_set]; omega) (fun _ _ h => h) hg)
        (fun _ _ h => h) (hset.comp hg)) rfl (fun _ => rfl) fun r hr => hcomp left r hr
    · have ih' := (ih (i + 1) left fun h => h0 (List.mem_cons_of_mem _ h)).2 (by simpa using hl)
      rw [getName, hbits]
      refine RxM.Fails.congr ((getBits_reads_lt hK h8 b.isLt).thenFails (P := fun r => i + (left + 1) ≤ r.name.length)
        (e := fun _ => ⟨.corruptStream, K.nameMax, 0⟩)
        (RxM.ReadsTo.thenFails (RxM.ReadsTo.modify hset) (P' := fun r => i + 1 + left ≤ r.name.length)
          (e := fun _ => ⟨.corruptStream, K.nameMax, 0⟩)
          (by rw [if_neg hbz]; exact ih') (fun r hr => by simp only [List.length_set]; omega) (fun _ _ h => h) hg)
        (fun _ _ h => h) (hset.comp hg)) rfl (fun _ => rfl) fun r hr => hcomp left r hr

/-- Behind the magic bytes. -/
theorem getFileHeader_behindMagic (hK : K.Legal) {bits : List Bool} {e : Nat → Raise} {f : Rx → Rx} (hf : Rx.Aside f)
    (h : RxM.Fails K (fun r => r.name.length = K.nameMax) Q (getMtimeFlags K) bits e f) :
    RxM.Fails K (fun r => r.name.length = K.nameMax) Q (getFileHeader K) (byteBits [K.magic0, K.magic1] ++ bits)
      (fun p => e (p + (byteBits [K.magic0, K.magic1]).length)) f := by
  have h1 : byteBits [K.magic0, K.magic1] = fieldBits 8 K.magic0.toNat ++ fieldBits 8 K.magic1.toNat := by simp [byteBits]
  rw [h1]
  exact (getMagic_reads (P := fun r => r.name.length = K.nameMax) hK).thenFails (f := id) (h.bind _) (fun _ h => h)
    (fun _ _ h => h) hf

/-- Behind the flag byte, if the flags are supported: the optional fields in order. -/
theorem getFileHeader_behindFlags (hK : K.Legal) (mtime : U32) {flags : BitVec 8} (hfl : flagsUnsupported flags = false)
    {bits : List Bool} {e : Nat → Raise} {f : Rx → Rx} (hf : Rx.Aside f)
    (h : RxM.Fails K (fun r => r.name.length = K.nameMax) Q
      (getRawSize K flags >>= fun _ => getNameField K flags >>= fun _ => getXtra K flags) bits e f) :
    RxM.Fails K (fun r => r.name.length = K.nameMax) Q (getFileHeader K)
      (byteBits [K.magic0, K.magic1] ++ (fieldBits 32 mtime.toNat ++ fieldBits 8 flags.toNat ++ bits))
      (fun p => e (p + (byteBits [K.magic0, K.magic1]).length + (fieldBits 32 mtime.toNat ++ fieldBits 8 flags.toNat).length))
      (f ∘ fun r => { r with mtime := mtime, flags := flags }) := by
  have h1 : byteBits [K.magic0, K.magic1] = fieldBits 8 K.magic0.toNat ++ fieldBits 8 K.magic1.toNat := by simp [byteBits]
  have ef : BitVec.ofNat 8 flags.toNat = flags := by simp
  have s2 : RxM.Fails K (fun r => r.name.length = K.nameMax) Q (getRawSize K flags >>= fun _ =>
      getNameField K flags >>= fun _ => getXtra K flags >>= fun _ =>
        modify (fun r => { r with pstate := .headerRead }) >>= fun _ => (Pure.pure flags.toNat : RxM Nat)) bits e f := by
    have := h.bind fun _ => modify (fun r => { r with pstate := .headerRead }) >>= fun _ => (Pure.pure flags.toNat : RxM Nat)
    simpa only [bind_assoc] using this
  have s1 := (getMtimeFlags_reads (P := fun r => r.name.length = K.nameMax) hK mtime hfl).thenFails
    (k := fun fl => getRawSize K (BitVec.ofNat 8 fl) >>= fun _ => getNameField K (BitVec.ofNat 8 fl) >>= fun _ =>
      getXtra K (BitVec.ofNat 8 fl) >>= fun _ =>
        modify (fun r => { r with pstate := .headerRead }) >>= fun _ => (Pure.pure fl : RxM Nat))
    (by rw [ef]; exact s2) (fun _ h => h) (fun _ _ h => h) hf
  have g1 : Rx.Aside fun r : Rx => { r with mtime := mtime, flags := flags } := fun _ _ => rfl
  rw [h1]
  have s0 := (getMagic_reads (P := fun r => r.name.length = K.nameMax) hK).thenFails (f := id)
    (P' := fun r => r.name.length = K.nameMax)
    (k := fun _ => getMtimeFlags K >>= fun fl => getRawSize K (BitVec.ofNat 8 fl) >>= fun _ =>
      getNameField K (BitVec.ofNat 8 fl) >>= fun _ => getXtra K (BitVec.ofNat 8 fl) >>= fun _ =>
        modify (fun r => { r with pstate := .headerRead }) >>= fun _ => (Pure.pure fl : RxM Nat))
    (e := fun p => e (p + (fieldBits 32 mtime.toNat ++ fieldBits 8 flags.toNat).length)) s1 (fun _ h => h)
    (fun _ _ h => h) (g1.comp hf)
  exact s0

theorem getRawSize_ends (hK : K.Legal) {flags : BitVec 8} (h : flagSize flags = true) :
    RxM.Fails K P (shortOf 32) (getRawSize K flags) [] (endBehind []) id := by
  rw [getRawSize, if_pos h]
  exact (RxM.Fails.getBits hK hK.wordBits_ge).bind _

theorem getXtra_ends (hK : K.Legal) {flags : BitVec 8} (h : flagXtra flags = true) :
    RxM.Fails K P (shortOf 16) (getXtra K flags) [] (endBehind []) id := by
  rw [getXtra, if_pos h]
  exact (RxM.Fails.getBits hK (by have := hK.wordBits_ge; omega)).bind _

theorem getXtra_refused (hK : K.Legal) {flags : BitVec 8} (h : flagXtra flags = true) {x : BitVec 16} (hx : x ≠ 0) :
    RxM.Fails K P anyRest (getXtra K flags) (fieldBits 16 x.toNat) (fun _ => ⟨.unsupportedFeature, x.toNat, 1⟩)
      (fun r => { r with xtraLen := x }) := by
  have h16 : 16 ≤ K.wordBits := by have := hK.wordBits_ge; omega
  have g1 : Rx.Aside fun r : Rx => { r with xtraLen := BitVec.ofNat 16 x.toNat } := fun _ _ => rfl
  have hx0 : x.toNat ≠ 0 := fun h0 => hx (BitVec.eq_of_toNat_eq (by simpa using h0))
  rw [getXtra, if_pos h]
  have s0 := (getBits_reads_lt hK h16 x.isLt).thenFails (Q := anyRest) (e := fun _ => ⟨.unsupportedFeature, x.toNat, 1⟩)
    (k := fun x => do
      modify fun r => { r with xtraLen := BitVec.ofNat 16 x }
      raiseIf (refuseIf (x ≠ 0) ⟨.unsupportedFeature, x, 1⟩))
    ((RxM.ReadsTo.modify (K := K) (P := fun _ => True) g1).thenFails (Q := anyRest)
      (e := fun _ => ⟨.unsupportedFeature, x.toNat, 1⟩)
      (RxM.Fails.raiseIf (P := fun _ => True) (refuseIf_pos hx0 _)) (fun _ _ => trivial) Rx.asideProp_true Rx.aside_id)
    Rx.asideProp_true (g1.comp Rx.aside_id)
  refine (s0.weaken fun _ _ => trivial).congr (by simp) (fun _ => rfl) fun r _ => ?_
  simp [Function.comp]

/-! ## The section header (R276, R277) -/

theorem getSectionSize_ends (hK : K.Legal) :
    RxM.Fails K P (shortOf K.sectSizeBits) (getSectionSize K) [] (endBehind []) id :=
  (RxM.Fails.getBits hK (by have := hK.sectSizeBits; have := hK.wordBits_ge; omega)).bind _

/-- A size the check refuses. -/
theorem getSectionSize_refused (hK : K.Legal) {size : Nat} {e : Raise} (hs : size < 2 ^ K.sectSizeBits)
    (h : (refuseIf (size = 0) ⟨.corruptStream, 0, 0⟩ <|>
      refuseIf (K.maxSectionLength < size) ⟨.bufferSizeExceeded, size, K.maxSectionLength⟩) = some e) :
    RxM.Fails K P anyRest (getSectionSize K) (fieldBits K.sectSizeBits size) (fun _ => e) id := by
  have h1 := (getBits_reads_lt hK (show K.sectSizeBits ≤ K.wordBits by
    have := hK.sectSizeBits; have := hK.wordBits_ge; omega) hs).thenFails (Q := anyRest) (e := fun _ => e)
    (k := fun size => do
      raiseIf (refuseIf (size = 0) ⟨.corruptStream, 0, 0⟩ <|>
        refuseIf (K.maxSectionLength < size) ⟨.bufferSizeExceeded, size, K.maxSectionLength⟩)
      pure size) ((RxM.Fails.raiseIf (P := fun _ => True) h).bind _) Rx.asideProp_true Rx.aside_id
  rw [List.append_nil] at h1
  exact h1.weaken fun _ _ => trivial

theorem getChannelCount_ends (hK : K.Legal) {flags : BitVec 8} (h1 : flagOneChan flags = false) :
    RxM.Fails K P (shortOf K.numChanBits) (getChannelCount K flags) [] (endBehind []) id := by
  simp only [getChannelCount, h1, Bool.false_eq_true, if_false]
  exact (RxM.Fails.getBits hK (by have := hK.numChanBits; have := hK.wordBits_ge; omega)).bind _

/-- A number of channels the check refuses. -/
theorem getChannelCount_refused (hK : K.Legal) {flags : BitVec 8} (h1 : flagOneChan flags = false) {n : Nat} {e : Raise}
    (hn : n < 2 ^ K.numChanBits) (h : (refuseIf (n = 0) ⟨.corruptStream, 0, 1⟩ <|>
      refuseIf (K.maxChannels < n) ⟨.bufferSizeExceeded, n, K.maxChannels⟩) = some e) :
    RxM.Fails K P anyRest (getChannelCount K flags) (fieldBits K.numChanBits n) (fun _ => e) id := by
  simp only [getChannelCount, h1, Bool.false_eq_true, if_false]
  have h1 := (getBits_reads_lt hK (show K.numChanBits ≤ K.wordBits by
    have := hK.numChanBits; have := hK.wordBits_ge; omega) hn).thenFails (Q := anyRest) (e := fun _ => e)
    (k := fun n => do
      raiseIf (refuseIf (n = 0) ⟨.corruptStream, 0, 1⟩ <|>
        refuseIf (K.maxChannels < n) ⟨.bufferSizeExceeded, n, K.maxChannels⟩)
      pure n) ((RxM.Fails.raiseIf (P := fun _ => True) h).bind _) Rx.asideProp_true Rx.aside_id
  rw [List.append_nil] at h1
  exact h1.weaken fun _ _ => trivial

/-- The five fields of a channel in front of the parameters (R276). -/
def chanFieldBits (K : Config) (withReps : Bool) (reps delta rot alg type : Nat) : List Bool :=
  (if withReps then fieldBits K.repsBits reps else []) ++ (fieldBits 1 delta ++ (fieldBits K.nbitsBits rot ++
    (fieldBits K.algBits alg ++ fieldBits K.typeBits type)))

/-- Their widths, in order. -/
def chanFieldWidths (K : Config) (withReps : Bool) : List Nat :=
  (if withReps then [K.repsBits] else []) ++ [1, K.nbitsBits, K.algBits, K.typeBits]

/-- A field whose bits are given, whatever they are. -/
theorem getBits_reads_bits (hK : K.Legal) {bits : List Bool} (hb : bits.length ≤ K.wordBits) :
    (getBits K bits.length).Reads K bits (bitsValue bits) := by
  have := getBits_reads hK hb (bitsValue bits)
  rw [fieldBits_bitsValue] at this
  have hlt : bitsValue bits < 2 ^ bits.length := bitsValue_lt bits
  rwa [Nat.mod_eq_of_lt hlt] at this

/-- A channel's fields that the check refuses (R277). -/
theorem getChannel_refused (hK : K.Legal) {withReps : Bool} {c reps delta rot alg type : Nat} {e : Raise}
    (hreps : reps < 2 ^ K.repsBits) (h1 : withReps = false → reps = 1) (hdelta : delta < 2) (hrot : rot < 2 ^ K.nbitsBits)
    (halg : alg < 2 ^ K.algBits) (htype : type < 2 ^ K.typeBits) (h : chanFieldsCheck c reps rot alg type = some e) :
    RxM.Fails K P anyRest (getChannel K withReps c) (chanFieldBits K withReps reps delta rot alg type) (fun _ => e) id := by
  have hW := hK.wordBits_ge
  have hreads : RxM.Reads K (if withReps then getBits K K.repsBits else pure 1)
      (if withReps then fieldBits K.repsBits reps else []) reps := by
    split
    · exact getBits_reads_lt hK (by have := hK.repsBits; omega) hreps
    · rename_i hw
      rw [h1 (by simpa using hw)]; exact RxM.Reads.pure 1
  have := hreads.thenFails (K := K) (P := fun _ => True) (Q := anyRest) (e := fun _ => e) (k := fun reps => do
      let delta ← getBits K 1
      let rot ← getBits K K.nbitsBits
      let alg ← getBits K K.algBits
      let type ← getBits K K.typeBits
      raiseIf (chanFieldsCheck c reps rot alg type)
      let params ← getParams K ((Alg.ofCode alg).getD default) ((DType.ofCode type).getD default).width
      modify fun r => { r with
        chans := r.chans ++
          [channelOfFields reps delta rot ((DType.ofCode type).getD default) ((Alg.ofCode alg).getD default) params] })
    ((getBits_reads_lt hK (by omega) (show delta < 2 ^ 1 by omega)).thenFails (e := fun _ => e)
      ((getBits_reads_lt hK (by have := hK.nbitsBits; omega) hrot).thenFails (e := fun _ => e)
        ((getBits_reads_lt hK (by have := hK.algBits; omega) halg).thenFails (e := fun _ => e)
          ((getBits_reads_lt hK (by have := hK.typeBits; omega) htype).thenFails (e := fun _ => e)
            ((RxM.Fails.raiseIf h).bind _) Rx.asideProp_true Rx.aside_id) Rx.asideProp_true Rx.aside_id)
        Rx.asideProp_true Rx.aside_id) Rx.asideProp_true Rx.aside_id) Rx.asideProp_true Rx.aside_id
  refine (this.weaken fun _ _ => trivial).congr ?_ (fun _ => rfl) fun _ _ => rfl
  simp only [chanFieldBits, List.append_nil]

/-- Behind fields the check accepts, the parameters. -/
theorem getChannel_behindFields (hK : K.Legal) {withReps : Bool} {c reps delta rot type : Nat} {alg : Alg} {d : DType}
    (hreps : reps < 2 ^ K.repsBits) (h1 : withReps = false → reps = 1) (h0 : reps ≠ 0) (hdelta : delta < 2)
    (hrot : rot < d.width) (htype : d.code = type) {bits : List Bool} {e : Nat → Raise}
    (h : RxM.Fails K (fun _ => True) Q (getParams K alg d.width) bits e id) :
    RxM.Fails K P Q (getChannel K withReps c) (chanFieldBits K withReps reps delta rot alg.code type ++ bits)
      (fun p => e (p + (chanFieldBits K withReps reps delta rot alg.code type).length)) id := by
  subst htype
  have hW := hK.wordBits_ge
  have hn := hK.nbitsBits
  have hrot32 : rot < 2 ^ 5 := by cases d <;> simp [DType.width, DType.size] at hrot <;> omega
  have hreads : RxM.Reads K (if withReps then getBits K K.repsBits else pure 1)
      (if withReps then fieldBits K.repsBits reps else []) reps := by
    split
    · exact getBits_reads_lt hK (by have := hK.repsBits; omega) hreps
    · rename_i hw
      rw [h1 (by simpa using hw)]; exact RxM.Reads.pure 1
  have hac := alg.code_lt
  have htc := d.code_lt
  have hcheck : chanFieldsCheck c reps rot alg.code d.code = none := by
    simp only [chanFieldsCheck, orElse_eq_none, refuseIf_eq_none, DType.ofCode_code, Option.getD_some]
    refine ⟨h0, by omega, by omega, by omega, by omega⟩
  have := hreads.thenFails (K := K) (P := fun _ => True) (Q := Q) (e := _) (k := fun reps => do
      let delta ← getBits K 1
      let rot ← getBits K K.nbitsBits
      let alg ← getBits K K.algBits
      let type ← getBits K K.typeBits
      raiseIf (chanFieldsCheck c reps rot alg type)
      let params ← getParams K ((Alg.ofCode alg).getD default) ((DType.ofCode type).getD default).width
      modify fun r => { r with
        chans := r.chans ++
          [channelOfFields reps delta rot ((DType.ofCode type).getD default) ((Alg.ofCode alg).getD default) params] })
    ((getBits_reads_lt hK (by omega) (show delta < 2 ^ 1 by omega)).thenFails (e := _)
      ((getBits_reads_lt hK (by omega) (lt_two_pow_of_le hrot32 hn.1)).thenFails (e := _)
        ((getBits_reads_lt hK (by have := hK.algBits; omega)
            (lt_two_pow_of_le (a := 2) (by omega) hK.algBits.1)).thenFails (e := _)
          ((getBits_reads_lt hK (by have := hK.typeBits; omega)
              (lt_two_pow_of_le (a := 3) (by omega) hK.typeBits.1)).thenFails (e := _)
            ((RxM.Reads.raiseIf hcheck).thenFails (e := _) (by
              rw [Alg.ofCode_code, DType.ofCode_code]
              exact h.bind _) Rx.asideProp_true Rx.aside_id)
            Rx.asideProp_true Rx.aside_id) Rx.asideProp_true Rx.aside_id)
        Rx.asideProp_true Rx.aside_id) Rx.asideProp_true Rx.aside_id) Rx.asideProp_true Rx.aside_id
  refine (this.weaken fun _ _ => trivial).congr ?_ (fun p => ?_) fun _ _ => rfl
  · simp only [chanFieldBits, List.append_assoc, List.nil_append]
  · congr 1
    simp only [chanFieldBits, List.length_append, List.length_nil]; omega

/-- `x` reads fields of the widths `ws` first: where the stream ends inside field `i`, it ends in `EndOfStream` where that
field begins. -/
def RxM.FieldsEnd (K : Config) (ws : List Nat) (x : RxM α) : Prop := ∀ (i : Nat) (bits : List Bool), i < ws.length →
  bits.length = (ws.take i).sum → RxM.Fails K (fun _ => True) (shortOf (ws.getD i 0)) x bits (endBehind bits) id

theorem RxM.FieldsEnd.nil (x : RxM α) : x.FieldsEnd K [] := fun i _ h => absurd h (Nat.not_lt_zero i)

theorem RxM.FieldsEnd.cons (hK : K.Legal) {n : Nat} (hn : n ≤ K.wordBits) {ws : List Nat} {k : Nat → RxM α}
    (hk : ∀ v, (k v).FieldsEnd K ws) : RxM.FieldsEnd K (n :: ws) (getBits K n >>= k) := by
  intro i bits hi hl
  cases i with
  | zero =>
    have : bits = [] := List.eq_nil_of_length_eq_zero (by simpa using hl)
    subst this
    exact (RxM.Fails.getBits hK hn).bind k
  | succ i =>
    simp only [List.take_succ_cons, List.sum_cons] at hl
    have hu : (bits.take n).length = n := by rw [List.length_take]; omega
    have h1 := getBits_reads_bits hK (bits := bits.take n) (by omega)
    rw [hu] at h1
    have h2 := h1.thenEnds (k := k) (hk _ i (bits.drop n) (by simpa using hi) (by rw [List.length_drop]; omega))
      Rx.asideProp_true Rx.aside_id
    rw [List.take_append_drop] at h2
    exact h2

theorem getChannel_fieldsEnd (hK : K.Legal) (withReps : Bool) (c : Nat) :
    (getChannel K withReps c).FieldsEnd K (chanFieldWidths K withReps) := by
  have hW := hK.wordBits_ge
  have h1 := hK.repsBits
  have h2 := hK.nbitsBits
  have h3 := hK.algBits
  have h4 := hK.typeBits
  have hrest : ∀ reps, RxM.FieldsEnd K [1, K.nbitsBits, K.algBits, K.typeBits] (do
      let delta ← getBits K 1
      let rot ← getBits K K.nbitsBits
      let alg ← getBits K K.algBits
      let type ← getBits K K.typeBits
      raiseIf (chanFieldsCheck c reps rot alg type)
      let params ← getParams K ((Alg.ofCode alg).getD default) ((DType.ofCode type).getD default).width
      modify fun r => { r with
        chans := r.chans ++
          [channelOfFields reps delta rot ((DType.ofCode type).getD default) ((Alg.ofCode alg).getD default) params] }) :=
    fun reps => by
      iterate 4 refine RxM.FieldsEnd.cons hK (by omega) fun _ => ?_
      exact .nil _
  cases withReps
  · exact hrest 1
  · exact RxM.FieldsEnd.cons hK (by omega) hrest

/-- Channels that are taken, then one that fails. -/
theorem getChannels_fails (hK : K.Legal) {withReps : Bool} (chs : List Channel) (h : ∀ ch ∈ chs, ch.Ok ∧ ch.Codable)
    (hreps : if withReps then ∀ ch ∈ chs, ch.reps.toNat < 2 ^ K.repsBits else ∀ ch ∈ chs, ch.reps = 1) {n : Nat}
    (hn : chs.length < n) {bits : List Bool} {e : Nat → Raise}
    (hf : RxM.Fails K (fun _ => True) Q (getChannel K withReps chs.length) bits e id) :
    RxM.Fails K (fun _ => True) Q (getChannels K withReps 0 n) (chs.flatMap (chanHeaderBits K withReps) ++ bits)
      (fun p => e (p + (chs.flatMap (chanHeaderBits K withReps)).length))
      (fun r => { r with chans := r.chans ++ chs.map Channel.parsed }) := by
  have key : ∀ (chs : List Channel) (c n : Nat), (∀ ch ∈ chs, ch.Ok ∧ ch.Codable) →
      (if withReps then ∀ ch ∈ chs, ch.reps.toNat < 2 ^ K.repsBits else ∀ ch ∈ chs, ch.reps = 1) → chs.length < n →
      RxM.Fails K (fun _ => True) Q (getChannel K withReps (c + chs.length)) bits e id →
      RxM.Fails K (fun _ => True) Q (getChannels K withReps c n) (chs.flatMap (chanHeaderBits K withReps) ++ bits)
        (fun p => e (p + (chs.flatMap (chanHeaderBits K withReps)).length))
        (fun r => { r with chans := r.chans ++ chs.map Channel.parsed }) := by
    intro chs
    induction chs with
    | nil =>
      intro c n _ _ hn hf
      obtain ⟨n, rfl⟩ : ∃ l, n = l + 1 := ⟨n - 1, by simp at hn; omega⟩
      rw [getChannels]
      exact (hf.bind _).congr rfl (fun _ => rfl) fun r _ => by simp
    | cons ch chs ih =>
      intro c n h hreps hn hf
      obtain ⟨n, rfl⟩ : ∃ l, n = l + 1 := ⟨n - 1, by simp at hn; omega⟩
      have h1 := h ch (List.mem_cons_self ..)
      have hr1 : if withReps then ch.reps.toNat < 2 ^ K.repsBits else ch.reps = 1 := by cases withReps <;> simp_all
      have hr2 : if withReps then ∀ ch ∈ chs, ch.reps.toNat < 2 ^ K.repsBits else ∀ ch ∈ chs, ch.reps = 1 := by
        cases withReps <;> simp_all
      have ih' := ih (c + 1) n (fun x hx => h x (List.mem_cons_of_mem _ hx)) hr2 (by simpa using hn)
        (by rw [show c + 1 + chs.length = c + (ch :: chs).length by simp; omega]; exact hf)
      rw [getChannels]
      refine RxM.Fails.congr ((getChannel_reads (P := fun _ => True) hK h1.1 h1.2 hr1 c).thenFails
        (k := fun _ => getChannels K withReps (c + 1) n) ih' (fun _ _ => trivial) Rx.asideProp_true (fun _ _ => rfl))
        ?_ (fun p => ?_) fun r _ => ?_
      · simp
      · simp only [List.flatMap_cons, List.length_append]; congr 1; omega
      · simp [Function.comp]
  exact key chs 0 n h hreps hn (by rw [Nat.zero_add]; exact hf)

/-- A sub-word wider than the word (R276). -/
theorem getParams_nbits (hK : K.Legal) {d : DType} {offset nb : Nat} (hnb : nb < 2 ^ K.nbitsBits) (h : d.width ≤ nb) :
    RxM.Fails K (fun _ => True) anyRest (getParams K .reducedBinary d.width)
      (fieldBits d.width offset ++ fieldBits K.nbitsBits nb) (fun _ => ⟨.corruptStream, nb + 1, 6⟩) id := by
  have hW := hK.wordBits_ge
  have hw : d.width ≤ 32 := by cases d <;> decide
  rw [← List.append_nil (fieldBits K.nbitsBits nb)]
  exact (getBits_reads hK (by omega) offset).thenFails (e := fun _ => _)
    ((getBits_reads_lt hK (by have := hK.nbitsBits; omega) hnb).thenFails (e := fun _ => _)
      ((RxM.Fails.raiseIf (P := fun _ => True) (refuseIf_pos (by omega) _)).bind _) Rx.asideProp_true Rx.aside_id)
    Rx.asideProp_true Rx.aside_id

theorem getParams_ends (hK : K.Legal) {d : DType} :
    (∀ alg, alg = Alg.reducedBinary ∨ alg = .constant →
      RxM.Fails K (fun _ => True) (shortOf d.width) (getParams K alg d.width) [] (endBehind []) id) ∧
    ∀ offset, RxM.Fails K (fun _ => True) (shortOf K.nbitsBits) (getParams K .reducedBinary d.width)
      (fieldBits d.width offset) (endBehind (fieldBits d.width offset)) id := by
  have hW := hK.wordBits_ge
  have hw : d.width ≤ 32 := by cases d <;> decide
  refine ⟨fun alg h => ?_, fun offset => ?_⟩
  · rcases h with rfl | rfl <;> exact (RxM.Fails.getBits hK (by omega)).bind _
  · have := (getBits_reads hK (show d.width ≤ K.wordBits by omega) offset).thenEnds (k := fun offset => do
        let nb ← getBits K K.nbitsBits
        raiseIf (refuseIf (d.width < nb + 1) ⟨.corruptStream, nb + 1, 6⟩)
        pure (offset, nb + 1, 0))
      ((RxM.Fails.getBits (P := fun _ => True) hK (by have := hK.nbitsBits; omega)).bind _) Rx.asideProp_true Rx.aside_id
    rw [List.append_nil] at this
    exact this

/-- Behind a size the check accepts: the number of channels. -/
theorem getSectionFields_count (hK : K.Legal) {flags : BitVec 8} {size : Nat} (h0 : 0 < size)
    (hl : size ≤ K.maxSectionLength) {bits : List Bool} {e : Nat → Raise}
    (hf : RxM.Fails K (fun r => r.flags = flags) Q (getChannelCount K flags) bits e id) :
    RxM.Fails K (fun r => r.flags = flags) Q (getSectionFields K) (fieldBits K.sectSizeBits size ++ bits)
      (fun p => e (p + (fieldBits K.sectSizeBits size).length)) id :=
  (getSectionSize_reads hK h0 hl).thenFails (k := fun size => do
      let r ← get
      let n ← getChannelCount K r.flags
      modify fun r : Rx => { r with chans := [] }
      getChannels K (repsPresent r.flags n) 0 n
      pure size)
    (RxM.Fails.getBind (fun r hr => by rw [hr]) (hf.bind (β := Nat) fun n => do
      modify fun r : Rx => { r with chans := [] }
      getChannels K (repsPresent flags n) 0 n
      (pure size : RxM Nat))) (fun _ _ h => h) Rx.aside_id

/-- Behind the number of channels too: the channels. -/
theorem getSectionFields_channels (hK : K.Legal) {flags : BitVec 8} {size n : Nat} (h0 : 0 < size)
    (hl : size ≤ K.maxSectionLength) (hn0 : 0 < n) (hn : n ≤ K.maxChannels) (h1 : flagOneChan flags = true → n = 1)
    {bits : List Bool} {e : Nat → Raise} {f : Rx → Rx} (hg : Rx.Aside f)
    (hf : RxM.Fails K (fun _ => True) Q (getChannels K (repsPresent flags n) 0 n) bits e f) :
    RxM.Fails K (fun r => r.flags = flags) Q (getSectionFields K)
      (fieldBits K.sectSizeBits size ++ ((if flagOneChan flags then [] else fieldBits K.numChanBits n) ++ bits))
      (fun p => e (p + (fieldBits K.sectSizeBits size).length +
        (if flagOneChan flags then [] else fieldBits K.numChanBits n).length))
      (fun r => f { r with chans := [] }) := by
  have g1 : Rx.Aside fun r : Rx => { r with chans := [] } := fun _ _ => rfl
  have s3 := (RxM.ReadsTo.modify (K := K) (P := fun _ => True) g1).thenFails (e := e)
    (k := fun _ => getChannels K (repsPresent flags n) 0 n >>= fun _ => (pure size : RxM Nat)) (hf.bind _)
    (fun _ _ => trivial) Rx.asideProp_true hg
  have s2 := (getChannelCount_reads hK hn0 hn h1).thenFails (k := fun n => do
      modify fun r => { r with chans := [] }
      getChannels K (repsPresent flags n) 0 n
      pure size) s3 Rx.asideProp_true (g1.comp hg)
  have s1 := RxM.Fails.getBind (P := fun r => r.flags = flags) (k := fun r => do
      let n ← getChannelCount K r.flags
      modify fun r => { r with chans := [] }
      getChannels K (repsPresent r.flags n) 0 n
      pure size) (fun r hr => by rw [hr]) (s2.weaken fun _ _ => trivial)
  exact (getSectionSize_reads hK h0 hl).thenFails (k := fun size => do
      let r ← get
      let n ← getChannelCount K r.flags
      modify fun r => { r with chans := [] }
      getChannels K (repsPresent r.flags n) 0 n
      pure size) s1 (fun _ _ h => h) (g1.comp hg)

/-- `P.SECTION` past its checks where the fields of the section header fail; the padding in front may be any bits (R165). -/
theorem getSection_fieldsFail (hK : K.Legal) {r : Rx} (h : r.ReaderInv K) {pad bits rest : List Bool} {e : Nat → Raise}
    {f : Rx → Rx} (hp : pad.length = (8 - r.bitpos % 8) % 8)
    (hf : RxM.Fails K (fun x => x.flags = r.flags) Q (getSectionFields K) bits e f) (hq : Q rest)
    (ha : r.ahead K = pad ++ (bits ++ rest)) : ∃ r', getSection K r = .error (e (r.bitpos + pad.length)) r' := by
  obtain ⟨bs, hl, hc⟩ := Rx.windup_consumed hK h
  have : bs = pad := (List.append_inj (hc.ahead.symm.trans ha) (by rw [hl, hp, padBits, List.length_replicate])).1
  subst this
  obtain ⟨r', h1, _⟩ := hf (r.windup K) hc.inv (by rw [← hc.withReader_eq]; rfl) rest hq (hc.rest ha)
  refine ⟨r', ?_⟩
  rw [hc.bitpos_eq] at h1
  have hw : getWindup K r = .ok () (r.windup K) := rfl
  simp only [getSection, getSectionHeader, bind, EStateM.bind, hw, h1]

end Sys2Proof.Machine
end

