-- ==== Sys2Proof/Laws/Step.lean ====
section
/-! SUPPORT. What a step and `exec` can do, said once: a command acts on one engine by a function of the parameter record
and that engine (10_state.md R20; 60_exceptions.md R346, R348). -/

namespace Sys2Proof.Machine

theorem Command.selectsRx_eq (c : Command) : c.selectsRx = c.cw.getLsbD 7 := rfl

/-- A step with a command in the queue. -/
theorem step_command {s : State} {c : Command} {rest : List Command} (hp : s.pending = c :: rest) :
    step s = match decode (narrowed s.cfg c) with
      | .ok i => exec i (({ s with pending := rest } : State).latch c)
      | .error _ => .next ((({ s with pending := rest } : State).latch c).illegal c.cw c.selectsRx) := by
  simp only [step, State.nextCommand, hp] <;> rfl

theorem step_idle {s : State} (hp : s.pending = []) : step s = .next s := by
  simp only [step, State.nextCommand, hp]

theorem State.latch_tx_eq (s : State) {c : Command} (h : c.cw.getLsbD 7 = false) :
    s.latch c = { s with tx := { s.tx with port := s.tx.port.latched s.cfg c } } := by
  rw [State.latch, Command.selectsRx_eq, h]; rfl

theorem State.latch_rx_eq (s : State) {c : Command} (h : c.cw.getLsbD 7 = true) :
    s.latch c = { s with rx := { s.rx with port := s.rx.port.latched s.cfg c } } := by
  rw [State.latch, Command.selectsRx_eq, h]; rfl

/-- Every command acts on the engine its word selects and on nothing else. -/
theorem exec_engine (i : Instr) :
    (i.commandWord.getLsbD 7 = false ∧ ∃ f, ∀ s, exec i s = onTx f s) ∨
    (i.commandWord.getLsbD 7 = true ∧ ∃ f, ∀ s, exec i s = onRx f s) := by
  have h7 : (7 : Nat) < 8 := by decide
  cases i
  all_goals
    simp only [Instr.commandWord, encode, cwZ_low _ h7, cwN_low _ _ h7, cwC_low _ _ h7]
    simp only [exec, execTxReset, execTxCsrr, execTxCsrw, execTxRawld, execTxRawst, execWBits, execWUnary,
          execWStr, execWWindup, execWFlush, execWClose, execEMexpg, execEWord, execEVec,
          execEHreset, execGAddch, execGResetch, execGRestore, execGSection, execGFinal,
          execRxReset, execRxCsrr, execRxCsrw, execRxRawld, execRxRawst, execRBits, execRUnary,
          execRStr, execRWindup, execDMexpg, execDWord, execDVec, execDHreset, execPHeader,
          execPSection, execPAddch, execPResetch]
    first
      | exact .inl ⟨by decide, _, fun _ => rfl⟩
      | exact .inr ⟨by decide, _, fun _ => rfl⟩

/-- A command always completes: no command stops the machine (60_exceptions.md R340). -/
theorem exec_next (i : Instr) (s : State) : ∃ s', exec i s = .next s' ∧ s'.cfg = s.cfg ∧ s'.pending = s.pending := by
  rcases exec_engine i with ⟨-, f, hf⟩ | ⟨-, f, hf⟩ <;> exact ⟨_, hf s, rfl, rfl⟩

end Sys2Proof.Machine
end

