-- ==== Sys2Proof/Laws/Strings.lean ====
section
/-! SUPPORT. Strings on both engines (40_bitstream_writer.md R147, 41_bitstream_reader.md R168). -/

namespace Sys2Proof.Machine

variable {K : Config}

theorem RawMem.bytes_succ (m : RawMem) (addr n : Nat) :
    m.bytes addr (n + 1) = m.readByte addr :: m.bytes (addr + 1) n := by
  simp only [RawMem.bytes, List.range_succ_eq_map, List.map_cons, List.map_map, Nat.add_zero]
  congr 1
  refine List.map_congr_left fun j _ => ?_
  simp only [Function.comp, Nat.succ_eq_add_one]
  rw [show addr + (j + 1) = addr + 1 + j by omega]

@[simp] theorem RawMem.bytes_length (m : RawMem) (addr n : Nat) : (m.bytes addr n).length = n := by simp [RawMem.bytes]

theorem nameField_eq_take (bs : List Byte) : nameField bs = bs.take (nameField bs).length := by
  induction bs with
  | nil => rfl
  | cons b bs ih =>
    simp only [nameField]
    split
    · rfl
    · rw [List.length_cons, List.take_succ_cons, ← ih]

/-- What `W.STR` writes is what lies in memory. -/
theorem RawMem.bytes_nameField (m : RawMem) (addr cap : Nat) :
    m.bytes addr (nameField (m.bytes addr cap)).length = nameField (m.bytes addr cap) := by
  conv_rhs => rw [nameField_eq_take]
  have h := nameField_length_le (m.bytes addr cap)
  rw [RawMem.bytes_length] at h
  generalize (nameField (m.bytes addr cap)).length = c at h
  simp only [RawMem.bytes, ← List.map_take, List.take_range, Nat.min_eq_left h]

/-- The scan counts the characters up to and with the first zero, at most `left` (R147). -/
theorem Tx.strCount_some (raw : RawMem) (addr left n : Nat)
    (h : left = 0 ∨ addr + (nameField (raw.bytes addr left)).length ≤ K.rawBytes) :
    Tx.strCount K raw addr left n = some (n + (nameField (raw.bytes addr left)).length) := by
  induction left generalizing addr n with
  | zero => rfl
  | succ left ih =>
    rcases h with h | h
    · omega
    rw [RawMem.bytes_succ] at h ⊢
    simp only [nameField] at h ⊢
    simp only [Tx.strCount]
    by_cases hz : raw.readByte addr = 0
    · simp only [hz, if_true, List.length_singleton] at h ⊢
      rw [if_neg (by omega)]
    · simp only [hz, if_false, List.length_cons] at h ⊢
      rw [if_neg (by omega), ih (addr + 1) (n + 1) (.inr (by omega))]
      congr 1; omega

/-- The scan that runs off the memory before a zero (R147). -/
theorem Tx.strCount_none (raw : RawMem) (addr left n : Nat) (h0 : left ≠ 0)
    (h : K.rawBytes < addr + (nameField (raw.bytes addr left)).length) : Tx.strCount K raw addr left n = none := by
  induction left generalizing addr n with
  | zero => omega
  | succ left ih =>
    rw [RawMem.bytes_succ] at h
    simp only [nameField] at h
    simp only [Tx.strCount]
    by_cases hz : raw.readByte addr = 0
    · simp only [hz, if_true, List.length_singleton] at h
      rw [if_pos (by omega)]
    · simp only [hz, if_false, List.length_cons] at h ⊢
      by_cases hle : K.rawBytes ≤ addr
      · rw [if_pos hle]
      · rw [if_neg hle]
        refine ih (addr + 1) (n + 1) ?_ (by omega)
        rintro rfl
        simp [RawMem.bytes, nameField] at h
        omega

/-- Bytes into raw memory, one after another. -/
def storeBytes (addr : Nat) : List Byte → RawMem → RawMem
  | [], m => m
  | b :: bs, m => storeBytes (addr + 1) bs (m.writeByte addr b)

theorem storeBytes_outside (addr : Nat) (bs : List Byte) (m : RawMem) {e : Nat} (h : e < addr ∨ addr + bs.length ≤ e) :
    (storeBytes addr bs m).readByte e = m.readByte e := by
  induction bs generalizing addr m with
  | nil => rfl
  | cons b bs ih =>
    rw [List.length_cons] at h
    rw [storeBytes, ih _ _ (by omega), RawMem.readByte_writeByte_ne _ _ (by omega)]

theorem storeBytes_inside (addr : Nat) (bs : List Byte) {m : RawMem} (hm : m.Wf) {j : Nat} (h : j < bs.length) :
    (storeBytes addr bs m).readByte (addr + j) = bs.getD j 0 := by
  induction bs generalizing addr m j with
  | nil => simp at h
  | cons b bs ih =>
    rw [storeBytes]
    cases j with
    | zero =>
      rw [storeBytes_outside _ _ _ (by omega), Nat.add_zero, RawMem.readByte_writeByte_self hm]; rfl
    | succ j =>
      rw [show addr + (j + 1) = addr + 1 + j by omega, ih _ (RawMem.writeByte_wf hm _ _) (by simpa using h)]; rfl

/-- `R.STR` on the bits of a string: its characters, the terminator included, go to memory (R168). -/
theorem getStr_reads (hK : K.Legal) (bs : List Byte) (addr n : Nat) :
    RxM.ReadsTo K (fun _ => True) (getStr K addr bs.length n) (byteBits (nameField bs)) (n + (nameField bs).length)
      (fun r => { r with raw := storeBytes addr (nameField bs) r.raw }) := by
  have h8 : 8 ≤ K.wordBits := by have := hK.wordBits_ge; omega
  induction bs generalizing addr n with
  | nil => exact (RxM.ReadsTo.pure n).congr rfl rfl fun r _ => rfl
  | cons b bs ih =>
    have hread := getBits_reads_lt hK h8 b.isLt
    have g1 : Rx.Aside fun r : Rx => { r with raw := r.raw.writeByte addr (BitVec.ofNat 8 b.toNat) } := fun _ _ => rfl
    rw [List.length_cons, getStr]
    by_cases hz : b = 0
    · subst hz
      have s := hread.thenTo (P := fun _ => True) (k := fun ch => do
        modify fun r => { r with raw := r.raw.writeByte addr (BitVec.ofNat 8 ch) }
        if ch = 0 then pure (n + 1) else getStr K (addr + 1) bs.length (n + 1))
        ((RxM.ReadsTo.modify (K := K) (P := fun _ => True) g1).seq (RxM.ReadsTo.pure (P := fun _ => True) (n + 1))
          (fun _ _ => trivial) Rx.asideProp_true Rx.aside_id) Rx.asideProp_true (g1.comp Rx.aside_id)
      exact s.congr (by simp [nameField, byteBits]) (by simp [nameField]) fun r _ => by simp [nameField, storeBytes]
    · have hn : nameField (b :: bs) = b :: nameField bs := by rw [nameField, if_neg hz]
      have hbz : b.toNat ≠ 0 := fun h => hz (BitVec.eq_of_toNat_eq (by simpa using h))
      have hg : Rx.Aside fun r : Rx => { r with raw := storeBytes (addr + 1) (nameField bs) r.raw } := fun _ _ => rfl
      have s := hread.thenTo (P := fun _ => True) (k := fun ch => do
        modify fun r => { r with raw := r.raw.writeByte addr (BitVec.ofNat 8 ch) }
        if ch = 0 then pure (n + 1) else getStr K (addr + 1) bs.length (n + 1))
        ((RxM.ReadsTo.modify (K := K) (P := fun _ => True) g1).seq (P' := fun _ => True)
          (by rw [if_neg hbz]; exact ih (addr + 1) (n + 1))
          (fun _ _ => trivial) Rx.asideProp_true hg) Rx.asideProp_true (g1.comp hg)
      exact s.congr (by rw [hn]; simp [byteBits]) (by rw [hn, List.length_cons]; omega)
        fun r _ => by rw [hn]; simp [storeBytes]

end Sys2Proof.Machine
end

