-- ==== Sys2Proof/Machine/HostParams.lean ====
section
/-! DEFINITION. The host's parameter selection of spec/48_host_parameter_selection.md, as functions of a sample.

None of it is state or behaviour of the block (R320); it is here so that the spec is modelled whole. Where the file
leaves a choice to the host, the one it suggests is taken (log 22). -/

namespace Sys2Proof.Machine

/-- `overflow_count` of R322: the codec stage inputs that `nbits` bits do not hold. -/
def rbOverflows (w offset nbits : Nat) (sample : List Nat) : Nat :=
  (sample.filter fun y => 2 ^ nbits - 1 ≤ subMod w y offset).length

/-- The cost `nbits*ndata + overflow_count*data_size_bits` of a candidate width (R322). -/
def rbCost (w offset nbits : Nat) (sample : List Nat) : Nat :=
  nbits * sample.length + rbOverflows w offset nbits sample * w

/-- The sample minimum, the offset a reference host may take (R322); of an empty sample 0 (DESIGN CHOICE, log 22). -/
def rbOffset : List Nat → Nat
  | [] => 0
  | y :: ys => ys.foldl min y

/-- The smallest width among `1 .. m+1` of minimal cost (R322). -/
def rbBestWidth (w offset : Nat) (sample : List Nat) : Nat → Nat
  | 0 => 1
  | m + 1 =>
    let best := rbBestWidth w offset sample m
    if rbCost w offset (m + 2) sample < rbCost w offset best sample then m + 2 else best

/-- The Reduced-Binary fit `(offset, nbits)` over all widths `1 .. w` (R322); of an empty sample `(0, 1)` (DESIGN CHOICE,
log 22). -/
def rbFit (w : Nat) (sample : List Nat) : Nat × Nat :=
  (rbOffset sample, rbBestWidth w (rbOffset sample) sample (w - 1))

/-- `expect_zero_compression` of Run-Length: more runs than a third of the sample (R323; 90_conflicts.md C6); of an empty
sample the predicate is false as it stands. -/
def rlExpectZeroCompression (sample : List Nat) : Bool := sample.length < 3 * (runs sample).length

/-- `expect_zero_compression` of Reduced-Binary: the fitted width is the full width (R324). -/
def rbExpectZeroCompression (w nbits : Nat) : Bool := nbits == w

/-- The channel is strictly constant over all its words (R325); a channel with no word in the section is not (DESIGN
CHOICE, log 22). -/
def constantData : List Nat → Bool
  | [] => false
  | y :: ys => ys.all (· == y)

/-- The largest `t ≤ m` with the low `t` bits equal across the sample (R326); of an empty sample `m` (DESIGN CHOICE, log
22). -/
def lowBitsUpTo (sample : List Nat) : Nat → Nat
  | 0 => 0
  | m + 1 =>
    if sample.all fun s => s % 2 ^ (m + 1) == sample.headD 0 % 2 ^ (m + 1) then m + 1 else lowBitsUpTo sample m

/-- `constant_low_bits(sample)` (R326); of an empty sample `w` (DESIGN CHOICE, log 22). -/
def constantLowBits (w : Nat) (sample : List Nat) : Nat := lowBitsUpTo sample w

/-- The rotation amount: `constant_low_bits`, capped at `w - 1`, where the channel permits it (R326). -/
def rotationAmount (w : Nat) (permit : Bool) (sample : List Nat) : Nat :=
  if permit then min (constantLowBits w sample) (w - 1) else 0

/-- The constant to write for a constant channel with a rotation in force: `ror_w(value, ROT)` (R325). -/
def constantToWrite (w rot value : Nat) : Nat := rorW w value rot

end Sys2Proof.Machine
end

