-- ==== Sys2Proof/Machine/Pseudo.lean ====
section
/-! DEFINITION. The pseudo-instructions of 30_encoding.md R109: each is the list of commands it expands to. None is
atomic: the host issues the commands one by one. -/

namespace Sys2Proof.Machine

/-- `W.BYTE v`. -/
def pseudoWByte (v : Word) : List Instr := [.wBits v 8]

/-- `W.BIT b`. -/
def pseudoWBit (b : Word) : List Instr := [.wBits b 1]

/-- `W.FOOT last`. -/
def pseudoWFoot (last : Bool) : List Instr := [.wBits (if last then 0xF else 0x8) 4]

/-- `R.BYTE`. -/
def pseudoRByte : List Instr := [.rBits 8]

/-- `R.FOOT`. -/
def pseudoRFoot : List Instr := [.rBits 4]

/-- `W.FLUSH` with no operand. -/
def pseudoWFlush : List Instr := [.wFlush 0]

/-- The operand `nbytes` of a frame command, `REPS * ws` with the channel's registered values. R109 does not say what it is
where `REPS * ws` does not fit in the `W` bits of `B`; the model takes it modulo `2^W` (DESIGN CHOICE, unsafe, log 29). -/
def frameOperand (K : Config) (chans : List Channel) (ch : BitVec 16) : Word :=
  BitVec.ofNat 64 ((channelAt chans ch.toNat).share % 2 ^ K.wordBits)

/-- `E.FRAME ch, addr`: the encoding of the channel's part of one frame; the choice in `frameOperand` is log 29's. -/
def pseudoEFrame (K : Config) (chans : List Channel) (ch : BitVec 16) (addr : U32) : List Instr :=
  [.eVec ch addr (frameOperand K chans ch)]

/-- `D.FRAME ch, addr`: the decoding of the channel's part of one frame; the choice in `frameOperand` is log 29's. -/
def pseudoDFrame (K : Config) (chans : List Channel) (ch : BitVec 16) (addr : U32) : List Instr :=
  [.dVec ch addr (frameOperand K chans ch)]

/-- `TX.CSRW CH(ch, f), value`. -/
def writeChanField (ch : BitVec 16) (f : ChanField) (value : Word) : Instr :=
  .txCsrw (BitVec.ofNat 32 (chanAddress ch.toNat f)) value

/-- `G.REPLACE ch, alg, delta`. -/
def pseudoGReplace (ch : BitVec 16) (alg delta : Word) : List Instr :=
  [writeChanField ch .alg alg, writeChanField ch .delta delta]

/-- `G.REPLCONST ch, value`. -/
def pseudoGReplconst (ch : BitVec 16) (value : Word) : List Instr :=
  [writeChanField ch .alg (BitVec.ofNat 64 Alg.constant.code), writeChanField ch .delta 0,
    writeChanField ch .const value]

/-- `G.SETRB ch, offset, nbits`. -/
def pseudoGSetrb (ch : BitVec 16) (offset nbits : Word) : List Instr :=
  [writeChanField ch .offset offset, writeChanField ch .nbits nbits]

end Sys2Proof.Machine
end

