-- ==== Sys2Proof/Tests/Slice0.lean ====
section
/-! SUPPORT. The model's own tests: ill-formed commands are refused, command words written out from the spec decode to
their command, each command does one step as the spec's vectors say, and every statement's hypotheses are met by some
state. Vectors: 95_test_vectors.md, 96_test_vectors_faults.md. -/

-- Each test waits for the kernel's verdict on what stands before it: one thread, not one per test.
set_option Elab.async false

namespace Sys2Proof.Tests

open Sys2Proof.Machine

/-! ## WellFormed: a `B` operand of more than `W` bits is refused, one of `W` bits is not (R106) -/

theorem test_wf_txCsrw : (Instr.txCsrw 0 0x100000000).wellFormed .default = false := by decide
theorem test_wf_txRawst : (Instr.txRawst 0 0x100000000 1).wellFormed .default = false := by decide
theorem test_wf_wBits : (Instr.wBits 0x100000000 1).wellFormed .default = false := by decide
theorem test_wf_wUnary : (Instr.wUnary 0x100000000).wellFormed .default = false := by decide
theorem test_wf_wStr : (Instr.wStr 0 0x100000000).wellFormed .default = false := by decide
theorem test_wf_eMexpg : (Instr.eMexpg 0x100000000 1).wellFormed .default = false := by decide
theorem test_wf_eWord : (Instr.eWord 0 0x100000000).wellFormed .default = false := by decide
theorem test_wf_eVec : (Instr.eVec 0 0 0x100000000).wellFormed .default = false := by decide
theorem test_wf_gAddch : (Instr.gAddch 1 0x100000000).wellFormed .default = false := by decide
theorem test_wf_gSection : (Instr.gSection 0x100000000).wellFormed .default = false := by decide
theorem test_wf_rxCsrw : (Instr.rxCsrw 0 0x100000000).wellFormed .default = false := by decide
theorem test_wf_rxRawst : (Instr.rxRawst 0 0x100000000 1).wellFormed .default = false := by decide
theorem test_wf_rStr : (Instr.rStr 0 0x100000000).wellFormed .default = false := by decide
theorem test_wf_dVec : (Instr.dVec 0 0 0x100000000).wellFormed .default = false := by decide
theorem test_wf_pAddch : (Instr.pAddch 1 0x100000000).wellFormed .default = false := by decide
theorem test_wf_edge : (Instr.wUnary 0xFFFFFFFF).wellFormed .default = true := by decide

/-! ## Decode: `CW = OP + 2^8 N + 2^16 CH` (R101 to R103), operands as R106 takes them -/

theorem test_decode_txReset : decode ⟨0x00000000, 0x0, 0x0⟩ = .ok (.txReset) := by decide
theorem test_decode_txCsrr : decode ⟨0x00000001, 0x1009, 0x0⟩ = .ok (.txCsrr 0x1009) := by decide
theorem test_decode_txCsrw : decode ⟨0x00000002, 0x11, 0xFFFFFFFF⟩ = .ok (.txCsrw 0x11 0xFFFFFFFF) := by decide
theorem test_decode_txRawld : decode ⟨0x00000403, 0x10, 0x0⟩ = .ok (.txRawld 0x10 4) := by decide
theorem test_decode_txRawst : decode ⟨0x00000204, 0x11, 0x1234⟩ = .ok (.txRawst 0x11 0x1234 2) := by decide
theorem test_decode_wBits : decode ⟨0x00000910, 0x0, 0x1FF⟩ = .ok (.wBits 0x1FF 9) := by decide
theorem test_decode_wUnary : decode ⟨0x00000011, 0x0, 0x401⟩ = .ok (.wUnary 0x401) := by decide
theorem test_decode_wStr : decode ⟨0x00000012, 0x100, 0x10⟩ = .ok (.wStr 0x100 0x10) := by decide
theorem test_decode_wWindup : decode ⟨0x00000013, 0x0, 0x0⟩ = .ok (.wWindup) := by decide
theorem test_decode_wFlush : decode ⟨0x00000114, 0x0, 0x0⟩ = .ok (.wFlush 1) := by decide
theorem test_decode_wClose : decode ⟨0x00000015, 0x0, 0x0⟩ = .ok (.wClose) := by decide
theorem test_decode_eMexpg : decode ⟨0x00000320, 0x0, 0x3E8⟩ = .ok (.eMexpg 0x3E8 3) := by decide
theorem test_decode_eWord : decode ⟨0x01020021, 0x0, 0x2A⟩ = .ok (.eWord 0x102 0x2A) := by decide
theorem test_decode_eVec : decode ⟨0x00030022, 0x100, 0xA⟩ = .ok (.eVec 3 0x100 10) := by decide
theorem test_decode_eHreset : decode ⟨0xFFFF0023, 0x0, 0x0⟩ = .ok (.eHreset 0xFFFF) := by decide
theorem test_decode_gAddch : decode ⟨0x00000030, 0x3, 0x10102⟩ = .ok (.gAddch 3 0x10102) := by decide
theorem test_decode_gResetch : decode ⟨0x00000031, 0x0, 0x0⟩ = .ok (.gResetch) := by decide
theorem test_decode_gRestore : decode ⟨0x00010032, 0x0, 0x0⟩ = .ok (.gRestore 1) := by decide
theorem test_decode_gSection : decode ⟨0x00000033, 0x0, 0x5⟩ = .ok (.gSection 5) := by decide
theorem test_decode_gFinal : decode ⟨0x00000034, 0x0, 0x0⟩ = .ok (.gFinal) := by decide
theorem test_decode_rxReset : decode ⟨0x00000080, 0x0, 0x0⟩ = .ok (.rxReset) := by decide
theorem test_decode_rxCsrr : decode ⟨0x00000081, 0x1C, 0x0⟩ = .ok (.rxCsrr 0x1C) := by decide
theorem test_decode_rxCsrw : decode ⟨0x00000082, 0x14, 0x1⟩ = .ok (.rxCsrw 0x14 1) := by decide
theorem test_decode_rxRawld : decode ⟨0x00000283, 0x200, 0x0⟩ = .ok (.rxRawld 0x200 2) := by decide
theorem test_decode_rxRawst : decode ⟨0x00000484, 0x10, 0xAABBCCDD⟩ = .ok (.rxRawst 0x10 0xAABBCCDD 4) := by decide
theorem test_decode_rBits : decode ⟨0x00002090, 0x0, 0x0⟩ = .ok (.rBits 32) := by decide
theorem test_decode_rUnary : decode ⟨0x00000091, 0x0, 0x0⟩ = .ok (.rUnary) := by decide
theorem test_decode_rStr : decode ⟨0x00000092, 0x200, 0x10⟩ = .ok (.rStr 0x200 0x10) := by decide
theorem test_decode_rWindup : decode ⟨0x00000093, 0x0, 0x0⟩ = .ok (.rWindup) := by decide
theorem test_decode_dMexpg : decode ⟨0x000003A0, 0x0, 0x0⟩ = .ok (.dMexpg 3) := by decide
theorem test_decode_dWord : decode ⟨0x000200A1, 0x0, 0x0⟩ = .ok (.dWord 2) := by decide
theorem test_decode_dVec : decode ⟨0x000100A2, 0x40, 0x6⟩ = .ok (.dVec 1 0x40 6) := by decide
theorem test_decode_dHreset : decode ⟨0x800000A3, 0x0, 0x0⟩ = .ok (.dHreset 0x8000) := by decide
theorem test_decode_pHeader : decode ⟨0x000000B0, 0x0, 0x0⟩ = .ok (.pHeader) := by decide
theorem test_decode_pSection : decode ⟨0x000000B1, 0x0, 0x0⟩ = .ok (.pSection) := by decide
theorem test_decode_pAddch : decode ⟨0x000000B2, 0x2, 0x203⟩ = .ok (.pAddch 2 0x203) := by decide
theorem test_decode_pResetch : decode ⟨0x000000B3, 0x0, 0x0⟩ = .ok (.pResetch) := by decide

/-- An unassigned opcode (R104; vector F1). -/
theorem test_decode_unassigned : decode ⟨0x00000055, 0, 0⟩ = .error .unassignedOpcode := by decide
/-- `W.BITS` with a `CH` field (R105; vector F2). -/
theorem test_decode_reservedCh : decode ⟨0x00010810, 0, 0xAA⟩ = .error .reservedFieldNotZero := by decide
/-- `TX.RESET` with an `N` field (R105; vector F3). -/
theorem test_decode_reservedN : decode ⟨0x00000100, 0, 0⟩ = .error .reservedFieldNotZero := by decide
/-- A word of the table is read as the command triple with zero operands. -/
theorem test_decodeTableWord : decodeTableWord 32 0x00000810 = some (.wBits 0 8) := by decide

/-! ## States to run on -/

/-- A small block: two-word buffers, 64-byte sections, names of 4 bytes, 2 channels; the rest as R8's defaults. -/
def small : Config := { Config.default with bufWords := 2, nameMax := 4, maxSectionLength := 64, maxChannels := 2 }

theorem default_legal : Config.default.Legal := by constructor <;> decide
theorem small_legal : small.Legal := by constructor <;> decide

/-- A channel with one repetition, its active fields as configured (R241). -/
def chan (d : DType) (a : Alg) (delta : Bool) : Channel :=
  { reps := 1, dtype := d, calg := a, cdelta := delta, permrot := false, alg := a, delta := delta, rot := 0, offset := 0,
    nbits := BitVec.ofNat 6 d.width, const := 0, prev := 0 }

/-- A U8 channel, Default codec. -/
def ch8 : Channel := chan .u8 .default false

/-- The small block after power-on with a source and, on both engines, channels, flags; the parser in `ps`. -/
def blk (src : List Byte) (chans : List Channel) (flags : BitVec 8) (ps : PState) : State :=
  let s := State.powerOn small
  { s with
    tx := { s.tx with chans := chans, flags := flags }
    rx := { s.rx with chans := chans, flags := flags, src := src, pstate := ps } }

/-- The small block fresh after power-on. -/
def fresh : State := blk [] [] 0 .noHeader

/-- The small block with a writer in mid-stream. -/
def wr (wbuf : List Word) (wptr woff : Nat) : State :=
  { fresh with tx := { fresh.tx with wbuf := wbuf, wptr := wptr, woff := woff, bitpos := 32 * wptr + woff } }

/-- The small block with bytes in both raw memories from address 0 on, none of them 0. -/
def withRaw (bytes : List Byte) (s : State) : State :=
  let m : RawMem := ⟨bytes.zipIdx.map fun p => (p.2, p.1), []⟩
  { s with tx := { s.tx with raw := m }, rx := { s.rx with raw := m } }

/-- The state a command leaves. -/
def after (i : Instr) (s : State) : State :=
  match exec i s with
  | .next s' => s'
  | .fault _ => s
  | .refused _ => s

theorem exec_after (i : Instr) (s : State) : exec i s = .next (after i s) := by
  obtain ⟨s', h, -⟩ := exec_next i s
  simp only [after, h]

/-- `ST` and `V` of TX. -/
def txAns (s : State) : Nat × Nat := (s.tx.port.st.toNat, s.tx.port.v.toNat)
/-- `ST` and `V` of RX. -/
def rxAns (s : State) : Nat × Nat := (s.rx.port.st.toNat, s.rx.port.v.toNat)
/-- `wptr`, `woff`, `BITPOS` and the buffer of TX. -/
def cursor (s : State) : Nat × Nat × Nat × List Word := (s.tx.wptr, s.tx.woff, s.tx.bitpos, s.tx.wbuf)
/-- `FAULT`, `FINFO0`, `FINFO1`. -/
def recd (f : FaultRecord) : Nat × Nat × Nat := (f.fault.toNat, f.info0.toNat, f.info1.toNat)
/-- The first `n` bytes of a raw memory. -/
def peek (m : RawMem) (n : Nat) : List Byte := m.bytes 0 n

/-! ## One command each -/

/-- R300. -/
theorem test_txReset : (after .txReset (wr [7, 0] 0 3)).tx.status = 4 ∧ cursor (after .txReset (wr [7, 0] 0 3)) = (0, 0, 0, [0, 0]) := by
  decide +kernel
/-- Vectors SY1, F14. -/
theorem test_txCsrr : txAns (after (.txCsrr 0) fresh) = (0, 4) := by decide +kernel
theorem test_txCsrr_unmapped : recd (after (.txCsrr 0x00B) fresh).tx.flt = (11, 0xB, 0) := by decide +kernel
/-- Vectors SY2, F16. -/
theorem test_txCsrw : (after (.txCsrw 0x011 0xFFFFFFFF) fresh).tx.mtime = 0xFFFFFFFF := by decide +kernel
theorem test_txCsrw_range : recd (after (.txCsrw 0x010 0x100) fresh).tx.flt = (11, 0x10, 3) := by decide +kernel
/-- Vectors SY4, F12. -/
theorem test_txRawld : txAns (after (.txRawld 1 2) (withRaw [0xDD, 0xCC, 0xBB, 0xAA] fresh)) = (0, 0xBBCC) := by decide +kernel
theorem test_txRawld_size : recd (after (.txRawld 0 3) fresh).tx.flt = (11, 3, 0) := by decide +kernel
/-- Vector SY4. -/
theorem test_txRawst : peek (after (.txRawst 2 0x1FF 1) (withRaw [0xDD, 0xCC, 0xBB, 0xAA] fresh)).tx.raw 4 =
    [0xDD, 0xCC, 0xFF, 0xAA] := by decide +kernel
/-- Vectors W2, W7a step 5. -/
theorem test_wBits : cursor (after (.wBits 0xA5 8) (wr [0x0FFFFFFF, 0] 0 28)) = (1, 4, 36, [0x5FFFFFFF, 0xA]) := by decide +kernel
theorem test_wBits_full : (after (.wBits 0x44444444 32) (wr [0x33333222, 0] 1 0)).tx.sink =
    [0x22, 0x32, 0x33, 0x33, 0x44, 0x44, 0x44, 0x44] := by decide +kernel
/-- Vectors W4.32, F7; R141: of 101 bits, the one full buffer of 64 is sent. -/
theorem test_wUnary : cursor (after (.wUnary 32) fresh) = (1, 1, 33, [0xFFFFFFFF, 0]) ∧
    (after (.wUnary 100) fresh).tx.sunk = 8 := by decide +kernel
theorem test_wUnary_bound : recd (after (.wUnary 1025) fresh).tx.flt = (11, 0x401, 0x400) := by decide +kernel
/-- Vectors W5a, W5c. -/
theorem test_wStr : txAns (after (.wStr 0 16) (withRaw [0x61, 0x62] fresh)) = (0, 3) ∧
    cursor (after (.wStr 0 16) (withRaw [0x61, 0x62] fresh)) = (0, 24, 24, [0x6261, 0]) := by decide +kernel
theorem test_wStr_cap : cursor (after (.wStr 0 2) (withRaw [0x61, 0x62] fresh)) = (0, 16, 16, [0x6261, 0]) := by decide +kernel
/-- Vector W6.25. -/
theorem test_wWindup : cursor (after .wWindup (wr [0, 0] 0 25)) = (1, 0, 32, [0, 0]) := by decide +kernel
/-- Vectors W7a step 3, W7b step 3. -/
theorem test_wFlush : cursor (after (.wFlush 0) (wr [0x11111111, 0x222] 1 12)) = (0, 12, 44, [0x222, 0]) := by decide +kernel
theorem test_wFlush_discard : cursor (after (.wFlush 1) (wr [0x11111111, 0x222] 1 12)) = (0, 0, 32, [0, 0]) ∧
    (after (.wFlush 1) (wr [0x11111111, 0x222] 1 12)).tx.sink = [0x11, 0x11, 0x11, 0x11] := by decide +kernel
/-- Vector W1. -/
theorem test_wClose : (after .wClose (wr [0x0ABCDFFD, 0] 0 28)).tx.sink = [0xFD, 0xDF, 0xBC, 0x0A] ∧
    (after .wClose (wr [0x0ABCDFFD, 0] 0 28)).tx.closed = true := by decide +kernel
/-- Program PR1: seven ones, a zero, the low 9 bits of 1000. -/
theorem test_eMexpg : cursor (after (.eMexpg 1000 3) fresh) = (0, 17, 17, [0x1E87F, 0]) := by decide +kernel
/-- R183: `u = 0` at order 0 is the single bit 0. -/
theorem test_eMexpg_zero : cursor (after (.eMexpg 0 0) fresh) = (0, 1, 1, [0, 0]) := by decide +kernel
/-- R211: the value modulo `2^w`; with delta, from history 5, the word 3 is coded as 3 - 5 modulo 256 (R196). -/
theorem test_eWord : cursor (after (.eWord 0 0x1AB) (blk [] [ch8] 0 .noHeader)) = (0, 8, 8, [0xAB, 0]) := by decide +kernel
theorem test_eWord_delta :
    cursor (after (.eWord 0 3) (blk [] [{ chan .u8 .default true with prev := 5 }] 0 .noHeader)) = (0, 8, 8, [0xFE, 0]) := by
  decide +kernel
/-- R210, R84: a last partial word is completed with zero bytes. -/
theorem test_eVec : cursor (after (.eVec 0 0 3) (withRaw [0xAA, 0xBB, 0xCC] (blk [] [chan .u16 .default false] 0 .noHeader))) =
    (1, 0, 32, [0x00CCBBAA, 0]) := by decide +kernel
/-- Vector C-ROT3: the words 0x1230, 0x1250, 0x12A0 rotated by 4, less the offset 0x120, in 4 bits each. -/
def rot16 : Channel :=
  { chan .u16 .reducedBinary false with permrot := true, rot := 4, offset := 0x120, nbits := 4 }
theorem test_eVec_rot : cursor (after (.eVec 0 0 6) (withRaw [0x30, 0x12, 0x50, 0x12, 0xA0, 0x12] (blk [] [rot16] 0 .noHeader))) =
    (0, 12, 12, [0x0A53, 0]) := by decide +kernel
/-- R213. -/
theorem test_eHreset : (after (.eHreset 0) (blk [] [{ ch8 with prev := 5 }] 0 .noHeader)).tx.chans = [ch8] := by decide +kernel
/-- Vectors SY2, F41. -/
theorem test_gAddch : (after (.gAddch 3 0x10102) fresh).tx.chans = [{ chan .u16 .reducedBinary true with reps := 3 }] := by
  decide +kernel
theorem test_gAddch_float : recd (after (.gAddch 1 6) fresh).tx.flt = (5, 6, 1) := by decide +kernel
/-- R242. -/
theorem test_gResetch : (after .gResetch (blk [] [ch8] 0 .noHeader)).tx.chans = [] := by decide +kernel
/-- R243. -/
theorem test_gRestore : (after (.gRestore 0) (blk [] [{ ch8 with alg := .constant, delta := true }] 0 .noHeader)).tx.chans =
    [ch8] := by decide +kernel
/-- Vector K2, row 0x40 before the tag: the words that have left the buffer, and the CRC in it. -/
def sectionState : State :=
  let s := withRaw [0xAA] (blk [] [ch8] 0x40 .noHeader)
  { s with tx := { s.tx with mtime := 0x01020304 } }
theorem test_gSection : (after (.gSection 1) sectionState).tx.sink =
      [0x53, 0x4C, 4, 3, 2, 1, 0x40, 1, 0, 0, 0, 1, 0, 0, 0, 0xAA] ∧
    cursor (after (.gSection 1) sectionState) = (1, 0, 160, [0xE401A57B, 0]) := by decide +kernel
/-- Vector F30. -/
theorem test_gSection_empty : recd (after (.gSection 1) fresh).tx.flt = (12, 0x33, 4) := by decide +kernel
/-- R254: the tag 0xF padded to a byte; vector F27. -/
theorem test_gFinal : (after .gFinal { fresh with tx := { fresh.tx with gstate := .sectionClosed } }).tx.sink = [0x0F] := by
  decide +kernel
theorem test_gFinal_early : recd (after .gFinal fresh).tx.flt = (12, 0x34, 4) := by decide +kernel
/-- R301. -/
theorem test_rxReset : rxAns (after .rxReset (blk [] [ch8] 0x10 .headerRead)) = (0, 0) ∧
    (after .rxReset (blk [] [ch8] 0x10 .headerRead)).rx.status = 0 := by decide +kernel
/-- R29: `PSTATE = HeaderRead` in bits 6..4. -/
theorem test_rxCsrr : rxAns (after (.rxCsrr 0) (blk [] [] 0 .headerRead)) = (0, 0x10) := by decide +kernel
/-- R305; vector F50. -/
theorem test_rxCsrw : (after (.rxCsrw 0x014 1) fresh).rx.ignoreCrc = true := by decide +kernel
theorem test_rxCsrw_range : recd (after (.rxCsrw 0x014 2) fresh).rx.flt = (11, 0x14, 3) := by decide +kernel
/-- Vector SY4 on RX. -/
theorem test_rxRawld : rxAns (after (.rxRawld 0 4) (withRaw [0xDD, 0xCC, 0xBB, 0xAA] fresh)) = (0, 0xAABBCCDD) := by decide +kernel
theorem test_rxRawst : peek (after (.rxRawst 1 0x1234 2) (withRaw [0xDD, 0xCC, 0xBB, 0xAA] fresh)).rx.raw 4 =
    [0xDD, 0x34, 0x12, 0xAA] := by decide +kernel
/-- Vectors RD2 step 1, RD3 step 2. -/
theorem test_rBits : rxAns (after (.rBits 32) (blk [0x11, 0x22, 0x33, 0x44] [] 0 .noHeader)) = (0, 0x44332211) := by decide +kernel
theorem test_rBits_end : recd (after (.rBits 1) fresh).rx.flt = (3, 0, 0) := by decide +kernel
/-- Vectors RD5 step 1, RD6 step 1. -/
theorem test_rUnary : rxAns (after .rUnary (blk [0x17, 0xFF, 0xFF, 0xFF, 0xFF, 0x01] [] 0 .noHeader)) = (0, 3) := by decide +kernel
theorem test_rUnary_ghost : rxAns (after .rUnary (blk [0xFF, 0xFF, 0xFF] [] 0 .noHeader)) = (0, 24) := by decide +kernel
/-- R21: the largest count that fits in `V`; past it (log 27) the answer still fits, whatever the free value is. -/
theorem test_fitCount : fitCount small (2 ^ 32 - 1) fresh.rx = .ok (2 ^ 32 - 1) fresh.rx ∧
    ∃ w < 2 ^ 32, fitCount small (2 ^ 32) fresh.rx = .ok w { fresh.rx with freeTick := 1 } :=
  ⟨by rw [fitCount, if_pos (by decide)], _, Nat.mod_lt _ (Nat.two_pow_pos 32), by rw [fitCount, if_neg (by decide)]; rfl⟩
/-- Vector RD8. -/
theorem test_rStr : rxAns (after (.rStr 0x10 16) (blk [0x61, 0x62, 0x00, 0x63] [] 0 .noHeader)) = (0, 3) ∧
    (after (.rStr 0x10 16) (blk [0x61, 0x62, 0x00, 0x63] [] 0 .noHeader)).rx.raw.bytes 0x10 4 = [0x61, 0x62, 0, 0] := by
  decide +kernel
/-- R161: characters to the end of the first buffer pull that buffer only, and not the bytes behind it. -/
theorem test_rStr_pulls : (after (.rStr 0x10 8) (blk (List.replicate 12 0x61) [] 0 .noHeader)).rx.pulled = 8 ∧
    (after (.rStr 0x10 9) (blk (List.replicate 12 0x61) [] 0 .noHeader)).rx.pulled = 12 ∧
    (after (.rStr 0x10 9) (blk (List.replicate 12 0x61) [] 0 .noHeader)).rx.srcEof = true := by decide +kernel
/-- Vector RD4 step 2. -/
theorem test_rWindup : (after .rWindup { fresh with
      rx := { fresh.rx with rbuf := [0x800001FF, 7], rcount := 2, roff := 3, bitpos := 3, srcEof := true, pulled := 5 } }).rx.roff =
    8 := by decide +kernel
/-- Program PR1; vector T2.22: 32 ones and `k = 1`. -/
theorem test_dMexpg : rxAns (after (.dMexpg 3) (blk [0x7F, 0xE8, 0x01] [] 0 .noHeader)) = (0, 1000) := by decide +kernel
theorem test_dMexpg_corrupt :
    recd (after (.dMexpg 1) (blk [0xFF, 0xFF, 0xFF, 0xFF, 0] [] 0 .noHeader)).rx.flt = (10, 32, 1) := by decide +kernel
/-- R226; with delta, from history 5, the code 0xFE is the word 3 (R196). -/
theorem test_dWord : rxAns (after (.dWord 0) (blk [0xAB] [ch8] 0 .noHeader)) = (0, 0xAB) := by decide +kernel
theorem test_dWord_delta :
    rxAns (after (.dWord 0) (blk [0xFE] [{ chan .u8 .default true with prev := 5 }] 0 .noHeader)) = (0, 3) := by decide +kernel
/-- R227, R225: three real bytes of two 16-bit words. -/
theorem test_dVec : (after (.dVec 0 0 3) (blk [0xAA, 0xBB, 0xCC, 0] [chan .u16 .default false] 0 .noHeader)).rx.raw.bytes 0 3 =
    [0xAA, 0xBB, 0xCC] := by decide +kernel
/-- Vector C-ROT4: 32-bit words with delta, rotated by 31. -/
theorem test_dVec_rot : (after (.dVec 0 0 8) (blk [2, 0, 0, 0, 0xFF, 0xFF, 0xFF, 0xFF]
      [{ chan .u32 .default true with permrot := true, rot := 31 }] 0 .noHeader)).rx.raw.bytes 0 8 =
    [1, 0, 0, 0, 0, 0, 0, 0x80] := by decide +kernel
/-- R228. -/
theorem test_dHreset : (after (.dHreset 0) (blk [] [{ ch8 with prev := 5 }] 0 .noHeader)).rx.chans = [ch8] := by decide +kernel
/-- R271; vector T2.1. -/
theorem test_pHeader : rxAns (after .pHeader (blk [0x53, 0x4C, 4, 3, 2, 1, 0x50] [] 0 .noHeader)) = (0, 0x50) ∧
    (after .pHeader (blk [0x53, 0x4C, 4, 3, 2, 1, 0x50] [] 0 .noHeader)).rx.mtime = 0x01020304 := by decide +kernel
theorem test_pHeader_magic :
    recd (after .pHeader (blk [0x53, 0x4D, 0, 0, 0, 0, 0x10] [] 0 .noHeader)).rx.flt = (1, 0x4D53, 0x4C53) := by decide +kernel
/-- Vector T2.17 with the tag 0xF, then as it stands, behind a file header with `FLAGS = 0x10`; its byte on a 16-bit channel,
the coded ghost byte not zero (vector F55). -/
theorem test_pSection : rxAns (after .pSection (blk [1, 0, 0, 0, 0, 0, 0xAA, 0x0F] [] 0x10 .headerRead)) = (0, 1) ∧
    (after .pSection (blk [1, 0, 0, 0, 0, 0, 0xAA, 0x0F] [] 0x10 .headerRead)).rx.pstate = .exhausted ∧
    rxAns (after .pSection (blk [1, 0, 0, 0, 0, 8, 0xAA, 0x55, 0x0F] [] 0x10 .headerRead)) = (0, 1) ∧
    peek (after .pSection (blk [1, 0, 0, 0, 0, 8, 0xAA, 0x55, 0x0F] [] 0x10 .headerRead)).rx.raw 1 = [0xAA] := by decide +kernel
theorem test_pSection_tag :
    recd (after .pSection (blk [1, 0, 0, 0, 0, 0, 0xAA, 0x07] [] 0x10 .headerRead)).rx.flt = (10, 7, 7) := by decide +kernel
/-- R273; vector F42 on RX. -/
theorem test_pAddch : (after (.pAddch 2 0x203) fresh).rx.chans = [{ chan .i16 .runLength false with reps := 2 }] := by decide +kernel
theorem test_pAddch_alg : recd (after (.pAddch 1 0x400) fresh).rx.flt = (11, 4, 2) := by decide +kernel
/-- R274. -/
theorem test_pResetch : (after .pResetch (blk [] [ch8] 0 .noHeader)).rx.chans = [] := by decide +kernel

/-! ## The step -/

/-- Vector F1: an unassigned opcode. -/
theorem test_step_illegal : (match step (fresh.issue ⟨0x55, 0, 0⟩) with
    | .next s => recd s.tx.flt
    | .fault _ => (0, 0, 0)
    | .refused _ => (0, 0, 0)) = (13, 0x55, 0) := by decide +kernel

/-- Vector F53: a Faulted engine answers 14. -/
theorem test_step_faulted : (match step ((after (.wUnary 1025) fresh).issue ⟨0x110, 0, 1⟩) with
    | .next s => txAns s
    | .fault _ => (0, 0)
    | .refused _ => (0, 0)) = (14, 0) := by decide +kernel

/-! ## States that meet the hypotheses of the statements

`wit_X` belongs to `Obligations.X`; a conjunct for every clause, at a boundary of its range where it has one. -/

/-- A file of one section of one byte, `FLAGS = 0x50` (vector K2 with ONECHAN and CRC), without the file header, for a
parser that has read it. -/
def sectionBytes (crc : List Byte) : List Byte := [1, 0, 0, 0, 0, 0, 0xAA] ++ crc ++ [0x0F]

theorem ch8_ok : ch8.Ok := ⟨by decide, by decide, by decide⟩
theorem ch8_codable : ch8.Codable := ⟨by decide, by decide⟩
theorem ch8_list_ok : ChansOk small [ch8] := ⟨by decide, fun _ h => by rw [List.mem_singleton.1 h]; exact ch8_ok⟩
theorem nil_ok : ChansOk small [] := ChansOk.nil

/-- The invariant holds of the small block after power-on, whatever source, channels and flags it is given. -/
theorem blk_inv (src : List Byte) {chans : List Channel} (flags : BitVec 8) (ps : PState) (hc : ChansOk small chans) :
    (blk src chans flags ps).Inv := by
  have hr : (Rx.reset small).ReaderInv small :=
    ⟨rfl, by decide, fun _ => rfl, fun h => absurd h (by decide), by decide, fun _ => rfl,
      fun x hx => absurd hx (by simp [Rx.reset]), fun _ => rfl, by decide +kernel, Nat.zero_le _⟩
  refine ⟨small_legal, ⟨(Tx.reset_writerInv small_legal).same rfl rfl rfl rfl rfl, .inl rfl, nofun,
    nofun, nofun, fun _ => ⟨rfl, rfl, rfl, rfl⟩, hc, FaultRecord.reset_ok, rfl,
    RawMem.reset_wf⟩, ⟨fun _ => ?_, fun _ => hc, rfl, Nat.zero_le _, fun _ => ⟨rfl, rfl, rfl⟩, FaultRecord.reset_ok, rfl,
    RawMem.reset_wf⟩⟩
  exact ⟨hr.length, hr.count, hr.empty, hr.ptr, hr.off, hr.emptyOff, hr.fits, hr.whole, hr.bitpos, Nat.zero_le _⟩

theorem fresh_inv : fresh.Inv := blk_inv [] 0 .noHeader nil_ok
theorem fresh_ready : fresh.tx.Ready := ⟨by decide, by decide⟩

/-- The invariant does not speak of the raw memories but for their form. -/
theorem withRaw_inv {s : State} (h : s.Inv) {bytes : List Byte}
    (hm : (⟨bytes.zipIdx.map fun p => (p.2, p.1), []⟩ : RawMem).Wf) : (withRaw bytes s).Inv :=
  ⟨h.cfg, ⟨h.tx.writer.same rfl rfl rfl rfl rfl, h.tx.gstate, h.tx.finalized, h.tx.closed, h.tx.layout, h.tx.counted,
    h.tx.chans, h.tx.flt, h.tx.name, hm⟩, h.rx.withRaw hm s.rx.freeTick⟩

/-- A channel the codec commands accept, on both engines. -/
def coded : State := blk [0xAB] [ch8] 0 .noHeader
theorem coded_inv : coded.Inv := blk_inv _ _ _ ch8_list_ok
theorem coded_ready : coded.tx.Ready := ⟨by decide, by decide⟩
theorem ch8_chanOk : ChanOk [ch8] 0 := ⟨by decide, ch8_codable, by decide⟩
theorem ch8_layout (flags : BitVec 8) (h : repsPresent flags 1 = false) : LayoutOk small flags [ch8] :=
  ⟨by decide, by decide, fun _ => rfl, by
    rw [show [ch8].length = 1 from rfl, h]
    exact fun _ h => by rw [List.mem_singleton.1 h]; rfl, fun _ h => by rw [List.mem_singleton.1 h]; exact ⟨ch8_ok, ch8_codable⟩⟩
theorem ch8_sectionOk (len : Nat) (h0 : 0 < len) (hl : len ≤ 64) : SectionOk small len coded.tx :=
  ⟨h0, hl, ch8_layout 0 (by decide), fun _ h => by rw [List.mem_singleton.1 h]; exact .inl rfl, fun _ => by decide,
    fun _ h => absurd h (by decide)⟩
/-- A channel that is not Constant carries anything. -/
theorem ch8_carries (src : RawMem) (addr n : Nat) : ch8.Carries src addr n := fun h => absurd h (by decide)
theorem coded_carries (len : Nat) (raw : RawMem) :
    ∀ v ∈ sectionVectors [ch8] len, (channelAt [ch8] v.1).Carries raw v.2.1 v.2.2 := fun v hv => by
  have h := (sectionVectors_mem hv).1
  have h1 : v.1 = 0 := Nat.lt_one_iff.1 h
  rw [h1]
  exact ch8_carries _ _ _

/-- The bytes of a bit stream, the last one padded with zeros. -/
def bytesOf (bits : List Bool) : List Byte :=
  (List.range ((bits.length + 7) / 8)).map fun i => BitVec.ofNat 8 (bitsValue ((bits.drop (8 * i)).take 8))

/-- The reader `k` bits into a stream that goes on with `bits`. -/
def mid (k : Byte) (bits : List Bool) (chans : List Channel) (flags : BitVec 8) (ps : PState) : State :=
  after (.rBits k) (blk (bytesOf (List.replicate k.toNat false ++ bits)) chans flags ps)

theorem after_rBits_inv {s : State} (h : s.Inv) {n : Byte} : (after (.rBits n) s).Inv := by
  have hx : (s.rx.command (fun _ => refuseIf (s.cfg.wordBits < n.toNat) ⟨.badOperand, n.toNat, s.cfg.wordBits⟩)
      (getBits s.cfg n.toNat) cursorLost).Inv s.cfg := h.rx.command fun hf hn =>
    h.rx.reads (getBits_touches h.cfg _) (getBits_consumes h.cfg (not_lt.1 (refuseIf_eq_none.1 hn))) hf
  exact ⟨h.cfg, h.tx, hx⟩

theorem mid_inv (k : Byte) (bits : List Bool) {chans : List Channel} (flags : BitVec 8) (ps : PState)
    (hc : ChansOk small chans) : (mid k bits chans flags ps).Inv := after_rBits_inv (blk_inv _ flags ps hc)

/-- The parser or the decoders stand `k` bits into a stream, without a fault, in front of `bits`. -/
def meets (k : Byte) (bits : List Bool) (chans : List Channel) (flags : BitVec 8) (ps : PState) : Bool :=
  let r := (mid k bits chans flags ps).rx
  r.flt.fault = 0 && r.pstate = ps && r.bitpos = k.toNat && bits.isPrefixOf (r.ahead small)

/-- The same, and the stream ends fewer than `n` bits behind `bits`. -/
def cuts (k : Byte) (bits : List Bool) (n : Nat) (chans : List Channel) (flags : BitVec 8) (ps : PState) : Bool :=
  meets k bits chans flags ps && ((mid k bits chans flags ps).rx.ahead small).length < bits.length + n

/-- TX after `W.CLOSE`, TX after a fault, RX after a fault. -/
def closedState : State := after .wClose fresh
def faultedTx : State := after (.wUnary 1025) fresh
def faultedRx : State := after (.rBits 33) fresh

theorem wit_DecodeInvertsEncode : (Instr.wUnary 0xFFFFFFFF).wellFormed .default = true := by decide

theorem wit_DecodeMatchesRow :
    decode ⟨0xFFFF0021, 0, 0⟩ = .ok (.eWord 0xFFFF 0) ∧
    (0xFFFF0021 : U32) &&& (Instr.eWord 0 0).tableRow.2 = (Instr.eWord 0 0).tableRow.1 := by decide

theorem wit_StepRunsDecoded :
    (fresh.issue ⟨0x11, 0, 5⟩).pending = ⟨0x11, 0, 5⟩ :: [] ∧
    decode (narrowed small ⟨0x11, 0, 5⟩) = .ok (.wUnary 5) ∧ (0x11 : U32).getLsbD 7 = false ∧
    (fresh.issue ⟨0x91, 0, 0⟩).pending = ⟨0x91, 0, 0⟩ :: [] ∧
    decode (narrowed small ⟨0x91, 0, 0⟩) = .ok .rUnary ∧ (0x91 : U32).getLsbD 7 = true := by decide

theorem wit_IllegalWordFaults :
    (fresh.issue ⟨0x55, 0, 0⟩).pending = ⟨0x55, 0, 0⟩ :: [] ∧
    (∀ i : Instr, (0x55 : U32) &&& i.tableRow.2 ≠ i.tableRow.1) ∧ (0x55 : U32).getLsbD 7 = false ∧
    fresh.tx.flt.fault = 0 ∧ (∀ i : Instr, (0x191 : U32) &&& i.tableRow.2 ≠ i.tableRow.1) ∧
    (0x191 : U32).getLsbD 7 = true ∧ fresh.rx.flt.fault = 0 :=
  ⟨rfl, fun i => by cases i <;> simp only [Instr.tableRow] <;> decide, by decide, by decide, fun i => by cases i <;> simp only [Instr.tableRow] <;> decide, by decide, by decide⟩

theorem wit_StepNeverStops : fresh.pending = [] := rfl

theorem wit_StepKeepsInvariant :
    fresh.Inv ∧ (fresh.issue ⟨0x11, 0, 5⟩).Inv ∧
    step (fresh.issue ⟨0x11, 0, 5⟩) = exec (.wUnary 5) (State.latch fresh ⟨0x11, 0, 5⟩) := by
  refine ⟨fresh_inv, ⟨fresh_inv.cfg, fresh_inv.tx, fresh_inv.rx⟩, ?_⟩
  rw [step_command rfl]
  rfl

theorem wit_PowerOnInvariant : Config.default.Legal ∧ small.Legal := ⟨default_legal, small_legal⟩

theorem wit_EnginesIndependent :
    (fresh.issue ⟨0x11, 0, 5⟩).pending = ⟨0x11, 0, 5⟩ :: [] ∧ (coded.issue ⟨0x91, 0, 0⟩).pending = ⟨0x91, 0, 0⟩ :: [] ∧
    fresh.cfg = coded.cfg ∧ (∃ s', step (fresh.issue ⟨0x11, 0, 5⟩) = .next s') ∧
    ∃ s', step (coded.issue ⟨0x91, 0, 0⟩) = .next s' :=
  ⟨rfl, rfl, rfl, by rw [step_command rfl]; exact ⟨_, exec_after (.wUnary 5) _⟩,
    by rw [step_command rfl]; exact ⟨_, exec_after .rUnary _⟩⟩

theorem wit_FaultedIsSticky :
    faultedTx.tx.flt.fault ≠ 0 ∧ faultedRx.rx.flt.fault ≠ 0 ∧ (0x110 : U32).getLsbD 7 = false ∧ (0x110 : U32) ≠ 0x00 ∧
    (0x110 : U32) ≠ 0x01 ∧ (0x190 : U32).getLsbD 7 = true ∧ (0x190 : U32) ≠ 0x80 ∧ (0x190 : U32) ≠ 0x81 ∧
    (faultedTx.issue ⟨0x110, 0, 0⟩).pending = ⟨0x110, 0, 0⟩ :: [] := by decide +kernel

theorem wit_RaiseRecordsFirstFault : fresh.tx.flt.fault = 0 ∧ faultedTx.tx.flt.fault ≠ 0 ∧ fresh.rx.flt.fault = 0 ∧
    faultedRx.rx.flt.fault ≠ 0 := by decide +kernel

theorem wit_TxFaultsChangeNothing :
    (Instr.wUnary 1025).commandWord.getLsbD 7 = false ∧ exec (.wUnary 1025) fresh = .next faultedTx ∧
    faultedTx.tx.port.st ≠ 0 := ⟨by decide, exec_after _ _, by decide +kernel⟩

theorem wit_ClosedRefuses :
    (Instr.wBits 1 1).commandWord.getLsbD 7 = false ∧ (Instr.wBits 1 1).commandWord.extractLsb' 4 3 ≠ 0 ∧
    faultedTx.tx.flt.fault ≠ 0 ∧ closedState.tx.flt.fault = 0 ∧ closedState.tx.closed = true := by decide +kernel

theorem wit_TxCsrrReads :
    (0x103 : U32).toNat = 0x100 + 3 ∧ 3 < small.nameMax ∧ small.nameMax ≤ 0xF00 ∧ 0 < coded.tx.chans.length ∧
    ((12, 0) ∈ channelRegisters coded.tx.chans 0) ∧ (0x100C : U32).toNat = 0x1000 + 16 * 0 + 12 ∧
    ¬MappedCsr small 1 (0x104 : U32).toNat ∧ ¬MappedCsr small 1 (0x100D : U32).toNat ∧
    ¬MappedCsr small 1 (0x1010 : U32).toNat := by
  refine ⟨by decide, by decide, by decide, by decide, by decide, by decide, ?_, ?_, ?_⟩ <;>
    · simp only [MappedCsr]
      decide

theorem wit_RxCsrrReads :
    (0x103 : U32).toNat = 0x100 + 3 ∧ 3 < small.nameMax ∧ small.nameMax ≤ 0xF00 ∧ 0 < coded.rx.chans.length ∧
    ((12, 0) ∈ channelRegisters coded.rx.chans 0) ∧ ¬MappedCsr small 1 (0x00B : U32).toNat := by
  refine ⟨by decide, by decide, by decide, by decide, by decide, ?_⟩
  simp only [MappedCsr]
  decide

theorem wit_TxCsrwHeader :
    fresh.tx.flt.fault = 0 ∧ fresh.tx.gstate = .notStarted ∧ (255 : Word).toNat ≤ 255 ∧ (0xFFFFFFFF : Word).toNat < 2 ^ 32 ∧
    (0x103 : U32).toNat = 0x100 + 3 ∧ 3 < fresh.cfg.nameMax := by decide

theorem wit_CsrwChannel :
    small.nameMax ≤ 0xF00 ∧ coded.tx.flt.fault = 0 ∧ coded.rx.flt.fault = 0 ∧ 0 < coded.tx.chans.length ∧
    (0x1005 : U32).toNat = 0x1000 + 16 * 0 + 5 ∧ Alg.constant.code = (3 : Word).toNat ∧ 4 ≤ (4 : Word).toNat ∧
    (0x1006 : U32).toNat = 0x1000 + 16 * 0 + 6 ∧ bit true = (1 : Word).toNat ∧ 2 ≤ (2 : Word).toNat ∧
    (0x1007 : U32).toNat = 0x1000 + 16 * 0 + 7 ∧ (31 : BitVec 5).toNat = (31 : Word).toNat ∧ 32 ≤ (32 : Word).toNat ∧
    (0x1008 : U32).toNat = 0x1000 + 16 * 0 + 8 ∧ (0xFFFFFFFF : U32).toNat = (0xFFFFFFFF : Word).toNat ∧
    (0x1009 : U32).toNat = 0x1000 + 16 * 0 + 9 ∧ (32 : BitVec 6).toNat = (32 : Word).toNat ∧ (0 : Word).toNat = 0 ∧
    33 ≤ (33 : Word).toNat ∧ (0x100A : U32).toNat = 0x1000 + 16 * 0 + 10 ∧ (0xFFFFFFFF : Word).toNat < 2 ^ 32 := by decide

theorem wit_TxCsrwRefuses :
    fresh.tx.flt.fault = 0 ∧ small.nameMax ≤ 0xF00 ∧ ¬MappedCsr small 0 (0x104 : U32).toNat ∧
    MappedCsr small 0 (0x014 : U32).toNat ∧ MappedCsr small 0 (0x103 : U32).toNat ∧ 2 ^ 32 ≤ (0x100000000 : Word).toNat ∧
    (after (.gSection 1) coded).tx.gstate ≠ .notStarted ∧ 256 ≤ (256 : Word).toNat ∧ (0x010 : U32) ≠ 0x011 ∧
    (0x010 : U32) ≠ 0x012 := by
  refine ⟨by decide, by decide, ?_, ?_, ?_, by decide, by decide +kernel, by decide, by decide, by decide⟩ <;>
    · simp only [MappedCsr]
      decide

theorem wit_RxCsrwControl :
    fresh.rx.flt.fault = 0 ∧ small.nameMax ≤ 0xF00 ∧ bit true = (1 : Word).toNat ∧ ¬MappedCsr small 0 (0x1000 : U32).toNat ∧
    MappedCsr small 0 (0x010 : U32).toNat ∧ (0x010 : U32) ≠ 0x014 ∧ MappedCsr small 0 (0x014 : U32).toNat ∧
    2 ^ 32 ≤ (0x100000000 : Word).toNat ∧ 2 ≤ (2 : Word).toNat ∧ (2 : Word).toNat < 2 ^ 32 := by
  refine ⟨by decide, by decide, by decide, ?_, ?_, by decide, ?_, by decide, by decide, by decide⟩ <;>
    · simp only [MappedCsr]
      decide

/-- The last legal access of each kind, the first illegal one; `RAW_BYTES` is 67 here. -/
theorem wit_RawLoad :
    fresh.tx.flt.fault = 0 ∧ fresh.rx.flt.fault = 0 ∧ (4 : Byte) ∈ [(1 : Byte), 2, 4] ∧
    (63 : U32).toNat + (4 : Byte).toNat ≤ small.rawBytes ∧ (3 : Byte) ∉ [(1 : Byte), 2, 4] ∧
    small.rawBytes < (64 : U32).toNat + (4 : Byte).toNat := by decide

theorem wit_RawStore :
    fresh.Inv ∧ fresh.tx.flt.fault = 0 ∧ fresh.rx.flt.fault = 0 ∧ (1 : Byte) ∈ [(1 : Byte), 2, 4] ∧
    (66 : U32).toNat + (1 : Byte).toNat ≤ small.rawBytes ∧ (0 : Byte) ∉ [(1 : Byte), 2, 4] ∧
    small.rawBytes < (67 : U32).toNat + (1 : Byte).toNat :=
  ⟨fresh_inv, by decide +kernel⟩

theorem wit_WBits : fresh.Inv ∧ fresh.tx.Ready ∧ (32 : Byte).toNat ≤ small.wordBits ∧ small.wordBits < (33 : Byte).toNat :=
  ⟨fresh_inv, fresh_ready, by decide, by decide⟩

theorem wit_WUnary : fresh.Inv ∧ fresh.tx.Ready ∧ (1024 : Word).toNat ≤ small.unaryMax ∧ small.unaryMax < (1025 : Word).toNat :=
  ⟨fresh_inv, fresh_ready, by decide, by decide⟩

def full : State := withRaw (List.replicate 67 0x61) fresh

/-- A terminator at the last place the cap allows; no terminator within the cap, and none to write; a scan that runs off
the memory. -/
theorem wit_WStr :
    ((withRaw [0x61, 0x62] fresh).Inv ∧ (withRaw [0x61, 0x62] fresh).tx.Ready ∧ 2 < (3 : Word).toNat ∧
      (withRaw [0x61, 0x62] fresh).tx.raw.readByte ((0 : U32).toNat + 2) = 0 ∧ 2 + 1 + (0 : U32).toNat ≤ small.rawBytes ∧
      ∀ i < 2, (withRaw [0x61, 0x62] fresh).tx.raw.readByte ((0 : U32).toNat + i) ≠ 0) ∧
    (full.Inv ∧ full.tx.Ready ∧ 67 = (67 : Word).toNat ∧ 67 + (0 : U32).toNat ≤ small.rawBytes ∧
      ∀ i < 67, full.tx.raw.readByte ((0 : U32).toNat + i) ≠ 0) ∧
    ((68 : Word) ≠ 0 ∧ small.rawBytes < (0 : U32).toNat + (68 : Word).toNat ∧
      ∀ i, (0 : U32).toNat + i < small.rawBytes → full.tx.raw.readByte ((0 : U32).toNat + i) ≠ 0) := by
  have h67 : ∀ i < 67, full.tx.raw.readByte ((0 : U32).toNat + i) ≠ 0 := by decide +kernel
  refine ⟨⟨withRaw_inv fresh_inv (by decide), fresh_ready, by decide, by decide, by decide, by decide⟩,
    ⟨withRaw_inv fresh_inv (by decide +kernel), fresh_ready, by decide, by decide, h67⟩, by decide, by decide, fun i hi => ?_⟩
  have : small.rawBytes = 67 := rfl
  exact h67 i (by simpa [this] using hi)

theorem wit_WWindup : fresh.Inv ∧ fresh.tx.Ready := ⟨fresh_inv, fresh_ready⟩
theorem wit_WFlush : fresh.Inv ∧ fresh.tx.Ready ∧ 1 < (2 : Byte).toNat := ⟨fresh_inv, fresh_ready, by decide⟩
theorem wit_WClose : fresh.Inv ∧ fresh.tx.Ready := ⟨fresh_inv, fresh_ready⟩

/-- The source of one byte gives one word, three bytes of it ghost zeros. -/
theorem coded_ahead : coded.rx.ahead small = byteBits [0xAB, 0, 0, 0] := by decide

/-- A whole word on an empty buffer (a fill); eight bits of a half-read word, all it holds (no fill); nine bits, one more
than it holds; an underrun. -/
theorem wit_RBits :
    coded.Inv ∧ coded.rx.flt.fault = 0 ∧ (byteBits [0xAB, 0, 0, 0]).length = (32 : Byte).toNat ∧
    (32 : Byte).toNat ≤ small.wordBits ∧ coded.rx.ahead small = byteBits [0xAB, 0, 0, 0] ++ [] ∧
    (coded.rx.unread small).length < (32 : Byte).toNat ∧
    (let s := mid 24 (List.replicate 40 true ++ byteBits [0xAB]) [] 0 .noHeader
     s.Inv ∧ s.rx.flt.fault = 0 ∧ (s.rx.unread small).length = 40 ∧ s.rx.ahead small = List.replicate 40 true ++ byteBits [0xAB, 0, 0, 0] ∧
     (after (.rBits 32) s).Inv ∧ (after (.rBits 32) s).rx.flt.fault = 0 ∧ ((after (.rBits 32) s).rx.unread small).length = 8 ∧
     (after (.rBits 32) s).rx.ahead small = List.replicate 8 true ++ byteBits [0xAB, 0, 0, 0]) ∧
    fresh.Inv ∧ (fresh.rx.ahead small).length < (1 : Byte).toNat ∧ small.wordBits < (33 : Byte).toNat := by
  have h := mid_inv 24 (List.replicate 40 true ++ byteBits [0xAB]) 0 .noHeader nil_ok
  exact ⟨coded_inv, by decide, by decide, by decide, by decide, by decide, ⟨h, by decide +kernel, by decide +kernel,
    by decide +kernel, after_rBits_inv h, by decide +kernel, by decide +kernel, by decide +kernel⟩, fresh_inv, by decide, by decide⟩

/-- The longest run, one bit too many, a run that the stream does not end. -/
theorem wit_RUnary :
    let ones := blk (List.replicate 128 0xFF) [] 0 .noHeader
    coded.Inv ∧ coded.rx.flt.fault = 0 ∧ 2 ≤ small.unaryMax ∧
      coded.rx.ahead small = List.replicate 2 true ++ false :: (byteBits [0xAB, 0, 0, 0]).drop 3 ∧
    (blk (List.replicate 129 0xFF) [] 0 .noHeader).Inv ∧
      (∃ rest, (blk (List.replicate 129 0xFF) [] 0 .noHeader).rx.ahead small = List.replicate (small.unaryMax + 1) true ++ rest) ∧
    ones.Inv ∧ ones.rx.ahead small = List.replicate 1024 true :=
  ⟨coded_inv, by decide, by decide, by decide, blk_inv _ _ _ nil_ok,
    ⟨List.replicate 7 true ++ List.replicate 24 false, by decide +kernel⟩, blk_inv _ _ _ nil_ok, by decide +kernel⟩

theorem wit_RStr :
    coded.Inv ∧ coded.rx.flt.fault = 0 ∧ (65 : U32).toNat + (2 : Word).toNat ≤ small.rawBytes ∧
    (([0xAB, 0] : List Byte).length ≤ (2 : Word).toNat ∧ ∃ cs, ([0xAB, 0] : List Byte) = cs ++ [0] ∧ 0 ∉ cs) ∧
    coded.rx.ahead small = byteBits [0xAB, 0] ++ byteBits [0, 0] ∧
    (([0xAB] : List Byte).length = (1 : Word).toNat ∧ (0 : Byte) ∉ [(0xAB : Byte)]) ∧
    (blk [1, 1, 1, 1] [] 0 .noHeader).Inv ∧ ([1, 1, 1, 1] : List Byte).length < (5 : Word).toNat ∧
      (0 : Byte) ∉ ([1, 1, 1, 1] : List Byte) ∧ ([] : List Bool).length < 8 ∧
      (blk [1, 1, 1, 1] [] 0 .noHeader).rx.ahead small = byteBits [1, 1, 1, 1] ++ [] ∧
    small.rawBytes < (66 : U32).toNat + (2 : Word).toNat :=
  ⟨coded_inv, by decide, by decide, ⟨by decide, [0xAB], by decide, by decide⟩, by decide, by decide, blk_inv _ _ _ nil_ok,
    by decide +kernel⟩

theorem wit_RWindup : fresh.Inv ∧ fresh.rx.flt.fault = 0 := ⟨fresh_inv, by decide⟩

theorem wit_EMexpg :
    fresh.Inv ∧ fresh.tx.Ready ∧ (31 : Byte).toNat ≤ 31 ∧ (Instr.eMexpg 0xFFFFFFFF 31).wellFormed small = true ∧
    31 < (32 : Byte).toNat := ⟨fresh_inv, fresh_ready, by decide +kernel⟩

/-- The stream 11010000 0... holds the code of 5 at order 1 and, for order 31, the prefix of length 2, one bit too many; one
bit short of the bits that a prefix of length 1, of length 0, announces; a run of ones too long, and one that the stream ends. -/
theorem wit_DMexpg :
    let r := blk [0x0B] [] 0 .noHeader
    (r.Inv ∧ r.rx.flt.fault = 0 ∧ (1 : Byte).toNat ≤ 31 ∧ 5 < 2 ^ small.wordBits ∧
      r.rx.ahead small = mexpgBits (1 : Byte).toNat 5 ++ (byteBits [0x0B, 0, 0, 0]).drop 5 ∧
      (31 : Byte).toNat ≤ 31 ∧ 2 ≤ small.unaryMax ∧ small.wordBits < 2 + (31 : Byte).toNat ∧
      r.rx.ahead small = List.replicate 2 true ++ false :: (byteBits [0x0B, 0, 0, 0]).drop 3 ∧ 31 < (32 : Byte).toNat) ∧
    (∀ k bits, (mid k bits [] 0 .noHeader).Inv) ∧
    1 + (31 : Byte).toNat ≤ small.wordBits ∧
    cuts 0 (List.replicate 1 true ++ [false]) (1 + (31 : Byte).toNat - 1) [] 0 .noHeader = true ∧
    cuts 1 (List.replicate 0 true ++ [false]) (31 : Byte).toNat [] 0 .noHeader = true ∧
    meets 5 (List.replicate (small.unaryMax + 1) true) [] 0 .noHeader = true ∧
    (mid 0 (List.replicate 1024 true) [] 0 .noHeader).rx.ahead small = List.replicate small.unaryMax true :=
  ⟨⟨blk_inv _ _ _ nil_ok, by decide⟩, fun _ _ => mid_inv _ _ _ _ nil_ok, by decide +kernel⟩

theorem wit_EWord : coded.Inv ∧ coded.tx.Ready ∧ ChanOk coded.tx.chans (0 : BitVec 16).toNat :=
  ⟨coded_inv, coded_ready, ch8_chanOk⟩

theorem wit_EVec :
    coded.Inv ∧ coded.tx.Ready ∧ ChanOk coded.tx.chans (0 : BitVec 16).toNat ∧
    (Instr.eVec 0 64 3).wellFormed small = true ∧ (3 : Word) ≠ 0 ∧ (64 : U32).toNat + (3 : Word).toNat ≤ small.rawBytes ∧
    small.rawBytes < (64 : U32).toNat + (4 : Word).toNat :=
  ⟨coded_inv, coded_ready, ch8_chanOk, by decide +kernel⟩

/-- The last word of three bytes of a 16-bit channel, its second byte lacking. -/
theorem wit_VectorWords : 1 < (3 + DType.u16.size - 1) / DType.u16.size ∧ 1 < DType.u16.size := by decide

/-- A Run-Length channel of 8-bit words, a Default channel of 16-bit words. -/
def rl8 : Channel := chan .u8 .runLength false
def ch16 : Channel := chan .u16 .default false
theorem rl8_ok : ChansOk small [rl8] := ⟨by decide, fun _ h => by rw [List.mem_singleton.1 h]; exact ⟨by decide, by decide, by decide⟩⟩
theorem ch16_ok : ChansOk small [ch16] := ⟨by decide, fun _ h => by rw [List.mem_singleton.1 h]; exact ⟨by decide, by decide, by decide⟩⟩
theorem rl8_chanOk : ChanOk [rl8] 0 := ⟨by decide, ⟨by decide, by decide⟩, by decide⟩
theorem ch16_chanOk : ChanOk [ch16] 0 := ⟨by decide, ⟨by decide, by decide⟩, by decide⟩

/-- A Reduced-Binary channel of 8-bit words in 4 bits. -/
def rb8 : Channel := { chan .u8 .reducedBinary false with nbits := 4 }
theorem rb8_ok : ChansOk small [rb8] := ⟨by decide, fun _ h => by rw [List.mem_singleton.1 h]; exact ⟨by decide, by decide, by decide⟩⟩
theorem rb8_chanOk : ChanOk [rb8] 0 := ⟨by decide, ⟨by decide, by decide⟩, by decide⟩

/-- The word 3, escaped although 3 is in range. -/
theorem rb8_escaped : VectorCoded rb8 [3] (fieldBits 4 15 ++ fieldBits 8 3) :=
  ⟨fieldBits 4 15 ++ fieldBits 8 3, [], .inr rfl, rfl, (List.append_nil _).symm⟩

/-- Three equal words, in two pairs. -/
theorem rl8_split : VectorCoded rl8 [7, 7, 7] (pairsBits [(7, 1), (7, 2)]) := ⟨[(7, 1), (7, 2)], by decide, rfl, rfl⟩

/-- The Run-Length pairs that an 8-bit channel refuses while one word is wanted, at the boundaries of their ranges: a value
of too many bits; a run of ones too long, in the value and in the count; a prefix of 32 ones in both; a count of 0, of 2. -/
def refusedPairs : List (List Bool) :=
  let long := List.replicate (small.unaryMax + 1) true
  let value := mexpgBits 1 255
  [mexpgBits 1 256, long, unaryBits 32, value ++ long, value ++ unaryBits 32, value ++ mexpgBits 1 0, value ++ mexpgBits 1 2]

theorem rl8_refused : ∀ bits ∈ refusedPairs, ∃ e, PairRefused small rl8.width 1 bits e := by
  have h32 : MexpgRefused small 1 (unaryBits 32) ⟨.corruptStream, 32, 1⟩ := .wide (by decide) (by decide) (by decide)
  have hv : 255 < 2 ^ rl8.width := by decide
  simp only [refusedPairs, List.forall_mem_cons, List.not_mem_nil, false_implies, implies_true, and_true]
  exact ⟨⟨_, .wide (by decide) (by decide)⟩, ⟨_, .value .overrun⟩, ⟨_, .value h32⟩, ⟨_, .count hv .overrun⟩,
    ⟨_, .count hv h32⟩, ⟨_, .run hv (.inl rfl) (by decide)⟩, _, .run hv (.inr (by decide)) (by decide)⟩

/-- A parser or decoder in front of each of them, behind `front`. -/
def meetsRefused (k : Byte) (front : List Bool) (chans : List Channel) (flags : BitVec 8) (ps : PState) : Prop :=
  ∀ bits ∈ refusedPairs, (∃ e, PairRefused small rl8.width 1 bits e) ∧ meets k (front ++ bits) chans flags ps = true

theorem meetsRefused_of {k : Byte} {front : List Bool} {chans : List Channel} {flags : BitVec 8} {ps : PState}
    (h : refusedPairs.all (fun bits => meets k (front ++ bits) chans flags ps) = true) :
    meetsRefused k front chans flags ps := fun bits hb => ⟨rl8_refused bits hb, List.all_eq_true.1 h bits hb⟩

/-- A word; an escaped word; half a word at the end of the stream; the refused Run-Length pairs. -/
theorem wit_DWord :
    (coded.Inv ∧ coded.rx.flt.fault = 0 ∧ ChanOk coded.rx.chans (0 : BitVec 16).toNat ∧
      0xAB < 2 ^ (channelAt coded.rx.chans 0).width ∧ VectorCoded ch8 [0xAB] (vectorBits ch8 [0xAB]) ∧
      coded.rx.ahead small = vectorBits (channelAt coded.rx.chans 0) [0xAB] ++ byteBits [0, 0, 0]) ∧
    ((∀ bits, (mid 5 bits [rb8] 0 .noHeader).Inv) ∧ ChanOk [rb8] (0 : BitVec 16).toNat ∧
      VectorCoded rb8 [3] (fieldBits 4 15 ++ fieldBits 8 3) ∧ 3 < 2 ^ rb8.width ∧
      meets 5 (fieldBits 4 15 ++ fieldBits 8 3) [rb8] 0 .noHeader = true) ∧
    (let s := mid 24 (byteBits [0x34]) [ch16] 0 .noHeader
     s.Inv ∧ ChanOk s.rx.chans (0 : BitVec 16).toNat ∧ s.rx.flt.fault = 0 ∧ 0x1234 < 2 ^ ch16.width ∧ byteBits [0x12] ≠ [] ∧
     vectorBits (channelAt s.rx.chans 0) [0x1234] = s.rx.ahead small ++ byteBits [0x12]) ∧
    (∀ bits, (mid 5 bits [rl8] 0 .noHeader).Inv) ∧ ChanOk [rl8] (0 : BitVec 16).toNat ∧ rl8.alg = .runLength ∧
    meetsRefused 5 [] [rl8] 0 .noHeader :=
  ⟨⟨coded_inv, by decide, ch8_chanOk, by decide, vectorBits_coded _ _, by decide⟩,
    ⟨fun _ => mid_inv _ _ _ _ rb8_ok, rb8_chanOk, rb8_escaped, by decide +kernel⟩,
    ⟨mid_inv _ _ _ _ ch16_ok, ch16_chanOk, by decide +kernel⟩, fun _ => mid_inv _ _ _ _ rl8_ok, rl8_chanOk, by decide,
    meetsRefused_of (by decide +kernel)⟩

/-- As `wit_DWord`: two words; three equal words in two pairs; half a last word; for three words of which a pair has given
two, the refused pairs, a run of 2 being one word too long. -/
theorem wit_DVec :
    (coded.Inv ∧ coded.rx.flt.fault = 0 ∧ ChanOk coded.rx.chans (0 : BitVec 16).toNat ∧
      VectorCoded ch8 [0xAB, 0] (vectorBits ch8 [0xAB, 0]) ∧
      (Instr.dVec 0 65 2).wellFormed small = true ∧ (2 : Word) ≠ 0 ∧ (65 : U32).toNat + (2 : Word).toNat ≤ small.rawBytes ∧
      [0xAB, 0].length = ((2 : Word).toNat + (channelAt coded.rx.chans 0).size - 1) / (channelAt coded.rx.chans 0).size ∧
      (∀ v ∈ [0xAB, 0], v < 2 ^ (channelAt coded.rx.chans 0).width) ∧
      coded.rx.ahead small = vectorBits (channelAt coded.rx.chans 0) [0xAB, 0] ++ byteBits [0, 0] ∧
      small.rawBytes < (66 : U32).toNat + (2 : Word).toNat) ∧
    (let s := mid 8 (byteBits [0x34, 0x12, 0x56]) [ch16] 0 .noHeader
     s.Inv ∧ ChanOk s.rx.chans (0 : BitVec 16).toNat ∧ s.rx.flt.fault = 0 ∧ (Instr.dVec 0 64 3).wellFormed small = true ∧
     (64 : U32).toNat + (3 : Word).toNat ≤ small.rawBytes ∧ [0x1234, 0x56].length = ((3 : Word).toNat + ch16.size - 1) / ch16.size ∧
     (∀ v ∈ [0x1234, 0x56], v < 2 ^ ch16.width) ∧ byteBits [0] ≠ [] ∧
     vectorBits (channelAt s.rx.chans 0) [0x1234, 0x56] = s.rx.ahead small ++ byteBits [0]) ∧
    (∀ bits, (mid 5 bits [rl8] 0 .noHeader).Inv) ∧ ChanOk [rl8] (0 : BitVec 16).toNat ∧
    VectorCoded rl8 [7, 7, 7] (pairsBits [(7, 1), (7, 2)]) ∧
    meetsRefused 5 (pairsBits [(7, 2)]) [rl8] 0 .noHeader ∧
    rl8.alg = .runLength ∧ [7, 7, 7].length = ((3 : Word).toNat + rl8.size - 1) / rl8.size ∧
    meets 5 (pairsBits [(7, 1), (7, 2)]) [rl8] 0 .noHeader = true ∧ (∀ p ∈ [(7, 2)], p.1 < 2 ^ rl8.width ∧ 0 < p.2) ∧
    ([(7, 2)].map Prod.snd).sum < ((3 : Word).toNat + rl8.size - 1) / rl8.size ∧
    ((3 : Word).toNat + rl8.size - 1) / rl8.size - ([(7, 2)].map Prod.snd).sum = 1 :=
  ⟨⟨coded_inv, by decide, ch8_chanOk, vectorBits_coded _ _, by decide⟩, ⟨mid_inv _ _ _ _ ch16_ok, ch16_chanOk, by decide +kernel⟩,
    fun _ => mid_inv _ _ _ _ rl8_ok, rl8_chanOk, rl8_split,
    meetsRefused_of (by decide +kernel), by decide +kernel⟩

theorem wit_HistoryReset :
    coded.tx.Ready ∧ coded.rx.flt.fault = 0 ∧ (0 : BitVec 16).toNat < coded.tx.chans.length ∧
    coded.tx.chans.length ≤ (1 : BitVec 16).toNat := ⟨coded_ready, by decide +kernel⟩

/-- The first channel that each check refuses, and the numbers at its boundary. -/
theorem wit_ChanCheckRefuses :
    coded.tx.Ready ∧ coded.rx.flt.fault = 0 ∧ [ch8].length ≤ (1 : BitVec 16).toNat ∧
    (let ch := { ch8 with rot := 8 }; ch.width ≤ ch.rot.toNat) ∧
    (let ch := { ch8 with rot := 7 }; ch.rot.toNat < ch.width ∧ ch.rot ≠ 0 ∧ ch.permrot = false) ∧
    (let ch := { ch8 with rot := 7, permrot := true, alg := .reducedBinary, nbits := 9 }
     ch.rot.toNat < ch.width ∧ ch.permrot = true ∧ ch.alg = .reducedBinary ∧ ch.width < ch.nbits.toNat) :=
  ⟨coded_ready, by decide +kernel⟩

theorem wit_DecodeFaultFrame :
    let s := blk [] [ch8] 0 .noHeader
    s.Inv ∧ s.rx.flt.fault = 0 ∧ exec (.dWord 0) s = .next (after (.dWord 0) s) ∧ (after (.dWord 0) s).rx.port.st ≠ 0 ∧
    exec (.dVec 0 0 2) s = .next (after (.dVec 0 0 2) s) ∧ (after (.dVec 0 0 2) s).rx.port.st ≠ 0 :=
  ⟨blk_inv _ _ _ ch8_list_ok, by decide, exec_after _ _, by decide +kernel, exec_after _ _, by decide +kernel⟩

/-- The word 0xAB from either engine's side: `E.WORD`, and `E.VEC` of the raw byte 0xAB. -/
theorem wit_CodecRoundTrip :
    let s := withRaw [0xAB] coded
    s.Inv ∧ s.tx.Ready ∧ s.rx.flt.fault = 0 ∧ ChanOk s.tx.chans (0 : BitVec 16).toNat ∧ ChanOk s.rx.chans (0 : BitVec 16).toNat ∧
    channelAt s.tx.chans 0 = channelAt s.rx.chans 0 ∧
    exec (.eVec 0 0 1) s = .next (after (.eVec 0 0 1) s) ∧
    (after (.eVec 0 0 1) s).tx.stream small = s.tx.stream small ++ byteBits [0xAB] ∧
    exec (.eWord 0 0xAB) s = .next (after (.eWord 0 0xAB) s) ∧
    (after (.eWord 0 0xAB) s).tx.stream small = s.tx.stream small ++ byteBits [0xAB] ∧
    s.rx.ahead small = byteBits [0xAB] ++ byteBits [0, 0, 0] ∧ (Instr.eVec 0 0 1).wellFormed small = true ∧
    (0 : U32).toNat + (1 : Word).toNat ≤ small.rawBytes ∧ (66 : U32).toNat + (1 : Word).toNat ≤ small.rawBytes :=
  ⟨withRaw_inv coded_inv (by decide), coded_ready, by decide, ch8_chanOk, ch8_chanOk, by decide, exec_after _ _,
    by decide +kernel, exec_after _ _, by decide +kernel⟩

theorem wit_AddchRegisters :
    (1 : U32) ≠ 0 ∧ coded.tx.Ready ∧ coded.tx.layoutOpen = true ∧ coded.tx.chans.length ≠ small.maxChannels ∧
    coded.rx.flt.fault = 0 := ⟨by decide, coded_ready, by decide +kernel⟩

/-- Two channels are all the small block has. -/
theorem wit_AddchRefuses :
    let s := blk [] [ch8, ch8] 0 .noHeader
    s.tx.Ready ∧ (after (.gSection 1) coded).tx.Ready ∧ (after (.gSection 1) coded).tx.layoutOpen = false ∧
    s.rx.flt.fault = 0 ∧ s.tx.layoutOpen = true ∧ s.tx.chans.length = small.maxChannels ∧
    (0x40000 : Word).toNat / 2 ^ 18 ≠ 0 ∧ (0x3FFFF : Word).toNat / 2 ^ 18 = 0 ∧ 8 ≤ (8 : Word).toNat % 2 ^ 8 ∧
    (6 : Word).toNat % 2 ^ 8 = 6 ∧ (0x405 : Word).toNat % 2 ^ 8 ≤ 5 ∧ 4 ≤ (0x405 : Word).toNat / 2 ^ 8 % 2 ^ 8 ∧
    (0x305 : Word).toNat / 2 ^ 8 % 2 ^ 8 ≤ 3 :=
  ⟨⟨by decide, by decide⟩, ⟨by decide +kernel, by decide +kernel⟩, by decide +kernel⟩

theorem wit_ChannelsResetAndRestored :
    coded.tx.Ready ∧ coded.rx.flt.fault = 0 ∧ (0 : BitVec 16).toNat < coded.tx.chans.length ∧
    coded.tx.chans.length ≤ (1 : BitVec 16).toNat := ⟨coded_ready, by decide +kernel⟩

theorem wit_SectionWritten : coded.Inv ∧ coded.tx.Ready ∧ SectionOk coded.cfg (64 : Word).toNat coded.tx :=
  ⟨coded_inv, coded_ready, ch8_sectionOk _ (by decide) (by decide)⟩

/-- For every check of a section a state that it is the first to refuse. -/
theorem wit_SectionRefused :
    coded.tx.Ready ∧ small.maxSectionLength < (65 : Word).toNat ∧ fresh.tx.chans = [] ∧
    (flagToc 0x08 = true ∧ flagReserved 0x80 = true) ∧
    (flagName 0x02 = true ∧ (0 : Byte) ∉ List.replicate 4 (0x41 : Byte)) ∧
    (flagOneChan 0x10 = true ∧ [ch8, ch8].length ≠ 1) ∧
    (flagNoReps 0x20 = true ∧ ∃ ch ∈ [ch8, { ch8 with reps := 3 }], ch.reps ≠ 1) ∧
    (flagNoReps 0x00 = false ∧ 2 ^ 8 ≤ (channelAt [ch8, { ch8 with reps := 256 }] 1).reps.toNat ∧
      ∀ d < 1, (channelAt [ch8, { ch8 with reps := 256 }] d).reps.toNat < 2 ^ 8) ∧
    (channelAt [{ ch8 with rot := 8 }] 0).width ≤ (channelAt [{ ch8 with rot := 8 }] 0).rot.toNat ∧
    (channelAt [{ ch8 with rot := 7 }] 0).rot ≠ 0 ∧ (channelAt [{ ch8 with rot := 7 }] 0).permrot = false ∧
    8 < (channelAt [{ ch8 with alg := .reducedBinary, nbits := 9 }] 0).nbits.toNat ∧
    coded.tx.gstate = .notStarted ∧ (after (.gSection 1) coded).tx.gstate ≠ .notStarted :=
  ⟨coded_ready, by decide, by decide, by decide, by decide, by decide, ⟨by decide, { ch8 with reps := 3 }, by decide, by decide⟩, by decide +kernel⟩

theorem wit_FileFinalized :
    (after (.gSection 1) coded).tx.Ready ∧ (after (.gSection 1) coded).tx.gstate = .sectionClosed ∧
    fresh.Inv ∧ fresh.tx.gstate ≠ .sectionClosed :=
  ⟨⟨by decide +kernel, by decide +kernel⟩, by decide +kernel, fresh_inv, by decide⟩

theorem wit_HeaderParsed :
    let s := blk [0x53, 0x4C, 4, 3, 2, 1, 2, 0x78, 0x79, 0x7A, 0] [] 0 .noHeader
    s.Inv ∧ s.rx.flt.fault = 0 ∧ s.rx.pstate = .noHeader ∧ flagToc 2 = false ∧ flagReserved 2 = false ∧
    ((0 : Byte) ∈ ([0x78, 0x79, 0x7A, 0] : List Byte) ∧ (nameField [0x78, 0x79, 0x7A, 0]).length ≤ small.nameMax) ∧
    s.rx.ahead small = headerBits small 2 0x01020304 0 [0x78, 0x79, 0x7A, 0] ++ List.replicate 8 false :=
  ⟨blk_inv _ _ _ nil_ok, by decide +kernel⟩

/-- The magic bytes and the modification time of a header, its flag byte. -/
def head (flags : BitVec 8) : List Bool :=
  byteBits [small.magic0, small.magic1] ++ fieldBits 32 (0x01020304 : U32).toNat ++ fieldBits 8 flags.toNat

/-- A parser in front of each refused header; the streams that end inside a field end at the last bit of a word. -/
theorem wit_HeaderRefused :
    (blk [] [] 0 .headerRead).Inv ∧ (blk [] [] 0 .headerRead).rx.pstate ≠ .noHeader ∧
    (∀ k bits, (mid k bits [] 0 .noHeader).Inv) ∧
    (0x4D : Byte) ≠ small.magic1 ∧ meets 0 (byteBits [0x53, 0x4D]) [] 0 .noHeader = true ∧
    cuts 32 [] 8 [] 0 .noHeader = true ∧ cuts 24 (byteBits [0x53]) 8 [] 0 .noHeader = true ∧
    cuts 16 (byteBits [small.magic0, small.magic1]) 32 [] 0 .noHeader = true ∧
    cuts 16 (byteBits [small.magic0, small.magic1] ++ fieldBits 32 (0x01020304 : U32).toNat) 8 [] 0 .noHeader = true ∧
    (flagToc 0x18 = true ∧ meets 0 (head 0x18) [] 0 .noHeader = true) ∧
    (flagReserved 0x90 = true ∧ meets 0 (head 0x90) [] 0 .noHeader = true) ∧
    (flagSize 0x01 = true ∧ cuts 8 (head 0x01) 32 [] 0 .noHeader = true) ∧
    (flagName 0x02 = true ∧ 0 ∉ ([0x78, 0x79, 0x7A] : List Byte) ∧ [(0x78 : Byte), 0x79, 0x7A].length < small.nameMax ∧
      cuts 16 (head 0x02 ++ byteBits [0x78, 0x79, 0x7A]) 8 [] 0 .noHeader = true) ∧
    (0 ∉ List.replicate 4 (0x78 : Byte) ∧ (List.replicate 4 (0x78 : Byte)).length = small.nameMax ∧
      meets 0 (head 0x02 ++ byteBits (List.replicate 4 0x78)) [] 0 .noHeader = true) ∧
    (flagXtra 0x04 = true ∧ flagName 0x04 = false ∧ cuts 0 (head 0x04) 16 [] 0 .noHeader = true ∧ (256 : BitVec 16) ≠ 0 ∧
      meets 0 (head 0x04 ++ fieldBits 16 (256 : BitVec 16).toNat) [] 0 .noHeader = true) ∧
    (flagXtra 0x07 = true ∧ (0 : Byte) ∈ [0x78, (0 : Byte)] ∧ (nameField [0x78, 0]).length ≤ small.nameMax ∧
      cuts 24 (head 0x07 ++ fieldBits 32 9 ++ byteBits (nameField [0x78, 0])) 16 [] 0 .noHeader = true ∧
      meets 0 (head 0x07 ++ fieldBits 32 9 ++ byteBits (nameField [0x78, 0]) ++ fieldBits 16 1) [] 0 .noHeader = true) :=
  ⟨blk_inv _ _ _ nil_ok, by decide, fun _ _ => mid_inv _ _ _ _ nil_ok, by decide +kernel⟩

/-- Words whose ghost bytes are the bytes behind the vector. -/
def wholeWords (raw : RawMem) : WordsAt := fun addr ws nbytes =>
  (List.range (ceilDiv nbytes ws)).map fun i => raw.read (addr + i * ws) ws

theorem wholeWords_of (raw : RawMem) : WordsOf raw (wholeWords raw) where
  length _ _ _ _ := by simp [wholeWords]
  lt _ _ _ _ r hr := by
    obtain ⟨i, _, rfl⟩ := List.mem_map.1 hr
    exact raw.read_lt _ _
  byte addr ws nbytes i j hj hin := by
    have hi : i < ceilDiv nbytes ws := by
      rw [ceilDiv, Nat.lt_iff_add_one_le, Nat.le_div_iff_mul_le (by omega), Nat.succ_mul]; omega
    simp only [wholeWords, List.getD_eq_getElem?_getD, List.getElem?_map, List.getElem?_range hi, Option.map_some,
      Option.getD_some]
    exact RawMem.byte_of_read hj

/-- The raw memory that holds the bytes 0xAA and 0x55. -/
def rawAA : RawMem := (withRaw [0xAA, 0x55] fresh).tx.raw
/-- The words of `rawAA`; the ghost byte of a 16-bit word at address 0 is 0x55. -/
def wordsAA : WordsAt := wholeWords rawAA
theorem wordsAA_of : WordsOf rawAA wordsAA := wholeWords_of rawAA

/-- A section of the byte 0xAA up to its CRC, at a bit position that is a multiple of 8, the padding behind its header as
given. -/
def aSection (ch : Channel) (flags : BitVec 8) (pad : List Bool) : List Bool :=
  sectionHeaderBits small flags [ch] 1 ++ pad ++ vectorsBits wordsAA (resetHistories [ch]) (sectionVectors [ch] 1)

theorem aSection_coded {ch : Channel} {flags : BitVec 8} {pad : List Bool}
    (h : PadsTo (sectionHeaderBits small flags [ch] 1).length pad) {pos : Nat} (hp : pos % 8 = 0) :
    SectionCoded small flags [ch] wordsAA 1 pos (aSection ch flags pad) := by
  have h0 : PadsTo pos [] := by rw [PadsTo, hp]; rfl
  refine ⟨sectionHeaderBits small flags [ch] 1 ++ pad, _, ⟨[], pad, h0, ?_, rfl⟩, vectorsBits_coded _ _ _, rfl⟩
  simp only [PadsTo, List.nil_append] at h ⊢
  omega

theorem pads (ch : Channel) (hc : ch = ch8 ∨ ch = ch16) (flags : BitVec 8) (h : flags = 0x10 ∨ flags = 0x50) (a b : Bool) :
    PadsTo (sectionHeaderBits small flags [ch] 1).length [a, b] := by
  rcases hc with rfl | rfl <;> rcases h with rfl | rfl <;>
    · show 2 = _
      decide +kernel

theorem ch16_layout : LayoutOk small 0x10 [ch16] :=
  ⟨by decide, by decide, by decide, by decide, fun ch h => by
    rw [List.mem_singleton.1 h]; exact ⟨⟨by decide, by decide, by decide⟩, by decide, by decide⟩⟩
theorem ch16_carries (len : Nat) (raw : RawMem) :
    ∀ v ∈ sectionVectors [ch16] len, (channelAt [ch16] v.1).Carries raw v.2.1 v.2.2 := by
  intro v hv
  have h : v.1 = 0 := by have := (sectionVectors_mem hv).1; simpa using this
  rw [h]
  exact fun h => absurd h (by decide)

/-- The section of vector T2.17 with ones as padding behind its header, with the tag 0xF and without a CRC; the same byte
on a 16-bit channel, whose one word then has the ghost byte 0x55 (F55). -/
theorem wit_SectionParsed :
    (let s := blk [1, 0, 0, 0, 0, 0xC0, 0xAA, 0x0F] [ch8] 0x10 .headerRead
     s.Inv ∧ SectionCoded small 0x10 [ch8] wordsAA 1 s.rx.bitpos (aSection ch8 0x10 [true, true]) ∧
     LayoutOk small s.rx.flags [ch8] ∧
     (∀ v ∈ sectionVectors [ch8] 1, (channelAt [ch8] v.1).Carries rawAA v.2.1 v.2.2) ∧
     s.rx.flt.fault = 0 ∧ s.rx.pstate = .headerRead ∧ 0 < 1 ∧ 1 ≤ small.maxSectionLength ∧
     s.rx.ahead small = aSection ch8 0x10 [true, true] ++ crcBits small s.rx.flags rawAA 1 ++
       fieldBits 4 (if true then 0xF else 0x8) ++ List.replicate 4 false) ∧
    (let s := blk [1, 0, 0, 0, 0, 0x08, 0xAA, 0x55, 0x0F] [] 0x10 .headerRead
     s.Inv ∧ SectionCoded small 0x10 [ch16] wordsAA 1 s.rx.bitpos (aSection ch16 0x10 [false, false]) ∧
     LayoutOk small s.rx.flags [ch16] ∧
     (∀ v ∈ sectionVectors [ch16] 1, (channelAt [ch16] v.1).Carries rawAA v.2.1 v.2.2) ∧
     s.rx.ahead small = aSection ch16 0x10 [false, false] ++ crcBits small s.rx.flags rawAA 1 ++
       fieldBits 4 (if true then 0xF else 0x8) ++ List.replicate 28 false) ∧ WordsOf rawAA wordsAA :=
  ⟨⟨blk_inv _ _ _ ch8_list_ok, aSection_coded (pads _ (.inl rfl) _ (.inl rfl) _ _) rfl, ch8_layout _ (by decide),
      coded_carries _ _, by decide +kernel⟩,
    ⟨blk_inv _ _ _ nil_ok, aSection_coded (pads _ (.inr rfl) _ (.inl rfl) _ _) rfl, ch16_layout, ch16_carries _ _,
      by decide +kernel⟩, wordsAA_of⟩

theorem wit_SectionOtherStates :
    (blk [] [] 0 .exhausted).Inv ∧ (blk [] [] 0 .exhausted).rx.flt.fault = 0 ∧ (blk [] [] 0 .exhausted).rx.pstate = .exhausted ∧
    (after .pSection (blk [] [] 0 .exhausted)).rx.port.st = 0 ∧ (after .pSection (blk [] [] 0 .exhausted)).rx.port.v = 0 ∧
    fresh.rx.pstate = .noHeader := ⟨blk_inv _ _ _ nil_ok, by decide +kernel⟩

/-- A Default channel of one byte a frame and a Run-Length channel of three. -/
def twoChans : List Channel := [ch8, { rl8 with reps := 3 }]
theorem twoChans_layout : LayoutOk small 0x00 twoChans :=
  ⟨by decide, by decide, by decide, by decide, fun ch h => by
    rcases List.mem_cons.1 h with rfl | h
    · exact ⟨ch8_ok, ch8_codable⟩
    · rw [List.mem_singleton.1 h]; exact ⟨⟨by decide, by decide, by decide⟩, by decide, by decide⟩⟩

/-- A section of one frame of `twoChans`, up to the first pair of its Run-Length vector. -/
def pairFront : List Bool :=
  sectionHeaderBits small 0x00 twoChans 4 ++ List.replicate 4 true ++
    vectorsBits wordsAA (resetHistories twoChans) [(0, 0, 1)] ++ pairsBits [(7, 2)]

/-- The refused Run-Length pairs behind the vector of the first channel and a pair for two of three words; a refused foot tag;
streams that end in front of the foot tag, inside the CRC, inside the section header. -/
theorem wit_SectionFaultFrame :
    (let s := blk [1, 0, 0, 0, 0, 0, 0xAA, 0x07] [] 0x10 .headerRead
     s.Inv ∧ exec .pSection s = .next (after .pSection s) ∧ s.rx.flt.fault = 0 ∧ (after .pSection s).rx.port.st ≠ 0) ∧
    (∀ k bits flags, (mid k bits [] flags .headerRead).Inv) ∧
    (LayoutOk small 0x00 twoChans ∧
      HeadCoded small 0x00 twoChans 4 0 (sectionHeaderBits small 0x00 twoChans 4 ++ List.replicate 4 true) ∧
      VectorsCoded wordsAA (resetHistories twoChans) [(0, 0, 1)] (vectorsBits wordsAA (resetHistories twoChans) [(0, 0, 1)]) ∧
      meetsRefused 0 pairFront [] 0x00 .headerRead ∧
      sectionVectors twoChans 4 = [(0, 0, 1)] ++ (1, 1, 3) :: [] ∧ (channelAt twoChans 1).alg = .runLength ∧
      (3 + (channelAt twoChans 1).size - 1) / (channelAt twoChans 1).size - ([(7, 2)].map Prod.snd).sum = 1) ∧
    LayoutOk small 0x10 [ch8] ∧ LayoutOk small 0x50 [ch8] ∧
    (∀ v ∈ sectionVectors [ch8] 1, (channelAt [ch8] v.1).Carries rawAA v.2.1 v.2.2) ∧
    SectionCoded small 0x10 [ch8] wordsAA 1 8 (aSection ch8 0x10 [false, true]) ∧
    SectionCoded small 0x50 [ch8] wordsAA 1 0 (aSection ch8 0x50 [false, true]) ∧
    WordsOf rawAA wordsAA ∧
    crcBits small 0x10 rawAA 1 = [] ∧
    meets 8 (aSection ch8 0x10 [false, true] ++ fieldBits 4 0x7) [] 0x10 .headerRead = true ∧
    meets 8 (aSection ch8 0x10 [false, true] ++ fieldBits 4 0x9) [] 0x10 .headerRead = true ∧
    cuts 8 (aSection ch8 0x10 [false, true]) 4 [] 0x10 .headerRead = true ∧ flagCrc 0x50 = true ∧
    cuts 0 (aSection ch8 0x50 [false, true]) 32 [] 0x50 .headerRead = true ∧
    (let s := blk [1, 0, 0, 0] [] 0x10 .headerRead
     (aSection ch8 0x10 [false, true]).drop 32 ≠ [] ∧
     aSection ch8 0x10 [false, true] = s.rx.ahead small ++ (aSection ch8 0x10 [false, true]).drop 32) := by
  have hpad : PadsTo (sectionHeaderBits small 0x00 twoChans 4).length (List.replicate 4 true) := by
    rw [PadsTo]; decide +kernel
  refine ⟨⟨blk_inv _ _ _ nil_ok, exec_after _ _, by decide +kernel⟩, fun _ _ _ => mid_inv _ _ _ _ nil_ok,
    ⟨twoChans_layout, ⟨[], _, rfl, ?_, rfl⟩, vectorsBits_coded _ _ _, meetsRefused_of (by decide +kernel), by decide +kernel⟩,
    ch8_layout _ (by decide), ch8_layout _ (by decide), coded_carries _ _, aSection_coded (pads _ (.inl rfl) _ (.inl rfl) _ _) rfl,
    aSection_coded (pads _ (.inl rfl) _ (.inr rfl) _ _) rfl, wordsAA_of, by decide +kernel⟩
  rwa [List.nil_append, Nat.zero_add]

/-- The header of a section of 64 bytes up to its channels, for a parser 5 bits into a byte. -/
def sectionFront (pad : Nat) (channels : List Bool) : List Bool :=
  List.replicate pad true ++ fieldBits small.sectSizeBits 64 ++ channels
/-- `delta`, `bit_rotation`, `algorithm_code`, `data_type_code` of a channel. -/
def chanFields (rot alg type : Nat) : List Bool :=
  fieldBits 1 1 ++ fieldBits small.nbitsBits rot ++ fieldBits small.algBits alg ++ fieldBits small.typeBits type

/-- A parser in front of each refused section header, the first channel of one or the second of two; the streams that end
inside a field end at the last bit of a word. -/
theorem wit_SectionHeaderRefused :
    (∀ k bits flags, (mid k bits [] flags .headerRead).Inv) ∧
    (let reads := fun (k : Byte) bits => meets k bits [] 0x00 .headerRead = true
     let stops := fun (k : Byte) bits n => cuts k bits n [] 0x00 .headerRead = true
     let pad := List.replicate 3 true
     let second := fieldBits 16 2 ++ chanHeaderBits small true ch8
     repsPresent 0x00 2 = true ∧ ch8.Ok ∧ ch8.Codable ∧ ch8.reps.toNat < 2 ^ small.repsBits ∧
     stops 5 pad small.sectSizeBits ∧ reads 5 (pad ++ fieldBits small.sectSizeBits 0) ∧
     reads 5 (pad ++ fieldBits small.sectSizeBits 65) ∧ reads 5 (pad ++ fieldBits small.sectSizeBits 0xFFFFFFFF) ∧
     stops 24 (sectionFront 0 []) small.numChanBits ∧ reads 5 (sectionFront 3 (fieldBits small.numChanBits 0)) ∧
     reads 5 (sectionFront 3 (fieldBits small.numChanBits 3)) ∧
     stops 0 (sectionFront 0 second) small.repsBits ∧
     stops 0 (sectionFront 0 (second ++ fieldBits 32 7 ++ fieldBits 1 1)) small.nbitsBits ∧
     stops 24 (sectionFront 0 (second ++ fieldBits 32 7 ++ fieldBits 1 1 ++ fieldBits 5 0 ++ fieldBits 4 0)) small.typeBits ∧
     reads 5 (sectionFront 3 (second ++ fieldBits 32 0 ++ chanFields 0 0 0)) ∧
     reads 5 (sectionFront 3 (second ++ fieldBits 32 7 ++ chanFields 0 0 6))) ∧
    (let reads := fun (k : Byte) bits => meets k bits [] 0x10 .headerRead = true
     let stops := fun (k : Byte) bits n => cuts k bits n [] 0x10 .headerRead = true
     repsPresent 0x10 1 = false ∧
     stops 31 (sectionFront 1 []) 1 ∧ stops 24 (sectionFront 0 (fieldBits 1 1 ++ fieldBits 5 0)) small.algBits ∧
     reads 5 (sectionFront 3 (chanFields 0 0 7)) ∧ reads 5 (sectionFront 3 (chanFields 0 0 8)) ∧
     reads 5 (sectionFront 3 (chanFields 0 4 0)) ∧ reads 5 (sectionFront 3 (chanFields 8 3 0)) ∧
     stops 13 (sectionFront 3 (chanFields 7 1 0)) 8 ∧ stops 13 (sectionFront 3 (chanFields 7 3 0)) 8 ∧
     stops 5 (sectionFront 3 (chanFields 7 1 0 ++ fieldBits 8 255)) 5 ∧
     reads 5 (sectionFront 3 (chanFields 7 1 0 ++ fieldBits 8 255 ++ fieldBits small.nbitsBits 8))) :=
  ⟨fun _ _ _ => mid_inv _ _ _ _ nil_ok, ⟨by decide, ch8_ok, ch8_codable, by decide, by decide +kernel⟩, by decide +kernel⟩

/-- `CTRL.IGNORE_CRC` set. -/
def ignoring (s : State) : State := { s with rx := { s.rx with ignoreCrc := true } }
theorem ignoring_inv {s : State} (h : s.Inv) : (ignoring s).Inv :=
  ⟨h.cfg, h.tx, ⟨fun hf =>
    let r := h.rx.reader hf
    ⟨r.length, r.count, r.empty, r.ptr, r.off, r.emptyOff, r.fits, r.whole, r.bitpos, r.srcpos⟩, h.rx.chans, h.rx.length,
    h.rx.srcpos, h.rx.counted, h.rx.flt, h.rx.name, h.rx.raw⟩⟩

/-- The CRC of the byte 0xAA is 0xE401A57B (vector K2), the stored word differs from it in one bit; the tag behind it is the
LAST tag (program PR5), or NOT_LAST. -/
theorem wit_CrcChecked :
    (∀ tag : Byte, (blk [1, 0, 0, 0, 0, 0x80, 0xAA, 0x7A, 0xA5, 0x01, 0xE4, tag] [ch8] 0x50 .headerRead).Inv ∧
      (ignoring (blk [1, 0, 0, 0, 0, 0x80, 0xAA, 0x7A, 0xA5, 0x01, 0xE4, tag] [ch8] 0x50 .headerRead)).Inv) ∧
    LayoutOk small 0x50 [ch8] ∧ (∀ v ∈ sectionVectors [ch8] 1, (channelAt [ch8] v.1).Carries rawAA v.2.1 v.2.2) ∧
    SectionCoded small 0x50 [ch8] wordsAA 1 0 (aSection ch8 0x50 [false, true]) ∧ WordsOf rawAA wordsAA ∧
    (0xE401A57A : U32) ≠ crc32 small (rawAA.bytes 0 1) ∧ flagCrc 0x50 = true ∧
    ∀ last : Bool, let s := blk [1, 0, 0, 0, 0, 0x80, 0xAA, 0x7A, 0xA5, 0x01, 0xE4, if last then 0x0F else 0x08] [ch8] 0x50 .headerRead
      s.rx.flt.fault = 0 ∧ s.rx.pstate = .headerRead ∧ s.rx.bitpos = 0 ∧ s.rx.ignoreCrc = false ∧
      (ignoring s).rx.ignoreCrc = true ∧ (ignoring s).rx.ahead small = s.rx.ahead small ∧
      s.rx.ahead small = aSection ch8 0x50 [false, true] ++ (fieldBits 32 (0xE401A57A : U32).toNat ++
        (fieldBits 4 (if last then 0xF else 0x8) ++ List.replicate 4 false)) :=
  ⟨fun _ => ⟨blk_inv _ _ _ ch8_list_ok, ignoring_inv (blk_inv _ _ _ ch8_list_ok)⟩, ch8_layout _ (by decide),
    coded_carries _ _, aSection_coded (pads _ (.inl rfl) _ (.inr rfl) _ _) rfl, wordsAA_of, by decide +kernel⟩

theorem fresh_tx : coded.tx.Fresh := ⟨coded_ready, by decide, by decide, by decide, by decide⟩
theorem fresh_rx (bytes : List Byte) :
    (blk bytes [] 0 .noHeader).rx.Inv small ∧ (blk bytes [] 0 .noHeader).rx.Fresh bytes :=
  ⟨(blk_inv bytes 0 .noHeader nil_ok).rx, ⟨rfl, rfl, rfl, rfl, rfl, rfl, rfl, rfl⟩⟩

theorem wit_OneSectionRoundTrip :
    coded.Inv ∧ coded.tx.Fresh ∧ SectionOk coded.cfg (64 : Word).toNat coded.tx ∧
    (∀ v ∈ sectionVectors coded.tx.chans (64 : Word).toNat, (channelAt coded.tx.chans v.1).Carries coded.tx.raw v.2.1 v.2.2) ∧
    (blk [0x53, 0x4C] [] 0 .noHeader).rx.Inv small ∧ (blk [0x53, 0x4C] [] 0 .noHeader).rx.Fresh [0x53, 0x4C] :=
  ⟨coded_inv, fresh_tx, ch8_sectionOk _ (by decide) (by decide), coded_carries _ _, (fresh_rx _).1, (fresh_rx _).2⟩

theorem wit_FileRoundTrip :
    let u := after (.gSection 1) (after (.eHreset 0) coded)
    coded.Inv ∧ coded.tx.Fresh ∧ coded.Writes [(1, (after (.eHreset 0) coded).tx.raw)] u ∧
    exec .gFinal u = .next (after .gFinal u) ∧
    (blk (after .gFinal u).tx.sink [] 0 .noHeader).rx.Inv small ∧
    (blk (after .gFinal u).tx.sink [] 0 .noHeader).rx.Fresh (after .gFinal u).tx.sink := by
  refine ⟨coded_inv, fresh_tx, ?_, exec_after _ _, (fresh_rx _).1, (fresh_rx _).2⟩
  have h1 : coded.Writes [] (after (.eHreset 0) coded) :=
    .between (.eHreset 0) .start rfl (exec_after _ _) (by decide +kernel)
  exact .written 1 h1 (fun v hv => coded_carries 1 _ v hv) (exec_after _ _) (by decide +kernel)

end Sys2Proof.Tests
end

section
/-! PROOFS. `R.WINDUP` (41_bitstream_reader.md R165, R169): it stays inside the buffered word, so the source is not asked,
and it stops at a byte boundary, where a second one finds nothing to skip. -/

namespace Sys2Proof.Machine

variable {K : Config}

/-- `NextWordR()` leaves the source alone (R163). -/
theorem Rx.nextWord_sourceKept (r : Rx) : r.SourceKept r.nextWord := by
  unfold Rx.nextWord
  split
  · exact ⟨rfl, rfl, rfl⟩
  · exact ⟨rfl, rfl, rfl⟩

/-- `GetWindup()` never fills (R165). -/
theorem Rx.windup_sourceKept (r : Rx) : r.SourceKept (r.windup K) := by
  unfold Rx.windup
  dsimp only
  split
  case isTrue => exact ⟨rfl, rfl, rfl⟩
  case isFalse =>
    split
    case isTrue => exact Rx.nextWord_sourceKept _
    case isFalse => exact ⟨rfl, rfl, rfl⟩

/-- On a byte boundary of the buffered word `GetWindup()` skips nothing (R165). -/
theorem Rx.windup_of_aligned {r : Rx} (h : r.roff % 8 = 0) : r.windup K = r := if_pos (by omega)

theorem Rx.Consumed.flt_eq {r r' : Rx} {bits : List Bool} (h : r.Consumed K r' bits) : r'.flt = r.flt := by
  have := congrArg Rx.flt h.frame; simpa using this

/-- `R.WINDUP` on an engine that is not Faulted completes with 0 (R169, R348). -/
theorem exec_rWindup {s : State} (h : s.rx.flt.fault = 0) :
    exec .rWindup s = .next { s with rx := (s.rx.windup s.cfg).respond 0 } := by
  show execRWindup s = _
  rw [execRWindup, onRx_next, Rx.simpleCommand_ok h rfl]

/-- On a byte boundary `R.WINDUP` only answers (R169). -/
theorem exec_rWindup_of_aligned {s : State} (h : s.rx.flt.fault = 0) (ha : s.rx.roff % 8 = 0) :
    exec .rWindup s = .next { s with rx := s.rx.respond 0 } := by
  rw [exec_rWindup h, Rx.windup_of_aligned ha]

/-- Settles O34: `Rx.windup_consumed` says what is skipped; the boundary it ends on makes the second `R.WINDUP` the case
of `exec_rWindup_of_aligned`. -/
theorem rWindup : Obligations.RWindup := by
  intro s hinv hf
  have hr : s.rx.ReaderInv s.cfg := hinv.rx.reader hf
  obtain ⟨bits, hlen, hc⟩ := Rx.windup_consumed hinv.cfg hr
  obtain ⟨hpulled, hsrcpos, heof⟩ := Rx.windup_sourceKept (K := s.cfg) s.rx
  have hskip : bits.length = (8 - s.rx.bitpos % 8) % 8 := by rw [hlen, padBits, List.length_replicate]
  have hbyte : (s.rx.windup s.cfg).bitpos % 8 = 0 := by rw [hc.bitpos_eq, hskip]; omega
  have hoff : (s.rx.windup s.cfg).roff % 8 = 0 := by rw [← Rx.bitpos_mod hinv.cfg hc.inv, hbyte]
  have hfault : (s.rx.windup s.cfg).flt.fault = 0 := by rw [hc.flt_eq, hf]
  exact ⟨_, bits, exec_rWindup hf, hc, hskip, hbyte, hpulled, hsrcpos, heof, exec_rWindup_of_aligned hfault hoff⟩

end Sys2Proof.Machine
end

section
/-! PROOFS. `E.HRESET` and `D.HRESET` (43_codec_encode.md R213, 44_codec_decode.md R228): both engines make the one check
that the channel is registered and then write the one field `PREV`. -/

namespace Sys2Proof.Machine

/-! ## The check and the update that the two commands share -/

theorem registeredCheck_of_lt {chans : List Channel} {c : Nat} (h : c < chans.length) : registeredCheck chans c = none :=
  refuseIf_neg (Nat.not_le.2 h) _

theorem registeredCheck_of_le {chans : List Channel} {c : Nat} (h : chans.length ≤ c) :
    registeredCheck chans c = some ⟨.badOperand, c, chans.length⟩ := refuseIf_pos h _

/-- An update of one channel writes what it makes of that channel's context (R40). -/
theorem modify_eq_set_channelAt (chans : List Channel) (c : Nat) (f : Channel → Channel) :
    chans.modify c f = chans.set c (f (channelAt chans c)) := by
  rw [List.modify_eq_set, channelAt, List.getD_eq_getElem?_getD]

/-! ## TX commands by what their body answers -/

theorem Tx.streamCommand_ok {t t' : Tx} {v : Nat} (h : t.Ready) {cw : U32} {body : Tx → Except Raise (Nat × Tx)}
    (hb : body t = .ok (v, t')) : t.streamCommand cw body = t'.respond v := by
  rw [Tx.streamCommand_ready h, hb]; rfl

theorem Tx.streamCommand_error {t : Tx} {e : Raise} (h : t.Ready) {cw : U32} {body : Tx → Except Raise (Nat × Tx)}
    (hb : body t = .error e) : t.streamCommand cw body = t.raise e := by
  rw [Tx.streamCommand_ready h, hb]; rfl

/-! ## `E.HRESET` -/

theorem exec_eHreset_registered {s : State} {c : BitVec 16} (h : s.tx.Ready) (hc : c.toNat < s.tx.chans.length) :
    exec (.eHreset c) s = .next { s with
      tx := { s.tx with
        chans := s.tx.chans.set c.toNat { channelAt s.tx.chans c.toNat with prev := 0 } }.respond 0 } := by
  show execEHreset c s = _
  rw [execEHreset, onTx_next, Tx.streamCommand_ok h (by rw [registeredCheck_of_lt hc, afterCheck_none]),
    modify_eq_set_channelAt]

theorem exec_eHreset_unregistered {s : State} {c : BitVec 16} (h : s.tx.Ready) (hc : s.tx.chans.length ≤ c.toNat) :
    exec (.eHreset c) s = .next { s with tx := s.tx.raise ⟨.badOperand, c.toNat, s.tx.chans.length⟩ } := by
  show execEHreset c s = _
  rw [execEHreset, onTx_next, Tx.streamCommand_error h (by rw [registeredCheck_of_le hc, afterCheck_some])]

/-! ## `D.HRESET` -/

theorem exec_dHreset_registered {s : State} {c : BitVec 16} (h : s.rx.flt.fault = 0)
    (hc : c.toNat < s.rx.chans.length) :
    exec (.dHreset c) s = .next { s with
      rx := { s.rx with
        chans := s.rx.chans.set c.toNat { channelAt s.rx.chans c.toNat with prev := 0 } }.respond 0 } := by
  show execDHreset c s = _
  rw [execDHreset, onRx_next, Rx.simpleCommand_ok h (by rw [registeredCheck_of_lt hc, afterCheck_none]),
    modify_eq_set_channelAt]

theorem exec_dHreset_unregistered {s : State} {c : BitVec 16} (h : s.rx.flt.fault = 0)
    (hc : s.rx.chans.length ≤ c.toNat) :
    exec (.dHreset c) s = .next { s with rx := s.rx.raise ⟨.badOperand, c.toNat, s.rx.chans.length⟩ } := by
  show execDHreset c s = _
  rw [execDHreset, onRx_next, Rx.simpleCommand_error h (by rw [registeredCheck_of_le hc, afterCheck_some])]

/-- Settles O42: on each engine the channel number is either registered, and the update is a write of the channel's
context with `PREV` 0, or the only check refuses it. -/
theorem historyReset : Obligations.HistoryReset := by
  intro s c
  exact ⟨fun htx => ⟨exec_eHreset_registered htx, exec_eHreset_unregistered htx⟩,
    fun hrx => ⟨exec_dHreset_registered hrx, exec_dHreset_unregistered hrx⟩⟩

end Sys2Proof.Machine
end

section
/-! PROOFS. `D.WORD` and `D.VEC` that end in a fault (44_codec_decode.md R230): a refused one has done nothing, one that
faults past its checks has touched the reader and lost the cursor, `PREV` of its channel and its range of `RAWRX`. -/

namespace Sys2Proof.Machine

variable {K : Config} {α β : Type}

/-! ## What the two commands do with a fault -/

/-- An RX command that answers a fault was refused by its checks or faulted in its work (R345). -/
theorem Rx.command_faults {r : Rx} (h : r.flt.fault = 0) {check : Rx → Option Raise} {work : RxM Nat}
    {onFault : Raise → Rx → Rx} (hst : (r.command check work onFault).port.st ≠ 0) :
    (∃ e, r.command check work onFault = r.raise e) ∨
    ∃ e r1, work r = .error e r1 ∧ r.command check work onFault = onFault e r1 := by
  rcases Rx.command_cases r check work onFault with ⟨hf, -⟩ | ⟨-, e, -, he⟩ | ⟨-, -, v, r1, -, hv⟩ | ⟨-, -, e, r1, hw, he⟩
  · exact absurd h hf
  · exact .inl ⟨e, he⟩
  · exact absurd (by rw [hv]; rfl) hst
  · exact .inr ⟨e, r1, hw, he⟩

/-- Where the second of two stages cannot fault, a fault is the first one's. -/
theorem RxM.error_of_bind {x : RxM α} {f : α → RxM β} (hf : ∀ a q, ∃ b q', f a q = .ok b q') {r r' : Rx} {e : Raise}
    (h : (x >>= f) r = .error e r') : x r = .error e r' := by
  simp only [Bind.bind, EStateM.bind] at h
  cases hx : x r with
  | ok a q =>
    obtain ⟨b, q', hb⟩ := hf a q
    simp [hx, hb] at h
  | error e' q => rw [hx] at h; simpa using h

/-! ## The frame of R230 -/

theorem modify_eq_self_of_le {chans : List Channel} {c : Nat} (h : chans.length ≤ c) (f : Channel → Channel) :
    chans.modify c f = chans := by
  rw [modify_eq_set_channelAt, List.set_eq_of_length_le h]

/-- Writing its own `PREV` back leaves a channel as it is. -/
theorem modify_own_prev (chans : List Channel) (c : Nat) :
    (chans.modify c fun ch => { ch with prev := (channelAt chans c).prev }) = chans := by
  rcases Nat.lt_or_ge c chans.length with h | h
  · rw [modify_eq_set_channelAt, channelAt_eq h]
    exact List.set_getElem_self h
  · exact modify_eq_self_of_le h _

/-- A new `PREV` of a channel is the one its context then shows. -/
theorem modify_shown_prev {chans chans' : List Channel} {c : Nat} {v : U32}
    (h : chans' = chans.modify c fun ch => { ch with prev := v }) :
    chans' = chans.modify c fun ch => { ch with prev := (channelAt chans' c).prev } := by
  subst h
  rcases Nat.lt_or_ge c chans.length with hc | hc
  · simp only [modify_eq_set_channelAt, channelAt_set_self hc]
  · simp only [modify_eq_self_of_le hc]

/-- `r` with everything of `r'` that R230 lets a decode fault on channel `c` change. -/
def Rx.decodeFrame (c : Nat) (r r' : Rx) : Rx :=
  { r with
    rbuf := r'.rbuf, rcount := r'.rcount, rptr := r'.rptr, roff := r'.roff, srcEof := r'.srcEof,
    pulled := r'.pulled, bitpos := r'.bitpos, srcpos := r'.srcpos, freeTick := r'.freeTick,
    port := r'.port, flt := r'.flt,
    chans := r.chans.modify c fun ch => { ch with prev := (channelAt r'.chans c).prev },
    raw := r'.raw }

theorem Rx.raise_decodeFrame (r : Rx) (e : Raise) (c : Nat) : r.raise e = r.decodeFrame c (r.raise e) := by
  rw [Rx.decodeFrame, Rx.raise_chans, modify_own_prev]; rfl

theorem Rx.Touched.forgetDecode_frame {r r1 : Rx} (h : r.Touched K r1) (c lo len : Nat) (e : Raise) :
    (r1.forgetDecode K c lo len).raise e = r.decodeFrame c ((r1.forgetDecode K c lo len).raise e) := by
  have hlost : (r1.forgetDecode K c lo len).chans = forgetPrev r1.freeTick c r.chans := by
    rw [Rx.forgetDecode_chans, h.chans_eq]
  rw [Rx.decodeFrame, Rx.raise_chans, ← modify_shown_prev hlost, h.frame]
  rfl

/-- A decode command whose work only reads before it faults keeps to the frame of R230. -/
theorem Rx.decodeFault_frame {r : Rx} (hf : r.flt.fault = 0) {check : Rx → Option Raise} {work : RxM Nat} {c lo len : Nat}
    (hw : ∀ e r1, work r = .error e r1 → r.Touched K r1) {r' : Rx}
    (hr' : r' = r.command check work fun e r => (r.forgetDecode K c lo len).raise e) (hst : r'.port.st ≠ 0) :
    r' = r.decodeFrame c r' ∧ ∀ a, a < lo ∨ lo + len ≤ a → r'.raw.readByte a = r.raw.readByte a := by
  rw [hr'] at hst
  rcases Rx.command_faults hf hst with ⟨e, he⟩ | ⟨e, r1, herr, he⟩ <;> rw [← hr'] at he <;> subst he
  · exact ⟨r.raise_decodeFrame e c, fun _ _ => rfl⟩
  · have ht := hw e r1 herr
    refine ⟨ht.forgetDecode_frame c lo len e, fun a ha => ?_⟩
    have hclip : clipLen K lo len ≤ len := Nat.min_le_left ..
    rw [Rx.raise_raw, Rx.forgetDecode_raw, ← ht.raw_eq]
    exact RawMem.readByte_forget_outside _ _ (by omega)

/-! ## The work of the two commands -/

theorem decWords_error_touched (hK : K.Legal) {c m : Nat} {r r1 : Rx} {e : Raise}
    (h : decWords K c m r = .error e r1) : r.Touched K r1 := by
  have := decWords_ends hK c m r; rwa [h] at this

theorem decVec_error_touched (hK : K.Legal) {c addr n : Nat} {r r1 : Rx} {e : Raise}
    (h : decVec K c addr n r = .error e r1) : r.Touched K r1 := by
  have := decVec_ends hK c addr n r; rwa [h] at this

theorem exec_dWord_fault_frame {s s' : State} {c : BitVec 16} (hK : s.cfg.Legal) (hf : s.rx.flt.fault = 0)
    (hx : exec (.dWord c) s = .next s') (hst : s'.rx.port.st ≠ 0) :
    s'.tx = s.tx ∧ s'.rx = s.rx.decodeFrame c.toNat s'.rx ∧ ∀ a, s'.rx.raw.readByte a = s.rx.raw.readByte a := by
  change execDWord c s = _ at hx
  rw [execDWord, onRx_next] at hx
  cases hx
  obtain ⟨hframe, hraw⟩ := Rx.decodeFault_frame (K := s.cfg) hf
    (fun _ _ herr => decWords_error_touched hK (RxM.error_of_bind (fun _ _ => ⟨_, _, rfl⟩) herr)) rfl hst
  exact ⟨rfl, hframe, fun a => hraw a (.inr (Nat.zero_le a))⟩

theorem exec_dVec_fault_frame {s s' : State} {c : BitVec 16} {addr : U32} {nbytes : Word} (hK : s.cfg.Legal)
    (hf : s.rx.flt.fault = 0) (hx : exec (.dVec c addr nbytes) s = .next s') (hst : s'.rx.port.st ≠ 0) :
    s'.tx = s.tx ∧ s'.rx = s.rx.decodeFrame c.toNat s'.rx ∧
      ∀ a, a < addr.toNat ∨ addr.toNat + nbytes.toNat + s.cfg.maxGhostBytes ≤ a →
        s'.rx.raw.readByte a = s.rx.raw.readByte a := by
  change execDVec c addr nbytes s = _ at hx
  rw [execDVec, onRx_next] at hx
  cases hx
  obtain ⟨hframe, hraw⟩ := Rx.decodeFault_frame (K := s.cfg) hf
    (fun _ _ herr => decVec_error_touched hK (RxM.error_of_bind (fun _ _ => ⟨_, _, rfl⟩) herr)) rfl hst
  exact ⟨rfl, hframe, fun a ha => hraw a (by omega)⟩

/-- Settles O44: each of the two commands by its own frame, `D.WORD` with an empty range. -/
theorem decodeFaultFrame : Obligations.DecodeFaultFrame := by
  intro s s' c addr nbytes hinv hf
  exact ⟨exec_dWord_fault_frame hinv.cfg hf, exec_dVec_fault_frame hinv.cfg hf⟩

end Sys2Proof.Machine
end

section
/-! PROOFS. The round trip of the codec commands (44_codec_decode.md R229): what the TX command appends is a code of the
channel's words, an RX channel with the same active fields takes exactly that code back, and the histories of both go
forward alike; a Constant channel brings its own word back, whatever was coded. -/

namespace Sys2Proof.Machine

variable {K : Config}

/-! ## `REPS` plays no part in coding -/

theorem stageOut_withReps (ch : Channel) (n : U32) (rs : List Nat) :
    stageOut { ch with reps := n } rs = ((stageOut ch rs).1, { (stageOut ch rs).2 with reps := n }) := by
  simp only [stageOut]
  split <;> rfl

theorem vectorBits_withReps (ch : Channel) (n : U32) (rs : List Nat) :
    vectorBits { ch with reps := n } rs = vectorBits ch rs := by
  rw [vectorBits, stageOut_withReps]; rfl

theorem chanAfter_withReps (ch : Channel) (n : U32) (rs : List Nat) :
    chanAfter { ch with reps := n } rs = { chanAfter ch rs with reps := n } := by
  simp only [chanAfter, stageOut_withReps]
  split <;> rfl

/-! ## Two channels that code alike, whatever their `REPS` -/

/-- `y` takes back what `x` codes: the premise of R229, which asks for the same `TYPE`, active fields and history. -/
def Channel.CodesAs (x y : Channel) : Prop := ({ x with reps := y.reps } : Channel).Alike y

theorem Channel.CodesAs.size {x y : Channel} (h : x.CodesAs y) : y.size = x.size := congrArg DType.size h.dtype

theorem Channel.CodesAs.width {x y : Channel} (h : x.CodesAs y) : y.width = x.width := congrArg DType.width h.dtype

theorem Channel.CodesAs.coded {x y : Channel} (h : x.CodesAs y) (rs : List Nat) : VectorCoded y rs (vectorBits x rs) := by
  rw [Channel.Alike.vectorCoded h, ← vectorBits_withReps x y.reps]
  exact vectorBits_coded _ rs

theorem Channel.CodesAs.prev_after {x y : Channel} (h : x.CodesAs y) (rs : List Nat) :
    (chanAfter y rs).prev = (chanAfter x rs).prev := by
  have := (Channel.Alike.chanAfter h rs).prev
  rwa [chanAfter_withReps x] at this

theorem Channel.CodesAs.decoded {x y : Channel} (h : x.CodesAs y) (rs : List Nat) : decoded y rs = decoded x rs := by
  have halg : y.alg = x.alg := h.alg
  rw [Machine.decoded, Machine.decoded, halg]
  by_cases ha : x.alg = .constant
  · have hword : constantWord y = constantWord x :=
      Channel.Alike.constantWord (x := { x with reps := y.reps }) h ha
    rw [hword]
  · rw [if_neg ha, if_neg ha]

/-! ## What comes back -/

/-- A vector of one word throughout stores that word's bytes over and over (R193, R225). -/
theorem readByte_writeWords_replicate {m : RawMem} (hm : m.Wf) {addr ws nbytes j : Nat} (hws : 0 < ws) (hj : j < nbytes)
    (v : Nat) :
    (writeWords m addr ws nbytes (List.replicate (ceilDiv nbytes ws) v)).readByte (addr + j) =
      BitVec.ofNat 8 (v >>> (8 * (j % ws))) := by
  have hsplit : j / ws * ws + j % ws = j := by rw [Nat.mul_comm]; exact Nat.div_add_mod j ws
  have hword : j / ws < ceilDiv nbytes ws := by
    rw [ceilDiv, Nat.lt_iff_add_one_le, Nat.le_div_iff_mul_le hws, Nat.succ_mul]
    omega
  have hbyte := readByte_writeWords_inside (addr := addr) hm (List.length_replicate (n := ceilDiv nbytes ws) (a := v))
    (Nat.mod_lt j hws) (show j / ws * ws + j % ws < nbytes by omega)
  rwa [Nat.add_assoc, hsplit, List.getD_replicate _ hword] at hbyte

/-- Every byte of a vector comes back iff the channel carries it: always, but for Constant (R229). -/
theorem decoded_bytes_iff_carries {src m : RawMem} (hm : m.Wf) (ch : Channel) (a b n : Nat) :
    (∀ j < n, (writeWords m b ch.size n (decoded ch (readWords src a ch.size n))).readByte (b + j) = src.readByte (a + j)) ↔
      ch.Carries src a n := by
  by_cases hc : ch.alg = .constant
  · have hback : ∀ j < n, (writeWords m b ch.size n (decoded ch (readWords src a ch.size n))).readByte (b + j) =
        BitVec.ofNat 8 (constantWord ch >>> (8 * (j % ch.size))) := fun j hj => by
      rw [decoded, if_pos hc, readWords_length _ _ _ ch.size_pos]
      exact readByte_writeWords_replicate hm ch.size_pos hj _
    exact ⟨fun h _ j hj => by rw [← h j hj, hback j hj], fun h j hj => by rw [hback j hj, h hc j hj]⟩
  · refine ⟨fun _ h => absurd h hc, fun _ j hj => ?_⟩
    rw [decoded, if_neg hc]
    exact (readWords_of src).readByte_writeWords hm ch.size_pos hj

/-- The word comes back iff the channel is not Constant or its word is the one coded (R229). -/
theorem decoded_word_iff (ch : Channel) (r : Nat) :
    (decoded ch [r]).getD 0 0 = r ↔ (ch.alg = .constant → constantWord ch = r) := by
  by_cases hc : ch.alg = .constant <;> simp [decoded, hc]

theorem decoded_word_lt {ch : Channel} {r : Nat} (hr : r < 2 ^ ch.width) : (decoded ch [r]).getD 0 0 < 2 ^ 64 := by
  have hlt : (decoded ch [r]).getD 0 0 < 2 ^ ch.width := by
    by_cases hc : ch.alg = .constant
    · simpa [decoded, hc] using constantWord_lt (ch := ch)
    · simpa [decoded, hc] using hr
  exact Nat.lt_of_lt_of_le hlt (Nat.pow_le_pow_right (by omega) (by have := ch.width_le; omega))

/-! ## The encode commands -/

theorem exec_eVec_appended {s : State} {c : BitVec 16} {a : U32} {n : Word} (hinv : s.Inv) (hready : s.tx.Ready)
    (hc : ChanOk s.tx.chans c.toNat) (hfits : n.toNat < 2 ^ s.cfg.wordBits) (h0 : n.toNat ≠ 0)
    (hrange : a.toNat + n.toNat ≤ s.cfg.rawBytes) :
    let ch := channelAt s.tx.chans c.toNat
    let rs := readWords s.tx.raw a.toNat ch.size n.toNat
    ∃ t', exec (.eVec c a n) s = .next { s with tx := t'.respond n.toNat } ∧
      ({ s.tx with chans := s.tx.chans.set c.toNat (chanAfter ch rs) } : Tx).Appended s.cfg t' (vectorBits ch rs) := by
  have hcheck : vecCheck s.cfg (cwC 0x22 c) s.tx.chans c.toNat a.toNat n.toNat = none :=
    vecCheck_eq_none.2 ⟨chanCheck_eq_none.2 ⟨hc.registered, hc.codable, hc.permit⟩, h0, hrange⟩
  refine ⟨_, ?_, Tx.encVec_appended hinv.cfg hinv.tx.writer hc.registered
    (hinv.tx.chans.2 _ (channelAt_mem hc.registered)) hfits⟩
  show execEVec c a n s = _
  rw [execEVec, onTx_next, Tx.streamCommand_ok hready (by rw [hcheck, afterCheck_none])]

theorem exec_eWord_appended {s : State} {c : BitVec 16} (v : Word) (hinv : s.Inv) (hready : s.tx.Ready)
    (hc : ChanOk s.tx.chans c.toNat) :
    let ch := channelAt s.tx.chans c.toNat
    let rs := [v.toNat % 2 ^ ch.width]
    ∃ t', exec (.eWord c v) s = .next { s with tx := t'.respond 0 } ∧
      ({ s.tx with chans := s.tx.chans.set c.toNat (chanAfter ch rs) } : Tx).Appended s.cfg t' (vectorBits ch rs) := by
  have hcheck : chanCheck (cwC 0x21 c) s.tx.chans c.toNat = none :=
    chanCheck_eq_none.2 ⟨hc.registered, hc.codable, hc.permit⟩
  refine ⟨_, ?_, Tx.encWords_appended hinv.cfg hinv.tx.writer hc.registered
    (hinv.tx.chans.2 _ (channelAt_mem hc.registered)) (by simp [Nat.mod_lt]) (Nat.one_lt_two_pow hinv.cfg.wordBits_pos.ne')⟩
  show execEWord c v s = _
  rw [execEWord, onTx_next, Tx.streamCommand_ok hready (by rw [hcheck, afterCheck_none])]

/-! ## The decode commands -/

theorem exec_dVec_consumed {s : State} {c : BitVec 16} {b : U32} {n : Word} (hK : s.cfg.Legal) (hr : s.rx.Inv s.cfg)
    (hf : s.rx.flt.fault = 0) (hc : ChanOk s.rx.chans c.toNat) (hfits : n.toNat < 2 ^ s.cfg.wordBits) (h0 : n.toNat ≠ 0)
    (hrange : b.toNat + n.toNat ≤ s.cfg.rawBytes) {rs : List Nat} {bits rest : List Bool}
    (hlt : ∀ x ∈ rs, x < 2 ^ (channelAt s.rx.chans c.toNat).width)
    (hlen : rs.length = ceilDiv n.toNat (channelAt s.rx.chans c.toNat).size)
    (hcoded : VectorCoded (channelAt s.rx.chans c.toNat) rs bits) (ha : s.rx.ahead s.cfg = bits ++ rest) :
    let ch := channelAt s.rx.chans c.toNat
    ∃ r', exec (.dVec c b n) s =
        .next { s with rx := (r'.forgetGhost s.cfg (b.toNat + n.toNat)).respond n.toNat } ∧
      ({ s.rx with
          chans := s.rx.chans.set c.toNat (chanAfter ch rs)
          raw := writeWords s.rx.raw b.toNat ch.size n.toNat (decoded ch rs) } : Rx).Consumed s.cfg r' bits ∧
      r'.ahead s.cfg = rest := by
  have hcheck : vecCheck s.cfg (cwC 0xA2 c) s.rx.chans c.toNat b.toNat n.toNat = none :=
    vecCheck_eq_none.2 ⟨chanCheck_eq_none.2 ⟨hc.registered, hc.codable, hc.permit⟩, h0, hrange⟩
  obtain ⟨r', hx, hcons, hrest⟩ := decVec_reads (addr := b.toNat) hK (hr.reader hf) hc.registered
    ((hr.chans hf).2 _ (channelAt_mem hc.registered)) hc.codable hlt hlen hfits hcoded ha
  refine ⟨r', ?_, hcons, hrest⟩
  show execDVec c b n s = _
  rw [execDVec, onRx_next, Rx.command_ok hf hcheck]
  simp only [bind, EStateM.bind, hx]
  rfl

theorem exec_dWord_consumed {s : State} {c : BitVec 16} (hK : s.cfg.Legal) (hr : s.rx.Inv s.cfg)
    (hf : s.rx.flt.fault = 0) (hc : ChanOk s.rx.chans c.toNat) {r : Nat} {bits rest : List Bool}
    (hlt : r < 2 ^ (channelAt s.rx.chans c.toNat).width)
    (hcoded : VectorCoded (channelAt s.rx.chans c.toNat) [r] bits) (ha : s.rx.ahead s.cfg = bits ++ rest) :
    let ch := channelAt s.rx.chans c.toNat
    ∃ r', exec (.dWord c) s = .next { s with rx := r'.respond ((decoded ch [r]).getD 0 0) } ∧
      ({ s.rx with chans := s.rx.chans.set c.toNat (chanAfter ch [r]) } : Rx).Consumed s.cfg r' bits ∧
      r'.ahead s.cfg = rest := by
  have hcheck : chanCheck (cwC 0xA1 c) s.rx.chans c.toNat = none :=
    chanCheck_eq_none.2 ⟨hc.registered, hc.codable, hc.permit⟩
  obtain ⟨r', hx, hcons, hrest⟩ := decWords_reads hK (hr.reader hf) hc.registered
    ((hr.chans hf).2 _ (channelAt_mem hc.registered)) hc.codable (rs := [r]) (by simpa using hlt)
    (Nat.one_lt_two_pow hK.wordBits_pos.ne') hcoded ha
  rw [List.length_singleton] at hx
  refine ⟨r', ?_, hcons, hrest⟩
  show execDWord c s = _
  rw [execDWord, onRx_next, Rx.command_ok hf hcheck]
  simp only [bind, EStateM.bind, hx]
  rfl

/-! ## The round trip -/

/-- Both engines take codec commands on channel `c`, and RX's channel takes back what TX's codes: the premises of R229. -/
structure State.CodecPair (s : State) (c : Nat) : Prop where
  inv : s.Inv
  ready : s.tx.Ready
  live : s.rx.flt.fault = 0
  txChan : ChanOk s.tx.chans c
  rxChan : ChanOk s.rx.chans c
  codesAs : (channelAt s.tx.chans c).CodesAs (channelAt s.rx.chans c)

section RoundTrip

variable {s : State} {c : BitVec 16} {bits rest : List Bool}

/-- The histories are equal again once both sides have coded the same words (R229). -/
theorem State.CodecPair.prev_eq (h : s.CodecPair c.toNat) (rs : List Nat) {t' : Tx} {r' : Rx}
    (ht : t'.chans = s.tx.chans.set c.toNat (chanAfter (channelAt s.tx.chans c.toNat) rs))
    (hr : r'.chans = s.rx.chans.set c.toNat (chanAfter (channelAt s.rx.chans c.toNat) rs)) :
    (channelAt r'.chans c.toNat).prev = (channelAt t'.chans c.toNat).prev := by
  rw [ht, hr, channelAt_set_self h.rxChan.registered, channelAt_set_self h.txChan.registered, h.codesAs.prev_after]

/-- The bits a codec command appended, where the stream is known before and after (R151). -/
theorem Tx.Appended.bits_eq {t t' : Tx} {b1 b2 : List Bool} {cs : List Channel}
    (h : ({ t with chans := cs } : Tx).Appended K t' b1) (hs : t'.stream K = t.stream K ++ b2) : b2 = b1 :=
  List.append_cancel_left (hs.symm.trans h.stream)

theorem vec_round_trip (h : s.CodecPair c.toNat) {s1 : State} (hs1 : s1.tx.stream s.cfg = s.tx.stream s.cfg ++ bits)
    (ha : s.rx.ahead s.cfg = bits ++ rest) {a b : U32} {n : Word} (hfits : n.toNat < 2 ^ s.cfg.wordBits)
    (h0 : n.toNat ≠ 0) (hsrc : a.toNat + n.toNat ≤ s.cfg.rawBytes) (hdst : b.toNat + n.toNat ≤ s.cfg.rawBytes)
    (hx : exec (.eVec c a n) s = .next s1) :
    ∃ s2, exec (.dVec c b n) s1 = .next s2 ∧ s2.rx.port.st = 0 ∧ s2.rx.port.v = n ∧
      ((∀ j < n.toNat, s2.rx.raw.readByte (b.toNat + j) = s.tx.raw.readByte (a.toNat + j)) ↔
        (channelAt s.tx.chans c.toNat).Carries s.tx.raw a.toNat n.toNat) ∧
      s2.rx.bitpos = s.rx.bitpos + bits.length ∧ s2.rx.ahead s.cfg = rest ∧
      (channelAt s2.rx.chans c.toNat).prev = (channelAt s2.tx.chans c.toNat).prev := by
  obtain ⟨t', hexec, happ⟩ := exec_eVec_appended h.inv h.ready h.txChan hfits h0 hsrc
  obtain rfl := Host.Outcome.next.inj (hexec.symm.trans hx)
  obtain rfl := happ.bits_eq hs1
  have hsize := h.codesAs.size
  have hpos := (channelAt s.tx.chans c.toNat).size_pos
  obtain ⟨r', hdec, hcons, hrest⟩ := exec_dVec_consumed (s := { s with tx := t'.respond n.toNat }) h.inv.cfg h.inv.rx
    h.live h.rxChan hfits h0 hdst (by rw [h.codesAs.width]; exact readWords_lt _ _ _ hpos)
    (by rw [hsize]; exact readWords_length _ _ _ hpos) (h.codesAs.coded _) ha
  have hv : BitVec.ofNat 64 n.toNat = n := by rw [BitVec.ofNat_toNat, BitVec.setWidth_eq]
  refine ⟨_, hdec, rfl, hv, ?_, hcons.bitpos_eq, hrest,
    h.prev_eq _ happ.chans_eq hcons.touched.chans_eq⟩
  rw [← decoded_bytes_iff_carries h.inv.rx.raw _ _ b.toNat]
  refine forall₂_congr fun j hj => ?_
  rw [Rx.respond_raw, Rx.forgetGhost_raw, RawMem.readByte_forget_outside _ _ (.inl (by omega)), hcons.touched.raw_eq,
    hsize, h.codesAs.decoded]

theorem word_round_trip (h : s.CodecPair c.toNat) {s1 : State} (hs1 : s1.tx.stream s.cfg = s.tx.stream s.cfg ++ bits)
    (ha : s.rx.ahead s.cfg = bits ++ rest) {v : Word} (hx : exec (.eWord c v) s = .next s1) :
    ∃ s2, exec (.dWord c) s1 = .next s2 ∧ s2.rx.port.st = 0 ∧
      (s2.rx.port.v.toNat = v.toNat % 2 ^ (channelAt s.tx.chans c.toNat).width ↔
        ((channelAt s.tx.chans c.toNat).alg = .constant →
          constantWord (channelAt s.tx.chans c.toNat) = v.toNat % 2 ^ (channelAt s.tx.chans c.toNat).width)) ∧
      s2.rx.bitpos = s.rx.bitpos + bits.length ∧ s2.rx.ahead s.cfg = rest ∧
      (channelAt s2.rx.chans c.toNat).prev = (channelAt s2.tx.chans c.toNat).prev := by
  obtain ⟨t', hexec, happ⟩ := exec_eWord_appended v h.inv h.ready h.txChan
  obtain rfl := Host.Outcome.next.inj (hexec.symm.trans hx)
  obtain rfl := happ.bits_eq hs1
  have hlt := Nat.mod_lt v.toNat (Nat.two_pow_pos (channelAt s.tx.chans c.toNat).width)
  obtain ⟨r', hdec, hcons, hrest⟩ := exec_dWord_consumed (s := { s with tx := t'.respond 0 }) h.inv.cfg h.inv.rx
    h.live h.rxChan (by rw [h.codesAs.width]; exact hlt) (h.codesAs.coded _) ha
  refine ⟨_, hdec, rfl, ?_, hcons.bitpos_eq, hrest, h.prev_eq _ happ.chans_eq hcons.touched.chans_eq⟩
  rw [← decoded_word_iff, h.codesAs.decoded]
  show (BitVec.ofNat 64 _).toNat = _ ↔ _
  rw [BitVec.toNat_ofNat, Nat.mod_eq_of_lt (decoded_word_lt hlt)]

end RoundTrip

/-- Settles O45: `E.VEC` and `D.VEC` by `vec_round_trip`, `E.WORD` and `D.WORD` by `word_round_trip`. -/
theorem codecRoundTrip : Obligations.CodecRoundTrip := by
  intro s s1 c bits rest hinv hready hlive htx hrx hsame hs1 ha
  obtain ⟨htype, halg, hdelta, hrot, hoffset, hnbits, hconst, hprev⟩ := hsame
  have hpair : s.CodecPair c.toNat := ⟨hinv, hready, hlive, htx, hrx,
    ⟨rfl, htype.symm, halg.symm, hdelta.symm, hrot.symm, hprev.symm, fun _ => by rw [hoffset], fun _ => hnbits.symm,
      fun _ => by rw [hconst]⟩⟩
  refine ⟨fun a b n hwf h0 hsrc hdst hx => ?_, fun v hx => word_round_trip hpair hs1 ha hx⟩
  exact vec_round_trip hpair hs1 ha (by simpa [Instr.wellFormed, Word.fits] using hwf)
    (fun hz => h0 (BitVec.eq_of_toNat_eq hz)) hsrc hdst hx

end Sys2Proof.Machine
end

section
/-! PROOFS. `G.RESETCH`, `P.RESETCH` and `G.RESTORE` (45_container_generator.md R242, R243, 46_container_parser.md R274):
the two resets make no check of their own; `G.RESTORE` makes the one check that the channel is registered and then writes
`ALG` and `DELTA` of that channel and no other field. -/

namespace Sys2Proof.Machine

/-! ## The channel file emptied -/

theorem exec_gResetch {s : State} (h : s.tx.Ready) :
    exec .gResetch s = .next { s with tx := { s.tx with chans := [], layoutOpen := true }.respond 0 } := by
  show execGResetch s = _
  rw [execGResetch, onTx_next, Tx.streamCommand_ok h rfl]

theorem exec_pResetch {s : State} (h : s.rx.flt.fault = 0) :
    exec .pResetch s = .next { s with rx := { s.rx with chans := [] }.respond 0 } := by
  show execPResetch s = _
  rw [execPResetch, onRx_next, Rx.simpleCommand_ok h rfl]

/-! ## The configured codec back in force -/

theorem exec_gRestore_registered {s : State} {c : BitVec 16} (h : s.tx.Ready) (hc : c.toNat < s.tx.chans.length) :
    exec (.gRestore c) s = .next { s with
      tx := { s.tx with
        chans := s.tx.chans.set c.toNat (channelAt s.tx.chans c.toNat).restored }.respond 0 } := by
  show execGRestore c s = _
  rw [execGRestore, onTx_next, Tx.streamCommand_ok h (by rw [registeredCheck_of_lt hc, afterCheck_none]),
    modify_eq_set_channelAt]

theorem exec_gRestore_unregistered {s : State} {c : BitVec 16} (h : s.tx.Ready) (hc : s.tx.chans.length ≤ c.toNat) :
    exec (.gRestore c) s = .next { s with tx := s.tx.raise ⟨.badOperand, c.toNat, s.tx.chans.length⟩ } := by
  show execGRestore c s = _
  rw [execGRestore, onTx_next, Tx.streamCommand_error h (by rw [registeredCheck_of_le hc, afterCheck_some])]

/-- Settles O48: the resets complete on any engine that takes the command; for `G.RESTORE` the channel number is either
registered, and the write is `Channel.restored` of its context, or the only check refuses it. -/
theorem channelsResetAndRestored : Obligations.ChannelsResetAndRestored := by
  intro s c
  exact ⟨exec_pResetch, fun htx =>
    ⟨exec_gResetch htx, exec_gRestore_registered htx, exec_gRestore_unregistered htx⟩⟩

end Sys2Proof.Machine
end

section
/-! PROOFS. `P.SECTION` by `PSTATE` (46_container_parser.md R275, R276, R282): refused in `NoHeader`, the answer 0 in
`Exhausted`, the work of `getSection` in `HeaderRead`, whose answer is a length that has passed the check of a section's
size and so is never 0. -/

namespace Sys2Proof.Machine

variable {K : Config}

/-! ## The command in each state -/

/-- What `P.SECTION` does with a fault raised past its checks (R275, R283). -/
def sectionLost (K : Config) (e : Raise) (r : Rx) : Rx := (r.forgetSection K).raise (inContainer e)

theorem exec_pSection_noHeader {s : State} (h : s.rx.flt.fault = 0) (hp : s.rx.pstate = .noHeader) :
    exec .pSection s = .next { s with rx := s.rx.raise ⟨.illegalState, 0xB1, s.rx.status⟩ } := by
  show execPSection s = _
  rw [execPSection, onRx_next, Rx.command_refused h (refuseIf_pos hp _)]
  rfl

theorem exec_pSection_exhausted {s : State} (h : s.rx.flt.fault = 0) (hp : s.rx.pstate = .exhausted) :
    exec .pSection s = .next { s with rx := s.rx.respond 0 } := by
  have hcheck : s.rx.pstate ≠ .noHeader := by rw [hp]; decide
  show execPSection s = _
  rw [execPSection, onRx_next, Rx.command_ok h (refuseIf_neg hcheck _) (by rw [if_pos hp]; rfl)]

/-- In `HeaderRead` the work of `P.SECTION` is `getSection` (R275). -/
theorem exec_pSection_headerRead {s : State} (h : s.rx.flt.fault = 0) (hp : s.rx.pstate = .headerRead) :
    exec .pSection s = .next { s with rx := match getSection s.cfg s.rx with
      | .ok len r => r.respond len
      | .error e r => sectionLost s.cfg e r } := by
  have hcheck : s.rx.pstate ≠ .noHeader := by rw [hp]; decide
  have hwork : s.rx.pstate ≠ .exhausted := by rw [hp]; decide
  show execPSection s = _
  rw [execPSection, onRx_next]
  cases hx : getSection s.cfg s.rx with
  | ok len r => rw [Rx.command_ok h (refuseIf_neg hcheck _) (by rw [if_neg hwork, hx])]
  | error e r =>
    rw [Rx.command_error h (refuseIf_neg hcheck _) (by rw [if_neg hwork, hx])]
    rfl

/-! ## The answer of a section -/

/-- A condition that is none of the engine's is kept by any procedure. -/
theorem RxM.ends_keeping {α : Type} (x : RxM α) (c : Prop) :
    x.Ends (fun _ => c) (fun _ _ => c) (fun _ => True) := by
  intro r hc
  cases x r with
  | ok a r' => exact hc
  | error e r' => trivial

/-- A section is as long as its header's checked size says (R276). -/
theorem getSectionSize_bounded (K : Config) :
    (getSectionSize K).Ends (fun _ => True) (fun len _ => 0 < len ∧ len ≤ K.maxSectionLength) (fun _ => True) := by
  refine (RxM.ends_keeping (getBits K K.sectSizeBits) True).bind fun size => ?_
  refine RxM.Ends.bind (Q := fun _ _ => 0 < size ∧ size ≤ K.maxSectionLength) (RxM.Ends.raiseIf (fun hc _ _ => ?_) ?_)
    fun _ => RxM.Ends.pure fun _ h => h
  · simp only [orElse_eq_none, refuseIf_eq_none] at hc
    omega
  · exact fun _ _ => trivial

theorem getSectionHeader_bounded (K : Config) :
    (getSectionHeader K).Ends (fun _ => True) (fun len _ => 0 < len ∧ len ≤ K.maxSectionLength) (fun _ => True) := by
  refine (RxM.ends_keeping (getWindup K) True).bind fun _ => RxM.Ends.bind ?_ fun len =>
    (RxM.ends_keeping (getWindup K) _).bind fun _ => RxM.Ends.pure fun _ h => h
  refine (getSectionSize_bounded K).bind fun len => (RxM.ends_keeping _ _).bind fun r => ?_
  exact (RxM.ends_keeping (getChannelCount K r.flags) _).bind fun n => (RxM.ends_keeping _ _).bind fun _ =>
    (RxM.ends_keeping _ _).bind fun _ => RxM.Ends.pure fun _ h => h

theorem getSection_bounded (K : Config) :
    (getSection K).Ends (fun _ => True) (fun len _ => 0 < len ∧ len ≤ K.maxSectionLength) (fun _ => True) :=
  (getSectionHeader_bounded K).bind fun len => (RxM.ends_keeping (decSection K len) _).bind fun _ =>
    (RxM.ends_keeping (getCrc K len) _).bind fun _ => (RxM.ends_keeping (getFootTag K) _).bind fun _ =>
      (RxM.ends_keeping _ _).bind fun _ => RxM.Ends.pure fun _ h => h

/-- The length of a section as `V` shows it (R21, R284). -/
theorem sectionLength_answered (hK : K.Legal) {len : Nat} (hlen : len ≤ K.maxSectionLength) (p : Port) :
    (p.answered len).v.toNat = len := by
  rw [Port.answered_v, BitVec.toNat_ofNat, Nat.mod_eq_of_lt (lt_two_pow_of_le (sectionLength_lt hK hlen) hK.wordBits_le)]

/-- `P.SECTION` in `HeaderRead` never answers 0 (R282). -/
theorem exec_pSection_headerRead_ne_zero {s s' : State} (hK : s.cfg.Legal) (h : s.rx.flt.fault = 0)
    (hp : s.rx.pstate = .headerRead) (hx : exec .pSection s = .next s') (hst : s'.rx.port.st = 0) :
    s'.rx.port.v ≠ 0 := by
  rw [exec_pSection_headerRead h hp] at hx
  cases hx
  cases hget : getSection s.cfg s.rx with
  | ok len r =>
    obtain ⟨hpos, hle⟩ := (getSection_bounded s.cfg).ok trivial hget
    simp only [Rx.respond_port]
    intro hv
    have := sectionLength_answered hK hle r.port
    rw [hv] at this
    exact absurd this (Nat.ne_of_lt hpos)
  | error e r =>
    simp only [hget] at hst
    exact absurd hst (FaultCode.code_ne_zero _)

/-- Settles O55: of the three states, `NoHeader` answers a fault code, `HeaderRead` a length that is not 0, `Exhausted`
the 0. -/
theorem sectionOtherStates : Obligations.SectionOtherStates := by
  intro s hinv hf
  refine ⟨fun s' hx hst hv => ?_, exec_pSection_exhausted hf, exec_pSection_noHeader hf⟩
  cases hp : s.rx.pstate with
  | noHeader =>
    rw [exec_pSection_noHeader hf hp] at hx
    cases hx
    exact absurd hst (FaultCode.code_ne_zero .illegalState)
  | headerRead => exact absurd hv (exec_pSection_headerRead_ne_zero hinv.cfg hf hp hx hst)
  | exhausted => rfl

end Sys2Proof.Machine
end

section
/-! PROOFS. The container round trip (46_container_parser.md R287). `Tx.FileSoFar` says what stands in the stream after any
writes of sections, with commands in between that do not touch it: a file header and the sections, a NOT_LAST tag between two
of them. `G.FINAL` puts the LAST tag behind them. `Rx.InFile` is the parser at a position of that stream: `P.HEADER` takes the
header off it and every `P.SECTION` the next section. -/

namespace Sys2Proof.Machine

variable {K : Config}

/-! ## The sections of a file as bits -/

/-- `bits` are a section of the bytes `x.2[0 .. x.1-1]` from position `pos` on, under channels a section header can carry
(R118). -/
def SectionOf (K : Config) (flags : BitVec 8) (pos : Nat) (x : Nat × RawMem) (bits : List Bool) : Prop :=
  ∃ chans, LayoutOk K flags chans ∧ 0 < x.1 ∧ x.1 ≤ K.maxSectionLength ∧
    (∀ v ∈ sectionVectors chans x.1, (channelAt chans v.1).Carries x.2 v.2.1 v.2.2) ∧
    bits = sectionBits K flags chans x.2 x.1 pos

/-- One or more sections from position `pos` on, a NOT_LAST tag between two of them (45_container_generator.md R255). -/
inductive SectionsOf (K : Config) (flags : BitVec 8) : Nat → List (Nat × RawMem) → List Bool → Prop
  | one {pos : Nat} {x : Nat × RawMem} {bits : List Bool} : SectionOf K flags pos x bits → SectionsOf K flags pos [x] bits
  | cons {pos : Nat} {x : Nat × RawMem} {xs : List (Nat × RawMem)} {a b : List Bool} : SectionOf K flags pos x a →
      SectionsOf K flags (pos + a.length + 4) xs b → SectionsOf K flags pos (x :: xs) (a ++ (fieldBits 4 0x8 ++ b))

theorem SectionsOf.ne_nil {flags : BitVec 8} {pos : Nat} {xs : List (Nat × RawMem)} {bits : List Bool}
    (h : SectionsOf K flags pos xs bits) : xs ≠ [] := by cases h <;> simp

/-- One more section behind the others: what the generator appends. -/
theorem SectionsOf.append {flags : BitVec 8} {pos : Nat} {xs : List (Nat × RawMem)} {a b : List Bool}
    {x : Nat × RawMem} (h : SectionsOf K flags pos xs a) (hx : SectionOf K flags (pos + a.length + 4) x b) :
    SectionsOf K flags pos (xs ++ [x]) (a ++ (fieldBits 4 0x8 ++ b)) := by
  induction h with
  | one h1 => exact .cons h1 (.one hx)
  | @cons pos y xs c d h1 _ ih =>
    have hpos : pos + (c ++ (fieldBits 4 0x8 ++ d)).length + 4 = pos + c.length + 4 + d.length + 4 := by
      simp only [List.length_append, fieldBits_length]; omega
    rw [hpos] at hx
    simpa only [List.append_assoc, List.cons_append] using SectionsOf.cons h1 (ih hx)

/-! ## Commands between sections -/

/-- `t'` is `t` after a command between sections: the stream is as it was, and once a section is written so are the header
registers (45_container_generator.md R240, 47_system_commands.md R303). -/
structure Tx.Between (K : Config) (t t' : Tx) : Prop where
  stream : t'.stream K = t.stream K
  bitpos : t'.bitpos = t.bitpos
  gstate : t'.gstate = t.gstate
  ready : t.Ready → t'.Ready
  header : t.gstate ≠ .notStarted →
    t'.flags = t.flags ∧ t'.mtime = t.mtime ∧ t'.rawSize = t.rawSize ∧ t'.name = t.name
  inv : t.Inv K → t'.Inv K

theorem Tx.Between.refl (t : Tx) : t.Between K t := ⟨rfl, rfl, rfl, id, fun _ => ⟨rfl, rfl, rfl, rfl⟩, id⟩

theorem Tx.Between.respond {t t' : Tx} (h : t.Between K t') (v : Nat) : t.Between K (t'.respond v) :=
  ⟨h.stream, h.bitpos, h.gstate, h.ready, h.header, fun hi => (h.inv hi).withPort _⟩

/-- A new channel file that is in order if the old one is. -/
theorem Tx.Between.withChans {t : Tx} {cs : List Channel} (h : ChansOk K t.chans → ChansOk K cs) :
    t.Between K { t with chans := cs } :=
  ⟨rfl, rfl, rfl, id, fun _ => ⟨rfl, rfl, rfl, rfl⟩, fun hi => hi.withChans (h hi.chans)⟩

theorem Tx.Between.resetLayout (t : Tx) : t.Between K { t with chans := [], layoutOpen := true } :=
  ⟨rfl, rfl, rfl, id, fun _ => ⟨rfl, rfl, rfl, rfl⟩, fun hi =>
    ⟨hi.writer.rebase { t with chans := [], layoutOpen := true }, hi.gstate, hi.finalized, hi.closed, nofun, hi.counted,
      ChansOk.nil, hi.flt, hi.name, hi.raw⟩⟩

theorem Tx.Between.withRaw (t : Tx) (addr n v : Nat) : t.Between K { t with raw := t.raw.write addr n v } :=
  ⟨rfl, rfl, rfl, id, fun _ => ⟨rfl, rfl, rfl, rfl⟩, fun hi =>
    ⟨hi.writer.rebase { t with raw := t.raw.write addr n v }, hi.gstate, hi.finalized, hi.closed, hi.layout, hi.counted,
      hi.chans, hi.flt, hi.name, RawMem.write_wf hi.raw addr n v⟩⟩

/-- A register write that goes through: the register is in the map, and a header register in `NotStarted` only (R303). -/
theorem Tx.csrWrite_eq_ok {cw : U32} {addr value v : Nat} {t t' : Tx} (h : t.csrWrite K cw addr value = .ok (v, t')) :
    ∃ reg, csrAt K t.chans.length addr = some reg ∧ (reg.isHeader = true → t.gstate = .notStarted) ∧
      t.csrStore reg value = some t' := by
  unfold Tx.csrWrite at h
  split at h
  · cases h
  · rename_i reg hreg
    split_ifs at h with _ _ hheader
    split at h
    · cases h
    · rename_i u hstore
      cases h
      exact ⟨reg, hreg, fun hr => not_not.1 fun hg => hheader ⟨hr, hg⟩, hstore⟩

/-- What a register write changes: a header register, or the channel file (R303). -/
theorem Tx.csrStore_cases {t t' : Tx} {reg : Csr} {value : Nat} (h : t.csrStore reg value = some t') :
    (reg.isHeader = true ∧ ∃ flags mtime rawSize name,
      t' = { t with flags := flags, mtime := mtime, rawSize := rawSize, name := name }) ∨
    ∃ cs, t' = { t with chans := cs } := by
  cases reg <;> simp only [Tx.csrStore, Option.map_eq_some_iff, Option.ite_none_right_eq_some, Option.some.injEq,
    reduceCtorEq] at h
  case flags => exact .inl ⟨rfl, _, t.mtime, t.rawSize, t.name, h.2.symm⟩
  case mtime => exact .inl ⟨rfl, t.flags, _, t.rawSize, t.name, h.symm⟩
  case rawSize => exact .inl ⟨rfl, t.flags, t.mtime, _, t.name, h.symm⟩
  case name => exact .inl ⟨rfl, t.flags, t.mtime, t.rawSize, _, h.2.symm⟩
  case chan =>
    obtain ⟨cs, -, hcs⟩ := h
    exact .inr ⟨cs, hcs.symm⟩

theorem Tx.Between.csrWrite {cw : U32} {addr value v : Nat} {t t' : Tx} (h : t.csrWrite K cw addr value = .ok (v, t')) :
    t.Between K t' := by
  obtain ⟨reg, hreg, hheader, hstore⟩ := Tx.csrWrite_eq_ok h
  have hinv : t.Inv K → t'.Inv K := fun hi => hi.csrStore rfl hreg hstore
  rcases Tx.csrStore_cases hstore with ⟨hr, _, _, _, _, rfl⟩ | ⟨cs, rfl⟩
  · exact ⟨rfl, rfl, rfl, id, fun hg => absurd (hheader hr) hg, hinv⟩
  · exact ⟨rfl, rfl, rfl, id, fun _ => ⟨rfl, rfl, rfl, rfl⟩, hinv⟩

/-- A command that answers `ST = 0` has done its work (R345, R348). -/
theorem Tx.command_answered {t : Tx} {body : Tx → Except Raise (Nat × Tx)} (h : (t.command body).port.st = 0) :
    ∃ v t', body t = .ok (v, t') ∧ t.command body = t'.respond v := by
  rcases Tx.command_cases t body with ⟨-, e⟩ | ⟨-, x, -, e⟩ | ⟨-, v, t', hb, e⟩
  · rw [e] at h; exact absurd h (show (14 : BitVec 8) ≠ 0 by decide)
  · rw [e] at h; exact absurd h (FaultCode.code_ne_zero x.code)
  · exact ⟨v, t', hb, e⟩

/-- So has one of the stream, codec or container commands, on an engine that is not closed (R152). -/
theorem Tx.streamCommand_answered {t : Tx} {cw : U32} {body : Tx → Except Raise (Nat × Tx)}
    (h : (t.streamCommand cw body).port.st = 0) :
    ∃ v t', body t = .ok (v, t') ∧ t.streamCommand cw body = t'.respond v := by
  rcases Tx.streamCommand_cases t cw body with ⟨-, e⟩ | ⟨-, x, e⟩ | ⟨-, v, t', hb, e⟩
  · rw [e] at h; exact absurd h (show (14 : BitVec 8) ≠ 0 by decide)
  · rw [e] at h; exact absurd h (FaultCode.code_ne_zero x.code)
  · exact ⟨v, t', hb, e⟩

theorem Tx.Between.command {t : Tx} {body : Tx → Except Raise (Nat × Tx)} (h : (t.command body).port.st = 0)
    (hb : ∀ v t', body t = .ok (v, t') → t.Between K t') : t.Between K (t.command body) := by
  obtain ⟨v, t', hok, e⟩ := Tx.command_answered h
  exact e ▸ (hb v t' hok).respond v

theorem Tx.Between.streamCommand {t : Tx} {cw : U32} {body : Tx → Except Raise (Nat × Tx)}
    (h : (t.streamCommand cw body).port.st = 0) (hb : ∀ v t', body t = .ok (v, t') → t.Between K t') :
    t.Between K (t.streamCommand cw body) := by
  obtain ⟨v, t', hok, e⟩ := Tx.streamCommand_answered h
  exact e ▸ (hb v t' hok).respond v

theorem Tx.Between.csrRead {t : Tx} {addr : Nat} (h : (t.csrRead K addr).port.st = 0) : t.Between K (t.csrRead K addr) := by
  unfold Tx.csrRead at h ⊢
  cases hreg : csrAt K t.chans.length addr with
  | none =>
    simp only [hreg] at h
    exact absurd h (FaultCode.code_ne_zero .badOperand)
  | some reg => exact (Tx.Between.refl t).respond _

/-- A command whose body is a check and then one new state. -/
theorem Tx.Between.ofCheck {t u : Tx} {check : Option Raise} {n : Nat} (h : check = none → t.Between K u) :
    ∀ v t', afterCheck check (n, u) = .ok (v, t') → t.Between K t' := by
  intro v t' hok
  obtain ⟨hc, he⟩ := afterCheck_eq_ok hok
  cases he
  exact h hc

/-- Every command between sections leaves the stream alone. -/
theorem exec_betweenSections {i : Instr} {s s' : State} (hi : Instr.betweenSections i = true) (hx : exec i s = .next s')
    (hst : s'.tx.port.st = 0) : s'.cfg = s.cfg ∧ s.tx.Between s.cfg s'.tx := by
  match i, hi with
  | .txCsrr addr, _ => cases hx; exact ⟨rfl, Tx.Between.csrRead hst⟩
  | .txCsrw addr value, _ => cases hx; exact ⟨rfl, Tx.Between.command hst fun _ _ => Tx.Between.csrWrite⟩
  | .txRawld addr size, _ =>
    cases hx; exact ⟨rfl, Tx.Between.command hst (Tx.Between.ofCheck fun _ => Tx.Between.refl _)⟩
  | .txRawst addr value size, _ =>
    cases hx; exact ⟨rfl, Tx.Between.command hst (Tx.Between.ofCheck fun _ => Tx.Between.withRaw _ _ _ _)⟩
  | .eHreset c, _ =>
    cases hx
    exact ⟨rfl, Tx.Between.streamCommand hst (Tx.Between.ofCheck fun _ =>
      Tx.Between.withChans fun h => h.modify fun _ hch => hch.historyReset)⟩
  | .gAddch reps desc, _ =>
    cases hx
    refine ⟨rfl, Tx.Between.streamCommand hst (Tx.Between.ofCheck fun hc => Tx.Between.withChans fun h => ?_)⟩
    obtain ⟨-, hdesc⟩ := orElse_eq_none.1 hc
    obtain ⟨hok, hlen⟩ := descChannel_ok hdesc
    exact h.append hok hlen
  | .gResetch, _ =>
    cases hx
    exact ⟨rfl, Tx.Between.streamCommand hst fun _ _ hok => by cases hok; exact Tx.Between.resetLayout _⟩
  | .gRestore c, _ =>
    cases hx
    exact ⟨rfl, Tx.Between.streamCommand hst (Tx.Between.ofCheck fun _ =>
      Tx.Between.withChans fun h => h.modify fun _ hch => hch.restored)⟩

/-! ## What the generator has written -/

/-- The file header of the header registers (R116). -/
def Tx.header (K : Config) (t : Tx) : List Bool := headerBits K t.flags t.mtime t.rawSize t.name

/-- The stream of an engine that has written the sections `xs`, and what it knows of the header in front of them. -/
structure Tx.Begun (K : Config) (xs : List (Nat × RawMem)) (t : Tx) : Prop where
  gstate : t.gstate = .sectionClosed
  supported : flagsUnsupported t.flags = false
  named : flagName t.flags = true → (0 : Byte) ∈ t.name
  stream : ∃ bits, t.stream K = t.header K ++ bits ∧ SectionsOf K t.flags (t.header K).length xs bits

/-- What holds of a generator in the course of a file: nothing is written, or the sections `xs` are. -/
structure Tx.FileSoFar (K : Config) (xs : List (Nat × RawMem)) (t : Tx) : Prop where
  inv : t.Inv K
  ready : t.Ready
  length : t.bitpos = (t.stream K).length
  begun : (xs = [] ∧ t.gstate = .notStarted ∧ t.stream K = []) ∨ t.Begun K xs

theorem Tx.Fresh.fileSoFar {t : Tx} (hK : K.Legal) (hinv : t.Inv K) (h : t.Fresh) : t.FileSoFar K [] := by
  have hpos := hinv.writer.bitpos
  have hoff : t.woff = 0 := by have := h.bitpos; omega
  have hptr : t.wptr = 0 := by
    have hmul : K.wordBits * t.wptr = 0 := by have := h.bitpos; omega
    exact (Nat.mul_eq_zero.1 hmul).resolve_left hK.wordBits_pos.ne'
  have hstream : t.stream K = [] := by simp [Tx.stream, Tx.buffered, h.sink, hoff, hptr]
  exact ⟨hinv, h.ready, by rw [hstream, h.bitpos]; rfl, .inl ⟨rfl, h.gstate, hstream⟩⟩

theorem Tx.Between.begun {xs : List (Nat × RawMem)} {t t' : Tx} (h : t.Between K t') (hb : t.Begun K xs) :
    t'.Begun K xs := by
  obtain ⟨hflags, hmtime, hsize, hname⟩ := h.header (by rw [hb.gstate]; decide)
  have hheader : t'.header K = t.header K := by simp only [Tx.header, hflags, hmtime, hsize, hname]
  exact ⟨h.gstate.trans hb.gstate, by rw [hflags]; exact hb.supported, by rw [hflags, hname]; exact hb.named,
    by rw [h.stream, hheader, hflags]; exact hb.stream⟩

theorem Tx.Between.fileSoFar {xs : List (Nat × RawMem)} {t t' : Tx} (h : t.Between K t') (hf : t.FileSoFar K xs) :
    t'.FileSoFar K xs := by
  refine ⟨h.inv hf.inv, h.ready hf.ready, by rw [h.bitpos, h.stream]; exact hf.length, ?_⟩
  rcases hf.begun with ⟨hxs, hg, hs⟩ | hb
  · exact .inl ⟨hxs, h.gstate.trans hg, h.stream.trans hs⟩
  · exact .inr (h.begun hb)

/-! ## One more section -/

/-- The engine after a section, the writer's registers as before it, keeps the invariant (R253). -/
theorem Tx.Inv.sectionClosed {t : Tx} (h : t.Inv K) (len : Nat) :
    (Tx.forgetSource K len (t.sectionClosed K len)).Inv K := by
  have hvs : ∀ v ∈ sectionVectors t.chans len, v.1 < (resetHistories t.chans).length := fun v hv => by
    rw [resetHistories_length]; exact (sectionVectors_mem hv).1
  have hcoded := vectorsAfter_ok (readWords_of t.raw) _ _ (resetHistories_ok h.chans.2) hvs
  refine ⟨h.writer.rebase (Tx.forgetSource K len (t.sectionClosed K len)), .inr (.inl rfl), nofun, h.closed, nofun, nofun,
    ⟨?_, fun ch hch => ?_⟩, h.flt, h.name, RawMem.forget_wf h.raw _ _ _⟩
  · show ((vectorsAfter _ _ _).map Channel.restored).length ≤ _
    rw [List.length_map, vectorsAfter_length, resetHistories_length]
    exact h.chans.1
  · obtain ⟨c, hc, rfl⟩ := List.mem_map.1 hch
    exact (hcoded c hc).restored

/-- What a section leaves of the registers of the engine (R253). -/
theorem Tx.writeSection_registers (hK : K.Legal) {t : Tx} (h : t.Inv K) {len : Nat} (hlen : len ≤ K.maxSectionLength) :
    let t' := t.writeSection K len
    t'.gstate = .sectionClosed ∧ t'.flags = t.flags ∧ t'.name = t.name ∧ t'.header K = t.header K ∧
      (t.Ready → t'.Ready) := by
  have happ := Tx.writeSection_appended hK h.writer h.chans.2 (sectionLength_lt hK hlen)
  intro t'
  have e : (Tx.forgetSource K len (t.sectionClosed K len)).withWriter t' = t' := happ.withWriter_eq
  rw [← e]
  exact ⟨rfl, rfl, rfl, rfl, id⟩

/-- A section the generator accepts goes behind those it has written, with its header or its NOT_LAST tag (R245). -/
theorem Tx.FileSoFar.writeSection (hK : K.Legal) {xs : List (Nat × RawMem)} {t : Tx} {len : Nat} (h : t.FileSoFar K xs)
    (hok : SectionOk K len t)
    (hcar : ∀ v ∈ sectionVectors t.chans len, (channelAt t.chans v.1).Carries t.raw v.2.1 v.2.2) :
    (t.writeSection K len).FileSoFar K (xs ++ [(len, t.raw)]) := by
  have happ := Tx.writeSection_appended hK h.inv.writer h.inv.chans.2 (sectionLength_lt hK hok.fits)
  obtain ⟨hgstate, hflags, hname, hheader, hready⟩ := Tx.writeSection_registers hK h.inv hok.fits
  have hinv := (h.inv.sectionClosed len).extended h.ready.2 happ.toExtended
  have hstream : (t.writeSection K len).stream K = t.stream K ++ _ := happ.stream
  have hbitpos : (t.writeSection K len).bitpos = t.bitpos + _ := happ.bitpos_eq
  generalize t.writeSection K len = t' at *
  have hsect : SectionOf K t.flags (t.bitpos + (t.leadBits K).length) (len, t.raw)
      (sectionBits K t.flags t.chans t.raw len (t.bitpos + (t.leadBits K).length)) :=
    ⟨t.chans, hok.layout, hok.some, hok.fits, hcar, rfl⟩
  refine ⟨hinv, hready h.ready, by rw [hbitpos, hstream, List.length_append (as := t.stream K), ← h.length], .inr ?_⟩
  generalize sectionBits K t.flags t.chans t.raw len _ = bits at *
  rcases h.begun with ⟨rfl, hg, hs⟩ | ⟨hg, hsup, hnamed, written, hs, hw⟩
  · have hlead : t.leadBits K = t.header K := if_pos hg
    have hpos : t.bitpos = 0 := by rw [h.length, hs]; rfl
    refine ⟨hgstate, by rw [hflags]; exact hok.supported hg, by rw [hflags, hname]; exact hok.named hg, bits, ?_, ?_⟩
    · rw [hstream, hs, hlead, hheader]; rfl
    · rw [hlead, hpos, Nat.zero_add] at hsect
      rw [hheader, hflags]
      exact .one hsect
  · have hlead : t.leadBits K = fieldBits 4 0x8 := if_neg (by rw [hg]; decide)
    have hpos : t.bitpos + (fieldBits 4 0x8).length = (t.header K).length + written.length + 4 := by
      rw [h.length, hs, List.length_append, fieldBits_length]
    refine ⟨hgstate, by rw [hflags]; exact hsup, by rw [hflags, hname]; exact hnamed,
      written ++ (fieldBits 4 0x8 ++ bits), ?_, ?_⟩
    · rw [hstream, hs, hlead, hheader, List.append_assoc]
    · rw [hlead, hpos] at hsect
      rw [hheader, hflags]
      exact hw.append hsect

theorem exec_gSection_fileSoFar {s s' : State} (hK : s.cfg.Legal) {xs : List (Nat × RawMem)} {len : Word}
    (h : s.tx.FileSoFar s.cfg xs)
    (hcar : ∀ v ∈ sectionVectors s.tx.chans len.toNat, (channelAt s.tx.chans v.1).Carries s.tx.raw v.2.1 v.2.2)
    (hx : exec (.gSection len) s = .next s') (hst : s'.tx.port.st = 0) :
    s'.cfg = s.cfg ∧ s'.tx.FileSoFar s.cfg (xs ++ [(len.toNat, s.tx.raw)]) := by
  cases hx
  obtain ⟨v, t', hbody, e⟩ := Tx.streamCommand_answered hst
  obtain ⟨hcheck, heq⟩ := afterCheck_eq_ok hbody
  cases heq
  have hwritten := h.writeSection hK ((sectionCheck_eq_none h.inv.chans).1 hcheck) hcar
  have hanswered := ((Tx.Between.refl _).respond len.toNat).fileSoFar hwritten
  rw [← e] at hanswered
  exact ⟨rfl, hanswered⟩

/-- All of a file up to its last tag, by induction on how it was written. -/
theorem State.Writes.fileSoFar {s u : State} (hinv : s.Inv) (hfresh : s.tx.Fresh) {xs : List (Nat × RawMem)}
    (h : s.Writes xs u) : u.cfg = s.cfg ∧ u.tx.FileSoFar s.cfg xs := by
  induction h with
  | start => exact ⟨rfl, hfresh.fileSoFar hinv.cfg hinv.tx⟩
  | between i _ hi hx hst ih =>
    obtain ⟨hcfg, hfile⟩ := ih
    obtain ⟨hcfg', hbetween⟩ := exec_betweenSections hi hx hst
    exact ⟨hcfg'.trans hcfg, (hcfg ▸ hbetween).fileSoFar hfile⟩
  | written len _ hcar hx hst ih =>
    obtain ⟨hcfg, hfile⟩ := ih
    rw [← hcfg] at hfile
    obtain ⟨hcfg', hfile'⟩ := exec_gSection_fileSoFar (hcfg ▸ hinv.cfg) hfile hcar hx hst
    exact ⟨hcfg'.trans hcfg, hcfg ▸ hfile'⟩

/-! ## The end of the file -/

/-- `G.FINAL` behind one or more sections: the LAST tag and the padding to a byte go to the sink behind them (R254). -/
theorem exec_gFinal_sink {s s' : State} (hK : s.cfg.Legal) {xs : List (Nat × RawMem)} (h : s.tx.FileSoFar s.cfg xs)
    (hb : s.tx.Begun s.cfg xs) (hx : exec .gFinal s = .next s') :
    s'.cfg = s.cfg ∧ ∃ pad, byteBits s'.tx.sink = s.tx.stream s.cfg ++ (fieldBits 4 0xF ++ pad) := by
  have hcheck : ¬ s.tx.gstate ≠ .sectionClosed := fun hne => hne hb.gstate
  have happ := Tx.putBits_appended hK h.inv.writer 0xF (show 4 ≤ s.cfg.wordBits by have := hK.wordBits_ge; omega)
  obtain ⟨-, hsink, -⟩ := Tx.close_spec hK happ.inv
  change execGFinal s = _ at hx
  rw [execGFinal, onTx_next, Tx.streamCommand_ok h.ready (by rw [refuseIf_neg hcheck, afterCheck_none])] at hx
  cases hx
  exact ⟨rfl, _, by rw [Tx.respond_sink, hsink, happ.stream, List.append_assoc]⟩

/-! ## The parser in a file -/

/-- A parser without a fault that has read the file header, at position `pos` of the stream with `ahead` in front of it. -/
structure Rx.InFile (K : Config) (flags : BitVec 8) (pos : Nat) (ahead : List Bool) (r : Rx) : Prop where
  inv : r.Inv K
  live : r.flt.fault = 0
  flags : r.flags = flags
  bitpos : r.bitpos = pos
  ahead : r.ahead K = ahead

theorem Rx.InFile.respond {flags : BitVec 8} {pos : Nat} {ahead : List Bool} {r : Rx} (h : r.InFile K flags pos ahead)
    (v : Nat) : (r.respond v).InFile K flags pos ahead :=
  ⟨h.inv.withPort _, h.live, h.flags, h.bitpos, h.ahead⟩

/-- A parser that has read nothing has the whole of its source ahead, completed to whole words (R162, R170). -/
theorem Rx.Fresh.ahead {r : Rx} {bytes : List Byte} (h : r.Fresh bytes) : ∃ ghost, r.ahead K = byteBits bytes ++ ghost := by
  have hunread : r.unread K = [] := by simp [Rx.unread, h.rcount]
  exact ⟨List.replicate (8 * ((K.wordBytes - bytes.length % K.wordBytes) % K.wordBytes)) false, by
    simp [Rx.ahead, Rx.unpulled, hunread, h.eof, h.src, h.srcpos]⟩

/-! ## The file header -/

/-- A name ends at its terminator, whatever stands behind it (R246). -/
theorem nameField_append {name : List Byte} (h : (0 : Byte) ∈ name) (bs : List Byte) :
    nameField (nameField name ++ bs) = nameField name := by
  induction name with
  | nil => cases h
  | cons b name ih =>
    by_cases hb : b = 0
    · simp [nameField, hb]
    · have hmem : (0 : Byte) ∈ name := (List.mem_cons.1 h).resolve_left (Ne.symm hb)
      rw [nameField, if_neg hb, List.cons_append, nameField, if_neg hb, ih hmem]

/-- `P.HEADER` in front of a file header it supports (R271). -/
theorem exec_pHeader_inFile {s : State} (hK : s.cfg.Legal) (hinv : s.rx.Inv s.cfg) (hf : s.rx.flt.fault = 0)
    (hp : s.rx.pstate = .noHeader) {flags : BitVec 8} {mtime rawSize : U32} {name : List Byte} {rest : List Bool}
    (hsup : flagsUnsupported flags = false)
    (hname : flagName flags = true → (0 : Byte) ∈ name ∧ (nameField name).length ≤ s.cfg.nameMax)
    (ha : s.rx.ahead s.cfg = headerBits s.cfg flags mtime rawSize name ++ rest) :
    ∃ r' : Rx, exec .pHeader s = .next { s with rx := r'.respond flags.toNat } ∧
      r'.InFile s.cfg flags (s.rx.bitpos + (headerBits s.cfg flags mtime rawSize name).length) rest ∧
      (s.rx.headerLoaded flags mtime rawSize name).withReader r' = r' := by
  obtain ⟨r', hx, hc, hrest⟩ := (getFileHeader_reads hK mtime rawSize hsup hname).takes s.rx (hinv.reader hf) hinv.name rest ha
  have hcheck : ¬ s.rx.pstate ≠ .noHeader := fun hne => hne hp
  have hgoing := ((getFileHeader_ends hK).ok (hinv.going hf) hx).1
  have e := hc.withReader_eq
  refine ⟨r', ?_, ⟨hgoing.inv hinv.flt, by rw [hc.flt_eq]; exact hf, by rw [← e]; rfl, hc.bitpos_eq, hrest⟩, e⟩
  show execPHeader s = _
  rw [execPHeader, onRx_next, Rx.command_ok hf (refuseIf_neg hcheck _) hx]

/-! ## The sections -/

/-- `P.SECTION` in front of a section and the tag behind it (R275 to R284). -/
theorem exec_pSection_inFile {s : State} (hK : s.cfg.Legal) {flags : BitVec 8} {pos : Nat} {x : Nat × RawMem}
    {bits rest : List Bool} (last : Bool) (hx : SectionOf s.cfg flags pos x bits) (hp : s.rx.pstate = .headerRead)
    (h : s.rx.InFile s.cfg flags pos (bits ++ (fieldBits 4 (if last then 0xF else 0x8) ++ rest))) :
    ∃ r' : Rx, exec .pSection s = .next { s with rx := r'.respond x.1 } ∧ r'.InFile s.cfg flags (pos + bits.length + 4) rest ∧
      r'.pstate = (if last then .exhausted else .headerRead) ∧ ∀ a < x.1, r'.raw.readByte a = x.2.readByte a := by
  obtain ⟨hinv, hlive, rfl, rfl, hahead⟩ := h
  obtain ⟨len, raw⟩ := x
  obtain ⟨chans, hlayout, hpos, hlen, hcar, rfl⟩ := hx
  obtain ⟨bits, hcoded, hbits⟩ := sectionBits_coded s.cfg s.rx.flags chans raw len s.rx.bitpos
  rw [hbits] at hahead
  obtain ⟨r', hget, hc, hrest⟩ := getSection_reads hK (hinv.reader hlive) hlayout hpos hlen (readWords_of raw) hinv.raw hcar
    last hcoded hahead
  have e := hc.withReader_eq
  have hgoing := (getSection_ends hK).ok ⟨hinv.going hlive, by rw [hp]; decide⟩ hget
  refine ⟨r', by rw [exec_pSection_headerRead hlive hp, hget], ⟨hgoing.inv hinv.flt, ?_, ?_, ?_, hrest⟩, ?_, fun a ha => ?_⟩
  · rw [hc.flt_eq]; exact hlive
  · rw [← e]; rfl
  · rw [hbits, hc.bitpos_eq, List.length_append (bs := fieldBits 4 _), fieldBits_length, ← Nat.add_assoc]
    rfl
  · rw [← e, ← hp]; rfl
  · have hraw : r'.raw = _ := hc.touched.raw_eq
    rw [hraw, Rx.forgetGhost_raw, RawMem.readByte_forget_outside _ _ (.inl ha), sectionVectors_parsed,
      section_bytes (readWords_of raw) hlayout hinv.raw hcar, if_pos ha]

/-- A parser in front of the sections of a file and the LAST tag reads all of them and is then exhausted (R287). -/
theorem SectionsOf.parses {s : State} (hK : s.cfg.Legal) {flags : BitVec 8} {pos : Nat} {xs : List (Nat × RawMem)}
    {bits rest : List Bool} (hxs : SectionsOf s.cfg flags pos xs bits) (hp : s.rx.pstate = .headerRead)
    (h : s.rx.InFile s.cfg flags pos (bits ++ (fieldBits 4 0xF ++ rest))) : State.Parses xs s := by
  generalize hcfg : s.cfg = K at *
  induction hxs generalizing s with
  | @one pos x bits hx =>
    subst hcfg
    obtain ⟨r', hexec, hr', hstate, hraw⟩ := exec_pSection_inFile hK true hx hp h
    obtain ⟨-, -, -, hlen, -⟩ := hx
    exact ⟨_, hexec, rfl, sectionLength_answered hK hlen _, hraw, ⟨fun _ => rfl, fun _ => hstate⟩,
      _, exec_pSection_exhausted hr'.live hstate, rfl, rfl⟩
  | @cons pos x xs a b hx hxs ih =>
    subst hcfg
    rw [List.append_assoc, List.append_assoc] at h
    obtain ⟨r', hexec, hr', hstate, hraw⟩ := exec_pSection_inFile hK false hx hp h
    obtain ⟨-, -, -, hlen, -⟩ := hx
    have hmore : r'.pstate ≠ .exhausted := by rw [hstate]; decide
    exact ⟨_, hexec, rfl, sectionLength_answered hK hlen _, hraw,
      ⟨fun hdone => absurd hdone hmore, fun hnil => absurd hnil hxs.ne_nil⟩, ih hstate rfl (hr'.respond _)⟩

/-! ## The round trip -/

/-- Settles O59: the sink holds the header, the sections and the LAST tag (`State.Writes.fileSoFar`, `exec_gFinal_sink`);
`P.HEADER` takes the header off (`exec_pHeader_inFile`) and `SectionsOf.parses` reads the rest. -/
theorem fileRoundTrip : Obligations.FileRoundTrip := by
  intro s u s2 xs hinv hfresh hwrites hxs hfinal r hr hrfresh
  obtain ⟨hcfg, hfile⟩ := hwrites.fileSoFar hinv hfresh
  have hbegun : u.tx.Begun s.cfg xs := hfile.begun.resolve_left fun h => hxs h.1
  rw [← hcfg] at hfile hbegun hr
  have hK : u.cfg.Legal := hcfg ▸ hinv.cfg
  obtain ⟨hcfg2, pad, hsink⟩ := exec_gFinal_sink hK hfile hbegun hfinal
  rw [← hcfg2] at hfile hbegun hr hK hsink
  obtain ⟨ghost, hahead⟩ := hrfresh.ahead (K := s2.cfg)
  obtain ⟨-, hsup, hnamed, bits, hstream, hsections⟩ := hbegun
  rw [hsink, hstream, List.append_assoc, List.append_assoc, List.append_assoc] at hahead
  obtain ⟨r', hexec, hr', e⟩ := exec_pHeader_inFile (s := { s2 with rx := r }) hK hr hrfresh.fault hrfresh.pstate hsup
    (fun hn => ⟨hnamed hn, hfile.inv.name ▸ nameField_length_le _⟩) hahead
  have hpos : r.bitpos + (u.tx.header s2.cfg).length = (u.tx.header s2.cfg).length := by rw [hrfresh.bitpos, Nat.zero_add]
  refine ⟨_, hexec, rfl, ?_, hr'.flags, ?_, fun hflag => ?_, fun hflag => ?_, ?_⟩
  · show (BitVec.ofNat 64 _).toNat = _
    rw [BitVec.toNat_ofNat, Nat.mod_eq_of_lt (lt_two_pow_of_le u.tx.flags.isLt (by decide))]
  · exact (congrArg Rx.mtime e).symm
  · exact (congrArg Rx.rawSize e).symm.trans (if_pos hflag)
  · have hname : r'.name = _ := (congrArg Rx.name e).symm.trans (if_pos hflag)
    rw [Rx.respond_name, hname, nameField_append (hnamed hflag)]
  · exact SectionsOf.parses (s := { s2 with rx := r'.respond _ }) hK hsections (congrArg Rx.pstate e).symm
      (hpos ▸ hr'.respond _)

end Sys2Proof.Machine
end

section
/-! PROOFS. `G.SECTION` where no check refuses it (45_container_generator.md R244 to R253), and the round trip of a file of
one section (46_container_parser.md R287), which is the file of `FileRoundTrip` with one `G.SECTION` in it. -/

namespace Sys2Proof.Machine

/-! ## `G.SECTION` -/

/-- `G.SECTION` of a section that passes the checks of R244. -/
theorem exec_gSection_ok {s : State} {len : Word} (hinv : s.Inv) (hready : s.tx.Ready)
    (hok : SectionOk s.cfg len.toNat s.tx) :
    exec (.gSection len) s = .next { s with tx := (s.tx.writeSection s.cfg len.toNat).respond len.toNat } := by
  show execGSection len s = _
  rw [execGSection, onTx_next,
    Tx.streamCommand_ok hready (by rw [(sectionCheck_eq_none hinv.tx.chans).2 hok, afterCheck_none])]

/-- Raw memory after a section: what R86 leaves open ends with the ghost bytes. -/
theorem Tx.readByte_forgetSource (K : Config) (len : Nat) (t : Tx) {a : Nat} (ha : len + K.maxGhostBytes ≤ a) :
    (Tx.forgetSource K len t).raw.readByte a = t.raw.readByte a := by
  have hclip : clipLen K 0 (len + K.maxGhostBytes) ≤ len + K.maxGhostBytes := Nat.min_le_left ..
  exact RawMem.readByte_forget_outside _ _ (.inr (by omega))

/-- Settles O49: `Tx.writeSection_appended`, with raw memory and the count of draws read off its frame. -/
theorem sectionWritten : Obligations.SectionWritten := by
  intro s len hinv hready hok
  have happ := Tx.writeSection_appended hinv.cfg hinv.tx.writer hinv.tx.chans.2 (sectionLength_lt hinv.cfg hok.fits)
  have hframe := happ.withWriter_eq
  have hraw : (s.tx.writeSection s.cfg len.toNat).raw =
      (Tx.forgetSource s.cfg len.toNat (s.tx.sectionClosed s.cfg len.toNat)).raw := (congrArg Tx.raw hframe).symm
  have htick : (s.tx.writeSection s.cfg len.toNat).freeTick =
      (Tx.forgetSource s.cfg len.toNat (s.tx.sectionClosed s.cfg len.toNat)).freeTick := (congrArg Tx.freeTick hframe).symm
  refine ⟨_, exec_gSection_ok hinv hready hok, ?_, fun a ha => ?_⟩
  · rw [hraw, htick]; exact happ
  · rw [hraw, Tx.readByte_forgetSource _ _ _ ha]; rfl

/-! ## A file of one section -/

/-- Settles O58: `G.SECTION` and `G.FINAL` complete, and `fileRoundTrip` says what a parser makes of the file; a section
leaves the header registers alone. -/
theorem oneSectionRoundTrip : Obligations.OneSectionRoundTrip := by
  intro s len hinv hfresh hok hcar
  have hsection := exec_gSection_ok hinv hfresh.ready hok
  have hframe := (Tx.writeSection_appended hinv.cfg hinv.tx.writer hinv.tx.chans.2
    (sectionLength_lt hinv.cfg hok.fits)).withWriter_eq
  have hflags : (s.tx.writeSection s.cfg len.toNat).flags = s.tx.flags := (congrArg Tx.flags hframe).symm
  have hmtime : (s.tx.writeSection s.cfg len.toNat).mtime = s.tx.mtime := (congrArg Tx.mtime hframe).symm
  have hsize : (s.tx.writeSection s.cfg len.toNat).rawSize = s.tx.rawSize := (congrArg Tx.rawSize hframe).symm
  have hname : (s.tx.writeSection s.cfg len.toNat).name = s.tx.name := (congrArg Tx.name hframe).symm
  obtain ⟨s2, hfinal, -⟩ := exec_next .gFinal
    { s with tx := (s.tx.writeSection s.cfg len.toNat).respond len.toNat }
  refine ⟨_, s2, hsection, hfinal, fun r hr hrfresh => ?_⟩
  have h := fileRoundTrip s _ s2 _ hinv hfresh (.written len .start hcar hsection rfl) (by simp) hfinal r hr hrfresh
  simpa only [Tx.respond_flags, Tx.respond_mtime, Tx.respond_rawSize, Tx.respond_name, hflags, hmtime, hsize, hname,
    List.nil_append] using h

end Sys2Proof.Machine
end

section
/-! PROOFS. The command encoding (30_encoding.md R100 to R106): what the decoder makes of a word is said by the word's three
fields, once for each of the formats `Z`, `N` and `C`. -/

namespace Sys2Proof.Machine

/-! ## The three formats -/

section Formats

variable (op n : Byte) (ch : BitVec 16) (a : U32) (b : Word) (i : Instr)

theorem op_cwZ : (⟨cwZ op, a, b⟩ : Command).op = op.toNat := congrArg BitVec.toNat (cwZ_op op)

theorem op_cwN : (⟨cwN op n, a, b⟩ : Command).op = op.toNat := congrArg BitVec.toNat (cwN_op op n)

theorem op_cwC : (⟨cwC op ch, a, b⟩ : Command).op = op.toNat := congrArg BitVec.toNat (cwC_op op ch)

theorem n_cwN : (⟨cwN op n, a, b⟩ : Command).n = n := cwN_n op n

theorem ch_cwC : (⟨cwC op ch, a, b⟩ : Command).ch = ch := cwC_ch op ch

/-- The fields a format does not use are zero in the words the encoder builds (R102). -/
theorem formatZ_cwZ : (⟨cwZ op, a, b⟩ : Command).formatZ i = .ok i := if_pos ⟨cwZ_n op, cwZ_ch op⟩

theorem formatN_cwN : (⟨cwN op n, a, b⟩ : Command).formatN i = .ok i := if_pos (cwN_ch op n)

theorem formatC_cwC : (⟨cwC op ch, a, b⟩ : Command).formatC i = .ok i := if_pos (cwC_n op ch)

end Formats

/-- What a format accepts, an unused field being zero (R102). -/
theorem Command.formatZ_eq_ok {c : Command} {i j : Instr} :
    c.formatZ i = .ok j ↔ (c.n = 0 ∧ c.ch = 0) ∧ i = j := by
  rw [Command.formatZ]; split <;> simp_all

theorem Command.formatN_eq_ok {c : Command} {i j : Instr} : c.formatN i = .ok j ↔ c.ch = 0 ∧ i = j := by
  rw [Command.formatN]; split <;> simp_all

theorem Command.formatC_eq_ok {c : Command} {i j : Instr} : c.formatC i = .ok j ↔ c.n = 0 ∧ i = j := by
  rw [Command.formatC]; split <;> simp_all

/-! ## Decoding an encoding -/

theorem decode_encode (i : Instr) : decode (encode i) = .ok i := by
  cases i <;>
    simp only [encode, decode, op_cwZ, op_cwN, op_cwC, n_cwN, ch_cwC, formatZ_cwZ, formatN_cwN, formatC_cwC] <;> rfl

theorem fits_encode {K : Config} {i : Instr} (h : i.wellFormed K = true) : Word.fits K (encode i).b = true := by
  have hzero : Word.fits K 0 = true := decide_eq_true (Nat.two_pow_pos _)
  cases i
  all_goals first | exact h | exact hzero

/-- Settles O1: `decode_encode`, and the `B` of a well-formed command is not cut. -/
theorem decodeInvertsEncode : Obligations.DecodeInvertsEncode := by
  intro K i hi
  exact ⟨decode_encode i, by rw [narrowed_of_fits (fits_encode hi), decode_encode]⟩

/-! ## Words that match a row -/

/-- The command word of a command matches the row of the command (R102). -/
theorem commandWord_matches (i : Instr) : i.commandWord &&& i.tableRow.2 = i.tableRow.1 := by
  cases i <;>
    simp only [Instr.commandWord, encode, Instr.tableRow, Laws.cwZ_and, Laws.cwN_and, Laws.cwC_and] <;> rfl

theorem Command.op_eq {c : Command} {op : Byte} (h : c.op = op.toNat) : c.cw.extractLsb' 0 8 = op :=
  BitVec.eq_of_toNat_eq h

theorem cwZ_eq {c : Command} {op : Byte} (h : c.op = op.toNat) (hn : c.n = 0) (hch : c.ch = 0) : cwZ op = c.cw :=
  cw_fields (by rw [cwZ_op, Command.op_eq h]) (by rw [cwZ_n]; exact hn.symm) (by rw [cwZ_ch]; exact hch.symm)

theorem cwN_eq {c : Command} {op : Byte} (h : c.op = op.toNat) (hch : c.ch = 0) : cwN op c.n = c.cw :=
  cw_fields (by rw [cwN_op, Command.op_eq h]) (by rw [cwN_n]; rfl) (by rw [cwN_ch]; exact hch.symm)

theorem cwC_eq {c : Command} {op : Byte} (h : c.op = op.toNat) (hn : c.n = 0) : cwC op c.ch = c.cw :=
  cw_fields (by rw [cwC_op, Command.op_eq h]) (by rw [cwC_n]; exact hn.symm) (by rw [cwC_ch]; rfl)

/-- A word that decodes is the command word of what it decodes to (R102). -/
theorem commandWord_of_decode {c : Command} {i : Instr} (h : decode c = .ok i) : i.commandWord = c.cw := by
  unfold decode at h
  split at h
  case h_38 => cases h
  all_goals
    simp only [Command.formatZ_eq_ok, Command.formatN_eq_ok, Command.formatC_eq_ok] at h
    obtain ⟨hzero, rfl⟩ := h
    rename_i hop
    simp only [Instr.commandWord, encode]
    with_reducible
      first
        | refine cwZ_eq ?_ hzero.1 hzero.2
        | refine cwN_eq ?_ hzero
        | refine cwC_eq ?_ hzero
    exact hop

/-- A word under the mask of a row keeps the fields the mask covers. -/
theorem extract_and_mask {cw mask row : U32} {lo n : Nat} (h : cw &&& mask = row)
    (hm : mask.extractLsb' lo n = BitVec.allOnes n) : cw.extractLsb' lo n = row.extractLsb' lo n := by
  rw [← h, BitVec.extractLsb'_and, hm, BitVec.and_allOnes]

theorem Command.n_of_mask {c : Command} {mask row : U32} (h : c.cw &&& mask = row)
    (hm : mask.extractLsb' 8 8 = BitVec.allOnes 8) (hr : row.extractLsb' 8 8 = 0) : c.n = 0 :=
  (extract_and_mask h hm).trans hr

theorem Command.ch_of_mask {c : Command} {mask row : U32} (h : c.cw &&& mask = row)
    (hm : mask.extractLsb' 16 16 = BitVec.allOnes 16) (hr : row.extractLsb' 16 16 = 0) : c.ch = 0 :=
  (extract_and_mask h hm).trans hr

/-- A word that matches a row decodes to a command of that row (R102). -/
theorem decode_of_matches {c : Command} {i : Instr} (h : c.cw &&& i.tableRow.2 = i.tableRow.1) :
    ∃ j, decode c = .ok j ∧ j.tableRow = i.tableRow := by
  cases i
  all_goals
    simp only [Instr.tableRow] at h
    have hop := congrArg BitVec.toNat (extract_and_mask (lo := 0) (n := 8) h (by decide))
    simp only [decode, Command.op, hop]
    first
      | have hc : c.ch = 0 ∧ c.n = 0 :=
          ⟨Command.ch_of_mask h (by decide) (by decide), Command.n_of_mask h (by decide) (by decide)⟩
        exact ⟨_, if_pos hc.symm, rfl⟩
      | have hc : c.ch = 0 := Command.ch_of_mask h (by decide) (by decide)
        exact ⟨_, if_pos hc, rfl⟩
      | have hn : c.n = 0 := Command.n_of_mask h (by decide) (by decide)
        exact ⟨_, if_pos hn, rfl⟩

/-- Settles O2: the two directions, and that a word which decodes is its command's own. -/
theorem decodeMatchesRow : Obligations.DecodeMatchesRow := by
  intro c
  refine ⟨fun i hi => ⟨?_, commandWord_of_decode hi⟩, fun _ => decode_of_matches⟩
  rw [← commandWord_of_decode hi, commandWord_matches]

/-- Settles O3: the words are closed, and the decoder runs on them. -/
theorem sampleWordsDecode : Obligations.SampleWordsDecode := by
  unfold Obligations.SampleWordsDecode
  decide

/-- What the decoder reads from a latched command is well-formed: `B` has `W` bits by then (R106, log 18). -/
theorem wellFormed_of_decode {K : Config} {c : Command} {i : Instr} (h : decode (narrowed K c) = .ok i) :
    i.wellFormed K = true := by
  have hb : Word.fits K (narrowed K c).b = true := by
    refine decide_eq_true (Nat.lt_of_le_of_lt ?_ (Nat.mod_lt c.b.toNat (Nat.two_pow_pos K.wordBits)))
    rw [narrowed, BitVec.toNat_ofNat]
    exact Nat.mod_le _ _
  unfold decode at h
  split at h
  case h_38 => cases h
  all_goals
    simp only [Command.formatZ_eq_ok, Command.formatN_eq_ok, Command.formatC_eq_ok] at h
    obtain ⟨-, rfl⟩ := h
    first | exact hb | rfl

end Sys2Proof.Machine
end

section
/-! PROOFS. The step (00_scope.md R14, 10_state.md R20, R21) and the fault model (60_exceptions.md R343 to R348): which engine
a command reaches, what stands in front of its work, and what a fault leaves as it was. -/

namespace Sys2Proof.Machine

/-! ## The command on its engine -/

/-- TX with a command's `CW`, `A`, `B` on its interface (R21). -/
def Tx.latch (K : Config) (c : Command) (t : Tx) : Tx := { t with port := t.port.latched K c }

/-- RX with a command's `CW`, `A`, `B` on its interface (R21). -/
def Rx.latch (K : Config) (c : Command) (r : Rx) : Rx := { r with port := r.port.latched K c }

section Steps

variable {s : State} {c : Command} {rest : List Command} (hp : s.pending = c :: rest)
include hp

/-- A step with a TX command: latched and executed, or refused as illegal (R14, R343, R348). -/
theorem step_tx (h7 : c.cw.getLsbD 7 = false) :
    (∃ i, decode (narrowed s.cfg c) = .ok i ∧
      step s = exec i { s with pending := rest, tx := s.tx.latch s.cfg c }) ∨
    (∃ e, decode (narrowed s.cfg c) = .error e ∧
      step s = .next ({ s with pending := rest, tx := s.tx.latch s.cfg c }.illegal c.cw false)) := by
  have hstep := step_command hp
  rw [State.latch_tx_eq _ h7, Command.selectsRx_eq, h7] at hstep
  cases hd : decode (narrowed s.cfg c) with
  | ok i => rw [hd] at hstep; exact .inl ⟨i, rfl, hstep⟩
  | error e => rw [hd] at hstep; exact .inr ⟨e, rfl, hstep⟩

/-- A step with an RX command: latched and executed, or refused as illegal (R14, R343, R348). -/
theorem step_rx (h7 : c.cw.getLsbD 7 = true) :
    (∃ i, decode (narrowed s.cfg c) = .ok i ∧
      step s = exec i { s with pending := rest, rx := s.rx.latch s.cfg c }) ∨
    (∃ e, decode (narrowed s.cfg c) = .error e ∧
      step s = .next ({ s with pending := rest, rx := s.rx.latch s.cfg c }.illegal c.cw true)) := by
  have hstep := step_command hp
  rw [State.latch_rx_eq _ h7, Command.selectsRx_eq, h7] at hstep
  cases hd : decode (narrowed s.cfg c) with
  | ok i => rw [hd] at hstep; exact .inl ⟨i, rfl, hstep⟩
  | error e => rw [hd] at hstep; exact .inr ⟨e, rfl, hstep⟩

end Steps

/-- What is decoded from the latched command has the host's command word. -/
theorem commandWord_of_narrowed {K : Config} {c : Command} {i : Instr} (h : decode (narrowed K c) = .ok i) :
    i.commandWord = c.cw := (commandWord_of_decode h).trans rfl

/-- Settles O4. -/
theorem stepRunsDecoded : Obligations.StepRunsDecoded := by
  intro s c rest i hp hd
  refine ⟨wellFormed_of_decode hd, fun h7 => ?_, fun h7 => ?_⟩
  · rcases step_tx hp h7 with ⟨j, hj, hstep⟩ | ⟨e, he, -⟩
    · cases hd.symm.trans hj; exact hstep
    · cases hd.symm.trans he
  · rcases step_rx hp h7 with ⟨j, hj, hstep⟩ | ⟨e, he, -⟩
    · cases hd.symm.trans hj; exact hstep
    · cases hd.symm.trans he

theorem State.illegal_tx {s : State} (h : s.tx.flt.fault = 0) (cw : U32) :
    s.illegal cw false = { s with tx := s.tx.raise ⟨.illegalCommand, cw.toNat, 0⟩ } := by
  simp [State.illegal, Tx.faulted_eq_false.2 h, illegalCommand]

theorem State.illegal_rx {s : State} (h : s.rx.flt.fault = 0) (cw : U32) :
    s.illegal cw true = { s with rx := s.rx.raise ⟨.illegalCommand, cw.toNat, 0⟩ } := by
  simp [State.illegal, Rx.faulted_eq_false.2 h, illegalCommand]

theorem State.illegal_tx_faulted {s : State} (h : s.tx.flt.fault ≠ 0) (cw : U32) :
    s.illegal cw false = { s with tx := s.tx.answerFaulted } := by
  simp [State.illegal, Tx.faulted_eq_true.2 h]

theorem State.illegal_rx_faulted {s : State} (h : s.rx.flt.fault ≠ 0) (cw : U32) :
    s.illegal cw true = { s with rx := s.rx.answerFaulted } := by
  simp [State.illegal, Rx.faulted_eq_true.2 h]

/-- Settles O5: a word that decodes is the command word of some command, which matches its row. -/
theorem illegalWordFaults : Obligations.IllegalWordFaults := by
  intro s c rest hp hno
  have hnone : ∀ i, decode (narrowed s.cfg c) ≠ .ok i := fun i hd =>
    hno i (commandWord_of_narrowed hd ▸ commandWord_matches i)
  refine ⟨fun h7 hf => ?_, fun h7 hf => ?_⟩
  · rcases step_tx hp h7 with ⟨i, hd, -⟩ | ⟨e, -, hstep⟩
    · exact absurd hd (hnone i)
    · exact hstep.trans (congrArg _ (State.illegal_tx (s := { s with pending := rest, tx := s.tx.latch s.cfg c }) hf c.cw))
  · rcases step_rx hp h7 with ⟨i, hd, -⟩ | ⟨e, -, hstep⟩
    · exact absurd hd (hnone i)
    · exact hstep.trans (congrArg _ (State.illegal_rx (s := { s with pending := rest, rx := s.rx.latch s.cfg c }) hf c.cw))

/-! ## One engine at a time -/

theorem exec_onTx {i : Instr} (h7 : i.commandWord.getLsbD 7 = false) : ∃ f, ∀ s, exec i s = onTx f s := by
  rcases exec_engine i with ⟨-, f⟩ | ⟨h, -⟩
  · exact f
  · rw [h7] at h; cases h

theorem exec_onRx {i : Instr} (h7 : i.commandWord.getLsbD 7 = true) : ∃ f, ∀ s, exec i s = onRx f s := by
  rcases exec_engine i with ⟨h, -⟩ | ⟨-, f⟩
  · rw [h7] at h; cases h
  · exact f

/-- What a step with a TX command makes of TX is a function of TX and of the parameter record (R20, R89, R101). -/
theorem step_actsOnTx (K : Config) {c : Command} (h7 : c.cw.getLsbD 7 = false) :
    ∃ f : Tx → Tx, ∀ (s : State) (rest : List Command), s.cfg = K → s.pending = c :: rest →
      step s = .next { s with pending := rest, tx := f s.tx } := by
  cases hd : decode (narrowed K c) with
  | ok i =>
    obtain ⟨f, hf⟩ := exec_onTx (commandWord_of_narrowed hd ▸ h7)
    refine ⟨fun t => f K (t.latch K c), fun s rest hK hp => ?_⟩
    subst hK
    rcases step_tx hp h7 with ⟨j, hj, hstep⟩ | ⟨e, he, -⟩
    · cases hd.symm.trans hj; rw [hstep, hf]; rfl
    · cases hd.symm.trans he
  | error e =>
    refine ⟨fun t => if (t.latch K c).faulted then (t.latch K c).answerFaulted
      else (t.latch K c).raise (illegalCommand c.cw), fun s rest hK hp => ?_⟩
    subst hK
    rcases step_tx hp h7 with ⟨j, hj, -⟩ | ⟨e, -, hstep⟩
    · cases hd.symm.trans hj
    · exact hstep

/-- What a step with an RX command makes of RX is a function of RX and of the parameter record (R20, R89, R101). -/
theorem step_actsOnRx (K : Config) {c : Command} (h7 : c.cw.getLsbD 7 = true) :
    ∃ f : Rx → Rx, ∀ (s : State) (rest : List Command), s.cfg = K → s.pending = c :: rest →
      step s = .next { s with pending := rest, rx := f s.rx } := by
  cases hd : decode (narrowed K c) with
  | ok i =>
    obtain ⟨f, hf⟩ := exec_onRx (commandWord_of_narrowed hd ▸ h7)
    refine ⟨fun r => f K (r.latch K c), fun s rest hK hp => ?_⟩
    subst hK
    rcases step_rx hp h7 with ⟨j, hj, hstep⟩ | ⟨e, he, -⟩
    · cases hd.symm.trans hj; rw [hstep, hf]; rfl
    · cases hd.symm.trans he
  | error e =>
    refine ⟨fun r => if (r.latch K c).faulted then (r.latch K c).answerFaulted
      else (r.latch K c).raise (illegalCommand c.cw), fun s rest hK hp => ?_⟩
    subst hK
    rcases step_rx hp h7 with ⟨j, hj, -⟩ | ⟨e, -, hstep⟩
    · cases hd.symm.trans hj
    · exact hstep

/-- Settles O6. -/
theorem stepNeverStops : Obligations.StepNeverStops := by
  intro s
  refine ⟨?_, step_idle⟩
  cases hp : s.pending with
  | nil => exact ⟨s, step_idle hp, rfl, hp⟩
  | cons c rest =>
    cases h7 : c.cw.getLsbD 7 with
    | false =>
      obtain ⟨f, hf⟩ := step_actsOnTx s.cfg h7
      exact ⟨_, hf s rest rfl hp, rfl, rfl⟩
    | true =>
      obtain ⟨f, hf⟩ := step_actsOnRx s.cfg h7
      exact ⟨_, hf s rest rfl hp, rfl, rfl⟩

/-- A step with a command for one engine leaves the other alone. -/
theorem step_frame {s s' : State} {c : Command} {rest : List Command} (hp : s.pending = c :: rest)
    (hs : step s = .next s') :
    (c.cw.getLsbD 7 = false → s'.rx = s.rx) ∧ (c.cw.getLsbD 7 = true → s'.tx = s.tx) := by
  refine ⟨fun h7 => ?_, fun h7 => ?_⟩
  · obtain ⟨f, hf⟩ := step_actsOnTx s.cfg h7
    cases (hf s rest rfl hp).symm.trans hs
    rfl
  · obtain ⟨f, hf⟩ := step_actsOnRx s.cfg h7
    cases (hf s rest rfl hp).symm.trans hs
    rfl

/-- Settles O9. -/
theorem enginesIndependent : Obligations.EnginesIndependent := by
  refine ⟨fun s s' c rest hp hs => step_frame hp hs, fun s t s' t' c rest rest' hp hq hcfg hs ht => ⟨fun h7 he => ?_, fun h7 he => ?_⟩⟩
  · obtain ⟨f, hf⟩ := step_actsOnTx s.cfg h7
    cases (hf s rest rfl hp).symm.trans hs
    cases (hf t rest' hcfg.symm hq).symm.trans ht
    exact congrArg f he
  · obtain ⟨f, hf⟩ := step_actsOnRx s.cfg h7
    cases (hf s rest rfl hp).symm.trans hs
    cases (hf t rest' hcfg.symm hq).symm.trans ht
    exact congrArg f he

/-! ## Behind which preamble a command stands -/

/-- The family of a command stands in its opcode (R101). -/
theorem extract_family (cw : U32) : cw.extractLsb' 4 3 = (cw.extractLsb' 0 8).extractLsb' 4 3 := by
  refine BitVec.eq_of_getLsbD_eq fun i hi => ?_
  have h8 : 4 + i < 8 := by omega
  simp only [BitVec.getLsbD_extractLsb', hi, h8, decide_true, Bool.true_and, Nat.zero_add]

/-- The TX commands: the reset, the register read, the other system commands behind the preamble of R348, the bit-stream,
codec and container commands behind that of R152. -/
theorem exec_tx (i : Instr) (h7 : i.commandWord.getLsbD 7 = false) :
    i = .txReset ∨ (∃ addr, i = .txCsrr addr) ∨
    (i.commandWord.extractLsb' 4 3 = 0 ∧ ∃ body : Config → Tx → Except Raise (Nat × Tx),
      ∀ s, exec i s = onTx (fun K t => t.command (body K)) s) ∨
    ∃ body : Config → Tx → Except Raise (Nat × Tx),
      ∀ s, exec i s = onTx (fun K t => t.streamCommand i.commandWord (body K)) s := by
  have hlow : (7 : Nat) < 8 := by decide
  cases i
  case txReset => exact .inl rfl
  case txCsrr addr => exact .inr (.inl ⟨addr, rfl⟩)
  case txCsrw | txRawld | txRawst =>
    simp only [Instr.commandWord, encode, exec, execTxCsrw, execTxRawld, execTxRawst]
    refine .inr (.inr (.inl ⟨?_, _, fun _ => rfl⟩))
    rw [extract_family]
    simp only [cwZ_op, cwN_op]
    decide
  case wBits | wUnary | wStr | wWindup | wFlush | wClose | eMexpg | eWord | eVec | eHreset | gAddch | gResetch |
      gRestore | gSection | gFinal =>
    simp only [Instr.commandWord, encode, exec, execWBits, execWUnary, execWStr, execWWindup, execWFlush, execWClose,
      execEMexpg, execEWord, execEVec, execEHreset, execGAddch, execGResetch, execGRestore, execGSection, execGFinal]
    exact .inr (.inr (.inr ⟨_, fun _ => rfl⟩))
  all_goals
    simp only [Instr.commandWord, encode, cwZ_low _ hlow, cwN_low _ _ hlow, cwC_low _ _ hlow] at h7
    exact absurd h7 (by decide)

/-- The RX commands: the reset, the register read, the others behind the preamble of R348. -/
theorem exec_rx (i : Instr) (h7 : i.commandWord.getLsbD 7 = true) :
    i = .rxReset ∨ (∃ addr, i = .rxCsrr addr) ∨
    ∃ f : Config → Rx → Rx, (∀ K r, r.flt.fault ≠ 0 → f K r = r.answerFaulted) ∧ ∀ s, exec i s = onRx f s := by
  have hlow : (7 : Nat) < 8 := by decide
  cases i
  case rxReset => exact .inl rfl
  case rxCsrr addr => exact .inr (.inl ⟨addr, rfl⟩)
  case rxCsrw | rxRawld | rxRawst | rWindup | dHreset | pAddch | pResetch =>
    simp only [exec, execRxCsrw, execRxRawld, execRxRawst, execRWindup, execDHreset, execPAddch, execPResetch]
    exact .inr (.inr ⟨_, fun _ _ hf => Rx.simpleCommand_faulted hf _, fun _ => rfl⟩)
  case rBits | rUnary | rStr | dMexpg | dWord | dVec | pHeader | pSection =>
    simp only [exec, execRBits, execRUnary, execRStr, execDMexpg, execDWord, execDVec, execPHeader, execPSection]
    exact .inr (.inr ⟨_, fun _ _ hf => Rx.command_faulted hf _ _ _, fun _ => rfl⟩)
  all_goals
    simp only [Instr.commandWord, encode, cwZ_low _ hlow, cwN_low _ _ hlow, cwC_low _ _ hlow] at h7
    exact absurd h7 (by decide)

theorem Tx.streamCommand_faulted {t : Tx} (h : t.flt.fault ≠ 0) (cw : U32) (body : Tx → Except Raise (Nat × Tx)) :
    t.streamCommand cw body = t.answerFaulted := Tx.command_faulted h _

/-- A register read leaves TX alone but for the response, and for the record where it refuses the address (R302). -/
theorem Tx.csrRead_cases (K : Config) (addr : Nat) (t : Tx) :
    (∃ v, t.csrRead K addr = t.respond v) ∨ ∃ e, t.csrRead K addr = t.raise e := by
  unfold Tx.csrRead
  split
  · exact .inr ⟨_, rfl⟩
  · exact .inl ⟨_, rfl⟩

theorem Rx.csrRead_cases (K : Config) (addr : Nat) (r : Rx) :
    (∃ v, r.csrRead K addr = r.respond v) ∨ ∃ e, r.csrRead K addr = r.raise e := by
  unfold Rx.csrRead
  split
  · exact .inr ⟨_, rfl⟩
  · exact .inl ⟨_, rfl⟩

/-- Settles O13: the commands of a family other than 0 stand behind the preamble of R152. -/
theorem closedRefuses : Obligations.ClosedRefuses := by
  intro i s h7 hfamily
  have hreset : (cwZ 0x00).extractLsb' 4 3 = 0 := by decide
  have hcsrr : (cwZ 0x01).extractLsb' 4 3 = 0 := by decide
  rcases exec_tx i h7 with rfl | ⟨addr, rfl⟩ | ⟨hzero, -⟩ | ⟨body, hx⟩
  · exact absurd hreset hfamily
  · exact absurd hcsrr hfamily
  · exact absurd hzero hfamily
  · rw [hx, onTx_next]
    exact ⟨fun hf => by rw [Tx.streamCommand_faulted hf]; rfl, fun hf hc => by rw [Tx.streamCommand_closed hf hc]⟩

/-! ## Faults -/

/-- What the four commands that a Faulted engine still executes are decoded from (R101, R106). -/
theorem decode_resetOrCsrr {K : Config} {c : Command} :
    (c.cw = 0x00 → decode (narrowed K c) = .ok .txReset) ∧ (c.cw = 0x01 → decode (narrowed K c) = .ok (.txCsrr c.a)) ∧
    (c.cw = 0x80 → decode (narrowed K c) = .ok .rxReset) ∧ (c.cw = 0x81 → decode (narrowed K c) = .ok (.rxCsrr c.a)) := by
  refine ⟨fun h => ?_, fun h => ?_, fun h => ?_, fun h => ?_⟩ <;> rw [narrowed, h]
  · exact decode_encode .txReset
  · exact decode_encode (.txCsrr c.a)
  · exact decode_encode .rxReset
  · exact decode_encode (.rxCsrr c.a)

/-- A command but the reset and the register read, on a Faulted TX engine (R346). -/
theorem exec_tx_faulted {i : Instr} {s : State} (h7 : i.commandWord.getLsbD 7 = false) (hreset : i.commandWord ≠ 0x00)
    (hcsrr : i.commandWord ≠ 0x01) (hf : s.tx.flt.fault ≠ 0) : exec i s = .next { s with tx := s.tx.answerFaulted } := by
  rcases exec_tx i h7 with rfl | ⟨addr, rfl⟩ | ⟨-, body, hx⟩ | ⟨body, hx⟩
  · exact absurd rfl hreset
  · exact absurd rfl hcsrr
  · rw [hx, onTx_next, Tx.command_faulted hf]
  · rw [hx, onTx_next, Tx.streamCommand_faulted hf]

/-- A command but the reset and the register read, on a Faulted RX engine (R346). -/
theorem exec_rx_faulted {i : Instr} {s : State} (h7 : i.commandWord.getLsbD 7 = true) (hreset : i.commandWord ≠ 0x80)
    (hcsrr : i.commandWord ≠ 0x81) (hf : s.rx.flt.fault ≠ 0) : exec i s = .next { s with rx := s.rx.answerFaulted } := by
  rcases exec_rx i h7 with rfl | ⟨addr, rfl⟩ | ⟨f, hfaulted, hx⟩
  · exact absurd rfl hreset
  · exact absurd rfl hcsrr
  · rw [hx, onRx_next, hfaulted _ _ hf]

theorem Tx.raise_flt_faulted {t : Tx} (h : t.flt.fault ≠ 0) (e : Raise) : (t.raise e).flt = t.flt :=
  FaultRecord.record_later h e

theorem Rx.raise_flt_faulted {r : Rx} (h : r.flt.fault ≠ 0) (e : Raise) : (r.raise e).flt = r.flt :=
  FaultRecord.record_later h e

section Sticky

variable {s s' : State} {c : Command} {rest : List Command} (hp : s.pending = c :: rest)
include hp

/-- A step on a Faulted TX engine, but with the reset or the register read (R346). -/
theorem step_tx_faulted (hf : s.tx.flt.fault ≠ 0) (h7 : c.cw.getLsbD 7 = false) (hreset : c.cw ≠ 0x00)
    (hcsrr : c.cw ≠ 0x01) :
    step s = .next { s with pending := rest, tx := (s.tx.latch s.cfg c).answerFaulted } := by
  rcases step_tx hp h7 with ⟨i, hd, hstep⟩ | ⟨e, -, hstep⟩
  · rw [← commandWord_of_narrowed hd] at h7 hreset hcsrr
    exact hstep.trans (exec_tx_faulted (s := { s with pending := rest, tx := s.tx.latch s.cfg c }) h7 hreset hcsrr hf)
  · exact hstep.trans
      (congrArg _ (State.illegal_tx_faulted (s := { s with pending := rest, tx := s.tx.latch s.cfg c }) hf c.cw))

/-- A step on a Faulted RX engine, but with the reset or the register read (R346). -/
theorem step_rx_faulted (hf : s.rx.flt.fault ≠ 0) (h7 : c.cw.getLsbD 7 = true) (hreset : c.cw ≠ 0x80)
    (hcsrr : c.cw ≠ 0x81) :
    step s = .next { s with pending := rest, rx := (s.rx.latch s.cfg c).answerFaulted } := by
  rcases step_rx hp h7 with ⟨i, hd, hstep⟩ | ⟨e, -, hstep⟩
  · rw [← commandWord_of_narrowed hd] at h7 hreset hcsrr
    exact hstep.trans (exec_rx_faulted (s := { s with pending := rest, rx := s.rx.latch s.cfg c }) h7 hreset hcsrr hf)
  · exact hstep.trans
      (congrArg _ (State.illegal_rx_faulted (s := { s with pending := rest, rx := s.rx.latch s.cfg c }) hf c.cw))

theorem step_tx_decoded {i : Instr} (h7 : c.cw.getLsbD 7 = false) (hd : decode (narrowed s.cfg c) = .ok i) :
    step s = exec i { s with pending := rest, tx := s.tx.latch s.cfg c } := by
  rcases step_tx hp h7 with ⟨j, hj, hstep⟩ | ⟨e, he, -⟩
  · cases hd.symm.trans hj; exact hstep
  · cases hd.symm.trans he

theorem step_rx_decoded {i : Instr} (h7 : c.cw.getLsbD 7 = true) (hd : decode (narrowed s.cfg c) = .ok i) :
    step s = exec i { s with pending := rest, rx := s.rx.latch s.cfg c } := by
  rcases step_rx hp h7 with ⟨j, hj, hstep⟩ | ⟨e, he, -⟩
  · cases hd.symm.trans hj; exact hstep
  · cases hd.symm.trans he

/-- Only the reset changes a TX record that is set (R346). -/
theorem step_tx_record (hs : step s = .next s') (hf : s.tx.flt.fault ≠ 0) (hreset : c.cw ≠ 0x00) :
    s'.tx.flt = s.tx.flt := by
  cases h7 : c.cw.getLsbD 7 with
  | true => rw [(step_frame hp hs).2 h7]
  | false =>
    by_cases hcsrr : c.cw = 0x01
    · have hd : decode (narrowed s.cfg c) = .ok (.txCsrr c.a) := decode_resetOrCsrr.2.1 hcsrr
      cases (step_tx_decoded hp h7 hd).symm.trans hs
      rcases Tx.csrRead_cases s.cfg c.a.toNat (s.tx.latch s.cfg c) with ⟨v, hv⟩ | ⟨e, he⟩
      · exact (congrArg Tx.flt hv).trans rfl
      · exact (congrArg Tx.flt he).trans (Tx.raise_flt_faulted (t := s.tx.latch s.cfg c) hf e)
    · cases (step_tx_faulted hp hf h7 hreset hcsrr).symm.trans hs
      rfl

/-- Only the reset changes an RX record that is set (R346). -/
theorem step_rx_record (hs : step s = .next s') (hf : s.rx.flt.fault ≠ 0) (hreset : c.cw ≠ 0x80) :
    s'.rx.flt = s.rx.flt := by
  cases h7 : c.cw.getLsbD 7 with
  | false => rw [(step_frame hp hs).1 h7]
  | true =>
    by_cases hcsrr : c.cw = 0x81
    · have hd : decode (narrowed s.cfg c) = .ok (.rxCsrr c.a) := decode_resetOrCsrr.2.2.2 hcsrr
      cases (step_rx_decoded hp h7 hd).symm.trans hs
      rcases Rx.csrRead_cases s.cfg c.a.toNat (s.rx.latch s.cfg c) with ⟨v, hv⟩ | ⟨e, he⟩
      · exact (congrArg Rx.flt hv).trans rfl
      · exact (congrArg Rx.flt he).trans (Rx.raise_flt_faulted (r := s.rx.latch s.cfg c) hf e)
    · cases (step_rx_faulted hp hf h7 hreset hcsrr).symm.trans hs
      rfl

theorem step_tx_cleared (hs : step s = .next s') (hreset : c.cw = 0x00) : s'.tx.flt = ⟨0, 0, 0⟩ := by
  have hd : decode (narrowed s.cfg c) = .ok .txReset := decode_resetOrCsrr.1 hreset
  have h7 : c.cw.getLsbD 7 = false := by rw [hreset]; decide
  cases (step_tx_decoded hp h7 hd).symm.trans hs
  rfl

theorem step_rx_cleared (hs : step s = .next s') (hreset : c.cw = 0x80) : s'.rx.flt = ⟨0, 0, 0⟩ := by
  have hd : decode (narrowed s.cfg c) = .ok .rxReset := decode_resetOrCsrr.2.2.1 hreset
  have h7 : c.cw.getLsbD 7 = true := by rw [hreset]; decide
  cases (step_rx_decoded hp h7 hd).symm.trans hs
  rfl

end Sticky

theorem Tx.status_faulted {t : Tx} (h : t.flt.fault ≠ 0) : t.status % 2 = 1 := by
  rw [Tx.status, Tx.faulted_eq_true.2 h]
  simp only [bit, if_true]
  omega

theorem Rx.status_faulted {r : Rx} (h : r.flt.fault ≠ 0) : r.status % 2 = 1 := by
  rw [Rx.status, Rx.faulted_eq_true.2 h]
  simp only [bit, if_true]
  omega

/-- Settles O10. -/
theorem faultedIsSticky : Obligations.FaultedIsSticky := by
  refine ⟨fun s c rest hp => ⟨Tx.status_faulted, Rx.status_faulted, step_tx_faulted hp, step_rx_faulted hp⟩,
    fun s s' c rest hp hs => ⟨step_tx_record hp hs, step_rx_record hp hs, step_tx_cleared hp hs, step_rx_cleared hp hs,
      (step_frame hp hs).2, (step_frame hp hs).1⟩⟩

/-- Settles O11. -/
theorem raiseRecordsFirstFault : Obligations.RaiseRecordsFirstFault :=
  ⟨fun _ e => ⟨rfl, fun h => FaultRecord.record_first h e, fun h => FaultRecord.record_later h e, rfl⟩,
    fun _ e => ⟨rfl, fun h => FaultRecord.record_first h e, fun h => FaultRecord.record_later h e, rfl⟩⟩

/-- `t'` is `t` but for the response, and for the fault record where the answer is a fault (R345). -/
def Tx.FaultFrame (t t' : Tx) : Prop :=
  t'.port.st ≠ 0 → t' = { t with port := { t.port with st := t'.port.st, v := 0 }, flt := t'.flt }

theorem Tx.FaultFrame.command (t : Tx) (body : Tx → Except Raise (Nat × Tx)) : t.FaultFrame (t.command body) := by
  intro hst
  rcases Tx.command_cases t body with ⟨-, e⟩ | ⟨-, x, -, e⟩ | ⟨-, v, t', -, e⟩ <;> rw [e] at hst ⊢
  · rfl
  · rfl
  · exact absurd rfl hst

theorem Tx.FaultFrame.csrRead (K : Config) (addr : Nat) (t : Tx) : t.FaultFrame (t.csrRead K addr) := by
  intro hst
  rcases Tx.csrRead_cases K addr t with ⟨v, e⟩ | ⟨x, e⟩ <;> rw [e] at hst ⊢
  · exact absurd rfl hst
  · rfl

/-- Settles O12: a TX command raises before its body has changed anything. -/
theorem txFaultsChangeNothing : Obligations.TxFaultsChangeNothing := by
  intro i s s' h7 hx hst
  have hframe : ∃ t, s' = { s with tx := t } ∧ s.tx.FaultFrame t := by
    rcases exec_tx i h7 with rfl | ⟨addr, rfl⟩ | ⟨-, body, hbody⟩ | ⟨body, hbody⟩
    · cases hx; exact absurd rfl hst
    · cases hx; exact ⟨_, rfl, Tx.FaultFrame.csrRead _ _ _⟩
    · cases (hbody s).symm.trans hx; exact ⟨_, rfl, Tx.FaultFrame.command _ _⟩
    · cases (hbody s).symm.trans hx; exact ⟨_, rfl, Tx.FaultFrame.command _ _⟩
  obtain ⟨t, rfl, ht⟩ := hframe
  exact congrArg (fun u => { s with tx := u }) (ht hst)

/-! ## Reset -/

/-- Settles O14. -/
theorem powerOnValues : Obligations.PowerOnValues := by
  intro K
  simp [State.powerOn, Tx.reset, Rx.reset, FaultRecord.reset]

/-- Settles O15. -/
theorem txResetRestores : Obligations.TxResetRestores := fun s =>
  ⟨(s.tx.afterReset s.cfg).respond 0, rfl, rfl, rfl, rfl⟩

/-- Settles O16. -/
theorem rxResetRestores : Obligations.RxResetRestores := fun s =>
  ⟨(s.rx.afterReset s.cfg).respond 0, rfl, rfl, rfl, rfl⟩

end Sys2Proof.Machine
end

section
/-! PROOFS. Every command keeps the block's invariant (10_state.md, sections 2 to 5; 60_exceptions.md R341), and so does every
step; it holds after power-on. -/

namespace Sys2Proof.Machine

variable {K : Config}

/-! ## TX -/

/-- The writer emptied, its words sent or dropped: nothing else moves but `CLOSED`, which is only ever set. -/
theorem Tx.Inv.emptied {t u : Tx} {wbuf : List Word} {closed : Bool} {bitpos sunk : Nat} {sink : List Byte} (h : t.Inv K)
    (w : u.WriterInv K)
    (hu : u = { t with
      wbuf := wbuf, wptr := 0, woff := 0, closed := closed, bitpos := bitpos, sunk := sunk, sink := sink })
    (hc : t.closed = true → closed = true) : u.Inv K := by
  subst hu
  exact ⟨w, h.gstate, fun hf => hc (h.finalized hf), fun _ => ⟨rfl, rfl⟩, h.layout, h.counted, h.chans, h.flt, h.name,
    h.raw⟩

theorem Tx.Inv.flush (hK : K.Legal) {t : Tx} (h : t.Inv K) (hc : t.closed = false) (discard : Bool) :
    (t.flush K discard).Inv K := by
  cases discard with
  | false => exact h.extended hc (Tx.flush_keep_extended hK h.writer)
  | true =>
    obtain ⟨hu, -, -, -, w⟩ := Tx.flush_discard hK h.writer
    exact h.emptied w hu id

theorem Tx.Inv.close (hK : K.Legal) {t : Tx} (h : t.Inv K) : (t.close K).Inv K := by
  obtain ⟨hu, -, -, -, -, w⟩ := Tx.close_spec hK h.writer
  exact h.emptied w hu fun _ => rfl

theorem Tx.Inv.finalize {t : Tx} (h : t.Inv K) (hc : t.closed = true) : ({ t with gstate := .finalized } : Tx).Inv K :=
  ⟨h.writer.rebase { t with gstate := .finalized }, .inr (.inr rfl), fun _ => hc, h.closed, nofun, nofun, h.chans, h.flt,
    h.name, h.raw⟩

/-- Bits appended behind a change of the channel file. -/
theorem Tx.Inv.coded {t t' : Tx} {bits : List Bool} {cs : List Channel} (h : t.Inv K) (hc : t.closed = false)
    (hcs : ChansOk K cs) (ha : ({ t with chans := cs } : Tx).Appended K t' bits) : t'.Inv K :=
  (h.withChans hcs).extended hc ha.toExtended

/-- A command whose body is a check and then one new state. -/
theorem Tx.Inv.commandCheck {t : Tx} (h : t.Inv K) {check : Tx → Option Raise} {n : Tx → Nat} {u : Tx → Tx}
    (hu : check t = none → (u t).Inv K) : (t.command fun t => afterCheck (check t) (n t, u t)).Inv K := by
  refine h.command fun v t' _ hok => ?_
  obtain ⟨hc, he⟩ := afterCheck_eq_ok hok
  cases he
  exact hu hc

theorem Tx.Inv.streamCheck {t : Tx} (h : t.Inv K) {cw : U32} {check : Tx → Option Raise} {n : Tx → Nat} {u : Tx → Tx}
    (hu : t.Ready → check t = none → (u t).Inv K) :
    (t.streamCommand cw fun t => afterCheck (check t) (n t, u t)).Inv K := by
  refine h.streamCommand fun v t' hr hok => ?_
  obtain ⟨hc, he⟩ := afterCheck_eq_ok hok
  cases he
  exact hu hr hc

theorem Tx.Inv.streamOk {t : Tx} (h : t.Inv K) {cw : U32} {u : Tx → Tx} (hu : t.Ready → (u t).Inv K) :
    (t.streamCommand cw fun t => .ok (0, u t)).Inv K :=
  h.streamCommand fun v t' hr hok => by cases hok; exact hu hr

theorem Tx.Inv.csrRead {t : Tx} (h : t.Inv K) (addr : Nat) : (t.csrRead K addr).Inv K := by
  rcases Tx.csrRead_cases K addr t with ⟨v, e⟩ | ⟨x, e⟩ <;> rw [e]
  · exact h.withPort _
  · exact h.raise x

/-- TX at its reset values, whatever its interface, its memory, its sink and its draws are (R50, R300). -/
theorem Tx.reset_inv (hK : K.Legal) {raw : RawMem} (hraw : raw.Wf) (p : Port) (sink : List Byte) (tick : Nat) :
    ({ Tx.reset K with port := p, raw := raw, sink := sink, freeTick := tick } : Tx).Inv K :=
  ⟨(Tx.reset_writerInv hK).same rfl rfl rfl rfl rfl, .inl rfl, nofun, nofun, nofun, fun _ => ⟨rfl, rfl, rfl, rfl⟩,
    ChansOk.nil, FaultRecord.reset_ok, List.length_replicate, hraw⟩

section Coding

variable {t : Tx} (hK : K.Legal) (h : t.Inv K) (hready : t.Ready)
include hK h hready

theorem Tx.Inv.encWords {cw : U32} {c : Nat} (hc : chanCheck cw t.chans c = none) (v : Nat) :
    (t.encWords K c [v % 2 ^ (channelAt t.chans c).width]).Inv K := by
  obtain ⟨hreg, -, -⟩ := chanCheck_eq_none.1 hc
  have hch := h.chans.2 _ (channelAt_mem hreg)
  have hlt : ∀ x ∈ [v % 2 ^ (channelAt t.chans c).width], x < 2 ^ (channelAt t.chans c).width := by
    simp [Nat.mod_lt]
  have hone : 1 < 2 ^ K.wordBits := Nat.one_lt_two_pow (Nat.pos_iff_ne_zero.1 hK.wordBits_pos)
  exact h.coded hready.2 (h.chans.set (chanAfter_ok hch hlt)) (Tx.encWords_appended hK h.writer hreg hch hlt hone)

theorem Tx.Inv.encVec {cw : U32} {c addr n : Nat} (hc : vecCheck K cw t.chans c addr n = none)
    (hn : n < 2 ^ K.wordBits) : (t.encVec K c addr n).Inv K := by
  obtain ⟨hchan, -, -⟩ := vecCheck_eq_none.1 hc
  obtain ⟨hreg, -, -⟩ := chanCheck_eq_none.1 hchan
  have hch := h.chans.2 _ (channelAt_mem hreg)
  exact h.coded hready.2 (h.chans.set (chanAfter_ok hch (readWords_lt _ _ _ (Channel.size_pos _))))
    (Tx.encVec_appended hK h.writer hreg hch hn)

theorem Tx.Inv.writeSection {cw : U32} {len : Nat} (hc : sectionCheck K cw len t = none) :
    (t.writeSection K len).Inv K := by
  have hfits := ((sectionCheck_eq_none h.chans).1 hc).fits
  exact (h.sectionClosed len).extended hready.2
    (Tx.writeSection_appended hK h.writer h.chans.2 (sectionLength_lt hK hfits)).toExtended

theorem Tx.Inv.final : ({ (t.putBits K 0xF 4).close K with gstate := .finalized } : Tx).Inv K := by
  have hput := Tx.putBits_appended hK h.writer 0xF (show 4 ≤ K.wordBits by have := hK.wordBits_ge; omega)
  exact ((h.extended hready.2 hput.toExtended).close hK).finalize rfl

end Coding

theorem Tx.Inv.addChannel {t : Tx} (h : t.Inv K) {reps : U32} {desc : Word}
    (hc : descCheck K reps desc t.chans.length = none) : ({ t with chans := t.chans ++ [descChannel reps desc] } : Tx).Inv K := by
  obtain ⟨hok, hlen⟩ := descChannel_ok hc
  exact h.withChans (h.chans.append hok hlen)

theorem orderCheck_eq_none {k : Nat} : orderCheck k = none ↔ k ≤ 31 := by
  rw [orderCheck, refuseIf_eq_none, not_lt]

/-- Every TX command keeps TX's invariant. -/
theorem exec_tx_inv {i : Instr} {s s' : State} (hinv : s.Inv) (hwf : i.wellFormed s.cfg = true)
    (h7 : i.commandWord.getLsbD 7 = false) (hx : exec i s = .next s') : s'.tx.Inv s.cfg := by
  have hK := hinv.cfg
  have h := hinv.tx
  have hlow : (7 : Nat) < 8 := by decide
  cases i
  case txReset => cases hx; dsimp only; exact (Tx.reset_inv hK h.raw _ _ _).withPort _
  case txCsrr addr => cases hx; dsimp only; exact h.csrRead _
  case txCsrw addr value => cases hx; dsimp only; exact h.command fun _ _ _ hok => (Tx.Between.csrWrite hok).inv h
  case txRawld addr size => cases hx; dsimp only; exact h.commandCheck fun _ => h
  case txRawst addr value size => cases hx; dsimp only; exact h.commandCheck fun _ => (Tx.Between.withRaw _ _ _ _).inv h
  case wBits value n =>
    cases hx; dsimp only
    exact h.streamCheck fun hr hc =>
      h.extended hr.2 (Tx.putBits_appended hK h.writer _ (not_lt.1 (refuseIf_eq_none.1 hc))).toExtended
  case wUnary v =>
    cases hx; dsimp only; exact h.streamCheck fun hr _ => h.extended hr.2 (Tx.putUnary_appended hK h.writer _).toExtended
  case wStr addr cap =>
    cases hx; dsimp only
    refine h.streamCommand fun v t' hr hok => ?_
    split at hok <;> cases hok
    exact h.extended hr.2 (Tx.putBytes_appended hK _ h.writer).toExtended
  case wWindup => cases hx; dsimp only; exact h.streamOk fun hr => h.extended hr.2 (Tx.putWindup_appended hK h.writer).toExtended
  case wFlush discard => cases hx; dsimp only; exact h.streamCheck fun hr _ => h.flush hK hr.2 _
  case wClose => cases hx; dsimp only; exact h.streamOk fun _ => h.close hK
  case eMexpg u k =>
    cases hx; dsimp only
    exact h.streamCheck fun hr hc => h.extended hr.2
      (Tx.mexpgPut_appended hK h.writer (of_decide_eq_true hwf) (orderCheck_eq_none.1 hc)).toExtended
  case eWord c value => cases hx; dsimp only; exact h.streamCheck fun hr hc => h.encWords hK hr hc _
  case eVec c addr nbytes => cases hx; dsimp only; exact h.streamCheck fun hr hc => h.encVec hK hr hc (of_decide_eq_true hwf)
  case eHreset c =>
    cases hx; dsimp only; exact h.streamCheck fun _ _ => h.withChans (h.chans.modify fun _ hch => hch.historyReset)
  case gAddch reps desc => cases hx; dsimp only; exact h.streamCheck fun _ hc => h.addChannel (orElse_eq_none.1 hc).2
  case gResetch => cases hx; dsimp only; exact h.streamOk fun _ => (Tx.Between.resetLayout _).inv h
  case gRestore c => cases hx; dsimp only; exact h.streamCheck fun _ _ => h.withChans (h.chans.modify fun _ hch => hch.restored)
  case gSection len => cases hx; dsimp only; exact h.streamCheck fun hr hc => h.writeSection hK hr hc
  case gFinal => cases hx; dsimp only; exact h.streamCheck fun hr _ => h.final hK hr
  all_goals
    simp only [Instr.commandWord, encode, cwZ_low _ hlow, cwN_low _ _ hlow, cwC_low _ _ hlow] at h7
    exact absurd h7 (by decide)

/-! ## RX -/

theorem Rx.Inv.csrRead {r : Rx} (h : r.Inv K) (addr : Nat) : (r.csrRead K addr).Inv K := by
  rcases Rx.csrRead_cases K addr r with ⟨v, e⟩ | ⟨x, e⟩ <;> rw [e]
  · exact h.withPort _
  · exact h.raise x

theorem Rx.reset_readerInv (hK : K.Legal) : (Rx.reset K).ReaderInv K := by
  have hempty : ¬ 0 < (Rx.reset K).rcount := Nat.lt_irrefl 0
  exact ⟨List.length_replicate, Nat.zero_le _, fun _ => rfl, fun h => absurd h hempty, hK.wordBits_pos, fun _ => rfl,
    fun x hx => by simp [Rx.reset] at hx, fun _ => Nat.zero_mod _,
    by simp [Rx.reset, Rx.unread, ceilDiv, show 0 < K.wordBytes by have := hK.wordBits_eq; have := hK.wordBits_pos; omega], Nat.le_refl _⟩

/-- RX at its reset values, whatever its interface, its memory, its source and its draws are (R50, R301). -/
theorem Rx.reset_inv (hK : K.Legal) {raw : RawMem} (hraw : raw.Wf) {src : List Byte} {srcpos : Nat}
    (hsrc : srcpos ≤ src.length) (p : Port) (tick : Nat) :
    ({ Rx.reset K with port := p, raw := raw, src := src, srcpos := srcpos, freeTick := tick } : Rx).Inv K := by
  have w := Rx.reset_readerInv hK
  exact ⟨fun _ => ⟨w.length, w.count, w.empty, w.ptr, w.off, w.emptyOff, w.fits, w.whole, w.bitpos, hsrc⟩,
    fun _ => ChansOk.nil, List.length_replicate, hsrc, fun _ => ⟨rfl, rfl, rfl⟩, FaultRecord.reset_ok,
    List.length_replicate, hraw⟩

theorem Rx.Inv.simpleCheck {r : Rx} (h : r.Inv K) {check : Rx → Option Raise} {n : Rx → Nat} {u : Rx → Rx}
    (hu : r.flt.fault = 0 → check r = none → (u r).Inv K) :
    (r.simpleCommand fun r => afterCheck (check r) (n r, u r)).Inv K := by
  refine h.simpleCommand fun v r' hf hok => ?_
  obtain ⟨hc, he⟩ := afterCheck_eq_ok hok
  cases he
  exact hu hf hc

theorem Rx.Inv.simpleOk {r : Rx} (h : r.Inv K) {u : Rx → Rx} (hu : r.flt.fault = 0 → (u r).Inv K) :
    (r.simpleCommand fun r => .ok (0, u r)).Inv K :=
  h.simpleCommand fun v r' hf hok => by cases hok; exact hu hf

theorem Rx.Inv.modifyChans {r : Rx} (h : r.Inv K) (hf : r.flt.fault = 0) {c : Nat} {f : Channel → Channel}
    (hok : ∀ ch : Channel, ch.Ok → (f ch).Ok) : ({ r with chans := r.chans.modify c f } : Rx).Inv K :=
  h.withChans ((h.chans hf).modify hok)

/-- A register write that goes through, in the map (R305). -/
theorem Rx.csrWrite_eq_ok {addr value v : Nat} {r r' : Rx} (h : r.csrWrite K addr value = .ok (v, r')) :
    ∃ reg, csrAt K r.chans.length addr = some reg ∧ r.csrStore reg value = some r' := by
  unfold Rx.csrWrite at h
  split at h
  · cases h
  · rename_i reg hreg
    split_ifs at h
    split at h
    · cases h
    · rename_i u hstore
      cases h
      exact ⟨reg, hreg, hstore⟩

theorem Rx.Inv.csrWrite {addr value v : Nat} {r r' : Rx} (h : r.Inv K) (hf : r.flt.fault = 0)
    (hw : r.csrWrite K addr value = .ok (v, r')) : r'.Inv K := by
  obtain ⟨reg, hreg, hstore⟩ := Rx.csrWrite_eq_ok hw
  obtain ⟨b, cs, rfl, hcs⟩ := Rx.csrStore_cases rfl (h.chans hf) hreg hstore
  exact ⟨fun hf => (h.reader hf).rebase { r with ignoreCrc := b, chans := cs }, fun _ => hcs, h.length, h.srcpos,
    h.counted, h.flt, h.name, h.raw⟩

theorem RxM.ok_of_bind {α β : Type} {x : RxM α} {f : α → RxM β} {r r' : Rx} {b : β} (h : (x >>= f) r = .ok b r') :
    ∃ a q, x r = .ok a q ∧ f a q = .ok b r' := by
  simp only [Bind.bind, EStateM.bind] at h
  cases hx : x r with
  | ok a q => rw [hx] at h; exact ⟨a, q, rfl, h⟩
  | error e q => rw [hx] at h; cases h

/-- `D.WORD` and `D.VEC` behind a fault in mid-decode (R230). -/
theorem Rx.Broken.forgetDecode_inv {r : Rx} {f0 : FaultRecord} (h : r.Broken K f0) (hok : f0.Ok) (c lo len : Nat)
    (e : Raise) : ((r.forgetDecode K c lo len).raise e).Inv K :=
  h.raise_inv hok e (by simp [Rx.forgetDecode, Rx.forgetCursor]) (RawMem.forget_wf h.raw _ _ _)

/-- `P.SECTION` behind a fault in mid-section (R275). -/
theorem Rx.Broken.forgetSection_inv {r : Rx} {f0 : FaultRecord} (h : r.Broken K f0) (hok : f0.Ok) (e : Raise) :
    ((r.forgetSection K).raise e).Inv K :=
  h.raise_inv hok e (by simp [Rx.forgetSection, Rx.forgetCursor]) (RawMem.forget_wf h.raw _ _ _)

/-- Every RX command keeps RX's invariant. -/
theorem exec_rx_inv {i : Instr} {s s' : State} (hinv : s.Inv) (h7 : i.commandWord.getLsbD 7 = true)
    (hx : exec i s = .next s') : s'.rx.Inv s.cfg := by
  have hK := hinv.cfg
  have h := hinv.rx
  have hlow : (7 : Nat) < 8 := by decide
  cases i
  case rxReset => cases hx; dsimp only; exact (Rx.reset_inv hK h.raw h.srcpos _ _).withPort _
  case rxCsrr addr => cases hx; dsimp only; exact h.csrRead _
  case rxCsrw addr value => cases hx; dsimp only; exact h.simpleCommand fun _ _ => h.csrWrite
  case rxRawld addr size => cases hx; dsimp only; exact h.simpleCheck fun _ _ => h
  case rxRawst addr value size =>
    cases hx; dsimp only; exact h.simpleCheck fun _ _ => h.withRaw (RawMem.write_wf h.raw _ _ _) _
  case rBits n =>
    cases hx; dsimp only
    exact h.command fun hf hc =>
      Rx.Inv.reads (getBits_touches hK _) (getBits_consumes hK (not_lt.1 (refuseIf_eq_none.1 hc))) h hf
  case rUnary => cases hx; dsimp only; exact h.command fun hf _ => h.unary hK hf
  case rStr addr cap =>
    cases hx; dsimp only
    exact h.command fun hf _ => ⟨fun _ _ hw => ((getStr_ends hK _ _ _).ok (h.going hf) hw).inv h.flt,
      fun _ _ hw => ((getStr_ends hK _ _ _).error (h.going hf) hw).cursorLost_inv h.flt⟩
  case rWindup =>
    cases hx; dsimp only
    refine h.simpleOk fun hf => ?_
    obtain ⟨bits, -, hcons⟩ := Rx.windup_consumed hK (h.reader hf)
    exact ((h.going hf).consumed hcons).inv h.flt
  case dMexpg k =>
    cases hx; dsimp only
    have hle : k.toNat ≤ 31 → k.toNat ≤ s.cfg.wordBits := fun h31 => by have := hK.wordBits_ge; omega
    exact h.command fun hf hc =>
      Rx.Inv.reads (mexpgGet_touches hK _) (mexpgGet_consumes hK (hle (orderCheck_eq_none.1 hc))) h hf
  case dWord c =>
    cases hx; dsimp only
    refine h.command fun hf hc => ?_
    obtain ⟨hreg, -, -⟩ := chanCheck_eq_none.1 hc
    obtain ⟨hok, herr⟩ := h.decWords hK hf hreg 1
    refine ⟨fun v r' hw => ?_, fun e r' hw => herr e r' (RxM.error_of_bind (fun _ _ => ⟨_, _, rfl⟩) hw)⟩
    obtain ⟨rs, q, hq, hpure⟩ := RxM.ok_of_bind hw
    cases hpure
    exact hok _ _ hq
  case dVec c addr nbytes =>
    cases hx; dsimp only
    refine h.command fun hf hc => ?_
    obtain ⟨hchan, -, -⟩ := vecCheck_eq_none.1 hc
    obtain ⟨hreg, -, -⟩ := chanCheck_eq_none.1 hchan
    obtain ⟨hok, herr⟩ := h.decVec hK hf hreg addr.toNat nbytes.toNat
    refine ⟨fun v r' hw => ?_, fun e r' hw => ?_⟩
    · obtain ⟨u, q, hq, hrest⟩ := RxM.ok_of_bind hw
      cases hrest
      have hi := hok _ _ hq
      exact hi.withRaw (RawMem.forget_wf hi.raw _ _ _) _
    · exact (herr e r' (RxM.error_of_bind (fun _ _ => ⟨_, _, rfl⟩) hw)).forgetDecode_inv h.flt _ _ _ _
  case dHreset c => cases hx; dsimp only; exact h.simpleCheck fun hf _ => h.modifyChans hf fun _ hch => hch.historyReset
  case pHeader =>
    cases hx; dsimp only
    have he := getFileHeader_ends (f0 := s.rx.flt) hK
    exact h.command fun hf _ => ⟨fun _ _ hw => (he.ok (h.going hf) hw).1.inv h.flt,
      fun _ _ hw => (he.error (h.going hf) hw).cursorLost_inv h.flt⟩
  case pSection =>
    cases hx; dsimp only
    refine h.command fun hf hc => ?_
    have he := getSection_ends (f0 := s.rx.flt) hK
    have hgoing : s.rx.Going s.cfg s.rx.flt ∧ s.rx.pstate ≠ .noHeader := ⟨h.going hf, refuseIf_eq_none.1 hc⟩
    split
    · exact ⟨fun v r' hw => by cases hw; exact h, nofun⟩
    · exact ⟨fun v r' hw => (he.ok hgoing hw).inv h.flt, fun e r' hw => (he.error hgoing hw).forgetSection_inv h.flt _⟩
  case pAddch reps desc =>
    cases hx; dsimp only
    refine h.simpleCheck fun hf hc => ?_
    obtain ⟨hok, hlen⟩ := descChannel_ok hc
    exact h.withChans ((h.chans hf).append hok hlen)
  case pResetch => cases hx; dsimp only; exact h.simpleOk fun _ => h.withChans ChansOk.nil
  all_goals
    simp only [Instr.commandWord, encode, cwZ_low _ hlow, cwN_low _ _ hlow, cwC_low _ _ hlow] at h7
    exact absurd h7 (by decide)

/-! ## The block -/

/-- Every command that is well-formed keeps the invariant. -/
theorem exec_inv {i : Instr} {s s' : State} (hinv : s.Inv) (hwf : i.wellFormed s.cfg = true) (hx : exec i s = .next s') :
    s'.Inv := by
  cases h7 : i.commandWord.getLsbD 7 with
  | false =>
    have htx := exec_tx_inv hinv hwf h7 hx
    obtain ⟨f, hf⟩ := exec_onTx h7
    cases (hf s).symm.trans hx
    exact ⟨hinv.cfg, htx, hinv.rx⟩
  | true =>
    have hrx := exec_rx_inv hinv h7 hx
    obtain ⟨f, hf⟩ := exec_onRx h7
    cases (hf s).symm.trans hx
    exact ⟨hinv.cfg, hinv.tx, hrx⟩

theorem State.illegal_inv {s : State} (h : s.Inv) (cw : U32) (onRxEngine : Bool) : (s.illegal cw onRxEngine).Inv := by
  unfold State.illegal
  split
  · refine ⟨h.cfg, h.tx, ?_⟩
    dsimp only
    split
    · exact h.rx.withPort _
    · exact h.rx.raise _
  · refine ⟨h.cfg, ?_, h.rx⟩
    dsimp only
    split
    · exact h.tx.withPort _
    · exact h.tx.raise _

/-- Settles O7: the latch touches no item of the invariant, a legal command keeps it, an illegal one raises. -/
theorem stepKeepsInvariant : Obligations.StepKeepsInvariant := by
  intro s s' h hs
  cases hp : s.pending with
  | nil => cases (step_idle hp).symm.trans hs; exact h
  | cons c rest =>
    cases h7 : c.cw.getLsbD 7 with
    | false =>
      have hlatched : State.Inv { s with pending := rest, tx := s.tx.latch s.cfg c } := ⟨h.cfg, h.tx.withPort _, h.rx⟩
      rcases step_tx hp h7 with ⟨i, hd, hstep⟩ | ⟨e, -, hstep⟩
      · exact exec_inv hlatched (wellFormed_of_decode hd) (hstep.symm.trans hs)
      · cases hstep.symm.trans hs
        exact State.illegal_inv hlatched _ _
    | true =>
      have hlatched : State.Inv { s with pending := rest, rx := s.rx.latch s.cfg c } := ⟨h.cfg, h.tx, h.rx.withPort _⟩
      rcases step_rx hp h7 with ⟨i, hd, hstep⟩ | ⟨e, -, hstep⟩
      · exact exec_inv hlatched (wellFormed_of_decode hd) (hstep.symm.trans hs)
      · cases hstep.symm.trans hs
        exact State.illegal_inv hlatched _ _

/-- The block after power-on, whatever its source holds. -/
theorem State.powerOn_inv {K : Config} (hK : K.Legal) (src : List Byte) :
    State.Inv { State.powerOn K with rx := { (State.powerOn K).rx with src := src } } :=
  ⟨hK, Tx.reset_inv hK RawMem.reset_wf _ _ _, Rx.reset_inv hK RawMem.reset_wf (Nat.zero_le _) _ _⟩

/-- Settles O8. -/
theorem powerOnInvariant : Obligations.PowerOnInvariant := by
  have hdefault : Config.default.Legal := by constructor <;> decide
  exact ⟨State.powerOn_inv hdefault [], fun K src hK => State.powerOn_inv hK src⟩

end Sys2Proof.Machine
end

section
/-! PROOFS. Register access (10_state.md R39, R48; 47_system_commands.md R302 to R305, R310): which register stands at which
address, and what a read and a write of it do on either engine. -/

namespace Sys2Proof.Machine

variable {K : Config} {nchan addr : Nat} {reg : Csr}

/-! ## The map -/

/-- The registers that stand at one address each (R39). -/
def fixedCsrs : List (Nat × Csr) :=
  [(0x000, .status), (0x001, .fault), (0x002, .finfo0), (0x003, .finfo1), (0x004, .bitposLo), (0x005, .bitposHi),
    (0x006, .ptr), (0x007, .off), (0x008, .count), (0x009, .iobytesLo), (0x00A, .iobytesHi), (0x010, .flags),
    (0x011, .mtime), (0x012, .rawSize), (0x013, .xtraLen), (0x014, .ctrl), (0x015, .nchan), (0x016, .frameSize),
    (0x017, .nsect), (0x018, .totalLo), (0x019, .totalHi), (0x01A, .sectSize), (0x01B, .sectCrc), (0x01C, .storedCrc)]

/-- The fields of a channel, in the order of their numbers (R41 to R47). -/
def chanFields : List ChanField :=
  [.reps, .dtype, .calg, .cdelta, .permrot, .alg, .delta, .rot, .offset, .nbits, .const, .prev, .foff]

/-- The channel fields `CSRW` may write (R48). -/
def Csr.isActive : Csr → Bool
  | .chan _ f => f.writable
  | _ => false

theorem csrAt_fixed : ∀ p ∈ fixedCsrs, csrAt K nchan p.1 = some p.2 := by simp [fixedCsrs, csrAt]

theorem ChanField.ofNat?_isSome {k : Nat} : (ChanField.ofNat? k).isSome ↔ k ≤ 12 := by
  match k with
  | 0 | 1 | 2 | 3 | 4 | 5 | 6 | 7 | 8 | 9 | 10 | 11 | 12 => simp [ChanField.ofNat?]
  | k + 13 => simp [ChanField.ofNat?]

theorem ChanField.toNat_of_ofNat? {k : Nat} {f : ChanField} (h : ChanField.ofNat? k = some f) : f.toNat = k := by
  unfold ChanField.ofNat? at h
  split at h <;> cases h <;> rfl

/-- Every register of the map stands at one of three kinds of address (R39, R48). -/
theorem csrAt_cases (h : csrAt K nchan addr = some reg) :
    (addr, reg) ∈ fixedCsrs ∨ (∃ i < K.nameMax, addr = 0x100 + i ∧ reg = .name i) ∨
    ∃ c < nchan, ∃ f : ChanField, addr = chanAddress c f ∧ reg = .chan c f := by
  by_cases hlow : addr < 0x20
  · left
    unfold csrAt at h
    split at h
    case h_25 => simp only [show ¬ 0x100 ≤ addr by omega, show ¬ 0x1000 ≤ addr by omega, false_and, if_false] at h; cases h
    all_goals
      cases h
      simp [fixedCsrs]
  · right
    rw [csrAt_high (not_lt.1 hlow)] at h
    split_ifs at h with hname hchan
    · cases h
      exact .inl ⟨addr - 0x100, by omega, by omega, rfl⟩
    · obtain ⟨f, hf, rfl⟩ := Option.map_eq_some_iff.1 h
      have := ChanField.toNat_of_ofNat? hf
      exact .inr ⟨_, hchan.2, f, by simp only [chanAddress]; omega, rfl⟩

/-- The mapped addresses are those with a register (R39). -/
theorem csrAt_eq_none : csrAt K nchan addr = none ↔ ¬ MappedCsr K nchan addr := by
  have hfixed : ∀ p ∈ fixedCsrs, p.1 ≤ 0x00A ∨ (0x010 ≤ p.1 ∧ p.1 ≤ 0x01C) := by decide
  have hlow : ∀ a < 0x20, a ≤ 0x00A ∨ (0x010 ≤ a ∧ a ≤ 0x01C) → ∃ p ∈ fixedCsrs, p.1 = a := by decide
  constructor
  · rintro h (hm | hm | hm | hm)
    · obtain ⟨p, hp, rfl⟩ := hlow addr (by omega) (.inl hm)
      rw [csrAt_fixed p hp] at h; cases h
    · obtain ⟨p, hp, rfl⟩ := hlow addr (by omega) (.inr hm)
      rw [csrAt_fixed p hp] at h; cases h
    · rw [csrAt_high (by omega), if_pos hm] at h; cases h
    · have hfield := ChanField.ofNat?_isSome.2 hm.2.2
      rw [csrAt_high (by omega)] at h
      split_ifs at h with hname hchan
      · rw [Option.map_eq_none_iff] at h
        rw [h] at hfield; cases hfield
      · exact hchan ⟨hm.1, hm.2.1⟩
  · intro hm
    cases h : csrAt K nchan addr with
    | none => rfl
    | some reg =>
      refine absurd ?_ hm
      rcases csrAt_cases h with hp | ⟨i, hi, rfl, -⟩ | ⟨c, hc, f, rfl, -⟩
      · exact (hfixed _ hp).elim .inl fun h => .inr (.inl h)
      · exact .inr (.inr (.inl ⟨by omega, by omega⟩))
      · have hf := f.toNat_lt
        refine .inr (.inr (.inr ?_))
        simp only [chanAddress]
        exact ⟨by omega, by omega, by omega⟩

theorem csrAt_of_mapped (h : MappedCsr K nchan addr) : ∃ reg, csrAt K nchan addr = some reg := by
  cases hreg : csrAt K nchan addr with
  | none => exact absurd h (csrAt_eq_none.1 hreg)
  | some reg => exact ⟨reg, rfl⟩

/-- Where the header registers stand (R33 to R35). -/
theorem csrAt_isHeader (h : csrAt K nchan addr = some reg) (hn : K.nameMax ≤ 0xF00) :
    reg.isHeader = true ↔ (0x010 ≤ addr ∧ addr ≤ 0x012) ∨ (0x100 ≤ addr ∧ addr < 0x100 + K.nameMax) := by
  have hfixed : ∀ p ∈ fixedCsrs, (p.2.isHeader = true ↔ 0x010 ≤ p.1 ∧ p.1 ≤ 0x012) ∧ p.1 < 0x100 := by decide
  rcases csrAt_cases h with hp | ⟨i, hi, rfl, rfl⟩ | ⟨c, hc, f, rfl, rfl⟩
  · obtain ⟨hiff, hlt⟩ := hfixed _ hp
    rw [hiff]; omega
  · simp only [Csr.isHeader, true_iff]; omega
  · simp only [Csr.isHeader, chanAddress, Bool.false_eq_true, false_iff]; omega

/-- Where the channel fields stand that may be written (R48). -/
theorem csrAt_isActive (h : csrAt K nchan addr = some reg) (hn : K.nameMax ≤ 0xF00) :
    reg.isActive = true ↔ 0x1000 ≤ addr ∧ 5 ≤ (addr - 0x1000) % 16 ∧ (addr - 0x1000) % 16 ≤ 10 := by
  have hfixed : ∀ p ∈ fixedCsrs, p.2.isActive = false ∧ p.1 < 0x100 := by decide
  rcases csrAt_cases h with hp | ⟨i, hi, rfl, rfl⟩ | ⟨c, hc, f, rfl, rfl⟩
  · obtain ⟨hiff, hlt⟩ := hfixed _ hp
    simp only [hiff, Bool.false_eq_true, false_iff]; omega
  · simp only [Csr.isActive, Bool.false_eq_true, false_iff]; omega
  · have hf : f.writable = true ↔ 5 ≤ f.toNat ∧ f.toNat ≤ 10 := by cases f <;> decide
    have := f.toNat_lt
    simp only [Csr.isActive, hf, chanAddress]; omega

theorem csrAt_eq_ctrl (h : csrAt K nchan addr = some reg) : reg = .ctrl ↔ addr = 0x014 := by
  have hfixed : ∀ p ∈ fixedCsrs, p.2 = .ctrl ↔ p.1 = 0x014 := by decide
  rcases csrAt_cases h with hp | ⟨i, hi, rfl, rfl⟩ | ⟨c, hc, f, rfl, rfl⟩
  · exact hfixed _ hp
  · simp; omega
  · simp [chanAddress]; omega

theorem Csr.txWritable_eq (reg : Csr) : reg.txWritable = (reg.isHeader || reg.isActive) := by
  cases reg <;> rfl

theorem Csr.rxWritable_eq (reg : Csr) : reg.rxWritable = (decide (reg = .ctrl) || reg.isActive) := by
  cases reg <;> simp [Csr.rxWritable, Csr.isActive]

/-- The fields of a channel and what they read as (R41 to R47). -/
theorem channelRegisters_eq (chans : List Channel) (c : Nat) :
    channelRegisters chans c = chanFields.map fun f => (f.toNat, chanFieldValue chans c f) := by
  simp [channelRegisters, chanFields, ChanField.toNat, chanFieldValue, saturate32, BitVec.ofNat_toNat]

/-! ## Reads -/

theorem exec_txCsrr {s : State} {a : U32} (h : csrAt s.cfg s.tx.chans.length a.toNat = some reg) :
    exec (.txCsrr a) s = .next { s with tx := s.tx.respond (s.tx.csrValue reg).toNat } := by
  show execTxCsrr a s = _
  simp only [execTxCsrr, onTx_next, Tx.csrRead, h]

theorem exec_rxCsrr {s : State} {a : U32} (h : csrAt s.cfg s.rx.chans.length a.toNat = some reg) :
    exec (.rxCsrr a) s = .next { s with rx := s.rx.respond (s.rx.csrValue reg).toNat } := by
  show execRxCsrr a s = _
  simp only [execRxCsrr, onRx_next, Rx.csrRead, h]

theorem exec_txCsrr_unmapped {s : State} {a : U32} (h : ¬ MappedCsr s.cfg s.tx.chans.length a.toNat) :
    exec (.txCsrr a) s = .next { s with tx := s.tx.raise ⟨.badOperand, a.toNat, 0⟩ } := by
  show execTxCsrr a s = _
  simp only [execTxCsrr, onTx_next, Tx.csrRead, csrAt_eq_none.2 h]

theorem exec_rxCsrr_unmapped {s : State} {a : U32} (h : ¬ MappedCsr s.cfg s.rx.chans.length a.toNat) :
    exec (.rxCsrr a) s = .next { s with rx := s.rx.raise ⟨.badOperand, a.toNat, 0⟩ } := by
  show execRxCsrr a s = _
  simp only [execRxCsrr, onRx_next, Rx.csrRead, csrAt_eq_none.2 h]

/-- A register of `fixedCsrs`, reached by a 32-bit address. -/
theorem csrAt_ofNat {q : Nat × Csr} (hq : q ∈ fixedCsrs) : csrAt K nchan (BitVec.ofNat 32 q.1).toNat = some q.2 := by
  have hsmall : ∀ q ∈ fixedCsrs, (BitVec.ofNat 32 q.1).toNat = q.1 := by decide
  rw [hsmall q hq, csrAt_fixed q hq]

theorem csrAt_channelRegister {chans : List Channel} {c : Nat} (hc : c < chans.length) (hn : K.nameMax ≤ 0xF00)
    {p : Nat × U32} (hp : p ∈ channelRegisters chans c) :
    ∃ f, csrAt K chans.length (0x1000 + 16 * c + p.1) = some (.chan c f) ∧ chanFieldValue chans c f = p.2 := by
  rw [channelRegisters_eq, List.mem_map] at hp
  obtain ⟨f, -, rfl⟩ := hp
  exact ⟨f, csrAt_chan hc hn f, rfl⟩

theorem nameByte_toNat (x : Byte) : (x.setWidth 32).toNat = x.toNat := BitVec.toNat_setWidth_of_le (by decide)

/-- The two halves of a counter (R24, R39). -/
theorem counter_halves {n : Nat} (h : n < 2 ^ 64) : (counterLo n).toNat = n % 2 ^ 32 ∧ (counterHi n).toNat = n / 2 ^ 32 := by
  have hc : (counter64 n).toNat = n := by
    rw [counter64, if_pos h, BitVec.toNat_ofNat, Nat.mod_eq_of_lt h]
  constructor
  · rw [counterLo, BitVec.extractLsb'_toNat, hc, Nat.shiftRight_zero]
  · rw [counterHi, BitVec.extractLsb'_toNat, hc, Nat.shiftRight_eq_div_pow]
    exact Nat.mod_eq_of_lt (by omega)

/-- Settles O17. -/
theorem txCsrrReads : Obligations.TxCsrrReads := by
  intro s
  refine ⟨fun p hp => ?_, fun a i ha hi => ?_, fun hn a c hc p hp ha => ?_, fun a => exec_txCsrr_unmapped,
    fun n => counter_halves⟩
  · have hmem : p ∈ fixedCsrs.map fun q => (BitVec.ofNat 32 q.1, s.tx.csrValue q.2) := by
      simpa [fixedCsrs, Tx.csrValue, Tx.status, Tx.faulted, saturate32, BitVec.ofNat_toNat] using hp
    obtain ⟨q, hq, rfl⟩ := List.mem_map.1 hmem
    exact exec_txCsrr (csrAt_ofNat hq)
  · rw [exec_txCsrr (ha ▸ csrAt_name hi)]
    simp only [Tx.csrValue, nameByte_toNat]
  · obtain ⟨f, hf, hv⟩ := csrAt_channelRegister hc hn hp
    rw [exec_txCsrr (ha ▸ hf), ← hv]
    rfl

/-- Settles O18. -/
theorem rxCsrrReads : Obligations.RxCsrrReads := by
  intro s
  refine ⟨fun p hp => ?_, fun a i ha hi => ?_, fun hn a c hc p hp ha => ?_, fun a => exec_rxCsrr_unmapped⟩
  · have hmem : p ∈ fixedCsrs.map fun q => (BitVec.ofNat 32 q.1, s.rx.csrValue q.2) := by
      simpa [fixedCsrs, Rx.csrValue, Rx.status, Rx.faulted, saturate32, BitVec.ofNat_toNat] using hp
    obtain ⟨q, hq, rfl⟩ := List.mem_map.1 hmem
    exact exec_rxCsrr (csrAt_ofNat hq)
  · rw [exec_rxCsrr (ha ▸ csrAt_name hi)]
    simp only [Rx.csrValue, nameByte_toNat]
  · obtain ⟨f, hf, hv⟩ := csrAt_channelRegister hc hn hp
    rw [exec_rxCsrr (ha ▸ hf), ← hv]
    rfl

/-! ## Writes -/

section Writes

variable {t t' : Tx} {r r' : Rx} {cw : U32} {value : Nat}

/-- A write that goes through (R303). -/
theorem Tx.csrWrite_ok (h : csrAt K t.chans.length addr = some reg) (hw : reg.txWritable = true) (hv : value < 2 ^ 32)
    (hg : reg.isHeader = true → t.gstate = .notStarted) (hs : t.csrStore reg value = some t') :
    t.csrWrite K cw addr value = .ok (0, t') := by
  have hstate : ¬(reg.isHeader = true ∧ t.gstate ≠ .notStarted) := fun hn => hn.2 (hg hn.1)
  simp [-Nat.reducePow, Tx.csrWrite, h, hw, not_le.2 hv, hstate, hs]

/-- A write of a value outside the register's legal set, the last check (R303). -/
theorem Tx.csrWrite_badValue (h : csrAt K t.chans.length addr = some reg) (hw : reg.txWritable = true)
    (hv : value < 2 ^ 32) (hg : reg.isHeader = true → t.gstate = .notStarted) (hs : t.csrStore reg value = none) :
    t.csrWrite K cw addr value = .error ⟨.badOperand, addr, 3⟩ := by
  have hstate : ¬(reg.isHeader = true ∧ t.gstate ≠ .notStarted) := fun hn => hn.2 (hg hn.1)
  simp [-Nat.reducePow, Tx.csrWrite, h, hw, not_le.2 hv, hstate, hs]

/-- A write that goes through (R305). -/
theorem Rx.csrWrite_ok (h : csrAt K r.chans.length addr = some reg) (hw : reg.rxWritable = true) (hv : value < 2 ^ 32)
    (hs : r.csrStore reg value = some r') : r.csrWrite K addr value = .ok (0, r') := by
  simp [-Nat.reducePow, Rx.csrWrite, h, hw, not_le.2 hv, hs]

/-- A write of a value outside the register's legal set, the last check (R305). -/
theorem Rx.csrWrite_badValue (h : csrAt K r.chans.length addr = some reg) (hw : reg.rxWritable = true)
    (hv : value < 2 ^ 32) (hs : r.csrStore reg value = none) :
    r.csrWrite K addr value = .error ⟨.badOperand, addr, 3⟩ := by
  simp [-Nat.reducePow, Rx.csrWrite, h, hw, not_le.2 hv, hs]

end Writes

section Exec

variable {s : State} {a : U32} {v : Word}

theorem exec_txCsrw_ok {t' : Tx} (hf : s.tx.flt.fault = 0)
    (h : s.tx.csrWrite s.cfg (cwZ 0x02) a.toNat v.toNat = .ok (0, t')) :
    exec (.txCsrw a v) s = .next { s with tx := t'.respond 0 } := by
  show execTxCsrw a v s = _
  rw [execTxCsrw, onTx_next, Tx.command_live hf, h, Tx.finish]

theorem exec_txCsrw_error {e : Raise} (hf : s.tx.flt.fault = 0)
    (h : s.tx.csrWrite s.cfg (cwZ 0x02) a.toNat v.toNat = .error e) :
    exec (.txCsrw a v) s = .next { s with tx := s.tx.raise e } := by
  show execTxCsrw a v s = _
  rw [execTxCsrw, onTx_next, Tx.command_live hf, h, Tx.finish]

theorem exec_rxCsrw_ok {r' : Rx} (hf : s.rx.flt.fault = 0) (h : s.rx.csrWrite s.cfg a.toNat v.toNat = .ok (0, r')) :
    exec (.rxCsrw a v) s = .next { s with rx := r'.respond 0 } := by
  show execRxCsrw a v s = _
  rw [execRxCsrw, onRx_next, Rx.simpleCommand_ok hf h]

theorem exec_rxCsrw_error {e : Raise} (hf : s.rx.flt.fault = 0) (h : s.rx.csrWrite s.cfg a.toNat v.toNat = .error e) :
    exec (.rxCsrw a v) s = .next { s with rx := s.rx.raise e } := by
  show execRxCsrw a v s = _
  rw [execRxCsrw, onRx_next, Rx.simpleCommand_error hf h]

end Exec

/-- Settles O19. -/
theorem txCsrwHeader : Obligations.TxCsrwHeader := by
  intro s v hf hg
  have hstart : ∀ reg : Csr, reg.isHeader = true → s.tx.gstate = .notStarted := fun _ _ => hg
  refine ⟨fun hv => ?_, fun hv => ?_, fun hv => ?_, fun a i ha hi hv => ?_⟩
  · have hst : s.tx.csrStore .flags v.toNat = some { s.tx with flags := BitVec.ofNat 8 v.toNat } := if_pos hv
    exact exec_txCsrw_ok hf (Tx.csrWrite_ok rfl rfl (by omega) (hstart .flags) hst)
  · exact exec_txCsrw_ok hf (Tx.csrWrite_ok (reg := .mtime) rfl rfl hv (hstart _) rfl)
  · exact exec_txCsrw_ok hf (Tx.csrWrite_ok (reg := .rawSize) rfl rfl hv (hstart _) rfl)
  · have hst : s.tx.csrStore (.name i) v.toNat = some { s.tx with name := s.tx.name.set i (BitVec.ofNat 8 v.toNat) } :=
      if_pos hv
    exact exec_txCsrw_ok hf (Tx.csrWrite_ok (ha ▸ csrAt_name hi) rfl (by omega) (hstart _) hst)

/-- The header registers are bytes, `MTIME` and `RAW_SIZE` excepted (R33 to R35). -/
theorem Tx.csrStore_byte {t : Tx} {value : Nat} (h : csrAt K nchan addr = some reg) (hh : reg.isHeader = true)
    (h11 : addr ≠ 0x011) (h12 : addr ≠ 0x012) (hv : 256 ≤ value) : t.csrStore reg value = none := by
  have hfixed : ∀ p ∈ fixedCsrs, p.2.isHeader = true → p.1 ≠ 0x011 → p.1 ≠ 0x012 → p.2 = .flags := by decide
  rcases csrAt_cases h with hp | ⟨i, -, -, rfl⟩ | ⟨c, -, f, -, rfl⟩
  · obtain rfl : reg = .flags := hfixed _ hp hh h11 h12
    exact if_neg (by omega)
  · exact if_neg (by omega)
  · cases hh

/-- Settles O21: where the register stands says which check fails first. -/
theorem txCsrwRefuses : Obligations.TxCsrwRefuses := by
  intro s a v hf hn
  dsimp only
  refine ⟨fun hm => ?_, fun hm hheader hactive => ?_, fun hm hwr hv => ?_, fun hheader hv hg => ?_,
    fun hheader h11 h12 hg hv hbig => ?_⟩
  · refine exec_txCsrw_error hf ?_
    simp [Tx.csrWrite, csrAt_eq_none.2 hm]
  · obtain ⟨reg, hreg⟩ := csrAt_of_mapped hm
    have hw : reg.txWritable = false := by
      rw [Csr.txWritable_eq, Bool.or_eq_false_iff, ← Bool.not_eq_true, ← Bool.not_eq_true, csrAt_isHeader hreg hn,
        csrAt_isActive hreg hn]
      exact ⟨hheader, hactive⟩
    refine exec_txCsrw_error hf ?_
    simp [Tx.csrWrite, hreg, hw]
  · obtain ⟨reg, hreg⟩ := csrAt_of_mapped hm
    have hw : reg.txWritable = true := by
      rw [Csr.txWritable_eq, Bool.or_eq_true, csrAt_isHeader hreg hn, csrAt_isActive hreg hn]
      exact hwr
    refine exec_txCsrw_error hf ?_
    simp [-Nat.reducePow, Tx.csrWrite, hreg, hw, hv]
  · have hm : MappedCsr s.cfg s.tx.chans.length a.toNat := by unfold MappedCsr; omega
    obtain ⟨reg, hreg⟩ := csrAt_of_mapped hm
    have hh : reg.isHeader = true := (csrAt_isHeader hreg hn).2 hheader
    have hw : reg.txWritable = true := by rw [Csr.txWritable_eq, hh, Bool.true_or]
    refine exec_txCsrw_error hf ?_
    simp [-Nat.reducePow, Tx.csrWrite, hreg, hw, not_le.2 hv, hh, hg]
    rfl
  · have hm : MappedCsr s.cfg s.tx.chans.length a.toNat := by unfold MappedCsr; omega
    obtain ⟨reg, hreg⟩ := csrAt_of_mapped hm
    have hh : reg.isHeader = true := (csrAt_isHeader hreg hn).2 hheader
    have hw : reg.txWritable = true := by rw [Csr.txWritable_eq, hh, Bool.true_or]
    have hbyte : s.tx.csrStore reg v.toNat = none :=
      Tx.csrStore_byte hreg hh (fun h => h11 (BitVec.eq_of_toNat_eq h)) (fun h => h12 (BitVec.eq_of_toNat_eq h)) hbig
    exact exec_txCsrw_error hf (Tx.csrWrite_badValue hreg hw hv (fun _ => hg) hbyte)

/-- Settles O22. -/
theorem rxCsrwControl : Obligations.RxCsrwControl := by
  intro s a v hf hn
  dsimp only
  have hctrl : a = 0x014 → csrAt s.cfg s.rx.chans.length a.toNat = some .ctrl := by rintro rfl; rfl
  have haddr : a = 0x014 ↔ a.toNat = 0x014 := by rw [← BitVec.toNat_inj]; rfl
  refine ⟨fun ha b hb => ?_, fun hm => ?_, fun hm hne hactive => ?_, fun hm hwr hv => ?_, fun ha hbad hv => ?_⟩
  · have hst : s.rx.csrStore .ctrl v.toNat = some { s.rx with ignoreCrc := b } := by
      rw [← hb]; cases b <;> rfl
    have hv : v.toNat < 2 ^ 32 := by rw [← hb]; cases b <;> decide
    exact exec_rxCsrw_ok hf (Rx.csrWrite_ok (hctrl ha) rfl hv hst)
  · refine exec_rxCsrw_error hf ?_
    simp [Rx.csrWrite, csrAt_eq_none.2 hm]
  · obtain ⟨reg, hreg⟩ := csrAt_of_mapped hm
    have hw : reg.rxWritable = false := by
      rw [Csr.rxWritable_eq, Bool.or_eq_false_iff, ← Bool.not_eq_true, ← Bool.not_eq_true, decide_eq_true_iff,
        csrAt_eq_ctrl hreg, csrAt_isActive hreg hn, ← haddr]
      exact ⟨hne, hactive⟩
    refine exec_rxCsrw_error hf ?_
    simp [Rx.csrWrite, hreg, hw]
  · obtain ⟨reg, hreg⟩ := csrAt_of_mapped hm
    have hw : reg.rxWritable = true := by
      rw [Csr.rxWritable_eq, Bool.or_eq_true, decide_eq_true_iff, csrAt_eq_ctrl hreg, csrAt_isActive hreg hn, ← haddr]
      exact hwr
    refine exec_rxCsrw_error hf ?_
    simp [-Nat.reducePow, Rx.csrWrite, hreg, hw, hv]
  · have hst : s.rx.csrStore .ctrl v.toNat = none := if_neg (by omega)
    exact exec_rxCsrw_error hf (Rx.csrWrite_badValue (hctrl ha) rfl hv hst)

/-! ## The active fields of a channel -/

/-- What O20 asks of a write of `value` to field number `f` of a channel: with a legal value `writes` holds of the channel
that is left, with another one `refused` (R310). -/
def FieldWrite (f value : Nat) (ch : Channel) (writes : Channel → Prop) (refused : Prop) : Prop :=
  (f = 5 → (∀ a : Alg, a.code = value → writes { ch with alg := a }) ∧ (4 ≤ value → refused)) ∧
  (f = 6 → (∀ b : Bool, bit b = value → writes { ch with delta := b }) ∧ (2 ≤ value → refused)) ∧
  (f = 7 → (∀ n : BitVec 5, n.toNat = value → writes { ch with rot := n }) ∧ (32 ≤ value → refused)) ∧
  (f = 8 → ∀ n : U32, n.toNat = value → writes { ch with offset := n }) ∧
  (f = 9 → (∀ n : BitVec 6, n.toNat = value → 1 ≤ n.toNat → n.toNat ≤ 32 → writes { ch with nbits := n }) ∧
    (value = 0 ∨ 33 ≤ value → refused)) ∧
  (f = 10 → ∀ n : U32, n.toNat = value → writes { ch with const := n })

/-- `chanStore` makes of a channel what R310 says, where the value is legal, and nothing where it is not. -/
theorem fieldWrite_of_chanStore {f value : Nat} {ch : Channel} {writes : Channel → Prop} {refused : Prop}
    (hwrites : ∀ (field : ChanField) (ch' : Channel), field.toNat = f → field.writable = true →
      chanStore ch field value = some ch' → writes ch')
    (hrefused : ∀ field : ChanField, field.toNat = f → field.writable = true → chanStore ch field value = none → refused) :
    FieldWrite f value ch writes refused := by
  refine ⟨?_, ?_, ?_, ?_, ?_, ?_⟩ <;> rintro rfl
  · refine ⟨fun a ha => hwrites .alg _ rfl rfl ?_, fun hbad => hrefused .alg rfl rfl ?_⟩
    · subst ha; cases a <;> rfl
    · match value, hbad with
      | v + 4, _ => rfl
  · refine ⟨fun b hb => hwrites .delta _ rfl rfl ?_, fun hbad => hrefused .delta rfl rfl (if_neg (by omega))⟩
    subst hb; cases b <;> rfl
  · refine ⟨fun n hn => hwrites .rot _ rfl rfl ?_, fun hbad => hrefused .rot rfl rfl (if_neg (by omega))⟩
    subst hn
    have := n.isLt
    simp only [chanStore, BitVec.ofNat_toNat, BitVec.setWidth_eq, if_pos (show n.toNat ≤ 31 by omega)]
  · intro n hn
    subst hn
    refine hwrites .offset _ rfl rfl ?_
    simp only [chanStore, BitVec.ofNat_toNat, BitVec.setWidth_eq]
  · refine ⟨fun n hn h1 h32 => hwrites .nbits _ rfl rfl ?_, fun hbad => hrefused .nbits rfl rfl (if_neg (by omega))⟩
    subst hn
    simp only [chanStore, BitVec.ofNat_toNat, BitVec.setWidth_eq, if_pos (And.intro h1 h32)]
  · intro n hn
    subst hn
    refine hwrites .const _ rfl rfl ?_
    simp only [chanStore, BitVec.ofNat_toNat, BitVec.setWidth_eq]

/-- Settles O20. -/
theorem csrwChannel : Obligations.CsrwChannel := by
  intro s a v c f ha hn hv
  have hat : ∀ {n : Nat} {field : ChanField}, c < n → field.toNat = f → csrAt s.cfg n a.toNat = some (.chan c field) :=
    fun hc hfield => by rw [ha, ← hfield]; exact csrAt_chan hc hn _
  refine ⟨fun hf hc => ?_, fun hf hc => ?_⟩
  · change FieldWrite f v.toNat (channelAt s.tx.chans c)
      (fun ch => exec (.txCsrw a v) s = .next { s with tx := { s.tx with chans := s.tx.chans.set c ch }.respond 0 })
      (exec (.txCsrw a v) s = .next { s with tx := s.tx.raise ⟨.badOperand, a.toNat, 3⟩ })
    refine fieldWrite_of_chanStore (fun field ch' hfield hw hst => ?_) (fun field hfield hw hst => ?_)
    · exact exec_txCsrw_ok hf (Tx.csrWrite_ok (hat hc hfield) hw hv nofun (by simp [Tx.csrStore, chansStore, hst]))
    · exact exec_txCsrw_error hf
        (Tx.csrWrite_badValue (hat hc hfield) hw hv nofun (by simp [Tx.csrStore, chansStore, hst]))
  · change FieldWrite f v.toNat (channelAt s.rx.chans c)
      (fun ch => exec (.rxCsrw a v) s = .next { s with rx := { s.rx with chans := s.rx.chans.set c ch }.respond 0 })
      (exec (.rxCsrw a v) s = .next { s with rx := s.rx.raise ⟨.badOperand, a.toNat, 3⟩ })
    refine fieldWrite_of_chanStore (fun field ch' hfield hw hst => ?_) (fun field hfield hw hst => ?_)
    · exact exec_rxCsrw_ok hf (Rx.csrWrite_ok (hat hc hfield) hw hv (by simp [Rx.csrStore, chansStore, hst]))
    · exact exec_rxCsrw_error hf (Rx.csrWrite_badValue (hat hc hfield) hw hv (by simp [Rx.csrStore, chansStore, hst]))

end Sys2Proof.Machine
end

section
/-! PROOFS. Raw memory access (20_memory.md R79 to R82, R94; 47_system_commands.md R306 to R309): both engines make the same
checks, and a read and a write are little-endian. -/

namespace Sys2Proof.Machine

/-! ## The checks -/

/-- The checks of `RAWLD` and `RAWST`, in order (R306, R307). -/
def accessCheck (K : Config) (size : Byte) (addr : Nat) : Option Raise :=
  sizeCheck size <|> rangeCheck K addr size.toNat

section Checks

variable {K : Config} {size : Byte} {addr : Nat}

theorem mem_sizes : size ∈ ([1, 2, 4] : List Byte) ↔ size = 1 ∨ size = 2 ∨ size = 4 := by simp

theorem accessCheck_ok (hs : size ∈ ([1, 2, 4] : List Byte)) (hr : addr + size.toNat ≤ K.rawBytes) :
    accessCheck K size addr = none := by
  rw [accessCheck, orElse_eq_none, sizeCheck, rangeCheck, refuseIf_eq_none, refuseIf_eq_none, not_not]
  exact ⟨mem_sizes.1 hs, not_lt.2 hr⟩

theorem accessCheck_badSize (hs : size ∉ ([1, 2, 4] : List Byte)) :
    accessCheck K size addr = some ⟨.badOperand, size.toNat, 0⟩ := by
  rw [accessCheck, sizeCheck, refuseIf_pos (mt mem_sizes.2 hs)]
  rfl

theorem accessCheck_outside (hs : size ∈ ([1, 2, 4] : List Byte)) (hr : K.rawBytes < addr + size.toNat) :
    accessCheck K size addr = some ⟨.badOperand, addr, size.toNat⟩ := by
  have hsize : size.toNat % 2 ^ 32 = size.toNat := Nat.mod_eq_of_lt (by have := size.isLt; omega)
  rw [accessCheck, sizeCheck, rangeCheck, refuseIf_neg (not_not.2 (mem_sizes.1 hs)), refuseIf_pos hr, hsize]
  rfl

end Checks

/-! ## The commands by what their check answers -/

section Commands

variable {s : State} {a : U32} {v : Word} {size : Byte} {e : Raise}

theorem exec_txRawld_ok (hf : s.tx.flt.fault = 0) (h : accessCheck s.cfg size a.toNat = none) :
    exec (.txRawld a size) s = .next { s with tx := s.tx.respond (s.tx.raw.read a.toNat size.toNat) } := by
  show execTxRawld a size s = _
  rw [execTxRawld, onTx_next, Tx.command_live hf, ← accessCheck, h, afterCheck_none, Tx.finish]

theorem exec_txRawld_refused (hf : s.tx.flt.fault = 0) (h : accessCheck s.cfg size a.toNat = some e) :
    exec (.txRawld a size) s = .next { s with tx := s.tx.raise e } := by
  show execTxRawld a size s = _
  rw [execTxRawld, onTx_next, Tx.command_live hf, ← accessCheck, h, afterCheck_some, Tx.finish]

theorem exec_txRawst_ok (hf : s.tx.flt.fault = 0) (h : accessCheck s.cfg size a.toNat = none) :
    exec (.txRawst a v size) s =
      .next { s with tx := { s.tx with raw := s.tx.raw.write a.toNat size.toNat v.toNat }.respond 0 } := by
  show execTxRawst a v size s = _
  rw [execTxRawst, onTx_next, Tx.command_live hf, ← accessCheck, h, afterCheck_none, Tx.finish]

theorem exec_txRawst_refused (hf : s.tx.flt.fault = 0) (h : accessCheck s.cfg size a.toNat = some e) :
    exec (.txRawst a v size) s = .next { s with tx := s.tx.raise e } := by
  show execTxRawst a v size s = _
  rw [execTxRawst, onTx_next, Tx.command_live hf, ← accessCheck, h, afterCheck_some, Tx.finish]

theorem exec_rxRawld_ok (hf : s.rx.flt.fault = 0) (h : accessCheck s.cfg size a.toNat = none) :
    exec (.rxRawld a size) s = .next { s with rx := s.rx.respond (s.rx.raw.read a.toNat size.toNat) } := by
  show execRxRawld a size s = _
  rw [execRxRawld, onRx_next, Rx.simpleCommand_ok hf (by rw [← accessCheck, h, afterCheck_none])]

theorem exec_rxRawld_refused (hf : s.rx.flt.fault = 0) (h : accessCheck s.cfg size a.toNat = some e) :
    exec (.rxRawld a size) s = .next { s with rx := s.rx.raise e } := by
  show execRxRawld a size s = _
  rw [execRxRawld, onRx_next, Rx.simpleCommand_error hf (by rw [← accessCheck, h, afterCheck_some])]

theorem exec_rxRawst_ok (hf : s.rx.flt.fault = 0) (h : accessCheck s.cfg size a.toNat = none) :
    exec (.rxRawst a v size) s =
      .next { s with rx := { s.rx with raw := s.rx.raw.write a.toNat size.toNat v.toNat }.respond 0 } := by
  show execRxRawst a v size s = _
  rw [execRxRawst, onRx_next, Rx.simpleCommand_ok hf (by rw [← accessCheck, h, afterCheck_none])]

theorem exec_rxRawst_refused (hf : s.rx.flt.fault = 0) (h : accessCheck s.cfg size a.toNat = some e) :
    exec (.rxRawst a v size) s = .next { s with rx := s.rx.raise e } := by
  show execRxRawst a v size s = _
  rw [execRxRawst, onRx_next, Rx.simpleCommand_error hf (by rw [← accessCheck, h, afterCheck_some])]

end Commands

/-! ## Little-endian bytes -/

theorem toNat_ofNat_shift (v j : Nat) : (BitVec.ofNat 8 (v >>> (8 * j))).toNat = v / 2 ^ (8 * j) % 256 := by
  rw [BitVec.toNat_ofNat, Nat.shiftRight_eq_div_pow]

theorem RawMem.read_byte (m : RawMem) (addr : Nat) {n j : Nat} (h : j < n) :
    m.read addr n / 2 ^ (8 * j) % 256 = (m.readByte (addr + j)).toNat := by
  rw [← toNat_ofNat_shift, RawMem.byte_of_read h]

theorem RawMem.write_byte {m : RawMem} (hm : m.Wf) (addr v : Nat) {n j : Nat} (h : j < n) :
    ((m.write addr n v).readByte (addr + j)).toNat = v / 2 ^ (8 * j) % 256 := by
  rw [RawMem.readByte_write_inside hm v h, toNat_ofNat_shift]

/-- Settles O23. -/
theorem rawLoad : Obligations.RawLoad := by
  intro s a size
  refine ⟨fun hf => ⟨fun hs hr => ?_, fun hs => ?_, fun hs hr => ?_⟩,
    fun hf => ⟨fun hs hr => ?_, fun hs => ?_, fun hs hr => ?_⟩⟩
  · exact ⟨_, exec_txRawld_ok hf (accessCheck_ok hs hr), RawMem.read_lt _ _ _, fun j => RawMem.read_byte _ _⟩
  · exact exec_txRawld_refused hf (accessCheck_badSize hs)
  · exact exec_txRawld_refused hf (accessCheck_outside hs hr)
  · exact ⟨_, exec_rxRawld_ok hf (accessCheck_ok hs hr), RawMem.read_lt _ _ _, fun j => RawMem.read_byte _ _⟩
  · exact exec_rxRawld_refused hf (accessCheck_badSize hs)
  · exact exec_rxRawld_refused hf (accessCheck_outside hs hr)

/-- Settles O24. -/
theorem rawStore : Obligations.RawStore := by
  intro s a v size hinv
  refine ⟨fun hf => ⟨fun hs hr => ?_, fun hs => ?_, fun hs hr => ?_⟩,
    fun hf => ⟨fun hs hr => ?_, fun hs => ?_, fun hs hr => ?_⟩⟩
  · exact ⟨_, exec_txRawst_ok hf (accessCheck_ok hs hr), fun j => RawMem.write_byte hinv.tx.raw _ _,
      fun _ => RawMem.readByte_write_outside _ _⟩
  · exact exec_txRawst_refused hf (accessCheck_badSize hs)
  · exact exec_txRawst_refused hf (accessCheck_outside hs hr)
  · exact ⟨_, exec_rxRawst_ok hf (accessCheck_ok hs hr), fun j => RawMem.write_byte hinv.rx.raw _ _,
      fun _ => RawMem.readByte_write_outside _ _⟩
  · exact exec_rxRawst_refused hf (accessCheck_badSize hs)
  · exact exec_rxRawst_refused hf (accessCheck_outside hs hr)

end Sys2Proof.Machine
end

section
/-! PROOFS. The bit-stream commands of TX (40_bitstream_writer.md R140 to R151): what each appends and what it sends. -/

namespace Sys2Proof.Machine

variable {K : Config}

/-! ## `W.BITS` and `W.UNARY` -/

/-- A transfer of at most a word fills at most one buffer (R140, R141). -/
theorem Tx.Appended.sunk_of_word (hK : K.Legal) {t t' : Tx} {bits : List Bool} (w : t.WriterInv K)
    (h : t.Appended K t' bits) (hn : bits.length ≤ K.wordBits) :
    t'.sunk = t.sunk + if K.wordBits * t.wptr + t.woff + bits.length < K.wordBits * K.bufWords then 0
      else K.bufWords * K.wordBytes := by
  have hbuffered : t.bitpos + bits.length - 8 * t.sunk = K.wordBits * t.wptr + t.woff + bits.length := by
    have := w.bitpos; omega
  rw [h.sent, hbuffered]
  have hptr : K.wordBits * (t.wptr + 1) ≤ K.wordBits * K.bufWords := Nat.mul_le_mul_left _ w.ptr
  have hword : K.wordBits * 1 ≤ K.wordBits * K.bufWords := Nat.mul_le_mul_left _ hK.bufWords_pos
  have hoff := w.off
  rw [Nat.mul_add] at hptr
  split
  · next hlt => rw [Nat.div_eq_of_lt hlt, Nat.mul_zero]
  · next hge => rw [Nat.div_eq_of_lt_le (k := 1) (by omega) (by omega), Nat.mul_one]

/-- Settles O25. -/
theorem wBits : Obligations.WBits := by
  intro s v n hinv hready
  have hK := hinv.cfg
  refine ⟨fun hn => ?_, fun hn => ?_⟩
  · have happ := Tx.putBits_appended hK hinv.tx.writer v.toNat hn
    refine ⟨_, ?_, happ, ?_⟩
    · show execWBits v n s = _
      rw [execWBits, onTx_next, Tx.streamCommand_ok hready (by rw [refuseIf_neg (not_lt.2 hn), afterCheck_none])]
    · have hsunk := happ.sunk_of_word hK hinv.tx.writer (by rw [fieldBits_length]; exact hn)
      rwa [fieldBits_length] at hsunk
  · show execWBits v n s = _
    rw [execWBits, onTx_next, Tx.streamCommand_error hready (by rw [refuseIf_pos hn, afterCheck_some])]

/-- Settles O26. -/
theorem wUnary : Obligations.WUnary := by
  intro s v hinv hready
  refine ⟨fun hv => ⟨_, ?_, Tx.putUnary_appended hinv.cfg hinv.tx.writer v.toNat⟩, fun hv => ?_⟩
  · show execWUnary v s = _
    rw [execWUnary, onTx_next,
      Tx.streamCommand_ok hready (by rw [unaryCheck, refuseIf_neg (not_lt.2 hv), afterCheck_none])]
  · show execWUnary v s = _
    rw [execWUnary, onTx_next, Tx.streamCommand_error hready (by rw [unaryCheck, refuseIf_pos hv, afterCheck_some])]

/-! ## `W.STR` -/

/-- The scan gets past every character in front of the first zero. -/
theorem nameField_length_gt (m : RawMem) {c addr cap : Nat} (hc : c < cap) (h : ∀ i < c, m.readByte (addr + i) ≠ 0) :
    c < (nameField (m.bytes addr cap)).length := by
  induction c generalizing addr cap with
  | zero =>
    obtain ⟨n, rfl⟩ := Nat.exists_eq_add_of_lt hc
    rw [Nat.zero_add, RawMem.bytes_succ, nameField]
    split <;> simp
  | succ c ih =>
    obtain ⟨n, rfl⟩ := Nat.exists_eq_add_of_lt hc
    have hrest := ih (addr := addr + 1) (cap := c + n + 1) (by omega) fun i hi => by
      have := h (i + 1) (by omega)
      rwa [show addr + (i + 1) = addr + 1 + i by omega] at this
    have hfirst : m.readByte addr ≠ 0 := h 0 (by omega)
    rw [show c + 1 + n + 1 = (c + n + 1) + 1 by omega, RawMem.bytes_succ, nameField, if_neg hfirst, List.length_cons]
    omega

/-- It ends with the first zero. -/
theorem nameField_length_zero (m : RawMem) {c addr cap : Nat} (hc : c < cap) (hz : m.readByte (addr + c) = 0)
    (h : ∀ i < c, m.readByte (addr + i) ≠ 0) : (nameField (m.bytes addr cap)).length = c + 1 := by
  induction c generalizing addr cap with
  | zero =>
    obtain ⟨n, rfl⟩ := Nat.exists_eq_add_of_lt hc
    have hfirst : m.readByte addr = 0 := hz
    rw [Nat.zero_add, RawMem.bytes_succ, nameField, if_pos hfirst]
    rfl
  | succ c ih =>
    obtain ⟨n, rfl⟩ := Nat.exists_eq_add_of_lt hc
    have hrest := ih (addr := addr + 1) (cap := c + n + 1) (by omega)
      (by rwa [show addr + 1 + c = addr + (c + 1) by omega]) fun i hi => by
        have := h (i + 1) (by omega)
        rwa [show addr + (i + 1) = addr + 1 + i by omega] at this
    have hfirst : m.readByte addr ≠ 0 := h 0 (by omega)
    rw [show c + 1 + n + 1 = (c + n + 1) + 1 by omega, RawMem.bytes_succ, nameField, if_neg hfirst, List.length_cons, hrest]

/-- Without a zero it takes all the characters. -/
theorem nameField_length_full (m : RawMem) {addr cap : Nat} (h : ∀ i < cap, m.readByte (addr + i) ≠ 0) :
    (nameField (m.bytes addr cap)).length = cap := by
  have hle := nameField_length_le (m.bytes addr cap)
  rw [RawMem.bytes_length] at hle
  rcases Nat.eq_zero_or_pos cap with h0 | h0
  · omega
  · have := nameField_length_gt m (c := cap - 1) (addr := addr) (cap := cap) (by omega) fun i hi => h i (by omega)
    omega

section Str

variable {s : State} {a : U32} {cap : Word} (hready : s.tx.Ready)
include hready

theorem exec_wStr_some {c : Nat} (h : Tx.strCount s.cfg s.tx.raw a.toNat cap.toNat 0 = some c) :
    exec (.wStr a cap) s = .next { s with tx := (s.tx.putBytes s.cfg (s.tx.raw.bytes a.toNat c)).respond c } := by
  show execWStr a cap s = _
  rw [execWStr, onTx_next, Tx.streamCommand_ok hready (by rw [h])]

theorem exec_wStr_none (h : Tx.strCount s.cfg s.tx.raw a.toNat cap.toNat 0 = none) :
    exec (.wStr a cap) s = .next { s with tx := s.tx.raise ⟨.badOperand, a.toNat, cap.toNat % 2 ^ 32⟩ } := by
  show execWStr a cap s = _
  rw [execWStr, onTx_next, Tx.streamCommand_error hready (by rw [h])]

end Str

/-- Settles O27: the scan counts the characters, `PutBytes` appends them. -/
theorem wStr : Obligations.WStr := by
  intro s a cap c hinv hready
  have happ := fun bytes => Tx.putBytes_appended hinv.cfg bytes hinv.tx.writer
  refine ⟨fun ⟨⟨hc, hz, hr⟩, hne⟩ => ?_, fun hc hr hne => ?_, fun h0 hr hne => ?_⟩
  · have hlen := nameField_length_zero s.tx.raw hc hz hne
    have hcount := Tx.strCount_some (K := s.cfg) s.tx.raw a.toNat cap.toNat 0 (.inr (by rw [hlen]; omega))
    rw [hlen, Nat.zero_add] at hcount
    exact ⟨_, exec_wStr_some hready hcount, happ _⟩
  · subst hc
    have hlen := nameField_length_full s.tx.raw hne
    have hcount := Tx.strCount_some (K := s.cfg) s.tx.raw a.toNat cap.toNat 0
      (hr.imp_right fun h => by rw [hlen]; omega)
    rw [hlen, Nat.zero_add] at hcount
    exact ⟨_, exec_wStr_some hready hcount, happ _⟩
  · have hcap : cap.toNat ≠ 0 := fun h => h0 (BitVec.eq_of_toNat_eq h)
    have hgt := nameField_length_gt s.tx.raw (c := s.cfg.rawBytes - a.toNat) (addr := a.toNat) (cap := cap.toNat)
      (by omega) fun i hi => hne i (by omega)
    exact exec_wStr_none hready (Tx.strCount_none s.tx.raw a.toNat cap.toNat 0 hcap (by omega))

/-! ## `W.WINDUP`, `W.FLUSH`, `W.CLOSE` -/

theorem exec_wWindup {s : State} (hready : s.tx.Ready) :
    exec .wWindup s = .next { s with tx := (s.tx.putWindup s.cfg).respond 0 } := by
  show execWWindup s = _
  rw [execWWindup, onTx_next, Tx.streamCommand_ok hready rfl]

/-- On a byte boundary there is nothing to pad (R143). -/
theorem Tx.putWindup_of_aligned (hK : K.Legal) {t : Tx} (h : t.WriterInv K) (hb : t.bitpos % 8 = 0) : t.putWindup K = t := by
  have hpad : (8 - t.woff % 8) % 8 = 0 := by
    rw [Tx.putWindup_eq_pad hK h, padBits, List.length_replicate]; omega
  rw [Tx.putWindup, hpad, Tx.putBits, if_pos rfl]

theorem Tx.putWindup_aligned (hK : K.Legal) {t : Tx} (h : t.WriterInv K) : (t.putWindup K).bitpos % 8 = 0 := by
  rw [(Tx.putWindup_appended hK h).bitpos_eq, padBits, List.length_replicate]
  omega

theorem Tx.Extended.ready {t t' : Tx} {bits : List Bool} (h : t.Extended K t' bits) (hr : t.Ready) : t'.Ready := by
  have hflt : t'.flt = t.flt := (congrArg Tx.flt h.withWriter_eq).symm
  have hclosed : t'.closed = t.closed := (congrArg Tx.closed h.withWriter_eq).symm
  rw [Tx.Ready, hflt, hclosed]
  exact hr

/-- Settles O28. -/
theorem wWindup : Obligations.WWindup := by
  intro s hinv hready
  have happ := Tx.putWindup_appended hinv.cfg hinv.tx.writer
  have haligned := Tx.putWindup_aligned hinv.cfg hinv.tx.writer
  have hready' : ((s.tx.putWindup s.cfg).respond 0).Ready := happ.ready hready
  have hwriter : ((s.tx.putWindup s.cfg).respond 0).WriterInv s.cfg :=
    happ.inv.rebase ((s.tx.putWindup s.cfg).respond 0)
  refine ⟨_, exec_wWindup hready, happ, haligned, ?_⟩
  rw [exec_wWindup hready', Tx.putWindup_of_aligned hinv.cfg hwriter haligned]
  rfl

theorem exec_wFlush {s : State} (hready : s.tx.Ready) {n : Byte} (hn : ¬ 1 < n.toNat) :
    exec (.wFlush n) s = .next { s with tx := (s.tx.flush s.cfg (n == 1)).respond 0 } := by
  show execWFlush n s = _
  rw [execWFlush, onTx_next, Tx.streamCommand_ok hready (by rw [refuseIf_neg hn, afterCheck_none])]

/-- Settles O29. -/
theorem wFlush : Obligations.WFlush := by
  intro s hinv hready
  obtain ⟨hframe, hstream, hsink, -, hw⟩ := Tx.flush_discard hinv.cfg hinv.tx.writer
  refine ⟨⟨_, exec_wFlush hready (by decide), Tx.flush_keep_extended hinv.cfg hinv.tx.writer, rfl, rfl, rfl⟩,
    ⟨_, exec_wFlush hready (by decide), hframe, hstream, hsink, hw⟩, fun n hn => ?_⟩
  show execWFlush n s = _
  rw [execWFlush, onTx_next, Tx.streamCommand_error hready (by rw [refuseIf_pos hn, afterCheck_some])]

/-- Settles O30. -/
theorem wClose : Obligations.WClose := by
  intro s hinv hready
  obtain ⟨hframe, hsink, hprefix, -, hsunk, hw⟩ := Tx.close_spec hinv.cfg hinv.tx.writer
  have hpad : (padBits s.tx.bitpos).length = (8 - s.tx.bitpos % 8) % 8 := List.length_replicate
  refine ⟨s.tx.close s.cfg, ?_, hpad ▸ hframe, hsink, hprefix, hsunk.symm, hw⟩
  show execWClose s = _
  rw [execWClose, onTx_next, Tx.streamCommand_ok hready rfl]

end Sys2Proof.Machine
end

section
/-! PROOFS. The bit-stream commands of RX (41_bitstream_reader.md R160 to R171): what each consumes and answers, what is asked
of the source, and what a fault in mid-stream leaves. -/

namespace Sys2Proof.Machine

variable {K : Config}

/-! ## A command that loses the cursor -/

/-- What is left behind a fault in a procedure that only reads (R171). -/
theorem Rx.Touched.cursorLost_failedWith {r r' : Rx} (h : r.Touched K r') (e : Raise) :
    r.FailedWith e (cursorLost e r') := by
  unfold Rx.FailedWith cursorLost
  rw [h.frame]
  rfl

/-! ## `R.BITS` -/

section Bits

variable {s : State} {n : Byte} (hf : s.rx.flt.fault = 0) (hn : n.toNat ≤ s.cfg.wordBits)
include hf hn

theorem exec_rBits_ok {v : Nat} {r' : Rx} (h : getBits s.cfg n.toNat s.rx = .ok v r') :
    exec (.rBits n) s = .next { s with rx := r'.respond v } := by
  show execRBits n s = _
  rw [execRBits, onRx_next, Rx.command_ok hf (refuseIf_neg (not_lt.2 hn) _) h]

theorem exec_rBits_error {e : Raise} {r' : Rx} (h : getBits s.cfg n.toNat s.rx = .error e r') :
    exec (.rBits n) s = .next { s with rx := cursorLost e r' } := by
  show execRBits n s = _
  rw [execRBits, onRx_next, Rx.command_error hf (refuseIf_neg (not_lt.2 hn) _) h]

end Bits

theorem Rx.srcGet_length (r : Rx) :
    (r.srcGet K).length = min (r.src.length - r.srcpos) (K.bufWords * K.wordBytes) := by
  rw [Rx.srcGet, List.length_take, List.length_drop, Nat.min_comm]

/-- Settles O31. -/
theorem rBits : Obligations.RBits := by
  intro s n hinv hf
  have hK := hinv.cfg
  have hreader := hinv.rx.reader hf
  dsimp only
  refine ⟨fun bits rest hlen hn ha => ?_, fun hn hshort => ?_, fun hn => ?_⟩
  · obtain ⟨r', hok, hcons, hrest⟩ := getBits_field hK hreader (hlen ▸ hn) ha
    rw [hlen] at hok
    obtain ⟨hheld, hfilled⟩ := (getBits_pulls hK hreader hn).1 _ _ hok
    refine ⟨r', exec_rBits_ok hf hn hok, hcons, hrest, fun h0 => ?_, hheld, fun hlt => ?_⟩
    · subst h0
      exact (EStateM.Result.ok.inj hok).2.symm
    · obtain ⟨hpulled, hpos, heof⟩ := hfilled hlt
      rw [Rx.srcGet_length] at hpulled hpos heof
      exact ⟨hpulled, hpos, heof.trans (by omega)⟩
  · rcases getBits_spec hK hreader hn with ⟨bits, r', hlen, -, hcons⟩ | ⟨-, r', herr, htouched, heof⟩
    · have hahead := congrArg List.length hcons.ahead
      rw [List.length_append, hlen] at hahead
      omega
    · obtain ⟨hpulled, hpos⟩ := (getBits_pulls hK hreader hn).2 _ _ herr
      exact ⟨_, exec_rBits_error hf hn herr, htouched.cursorLost_failedWith _, heof, hpulled, hpos⟩
  · show execRBits n s = _
    rw [execRBits, onRx_next, Rx.command_refused hf (refuseIf_pos hn _)]

/-! ## `R.UNARY` -/

section Unary

variable {s : State} (hf : s.rx.flt.fault = 0)
include hf

theorem exec_rUnary_ok {w : Nat} {r' : Rx} (h : (getUnary s.cfg >>= fitCount s.cfg) s.rx = .ok w r') :
    exec .rUnary s = .next { s with rx := r'.respond w } := by
  show execRUnary s = _
  rw [execRUnary, onRx_next, Rx.command_ok hf rfl h]

theorem exec_rUnary_error {e : Raise} {r' : Rx} (h : getUnary s.cfg s.rx = .error e r') :
    exec .rUnary s = .next { s with rx := cursorLost e r' } := by
  have hwork : (getUnary s.cfg >>= fitCount s.cfg) s.rx = .error e r' := by simp only [bind, EStateM.bind, h]
  show execRUnary s = _
  rw [execRUnary, onRx_next, Rx.command_error hf rfl hwork]

end Unary

/-- Settles O32. -/
theorem rUnary : Obligations.RUnary := by
  intro s hinv hf
  have hK := hinv.cfg
  have hreader := hinv.rx.reader hf
  refine ⟨fun v rest hv ha => ?_, fun rest ha => ?_, fun m hm ha => ?_⟩
  · have hcode : s.rx.ahead s.cfg = unaryBits v ++ rest := by rw [ha, unaryBits, List.append_assoc]; rfl
    obtain ⟨r', hok, hcons, hrest⟩ := getUnary_code hK hv hreader hcode
    obtain ⟨w, k, hfit, hw, hsame⟩ := fitCount_ok (K := s.cfg) v r'
    have htick : r'.freeTick = s.rx.freeTick := (congrArg Rx.freeTick hcons.frame).trans rfl
    refine ⟨{ r' with freeTick := k }, w, exec_rUnary_ok hf ?_, hw, fun hlt => ?_, hcons.withTick k, hrest⟩
    · simp only [bind, EStateM.bind, hok, hfit]
    · obtain ⟨hwv, hk⟩ := hsame hlt
      exact ⟨hwv, hk.trans htick⟩
  · obtain ⟨r', herr, htouched⟩ := getUnaryFrom_overrun hK s.cfg.unaryMax 0 hreader ha
    rw [Nat.zero_add] at herr
    exact ⟨_, exec_rUnary_error hf herr, htouched.cursorLost_failedWith _⟩
  · obtain ⟨r', herr, htouched, heof⟩ := getUnaryFrom_end hK s.cfg.unaryMax 0 m hm hreader ha
    exact ⟨_, exec_rUnary_error hf herr, htouched.cursorLost_failedWith _, heof⟩

/-! ## `R.STR` -/

section Str

variable {s : State} {a : U32} {cap : Word} (hf : s.rx.flt.fault = 0) (hr : a.toNat + cap.toNat ≤ s.cfg.rawBytes)
include hf hr

theorem exec_rStr_ok {v : Nat} {r' : Rx} (h : getStr s.cfg a.toNat cap.toNat 0 s.rx = .ok v r') :
    exec (.rStr a cap) s = .next { s with rx := r'.respond v } := by
  show execRStr a cap s = _
  rw [execRStr, onRx_next, Rx.command_ok hf (refuseIf_neg (not_lt.2 hr) _) h]

theorem exec_rStr_error {e : Raise} {r' : Rx} (h : getStr s.cfg a.toNat cap.toNat 0 s.rx = .error e r') :
    exec (.rStr a cap) s = .next { s with rx := cursorLost e r' } := by
  show execRStr a cap s = _
  rw [execRStr, onRx_next, Rx.command_error hf (refuseIf_neg (not_lt.2 hr) _) h]

end Str

theorem nameField_of_not_mem {bs : List Byte} (h : (0 : Byte) ∉ bs) : nameField bs = bs := by
  induction bs with
  | nil => rfl
  | cons b bs ih =>
    rw [nameField, if_neg fun hb : b = 0 => h (hb ▸ List.mem_cons_self), ih fun hm => h (List.mem_cons_of_mem _ hm)]

theorem nameField_terminated {cs : List Byte} (h : (0 : Byte) ∉ cs) (ds : List Byte) :
    nameField (cs ++ 0 :: ds) = cs ++ [0] := by
  induction cs with
  | nil => rfl
  | cons c cs ih =>
    rw [List.cons_append, nameField, if_neg fun hc : c = 0 => h (hc ▸ List.mem_cons_self),
      ih fun hm => h (List.mem_cons_of_mem _ hm)]
    rfl

/-- What `R.STR` reads is the field at the head of some `cap` bytes (R168). -/
theorem nameField_padded {bs : List Byte} {cap : Nat}
    (h : (bs.length = cap ∧ 0 ∉ bs) ∨ (bs.length ≤ cap ∧ ∃ cs, bs = cs ++ [0] ∧ 0 ∉ cs)) :
    ∃ ds, ds.length = cap ∧ nameField ds = bs := by
  rcases h with ⟨hlen, h0⟩ | ⟨hlen, cs, rfl, h0⟩
  · exact ⟨bs, hlen, nameField_of_not_mem h0⟩
  · refine ⟨cs ++ 0 :: List.replicate (cap - (cs.length + 1)) 0, ?_, nameField_terminated h0 _⟩
    simp only [List.length_append, List.length_cons, List.length_nil, List.length_replicate] at hlen ⊢
    omega

/-- A string the stream ends in: what was read of it is stored (R168, log 20). -/
theorem getStr_cut (hK : K.Legal) (bs : List Byte) (h0 : (0 : Byte) ∉ bs) (addr left n : Nat) (hlt : bs.length < left) :
    RxM.Fails K (fun _ => True) (shortOf 8) (getStr K addr left n) (byteBits bs) (endBehind (byteBits bs))
      (fun r => { r with raw := storeBytes addr bs r.raw }) := by
  have h8 : 8 ≤ K.wordBits := by have := hK.wordBits_ge; omega
  obtain ⟨left, rfl⟩ : ∃ l, left = l + 1 := ⟨left - 1, by omega⟩
  induction bs generalizing addr left n with
  | nil => exact (RxM.Fails.getBits hK h8).bind _
  | cons b bs ih =>
    have hb : b.toNat ≠ 0 := fun hb => h0 ((BitVec.eq_of_toNat_eq hb : b = 0) ▸ List.mem_cons_self)
    rw [List.length_cons] at hlt
    obtain ⟨left, rfl⟩ : ∃ l, left = l + 1 := ⟨left - 1, by omega⟩
    have htail := ih (fun hm => h0 (List.mem_cons_of_mem _ hm)) (addr + 1) (n + 1) left (by omega)
    have hset : Rx.Aside fun r : Rx => { r with raw := r.raw.writeByte addr (BitVec.ofNat 8 b.toNat) } := fun _ _ => rfl
    have hstore : Rx.Aside fun r : Rx => { r with raw := storeBytes (addr + 1) bs r.raw } := fun _ _ => rfl
    have hfirst := (getBits_reads_lt hK h8 b.isLt).thenEnds (P := fun _ => True)
      (k := fun ch => do
        modify fun r => { r with raw := r.raw.writeByte addr (BitVec.ofNat 8 ch) }
        if ch = 0 then pure (n + 1) else getStr K (addr + 1) (left + 1) (n + 1))
      (RxM.ReadsTo.seqEnds (RxM.ReadsTo.modify hset) (P' := fun _ => True) (by rw [if_neg hb]; exact htail)
        (fun _ _ => trivial) Rx.asideProp_true hstore) Rx.asideProp_true (hset.comp hstore)
    exact hfirst.congr (by simp [byteBits]) (fun p => by simp [byteBits]) fun r _ => by simp [storeBytes]

/-- Settles O33. -/
theorem rStr : Obligations.RStr := by
  intro s a cap hinv hf
  have hK := hinv.cfg
  have hreader := hinv.rx.reader hf
  have hwf := hinv.rx.raw
  refine ⟨fun bs rest hr hbs ha => ?_, fun bs rest hr hlen h0 hrest ha => ?_, fun hr => ?_⟩
  · obtain ⟨ds, hds, hfield⟩ := nameField_padded hbs
    have hreads := getStr_reads hK ds a.toNat 0
    rw [hds, hfield, Nat.zero_add] at hreads
    obtain ⟨r', hok, hcons, hahead⟩ := hreads.takes s.rx hreader trivial rest ha
    have hraw : r'.raw = storeBytes a.toNat bs s.rx.raw := hcons.touched.raw_eq
    refine ⟨r', exec_rStr_ok hf hr hok, hraw ▸ hcons, hahead, fun j hj => ?_, fun e he => ?_⟩
    · rw [hraw, storeBytes_inside _ _ hwf hj]
    · rw [hraw, storeBytes_outside _ _ _ he]
  · obtain ⟨r', herr, htouched⟩ := getStr_cut hK bs h0 a.toNat cap.toNat 0 hlen s.rx hreader trivial rest hrest ha
    have hraw : r'.raw = storeBytes a.toNat bs s.rx.raw := htouched.raw_eq
    have hpos : (byteBits bs).length = 8 * bs.length := by simp
    dsimp only at htouched
    rw [← hraw] at htouched
    rw [endBehind, hpos] at herr
    refine ⟨_, exec_rStr_error hf hr herr, htouched.cursorLost_failedWith _, fun j hj => ?_, fun e he => ?_⟩
    · exact (congrArg (fun m => m.readByte (a.toNat + j)) hraw).trans (storeBytes_inside _ _ hwf hj)
    · exact (congrArg (fun m => m.readByte e) hraw).trans (storeBytes_outside _ _ _ he)
  · show execRStr a cap s = _
    rw [execRStr, onRx_next, Rx.command_refused hf (refuseIf_pos hr _)]

end Sys2Proof.Machine
end

section
/-! PROOFS. The codec commands that take one number or one vector: `E.MEXPG`, `D.MEXPG`, `E.WORD`, `E.VEC` and `ChanCheck`
(42_codec_primitives.md R183 to R203; 43_codec_encode.md R210 to R212). -/

namespace Sys2Proof.Machine

variable {K : Config}

/-! ## `E.MEXPG` and `D.MEXPG` -/

/-- `len_k(u)` (R185). -/
theorem mexpgBits_length (k u : Nat) :
    (mexpgBits k u).length = if bitSize u ≤ k then k + 1 else 2 * bitSize u - k := by
  have hunary : ∀ v, (unaryBits v).length = v + 1 := fun v => by simp [unaryBits]
  rw [mexpgBits]
  split
  · rw [if_neg (by omega), List.length_append, hunary, fieldBits_length]; omega
  · rw [if_pos (by omega), List.length_append, hunary, fieldBits_length]; omega

/-- Settles O35. -/
theorem eMexpg : Obligations.EMexpg := by
  intro s u k hinv hready
  refine ⟨fun hk hwf => ?_, fun hk => ?_⟩
  · have happ := Tx.mexpgPut_appended hinv.cfg hinv.tx.writer (of_decide_eq_true hwf) hk
    refine ⟨_, ?_, happ, ?_⟩
    · show execEMexpg u k s = _
      rw [execEMexpg, onTx_next, Tx.streamCommand_ok hready (by rw [orderCheck_eq_none.2 hk, afterCheck_none])]
    · rw [happ.bitpos_eq, mexpgBits_length]
  · show execEMexpg u k s = _
    rw [execEMexpg, onTx_next, Tx.streamCommand_error hready (by rw [orderCheck, refuseIf_pos hk, afterCheck_some])]

section Dmexpg

variable {s : State} {k : Byte} (hf : s.rx.flt.fault = 0) (hk : k.toNat ≤ 31)
include hf hk

theorem exec_dMexpg_ok {u : Nat} {r' : Rx} (h : mexpgGet s.cfg k.toNat s.rx = .ok u r') :
    exec (.dMexpg k) s = .next { s with rx := r'.respond u } := by
  show execDMexpg k s = _
  rw [execDMexpg, onRx_next, Rx.command_ok hf (orderCheck_eq_none.2 hk) h]

theorem exec_dMexpg_fails {e : Raise}
    (h : ∃ r', mexpgGet s.cfg k.toNat s.rx = .error e r' ∧ s.rx.Touched s.cfg r') :
    ∃ r', exec (.dMexpg k) s = .next { s with rx := r' } ∧ s.rx.FailedWith e r' := by
  obtain ⟨r', herr, htouched⟩ := h
  refine ⟨cursorLost e r', ?_, htouched.cursorLost_failedWith e⟩
  show execDMexpg k s = _
  rw [execDMexpg, onRx_next, Rx.command_error hf (orderCheck_eq_none.2 hk) herr]

end Dmexpg

/-- Settles O36. -/
theorem dMexpg : Obligations.DMexpg := by
  intro s k hinv hf
  have hK := hinv.cfg
  have hreader := hinv.rx.reader hf
  dsimp only
  refine ⟨fun hk => ⟨fun u rest hu ha => ?_, fun rest ha => ?_, fun m hm ha => ?_, fun q hq rest ha => ?_⟩, fun hk => ?_⟩
  · obtain ⟨r', hok, hcons, hrest⟩ := mexpgGet_code hK hu hk hreader ha
    exact ⟨r', exec_dMexpg_ok hf hk hok, hcons, hrest⟩
  · exact exec_dMexpg_fails hf hk (mexpgGet_refused hK .overrun s.rx hreader trivial rest trivial ha)
  · exact exec_dMexpg_fails hf hk ((mexpgGet_ends hK k.toNat).1 s.rx m hreader hm ha)
  · have hcode : s.rx.ahead s.cfg = unaryBits q ++ rest := by rw [ha, unaryBits, List.append_assoc]; rfl
    have hkW : k.toNat ≤ s.cfg.wordBits := by have := hK.wordBits_ge; omega
    have hpos : endBehind (unaryBits q) s.rx.bitpos = endOfStreamAt (s.rx.bitpos + q + 1) := by
      simp [endBehind, unaryBits, Nat.add_assoc]
    have hends := (mexpgGet_ends hK k.toNat).2 hkW q hq
    refine ⟨fun h0 hwide => ?_, fun h0 hfits hshort => ?_, fun h0 hshort => ?_⟩
    · exact exec_dMexpg_fails hf hk (mexpgGet_refused hK (.wide h0 hq hwide) s.rx hreader trivial rest trivial hcode)
    · have hcut := hends (.inr hfits) s.rx hreader trivial rest (by rw [if_neg (by omega)]; exact hshort) hcode
      rw [hpos] at hcut
      exact exec_dMexpg_fails hf hk hcut
    · have hcut := hends (.inl h0) s.rx hreader trivial rest (by rw [if_pos h0]; exact hshort) hcode
      rw [hpos] at hcut
      subst h0
      exact exec_dMexpg_fails hf hk hcut
  · show execDMexpg k s = _
    rw [execDMexpg, onRx_next, Rx.command_refused hf (refuseIf_pos hk _)]

/-! ## `E.WORD` -/

/-- The codec stage input of a single word (R194, R196). -/
theorem stageOut_singleton {ch : Channel} (hrot : ch.rot.toNat < ch.width) {r : Nat} (hr : r < 2 ^ ch.width) {x : Nat}
    (hx : x = r / 2 ^ ch.rot.toNat + r % 2 ^ ch.rot.toNat * 2 ^ (ch.width - ch.rot.toNat)) :
    (stageOut ch [r]).1 = [if ch.delta then (((x : Int) - ch.prev.toNat) % 2 ^ ch.width).toNat else x] := by
  obtain ⟨y, hy⟩ := List.length_eq_one_iff.1 (stageOut_length ch [r])
  have hget := stageOut_getD hrot (rs := [r]) (by simpa using hr)
    (x := fun i => [r].getD i 0 / 2 ^ ch.rot.toNat + [r].getD i 0 % 2 ^ ch.rot.toNat * 2 ^ (ch.width - ch.rot.toNat))
    (fun _ => rfl) (i := 0) (by simp)
  simp only [hy, List.getD_cons_zero, if_true, ← hx] at hget
  rw [hy]
  congr 1
  split at hget
  · next hd => rw [if_pos hd, ← hget, Int.toNat_natCast]
  · next hd => rw [if_neg hd]; exact Int.ofNat.inj hget

/-- The Reduced-Binary code by arithmetic over the integers (R181, R186). -/
theorem rbBits_eq (ch : Channel) (y : Nat) :
    rbBits ch y = if (((y : Int) - ch.offset.toNat) % 2 ^ ch.width).toNat < 2 ^ ch.nbits.toNat - 1
      then fieldBits ch.nbits.toNat (((y : Int) - ch.offset.toNat) % 2 ^ ch.width).toNat
      else fieldBits ch.nbits.toNat (2 ^ ch.nbits.toNat - 1) ++ fieldBits ch.width y := by
  have hd : (((y : Int) - ch.offset.toNat) % 2 ^ ch.width).toNat = subMod ch.width y (ch.offset.toNat % 2 ^ ch.width) := by
    have h := subMod_eq ch.width y (ch.offset.toNat % 2 ^ ch.width)
    push_cast at h
    rw [Int.sub_emod, Int.emod_emod_of_dvd _ dvd_rfl, ← Int.sub_emod] at h
    rw [← h, Int.toNat_natCast]
  rw [hd]
  rfl

/-- Settles O37. -/
theorem eWord : Obligations.EWord := by
  intro s c value hinv hready hc
  dsimp only
  generalize hch : channelAt s.tx.chans c.toNat = ch
  have hrot : ch.rot.toNat < ch.width := hch ▸ hc.codable.rot
  have hr : value.toNat % 2 ^ ch.width < 2 ^ ch.width := Nat.mod_lt _ (Nat.two_pow_pos _)
  have hstage := stageOut_singleton hrot hr rfl
  have hlast := chanAfter_last hrot (rs := [value.toNat % 2 ^ ch.width]) (by simpa using hr) (by simp) rfl
  have hexec := exec_eWord_appended value hinv hready hc
  dsimp only at hexec
  rw [hch] at hexec
  suffices hbits : vectorBits ch [value.toNat % 2 ^ ch.width] = _ from ⟨hbits, hlast, hbits ▸ hexec⟩
  rw [vectorBits, hstage, codecBits]
  cases ha : ch.alg
  case default => simp
  case reducedBinary => simp [rbBits_eq]
  case runLength => simp [rlBits, runs, pairsBits]
  case constant => rfl

/-! ## `E.VEC` -/

theorem chanCheck_of_ok {cw : U32} {chans : List Channel} {c : Nat} (h : ChanOk chans c) : chanCheck cw chans c = none :=
  chanCheck_eq_none.2 ⟨h.registered, h.codable, h.permit⟩

/-- The checks of `E.VEC` and `D.VEC` behind `ChanCheck` (R212, R227). -/
theorem vecCheck_of_ok {cw : U32} {chans : List Channel} {c addr n : Nat} (h : ChanOk chans c) :
    vecCheck K cw chans c addr n = (refuseIf (n = 0) ⟨.badOperand, 0, 0⟩ <|> rangeCheck K addr n) := by
  rw [vecCheck, chanCheck_of_ok h]
  rfl

theorem vecCheck_empty {cw : U32} {chans : List Channel} {c addr : Nat} (h : ChanOk chans c) :
    vecCheck K cw chans c addr 0 = some ⟨.badOperand, 0, 0⟩ := by
  rw [vecCheck_of_ok h, refuseIf_pos rfl]
  rfl

theorem vecCheck_outside {cw : U32} {chans : List Channel} {c addr n : Nat} (h : ChanOk chans c) (h0 : n ≠ 0)
    (hr : K.rawBytes < addr + n) : vecCheck K cw chans c addr n = some ⟨.badOperand, addr, n % 2 ^ 32⟩ := by
  rw [vecCheck_of_ok h, refuseIf_neg h0, rangeCheck, refuseIf_pos hr]
  rfl

theorem exec_eVec_refused {s : State} {c : BitVec 16} {a : U32} {n : Word} {e : Raise} (hready : s.tx.Ready)
    (h : vecCheck s.cfg (cwC 0x22 c) s.tx.chans c.toNat a.toNat n.toNat = some e) :
    exec (.eVec c a n) s = .next { s with tx := s.tx.raise e } := by
  show execEVec c a n s = _
  rw [execEVec, onTx_next, Tx.streamCommand_error hready (by rw [h, afterCheck_some])]

theorem exec_dVec_refused {s : State} {c : BitVec 16} {a : U32} {n : Word} {e : Raise} (hf : s.rx.flt.fault = 0)
    (h : vecCheck s.cfg (cwC 0xA2 c) s.rx.chans c.toNat a.toNat n.toNat = some e) :
    exec (.dVec c a n) s = .next { s with rx := s.rx.raise e } := by
  show execDVec c a n s = _
  rw [execDVec, onRx_next, Rx.command_refused hf h]

theorem word_toNat_ne_zero {n : Word} (h : n ≠ 0) : n.toNat ≠ 0 := fun h0 => h (BitVec.eq_of_toNat_eq h0)

/-- Settles O38. -/
theorem eVec : Obligations.EVec := by
  intro s c a n hinv hready hc
  have hrot := hc.codable.rot
  have hlt := readWords_lt s.tx.raw a.toNat n.toNat (channelAt s.tx.chans c.toNat).size_pos
  refine ⟨⟨stageOut_length _ _, fun i hi => stageOut_getD hrot hlt (fun _ => rfl) hi,
      fun h0 => chanAfter_last hrot hlt h0 rfl, runs_flatten _, fun p hp => (runs_mem hp).2.1, runs_chain _, rfl⟩,
    fun hwf h0 hr => ?_, fun h0 => ?_, fun h0 hr => ?_⟩
  · exact exec_eVec_appended hinv hready hc (of_decide_eq_true hwf) (word_toNat_ne_zero h0) hr
  · subst h0
    exact exec_eVec_refused hready (vecCheck_empty hc)
  · exact exec_eVec_refused hready (vecCheck_outside hc (word_toNat_ne_zero h0) hr)

/-- Every byte of a raw word that is not a byte of the vector is zero (R84, R210). -/
theorem readWords_ghost {raw : RawMem} {addr ws n i j : Nat} (hi : i < ceilDiv n ws) (hj : j < ws) (hout : n ≤ i * ws + j) :
    (readWords raw addr ws n).getD i 0 / 2 ^ (8 * j) % 256 = 0 := by
  have hws : 0 < ws := by omega
  have hdiv := Nat.div_add_mod n ws
  have hmod := Nat.mod_lt n hws
  have hlast : i = n / ws := by
    have hceil : i * ws < n + ws - 1 + 1 - ws := by
      have := Nat.div_mul_le_self (n + ws - 1) ws
      have hstep : (i + 1) * ws ≤ (n + ws - 1) / ws * ws := Nat.mul_le_mul_right ws hi
      rw [Nat.add_mul] at hstep
      omega
    have hlow : n / ws * ws ≤ n := Nat.div_mul_le_self n ws
    refine Nat.le_antisymm ((Nat.le_div_iff_mul_le hws).2 (by omega)) (Nat.lt_succ_iff.1 ?_)
    refine (Nat.div_lt_iff_lt_mul hws).2 ?_
    rw [Nat.succ_mul]
    omega
  have hpart : n % ws ≤ j := by rw [hlast, Nat.mul_comm] at hout; omega
  have hpos : n % ws ≠ 0 := fun h0 => by
    rw [ceilDiv, show n + ws - 1 = (ws - 1) + ws * (n / ws) by omega, Nat.add_mul_div_left _ _ hws,
      Nat.div_eq_of_lt (by omega)] at hi
    omega
  have hword : (readWords raw addr ws n).getD i 0 = raw.read (addr + n / ws * ws) (n % ws) := by
    rw [readWords, if_neg hpos, hlast, List.getD_eq_getElem?_getD, List.getElem?_append_right (by simp)]
    simp
  have hsmall : raw.read (addr + n / ws * ws) (n % ws) < 2 ^ (8 * j) :=
    Nat.lt_of_lt_of_le (RawMem.read_lt _ _ _) (Nat.pow_le_pow_right (by omega) (by omega))
  rw [hword, Nat.div_eq_of_lt hsmall]

/-- Settles O39. -/
theorem vectorWords : Obligations.VectorWords := by
  intro m addr n d
  have hsize : 0 < d.size := by cases d <;> decide
  have hlen := readWords_length m addr n hsize
  refine ⟨hlen, fun i j hi hj => ⟨?_, ?_⟩⟩
  · rw [List.getD_eq_getElem?_getD, List.getElem?_eq_getElem (by rw [hlen]; exact hi)]
    exact readWords_lt m addr n hsize _ (List.getElem_mem _)
  · split
    · next hin => rw [← toNat_ofNat_shift, readWords_byte hj hin]
    · next hout => exact readWords_ghost hi hj (not_lt.1 hout)

/-! ## `ChanCheck` -/

/-- The checks of R201 in order, the first failing one answering. -/
theorem chanCheck_refuses {cw : U32} {chans : List Channel} {c : Nat} :
    (chans.length ≤ c → chanCheck cw chans c = some ⟨.badOperand, c, chans.length⟩) ∧
    (c < chans.length →
      ((channelAt chans c).width ≤ (channelAt chans c).rot.toNat → chanCheck cw chans c =
        some ⟨.badOperand, (channelAt chans c).rot.toNat, (channelAt chans c).width⟩) ∧
      ((channelAt chans c).rot.toNat < (channelAt chans c).width → (channelAt chans c).rot ≠ 0 →
        (channelAt chans c).permrot = false → chanCheck cw chans c = some ⟨.illegalState, cw.toNat, c⟩) ∧
      ((channelAt chans c).rot.toNat < (channelAt chans c).width →
        (channelAt chans c).rot = 0 ∨ (channelAt chans c).permrot = true → (channelAt chans c).alg = .reducedBinary →
        (channelAt chans c).width < (channelAt chans c).nbits.toNat → chanCheck cw chans c =
          some ⟨.badOperand, (channelAt chans c).nbits.toNat, (channelAt chans c).width⟩)) := by
  unfold chanCheck
  refine ⟨fun h => ?_, fun h => ⟨fun hrot => ?_, fun hrot h0 hperm => ?_, fun hrot hperm halg hn => ?_⟩⟩
  · rw [refuseIf_pos h]; rfl
  · rw [refuseIf_neg (not_le.2 h), refuseIf_pos hrot]; rfl
  · rw [refuseIf_neg (not_le.2 h), refuseIf_neg (not_le.2 hrot), refuseIf_pos ⟨h0, hperm⟩]; rfl
  · have hpermitted : ¬((channelAt chans c).rot ≠ 0 ∧ (channelAt chans c).permrot = false) := by
      rintro ⟨hne, hp⟩
      rcases hperm with h | h
      · exact hne h
      · rw [hp] at h; cases h
    rw [refuseIf_neg (not_le.2 h), refuseIf_neg (not_le.2 hrot), refuseIf_neg hpermitted, refuseIf_pos ⟨halg, hn⟩]; rfl

theorem vecCheck_of_chanCheck {cw : U32} {chans : List Channel} {c addr n : Nat} {e : Raise}
    (h : chanCheck cw chans c = some e) : vecCheck K cw chans c addr n = some e := by
  rw [vecCheck, h]
  rfl

/-- A codec command of TX that `ChanCheck` refuses. -/
theorem exec_encode_refused {s : State} {c : BitVec 16} {a : U32} {x : Word} {i : Instr} {e : Raise} (hready : s.tx.Ready)
    (hi : i ∈ [Instr.eWord c x, Instr.eVec c a x]) (h : chanCheck i.commandWord s.tx.chans c.toNat = some e) :
    exec i s = .next { s with tx := s.tx.raise e } := by
  rcases List.mem_pair.1 hi with rfl | rfl
  · have hcheck : chanCheck (cwC 0x21 c) s.tx.chans c.toNat = some e := h
    show execEWord c x s = _
    rw [execEWord, onTx_next, Tx.streamCommand_error hready (by rw [hcheck, afterCheck_some])]
  · exact exec_eVec_refused hready (vecCheck_of_chanCheck h)

/-- A codec command of RX that `ChanCheck` refuses. -/
theorem exec_decode_refused {s : State} {c : BitVec 16} {a : U32} {x : Word} {i : Instr} {e : Raise}
    (hf : s.rx.flt.fault = 0) (hi : i ∈ [Instr.dWord c, Instr.dVec c a x])
    (h : chanCheck i.commandWord s.rx.chans c.toNat = some e) : exec i s = .next { s with rx := s.rx.raise e } := by
  rcases List.mem_pair.1 hi with rfl | rfl
  · have hcheck : chanCheck (cwC 0xA1 c) s.rx.chans c.toNat = some e := h
    show execDWord c s = _
    rw [execDWord, onRx_next, Rx.command_refused hf hcheck]
  · exact exec_dVec_refused hf (vecCheck_of_chanCheck h)

/-- Settles O43: the four commands make the one check. -/
theorem chanCheckRefuses : Obligations.ChanCheckRefuses := by
  intro s c a x
  refine ⟨fun i hi hready => ?_, fun i hi hf => ?_⟩
  · obtain ⟨hreg, hchan⟩ := chanCheck_refuses (cw := i.commandWord) (chans := s.tx.chans) (c := c.toNat)
    have hrefused := fun {e : Raise} => exec_encode_refused (e := e) hready hi
    refine ⟨fun h => hrefused (hreg h), fun h => ?_⟩
    obtain ⟨hrot, hperm, hnbits⟩ := hchan h
    exact ⟨fun h1 => hrefused (hrot h1), fun h1 h2 h3 => hrefused (hperm h1 h2 h3),
      fun h1 h2 h3 h4 => hrefused (hnbits h1 h2 h3 h4)⟩
  · obtain ⟨hreg, hchan⟩ := chanCheck_refuses (cw := i.commandWord) (chans := s.rx.chans) (c := c.toNat)
    have hrefused := fun {e : Raise} => exec_decode_refused (e := e) hf hi
    refine ⟨fun h => hrefused (hreg h), fun h => ?_⟩
    obtain ⟨hrot, hperm, hnbits⟩ := hchan h
    exact ⟨fun h1 => hrefused (hrot h1), fun h1 h2 h3 => hrefused (hperm h1 h2 h3),
      fun h1 h2 h3 h4 => hrefused (hnbits h1 h2 h3 h4)⟩

end Sys2Proof.Machine
end

section
/-! PROOFS. `D.WORD` and `D.VEC` (44_codec_decode.md R225 to R230): any code the decode side accepts is taken, a stream that ends
and a refused Run-Length pair are reported. -/

namespace Sys2Proof.Machine

variable {K : Config}

/-! ## Faults of the two commands -/

/-- The first fault is the one that is reported (R345). -/
theorem Rx.raise_reported {r : Rx} (h : r.flt.fault = 0) (e : Raise) : (r.raise e).Reported e :=
  ⟨rfl, rfl, FaultRecord.record_first h e⟩

theorem Rx.Touched.flt_eq {r r' : Rx} (h : r.Touched K r') : r'.flt = r.flt := (congrArg Rx.flt h.withReader_eq).symm

/-- `DecVec` fails where its `DecWords` fails. -/
theorem decVec_error {c addr n : Nat} {r r' : Rx} {e : Raise}
    (h : decWords K c (ceilDiv n (channelAt r.chans c).size) r = .error e r') : decVec K c addr n r = .error e r' := by
  simp only [decVec, bind, EStateM.bind, get, MonadState.get, getThe, MonadStateOf.get, EStateM.get, h]

section Faults

variable {s : State} {c : BitVec 16} {a : U32} {n : Word} {r' : Rx} {e : Raise} (hK : s.cfg.Legal)
  (hf : s.rx.flt.fault = 0)
include hK hf

theorem exec_dWord_reported (hc : ChanOk s.rx.chans c.toNat) (h : decWords s.cfg c.toNat 1 s.rx = .error e r') :
    ∃ s', exec (.dWord c) s = .next s' ∧ s'.rx.Reported e := by
  have hlive : r'.flt.fault = 0 := by rw [(decWords_error_touched hK h).flt_eq, hf]
  have hwork : (do let rs ← decWords s.cfg c.toNat 1; pure (rs.getD 0 0) : RxM Nat) s.rx = .error e r' := by
    simp only [bind, EStateM.bind, h]
  refine ⟨{ s with rx := (r'.forgetDecode s.cfg c.toNat 0 0).raise e }, ?_,
    Rx.raise_reported (r := r'.forgetDecode _ _ _ _) hlive e⟩
  show execDWord c s = _
  rw [execDWord, onRx_next, Rx.command_error hf (chanCheck_of_ok hc) hwork]

theorem exec_dVec_reported (hc : vecCheck s.cfg (cwC 0xA2 c) s.rx.chans c.toNat a.toNat n.toNat = none)
    (h : decWords s.cfg c.toNat (ceilDiv n.toNat (channelAt s.rx.chans c.toNat).size) s.rx = .error e r') :
    ∃ s', exec (.dVec c a n) s = .next s' ∧ s'.rx.Reported e := by
  have hlive : r'.flt.fault = 0 := by rw [(decWords_error_touched hK h).flt_eq, hf]
  have hwork : (do
      decVec s.cfg c.toNat a.toNat n.toNat
      modify (Rx.forgetGhost s.cfg (a.toNat + n.toNat))
      pure n.toNat : RxM Nat) s.rx = .error e r' := by
    simp only [bind, EStateM.bind, decVec_error h]
  refine ⟨{ s with rx := (r'.forgetDecode s.cfg c.toNat a.toNat (n.toNat + s.cfg.maxGhostBytes)).raise e }, ?_,
    Rx.raise_reported (r := r'.forgetDecode _ _ _ _) hlive e⟩
  show execDVec c a n s = _
  rw [execDVec, onRx_next, Rx.command_error hf hc hwork]

end Faults

theorem Channel.width_le_wordBits (hK : K.Legal) (ch : Channel) : ch.width ≤ K.wordBits := by
  have := ch.width_le
  have := hK.wordBits_ge
  omega

/-! ## `D.WORD` -/

/-- Settles O40. -/
theorem dWord : Obligations.DWord := by
  intro s c hinv hf hc
  have hK := hinv.cfg
  have hreader := hinv.rx.reader hf
  have hch := (hinv.rx.chans hf).2 _ (channelAt_mem hc.registered)
  have hone : 1 < 2 ^ s.cfg.wordBits := Nat.one_lt_two_pow hK.wordBits_pos.ne'
  refine ⟨fun v bits rest hv hcoded ha => ?_, ?_, fun v bits more hv hcoded hm he => ?_, fun halg bits rest e hpair ha => ?_⟩
  · obtain ⟨r', hx, hcons, hrest⟩ := exec_dWord_consumed hK hinv.rx hf hc hv hcoded ha
    refine ⟨r', hx.trans ?_, hcons, hrest⟩
    unfold decoded
    split <;> rfl
  · exact rolW_eq (Nat.mod_lt _ (Nat.two_pow_pos _)) hc.codable.rot
  · obtain ⟨r', p, herr, hp⟩ := decWords_cut hK hreader hch hc.codable (rs := [v]) (by simpa using hv) hone hcoded hm he
    exact ⟨p, exec_dWord_reported hK hf hc herr, hp⟩
  · have hfails := rlGet_refused hK (Channel.width_le_wordBits hK _) (ps := []) (by simp) (by simp) hone hpair
    obtain ⟨r', herr, -⟩ := decWords_runLength_fails hreader halg hfails ha
    exact exec_dWord_reported hK hf hc herr

/-! ## `D.VEC` -/

theorem decoded_getD (ch : Channel) {rs : List Nat} {i : Nat} (h : i < rs.length) :
    (decoded ch rs).getD i 0 = if ch.alg = .constant then constantWord ch else rs.getD i 0 := by
  unfold decoded
  split
  · simp [List.getD_eq_getElem?_getD, h]
  · rfl

theorem clipLen_le (K : Config) (lo len : Nat) : clipLen K lo len ≤ len := Nat.min_le_left _ _

theorem lt_ceilDiv {n ws i j : Nat} (hin : i * ws + j < n) (hws : 0 < ws) : i < ceilDiv n ws := by
  refine (Nat.le_div_iff_mul_le hws).2 ?_
  rw [Nat.succ_mul]
  omega

/-- Settles O41. -/
theorem dVec : Obligations.DVec := by
  intro s c a n hinv hf hc
  have hK := hinv.cfg
  have hreader := hinv.rx.reader hf
  have hch := (hinv.rx.chans hf).2 _ (channelAt_mem hc.registered)
  have hsize := (channelAt s.rx.chans c.toNat).size_pos
  refine ⟨fun hwf h0 hr => ?_, fun h0 => ?_, fun h0 hr => ?_⟩
  · have hfits : n.toNat < 2 ^ s.cfg.wordBits := of_decide_eq_true hwf
    have hn := word_toNat_ne_zero h0
    have hcheck : vecCheck s.cfg (cwC 0xA2 c) s.rx.chans c.toNat a.toNat n.toNat = none :=
      vecCheck_eq_none.2 ⟨chanCheck_of_ok hc, hn, hr⟩
    have hwords : ceilDiv n.toNat (channelAt s.rx.chans c.toNat).size < 2 ^ s.cfg.wordBits :=
      Nat.lt_of_le_of_lt (ceilDiv_le_self hsize) hfits
    refine ⟨fun rs bits rest hlen hlt hcoded ha => ?_, fun rs bits more hlen hlt hcoded hm he => ?_,
      fun halg ps bits rest e hps hsum hpair ha => ?_⟩
    · obtain ⟨r', hx, hcons, hrest⟩ := exec_dVec_consumed hK hinv.rx hf hc hfits hn hr hlt hlen hcoded ha
      refine ⟨r'.forgetGhost s.cfg (a.toNat + n.toNat), hx, (hcons.withRaw _).withTick _, hrest, fun i j hj hin => ?_,
        fun e he => ?_⟩
      · have hlt' := lt_ceilDiv hin hsize
        have hi : i < rs.length := hlen ▸ hlt'
        rw [Rx.forgetGhost_raw, RawMem.readByte_forget_outside _ _ (.inl (by omega)), hcons.touched.raw_eq,
          readByte_writeWords_inside hinv.rx.raw ((decoded_length _ _).trans hlen) hj hin, toNat_ofNat_shift,
          decoded_getD _ hi]
      · have hclip := clipLen_le s.cfg (a.toNat + n.toNat) s.cfg.maxGhostBytes
        rw [Rx.forgetGhost_raw, RawMem.readByte_forget_outside _ _ (by omega), hcons.touched.raw_eq,
          readByte_writeWords_outside _ _ (by omega)]
    · have hlt' : rs.length < 2 ^ s.cfg.wordBits := hlen ▸ hwords
      obtain ⟨r', p, herr, hp⟩ := decWords_cut hK hreader hch hc.codable hlt hlt' hcoded hm he
      exact ⟨p, exec_dVec_reported hK hf hcheck (hlen ▸ herr), hp⟩
    · have hfails := rlGet_refused hK (Channel.width_le_wordBits hK _) hps hsum hwords hpair
      obtain ⟨r', herr, -⟩ := decWords_runLength_fails hreader halg hfails (by rw [ha, List.append_assoc])
      exact exec_dVec_reported hK hf hcheck herr
  · subst h0
    exact exec_dVec_refused hf (vecCheck_empty hc)
  · exact exec_dVec_refused hf (vecCheck_outside hc (word_toNat_ne_zero h0) hr)

end Sys2Proof.Machine
end

section
/-! PROOFS. The generator's commands (45_container_generator.md R241, R244, R254; 46_container_parser.md R273): what `ADDCH`
registers, and what refuses `ADDCH` and `G.SECTION`, first failing check first. -/

namespace Sys2Proof.Machine

variable {K : Config}

/-! ## The descriptor (30_encoding.md R106) -/

theorem descType_eq (desc : Word) : descType desc = desc.toNat % 2 ^ 8 := by
  rw [descType, BitVec.extractLsb'_toNat, Nat.shiftRight_zero]

theorem descAlg_eq (desc : Word) : descAlg desc = desc.toNat / 2 ^ 8 % 2 ^ 8 := by
  rw [descAlg, BitVec.extractLsb'_toNat, Nat.shiftRight_eq_div_pow]

theorem getLsbD_eq_decide {n : Nat} (x : BitVec n) (i : Nat) : x.getLsbD i = decide (x.toNat / 2 ^ i % 2 = 1) := by
  rw [← BitVec.testBit_toNat, Nat.testBit_eq_decide_div_mod_eq]

theorem decide_bit (b : Bool) : decide (bit b = 1) = b := by cases b <;> rfl

theorem bit_lt_two (b : Bool) : bit b < 2 := by cases b <;> decide

/-- The fields of the descriptor that is put together from a type, an algorithm and the two flags. -/
theorem desc_fields (dtype : DType) (alg : Alg) (delta permit : Bool) :
    let desc : Word := BitVec.ofNat 64 (dtype.code + 2 ^ 8 * alg.code + 2 ^ 16 * bit delta + 2 ^ 17 * bit permit)
    desc.toNat / 2 ^ 18 = 0 ∧ descType desc = dtype.code ∧ descAlg desc = alg.code ∧ descDelta desc = delta ∧
      descPermit desc = permit := by
  have htype : dtype.code < 6 := by cases dtype <;> decide
  have halg : alg.code < 4 := by cases alg <;> decide
  have hdelta := bit_lt_two delta
  have hpermit := bit_lt_two permit
  intro desc
  have hn : desc.toNat = dtype.code + 2 ^ 8 * alg.code + 2 ^ 16 * bit delta + 2 ^ 17 * bit permit := by
    rw [BitVec.toNat_ofNat]
    exact Nat.mod_eq_of_lt (by omega)
  refine ⟨by omega, by rw [descType_eq]; omega, by rw [descAlg_eq]; omega, ?_, ?_⟩
  · rw [descDelta, getLsbD_eq_decide, show desc.toNat / 2 ^ 16 % 2 = bit delta by omega, decide_bit]
  · rw [descPermit, getLsbD_eq_decide, show desc.toNat / 2 ^ 17 % 2 = bit permit by omega, decide_bit]

/-- The refusals of a descriptor in order (R241, R273). -/
theorem descCheck_refuses (reps : U32) (desc : Word) (nchan : Nat) :
    (desc.toNat / 2 ^ 18 ≠ 0 → descCheck K reps desc nchan = some ⟨.badOperand, desc.toNat % 2 ^ 32, 0⟩) ∧
    (desc.toNat / 2 ^ 18 = 0 →
      (8 ≤ descType desc → descCheck K reps desc nchan = some ⟨.badOperand, descType desc, 1⟩) ∧
      (descType desc = 6 ∨ descType desc = 7 →
        descCheck K reps desc nchan = some ⟨.unsupportedFeature, descType desc, 1⟩) ∧
      (descType desc ≤ 5 →
        (4 ≤ descAlg desc → descCheck K reps desc nchan = some ⟨.badOperand, descAlg desc, 2⟩) ∧
        (descAlg desc ≤ 3 → reps = 0 → descCheck K reps desc nchan = some ⟨.badOperand, 0, 3⟩) ∧
        (descAlg desc ≤ 3 → reps ≠ 0 → nchan = K.maxChannels →
          descCheck K reps desc nchan = some ⟨.bufferSizeExceeded, nchan, K.maxChannels⟩))) := by
  unfold descCheck
  refine ⟨fun h => ?_, fun h => ⟨fun h8 => ?_, fun h67 => ?_, fun h5 => ⟨fun h4 => ?_, fun h3 h0 => ?_, fun h3 h0 hn => ?_⟩⟩⟩
  · rw [refuseIf_pos h]; rfl
  · rw [refuseIf_neg (not_not.2 h), refuseIf_pos h8]; rfl
  · rw [refuseIf_neg (not_not.2 h), refuseIf_neg (by omega), refuseIf_pos h67]; rfl
  all_goals
    rw [refuseIf_neg (not_not.2 h), refuseIf_neg (c := 8 ≤ descType desc) (by omega),
      refuseIf_neg (c := descType desc = 6 ∨ descType desc = 7) (by omega)]
  · rw [refuseIf_pos h4]; rfl
  · rw [refuseIf_neg (c := 4 ≤ descAlg desc) (by omega), refuseIf_pos h0]; rfl
  · rw [refuseIf_neg (c := 4 ≤ descAlg desc) (by omega), refuseIf_neg h0, refuseIf_pos hn]; rfl

/-! ## `ADDCH` -/

section Addch

variable {s : State} {reps : U32} {desc : Word} {e : Raise}

theorem exec_gAddch_ok (hready : s.tx.Ready) (hopen : s.tx.layoutOpen = true)
    (h : descCheck s.cfg reps desc s.tx.chans.length = none) : exec (.gAddch reps desc) s =
      .next { s with tx := { s.tx with chans := s.tx.chans ++ [descChannel reps desc] }.respond s.tx.chans.length } := by
  have hlayout : ¬ s.tx.layoutOpen = false := by simp [hopen]
  show execGAddch reps desc s = _
  rw [execGAddch, onTx_next, Tx.streamCommand_ok hready (by rw [refuseIf_neg hlayout, h]; rfl)]

theorem exec_gAddch_refused (hready : s.tx.Ready) (hopen : s.tx.layoutOpen = true)
    (h : descCheck s.cfg reps desc s.tx.chans.length = some e) :
    exec (.gAddch reps desc) s = .next { s with tx := s.tx.raise e } := by
  have hlayout : ¬ s.tx.layoutOpen = false := by simp [hopen]
  show execGAddch reps desc s = _
  rw [execGAddch, onTx_next, Tx.streamCommand_error hready (by rw [refuseIf_neg hlayout, h]; rfl)]

theorem exec_pAddch_ok (hf : s.rx.flt.fault = 0) (h : descCheck s.cfg reps desc s.rx.chans.length = none) :
    exec (.pAddch reps desc) s =
      .next { s with rx := { s.rx with chans := s.rx.chans ++ [descChannel reps desc] }.respond s.rx.chans.length } := by
  show execPAddch reps desc s = _
  rw [execPAddch, onRx_next, Rx.simpleCommand_ok hf (by rw [h, afterCheck_none])]

theorem exec_pAddch_refused (hf : s.rx.flt.fault = 0) (h : descCheck s.cfg reps desc s.rx.chans.length = some e) :
    exec (.pAddch reps desc) s = .next { s with rx := s.rx.raise e } := by
  show execPAddch reps desc s = _
  rw [execPAddch, onRx_next, Rx.simpleCommand_error hf (by rw [h, afterCheck_some])]

end Addch

/-- Settles O46. -/
theorem addchRegisters : Obligations.AddchRegisters := by
  intro s reps dtype alg delta permit hreps
  dsimp only
  obtain ⟨hunused, htype, halg, hdelta, hpermit⟩ := desc_fields dtype alg delta permit
  generalize BitVec.ofNat 64 (dtype.code + 2 ^ 8 * alg.code + 2 ^ 16 * bit delta + 2 ^ 17 * bit permit) = desc at *
  have hcheck : ∀ n, n ≠ s.cfg.maxChannels → descCheck s.cfg reps desc n = none := fun n hn => by
    have htypes : dtype.code ≤ 5 := by cases dtype <;> decide
    have halgs : alg.code ≤ 3 := by cases alg <;> decide
    simp only [descCheck, orElse_eq_none, refuseIf_eq_none, htype, halg]
    exact ⟨not_not.2 hunused, by omega, by omega, by omega, hreps, hn⟩
  have hchan : descChannel reps desc = {
      reps := reps, dtype := dtype, calg := alg, cdelta := delta, permrot := permit, alg := alg, delta := delta,
      rot := 0, offset := 0, nbits := BitVec.ofNat 6 (8 * dtype.size), const := 0, prev := 0 } := by
    rw [descChannel, htype, halg, hdelta, hpermit, DType.ofCode_code, Alg.ofCode_code]
    rfl
  exact ⟨fun hready hopen hn => by rw [exec_gAddch_ok hready hopen (hcheck _ hn), hchan],
    fun hf hn => by rw [exec_pAddch_ok hf (hcheck _ hn), hchan]⟩

/-- Settles O47. -/
theorem addchRefuses : Obligations.AddchRefuses := by
  intro s reps desc
  dsimp only
  rw [← descType_eq, ← descAlg_eq]
  refine ⟨fun hready hopen => ?_, fun hf => ?_, fun hready hopen => ?_⟩
  · obtain ⟨hunused, hfields⟩ := descCheck_refuses (K := s.cfg) reps desc s.tx.chans.length
    have hrefused := fun {e : Raise} => exec_gAddch_refused (e := e) (reps := reps) (desc := desc) hready hopen
    refine ⟨fun h => hrefused (hunused h), fun h => ?_⟩
    obtain ⟨h8, h67, hrest⟩ := hfields h
    refine ⟨fun h => hrefused (h8 h), fun h => hrefused (h67 h), fun h5 => ?_⟩
    obtain ⟨h4, h0, hn⟩ := hrest h5
    exact ⟨fun h => hrefused (h4 h), fun h h' => hrefused (h0 h h'), fun h h' h'' => hrefused (hn h h' h'')⟩
  · obtain ⟨hunused, hfields⟩ := descCheck_refuses (K := s.cfg) reps desc s.rx.chans.length
    have hrefused := fun {e : Raise} => exec_pAddch_refused (e := e) (reps := reps) (desc := desc) hf
    refine ⟨fun h => hrefused (hunused h), fun h => ?_⟩
    obtain ⟨h8, h67, hrest⟩ := hfields h
    refine ⟨fun h => hrefused (h8 h), fun h => hrefused (h67 h), fun h5 => ?_⟩
    obtain ⟨h4, h0, hn⟩ := hrest h5
    exact ⟨fun h => hrefused (h4 h), fun h h' => hrefused (h0 h h'), fun h h' h'' => hrefused (hn h h' h'')⟩
  · show execGAddch reps desc s = _
    rw [execGAddch, onTx_next, Tx.streamCommand_error hready (by rw [refuseIf_pos hopen]; rfl)]
    rfl

/-! ## `G.SECTION` -/

theorem exec_gSection_refused {s : State} {len : Word} {e : Raise} (hready : s.tx.Ready)
    (h : sectionCheck s.cfg (cwZ 0x33) len.toNat s.tx = some e) :
    exec (.gSection len) s = .next { s with tx := s.tx.raise e } := by
  show execGSection len s = _
  rw [execGSection, onTx_next, Tx.streamCommand_error hready (by rw [h, afterCheck_some])]

section Checks

variable {t : Tx} {len : Nat} {cw : U32} {e : Raise}

/-- The length is in range: the checks behind it (R244). -/
theorem sectionCheck_sized (h0 : len ≠ 0) (hfits : len ≤ K.maxSectionLength) :
    sectionCheck K cw len t = (refuseIf (t.chans.length = 0) ⟨.illegalState, cw.toNat, t.status⟩ <|> headerCheck cw t <|>
      refuseIf (flagOneChan t.flags ∧ t.chans.length ≠ 1) ⟨.illegalState, cw.toNat, 2⟩ <|>
      repsCheck K cw t.flags t.chans <|> allChanCheck cw t.chans) := by
  rw [sectionCheck, refuseIf_neg h0, refuseIf_neg (not_lt.2 hfits)]
  rfl

/-- There are channels: the header check and what is behind it. -/
theorem sectionCheck_registered (h0 : len ≠ 0) (hfits : len ≤ K.maxSectionLength) (hne : t.chans ≠ []) :
    sectionCheck K cw len t = (headerCheck cw t <|>
      refuseIf (flagOneChan t.flags ∧ t.chans.length ≠ 1) ⟨.illegalState, cw.toNat, 2⟩ <|>
      repsCheck K cw t.flags t.chans <|> allChanCheck cw t.chans) := by
  rw [sectionCheck_sized h0 hfits, refuseIf_neg (mt List.length_eq_zero_iff.1 hne)]
  rfl

/-- The header goes through and the layout is of one channel where it must be: the channels' own checks. -/
theorem sectionCheck_channels (h0 : len ≠ 0) (hfits : len ≤ K.maxSectionLength) (hne : t.chans ≠ [])
    (hheader : headerCheck cw t = none) (hone : flagOneChan t.flags = false ∨ t.chans.length = 1) :
    sectionCheck K cw len t = (repsCheck K cw t.flags t.chans <|> allChanCheck cw t.chans) := by
  have hlayout : ¬(flagOneChan t.flags = true ∧ t.chans.length ≠ 1) := by
    rintro ⟨hflag, hlen⟩
    exact hone.elim (fun h => by rw [h] at hflag; cases hflag) hlen
  rw [sectionCheck_registered h0 hfits hne, hheader, refuseIf_neg hlayout]
  rfl

theorem headerCheck_unsupported (hfirst : t.gstate = .notStarted)
    (h : flagToc t.flags = true ∨ flagReserved t.flags = true) :
    headerCheck cw t = some ⟨.unsupportedFeature, t.flags.toNat, 0⟩ := by
  have hflags : flagsUnsupported t.flags = true := by rw [flagsUnsupported, Bool.or_eq_true]; exact h
  rw [headerCheck, if_pos hfirst, refuseIf_pos hflags]
  rfl

theorem flagsUnsupported_eq_false {flags : BitVec 8} (h1 : flagToc flags = false) (h2 : flagReserved flags = false) :
    flagsUnsupported flags = false := by rw [flagsUnsupported, h1, h2]; rfl

theorem headerCheck_unnamed (hfirst : t.gstate = .notStarted) (hflags : flagsUnsupported t.flags = false)
    (hname : flagName t.flags = true) (h0 : (0 : Byte) ∉ t.name) : headerCheck cw t = some ⟨.illegalState, cw.toNat, 1⟩ := by
  have hbytes : ∀ b ∈ t.name, b ≠ 0 := fun b hb h => h0 (h ▸ hb)
  rw [headerCheck, if_pos hfirst, refuseIf_neg (by rw [hflags]; decide), refuseIf_pos ⟨hname, hbytes⟩]
  rfl

theorem headerCheck_ok (h : t.gstate ≠ .notStarted ∨
    (flagsUnsupported t.flags = false ∧ (flagName t.flags = true → (0 : Byte) ∈ t.name))) : headerCheck cw t = none := by
  rw [headerCheck]
  split
  · next hfirst =>
    obtain ⟨hflags, hname⟩ := h.resolve_left (not_not.2 hfirst)
    rw [orElse_eq_none, refuseIf_eq_none, refuseIf_eq_none, hflags]
    exact ⟨by decide, fun hn => hn.2 0 (hname hn.1) rfl⟩
  · rfl

theorem repsPresent_iff {flags : BitVec 8} {n : Nat} :
    repsPresent flags n = true ↔ 1 < n ∧ flagNoReps flags = false := by simp [repsPresent]

/-- The first channel whose count does not fit is named (log 28). -/
theorem repsCheck_first {flags : BitVec 8} {chans : List Channel} {c : Nat} (hc : c < chans.length)
    (hp : repsPresent flags chans.length = true) (hbig : 2 ^ K.repsBits ≤ (channelAt chans c).reps.toNat)
    (hfirst : ∀ d < c, (channelAt chans d).reps.toNat < 2 ^ K.repsBits) :
    repsCheck K cw flags chans = some ⟨.badOperand, (channelAt chans c).reps.toNat, c⟩ := by
  have hfind : firstChannel (fun ch => 2 ^ K.repsBits ≤ ch.reps.toNat) chans = some c := by
    rw [firstChannel, List.findIdx?_eq_some_iff_getElem]
    refine ⟨hc, by rw [← channelAt_eq hc]; exact decide_eq_true hbig, fun d hd => ?_⟩
    rw [← channelAt_eq (Nat.lt_trans hd hc)]
    simpa using hfirst d hd
  rw [repsCheck, if_pos hp, hfind]
  rfl

/-- The first channel that `ChanCheck` refuses answers. -/
theorem allChanCheck_first {chans : List Channel} {c : Nat} (hc : c < chans.length) (h : chanCheck cw chans c = some e)
    (hfirst : ∀ d < c, ChanOk chans d) : allChanCheck cw chans = some e := by
  obtain ⟨m, hm⟩ : ∃ m, chans.length = c + 1 + m := ⟨chans.length - c - 1, by omega⟩
  have hrange : List.range chans.length = List.range c ++ c :: (List.range m).map (c + 1 + ·) := by
    rw [hm, List.range_add, List.range_succ, List.append_assoc, List.singleton_append]
  rw [allChanCheck, List.findSome?_eq_some_iff]
  exact ⟨_, c, _, hrange, h, fun d hd => chanCheck_of_ok (hfirst d (List.mem_range.1 hd))⟩

end Checks

/-- Settles O50: each refusal by the check that makes it, behind those that go through. -/
theorem sectionRefused : Obligations.SectionRefused := by
  intro s len hready
  have refused := fun {e : Raise} => exec_gSection_refused (e := e) (len := len) hready
  refine ⟨fun h0 => ?_, fun hlong => ?_, fun h0 hfits => ⟨fun hnil => ?_, fun hne => ?_⟩⟩
  · subst h0
    have hzero : (0 : Word).toNat = 0 := rfl
    exact refused (by rw [sectionCheck, refuseIf_pos hzero]; rfl)
  · have hpos : len.toNat ≠ 0 := by omega
    exact refused (by rw [sectionCheck, refuseIf_neg hpos, refuseIf_pos hlong]; rfl)
  · have hlength : s.tx.chans.length = 0 := by rw [hnil]; rfl
    exact refused (by rw [sectionCheck_sized (word_toNat_ne_zero h0) hfits, refuseIf_pos hlength]; rfl)
  have hregistered := sectionCheck_registered (cw := cwZ 0x33) (word_toNat_ne_zero h0) hfits hne
  refine ⟨fun hfirst hflags => ?_, fun hfirst h1 h2 hname hzero => ?_, fun hheader => ⟨fun hone hlen => ?_, fun hone => ?_⟩⟩
  · exact refused (by rw [hregistered, headerCheck_unsupported hfirst hflags]; rfl)
  · exact refused
      (by rw [hregistered, headerCheck_unnamed hfirst (flagsUnsupported_eq_false h1 h2) hname hzero]; rfl)
  · have hok : headerCheck (cwZ 0x33) s.tx = none :=
      headerCheck_ok (hheader.imp_right fun h => ⟨flagsUnsupported_eq_false h.1 h.2.1, h.2.2⟩)
    exact refused (by rw [hregistered, hok, refuseIf_pos ⟨hone, hlen⟩]; rfl)
  have hok : headerCheck (cwZ 0x33) s.tx = none :=
    headerCheck_ok (hheader.imp_right fun h => ⟨flagsUnsupported_eq_false h.1 h.2.1, h.2.2⟩)
  have hchannels := sectionCheck_channels (word_toNat_ne_zero h0) hfits hne hok hone
  refine ⟨fun hreps hbad => ?_, fun c hc hreps hbig hsmall => ?_, fun c hc hfit hsingle hbefore => ?_⟩
  · exact refused (by rw [hchannels, repsCheck, if_neg (mt repsPresent_iff.1 hreps), refuseIf_pos hbad]; rfl)
  · exact refused (by rw [hchannels, repsCheck_first hc (repsPresent_iff.2 hreps) hbig hsmall]; rfl)
  · have hcounts : repsCheck s.cfg (cwZ 0x33) s.tx.flags s.tx.chans = none := by
      rw [repsCheck_eq_none]
      split
      · next hreps => exact hfit (repsPresent_iff.1 hreps)
      · next hreps => exact hsingle (mt repsPresent_iff.2 hreps)
    have hrefused := fun {e : Raise} (h : chanCheck (cwZ 0x33) s.tx.chans c = some e) =>
      refused (e := e) (by rw [hchannels, hcounts, allChanCheck_first hc h hbefore]; rfl)
    obtain ⟨hrot, hperm, hnbits⟩ := (chanCheck_refuses (cw := cwZ 0x33)).2 hc
    exact ⟨fun h1 => hrefused (hrot h1), fun h1 h2 h3 => hrefused (hperm h1 h2 h3),
      fun h1 h2 h3 h4 => hrefused (hnbits h1 h2 h3 h4)⟩

/-! ## `G.FINAL` -/

/-- The writer moved on, then emptied and closed: what the end of a file leaves of the engine (R254). -/
theorem Tx.finalized_frame {t u v : Tx} {wbuf : List Word} {p sunk : Nat} {sink : List Byte} (hu : t.withWriter u = u)
    (hv : v = { u with
      wbuf := wbuf, wptr := 0, woff := 0, closed := true, bitpos := p, sunk := sunk, sink := sink }) :
    ({ v with gstate := .finalized } : Tx) = { t with
      wbuf := wbuf, wptr := 0, woff := 0, closed := true, gstate := .finalized, bitpos := p, sunk := sunk, sink := sink } := by
  rw [← hu] at hv
  exact congrArg (fun x : Tx => { x with gstate := .finalized }) hv

/-- Settles O51. -/
theorem fileFinalized : Obligations.FileFinalized := by
  intro s hinv hready
  have hK := hinv.cfg
  refine ⟨fun hg => ?_, fun hg => ?_⟩
  · have happ := Tx.putBits_appended hK hinv.tx.writer 0xF (show 4 ≤ s.cfg.wordBits by have := hK.wordBits_ge; omega)
    have hpos : (s.tx.putBits s.cfg 0xF 4).bitpos = s.tx.bitpos + 4 := by rw [happ.bitpos_eq, fieldBits_length]
    obtain ⟨hframe, hsink, hprefix, -, hsunk, hw⟩ := Tx.close_spec hK happ.inv
    rw [hpos] at hframe hsink
    have hpad : (padBits (s.tx.bitpos + 4)).length = (8 - (s.tx.bitpos + 4) % 8) % 8 := List.length_replicate
    rw [hpad] at hframe
    refine ⟨{ (s.tx.putBits s.cfg 0xF 4).close s.cfg with gstate := .finalized }, ?_, ?_, ?_, happ.sink.trans hprefix,
      hsunk.symm, hw.rebase { (s.tx.putBits s.cfg 0xF 4).close s.cfg with gstate := .finalized }⟩
    · show execGFinal s = _
      rw [execGFinal, onTx_next, Tx.streamCommand_ok hready (by rw [refuseIf_neg (not_not.2 hg), afterCheck_none])]
    · exact Tx.finalized_frame happ.withWriter_eq hframe
    · rw [hsink, happ.stream]
      rfl
  · show execGFinal s = _
    rw [execGFinal, onTx_next, Tx.streamCommand_error hready (by rw [refuseIf_pos hg, afterCheck_some])]
    rfl

end Sys2Proof.Machine
end

section
/-! PROOFS. `P.HEADER` (46_container_parser.md R271, R272, R283): the header it takes, and the field each refusal names. -/

namespace Sys2Proof.Machine

variable {K : Config} {Q : List Bool → Prop}

/-- `NAME` has its `NAME_MAX` entries (10_state.md R37). -/
abbrev nameWhole (K : Config) : Rx → Prop := fun r => r.name.length = K.nameMax

/-! ## The command -/

/-- Settles O52. -/
theorem headerParsed : Obligations.HeaderParsed := by
  intro s flags mtime rawSize name rest hinv hf hp htoc hres hname ha
  have hsup : flagsUnsupported flags = false := flagsUnsupported_eq_false htoc hres
  obtain ⟨r', hx, hcons, hrest⟩ :=
    (getFileHeader_reads hinv.cfg mtime rawSize hsup hname).takes s.rx (hinv.rx.reader hf) hinv.rx.name rest ha
  refine ⟨r', ?_, hcons, hrest⟩
  show execPHeader s = _
  rw [execPHeader, onRx_next, Rx.command_ok hf (refuseIf_neg (not_not.2 hp) _) hx]

section Fails

variable {s : State} {bits : List Bool} {f : Rx → Rx} (hinv : s.Inv) (hf : s.rx.flt.fault = 0)
  (hp : s.rx.pstate = .noHeader)
include hinv hf hp

/-- A fault behind the header's check: what was loaded stays loaded (R272). -/
theorem exec_pHeader_fails {e : Nat → Raise}
    (h : RxM.Fails s.cfg (nameWhole s.cfg) Q (getFileHeader s.cfg) bits e f) {rest : List Bool} (hq : Q rest)
    (ha : s.rx.ahead s.cfg = bits ++ rest) :
    ∃ r', exec .pHeader s = .next { s with rx := r' } ∧ (f s.rx).FailedWith (inContainer (e s.rx.bitpos)) r' := by
  obtain ⟨r', hx, htouched⟩ := h s.rx (hinv.rx.reader hf) hinv.rx.name rest hq ha
  refine ⟨_, ?_, htouched.cursorLost_failedWith _⟩
  show execPHeader s = _
  rw [execPHeader, onRx_next, Rx.command_error hf (refuseIf_neg (not_not.2 hp) _) hx]

theorem exec_pHeader_meets {e : Raise} (he : inContainer e = e)
    (h : RxM.Fails s.cfg (nameWhole s.cfg) anyRest (getFileHeader s.cfg) bits (fun _ => e) f) (rest : List Bool)
    (ha : s.rx.ahead s.cfg = bits ++ rest) :
    ∃ r', exec .pHeader s = .next { s with rx := r' } ∧ (f s.rx).FailedWith e r' := by
  have hx := exec_pHeader_fails hinv hf hp h trivial ha
  rwa [he] at hx

theorem exec_pHeader_ends {n : Nat}
    (h : RxM.Fails s.cfg (nameWhole s.cfg) (shortOf n) (getFileHeader s.cfg) bits (endBehind bits) f) (rest : List Bool)
    (hn : rest.length < n) (ha : s.rx.ahead s.cfg = bits ++ rest) :
    ∃ r', exec .pHeader s = .next { s with rx := r' } ∧
      (f s.rx).FailedWith (truncatedAt (s.rx.bitpos + bits.length)) r' :=
  exec_pHeader_fails hinv hf hp h hn ha

end Fails

/-! ## The fields in front of the optional ones -/

theorem byteBits_pair (a b : Byte) : byteBits [a, b] = fieldBits 8 a.toNat ++ fieldBits 8 b.toNat := by simp [byteBits]

theorem byteBits_single (a : Byte) : byteBits [a] = fieldBits 8 a.toNat := by simp [byteBits]

theorem getFileHeader_magic_wrong (hK : K.Legal) {m0 m1 : Byte} (h : m0 ≠ K.magic0 ∨ m1 ≠ K.magic1) :
    RxM.Fails K (nameWhole K) anyRest (getFileHeader K) (byteBits [m0, m1])
      (fun _ => ⟨.notASlimFile, m0.toNat + 256 * m1.toNat, K.magic0.toNat + 256 * K.magic1.toNat⟩) id := by
  rw [byteBits_pair]
  exact (getMagic_wrong hK h).bind _

theorem getFileHeader_magic_ends (hK : K.Legal) :
    RxM.Fails K (nameWhole K) (shortOf 8) (getFileHeader K) [] (endBehind []) id ∧
    ∀ m0 : Byte, RxM.Fails K (nameWhole K) (shortOf 8) (getFileHeader K) (byteBits [m0]) (endBehind (byteBits [m0])) id := by
  obtain ⟨hfirst, hsecond⟩ := getMagic_ends (P := nameWhole K) hK
  refine ⟨hfirst.bind _, fun m0 => ?_⟩
  rw [byteBits_single]
  exact (hsecond m0).bind _

theorem getFileHeader_behindMagic_ends (hK : K.Legal) {bits : List Bool} {f : Rx → Rx} (hf : Rx.Aside f)
    (h : RxM.Fails K (nameWhole K) Q (getMtimeFlags K) bits (endBehind bits) f) :
    RxM.Fails K (nameWhole K) Q (getFileHeader K) (byteBits [K.magic0, K.magic1] ++ bits)
      (endBehind (byteBits [K.magic0, K.magic1] ++ bits)) f :=
  (getFileHeader_behindMagic hK hf h).congr rfl (endBehind_append _ _) fun _ _ => rfl

/-! ## The optional fields -/

/-- The fields every header has: magic, time stamp, flags (R116). -/
def headerFront (K : Config) (mtime : U32) (flags : BitVec 8) : List Bool :=
  byteBits [K.magic0, K.magic1] ++ fieldBits 32 mtime.toNat ++ fieldBits 8 flags.toNat

/-- The raw size, where the flags announce one (R116). -/
def sizeBits (flags : BitVec 8) (size : U32) : List Bool := if flagSize flags then fieldBits 32 size.toNat else []

/-- The name, where the flags announce one (R116). -/
def nameBits (flags : BitVec 8) (name : List Byte) : List Bool :=
  if flagName flags then byteBits (nameField name) else []

/-- The RX engine once the flags are read. -/
def Rx.flagged (mtime : U32) (flags : BitVec 8) (r : Rx) : Rx := { r with mtime := mtime, flags := flags }

/-- The RX engine past the raw size. -/
def Rx.sized (flags : BitVec 8) (size : U32) (r : Rx) : Rx := if flagSize flags then { r with rawSize := size } else r

/-- The RX engine past the name. -/
def Rx.named (flags : BitVec 8) (name : List Byte) (r : Rx) : Rx :=
  if flagName flags then { r with name := nameField name ++ r.name.drop (nameField name).length } else r

theorem Rx.flagged_aside (mtime : U32) (flags : BitVec 8) : Rx.Aside (Rx.flagged mtime flags) := fun _ _ => rfl

theorem Rx.sized_aside (flags : BitVec 8) (size : U32) : Rx.Aside (Rx.sized flags size) := by
  intro q r
  unfold Rx.sized
  split <;> rfl

theorem Rx.named_aside (flags : BitVec 8) (name : List Byte) : Rx.Aside (Rx.named flags name) := by
  intro q r
  unfold Rx.named
  split <;> rfl

theorem Rx.sized_name (flags : BitVec 8) (size : U32) (r : Rx) : (r.sized flags size).name = r.name := by
  unfold Rx.sized
  split <;> rfl

theorem Rx.flagged_sized_name (mtime : U32) (flags : BitVec 8) (size : U32) (r : Rx) :
    ((r.flagged mtime flags).sized flags size).name = r.name := Rx.sized_name ..

theorem getRawSize_sizes {P : Rx → Prop} (hK : K.Legal) (flags : BitVec 8) (size : U32) :
    RxM.ReadsTo K P (getRawSize K flags) (sizeBits flags size) () (Rx.sized flags size) :=
  (getRawSize_reads hK flags size).congr rfl rfl fun r _ => by unfold Rx.sized; split <;> rfl

theorem getNameField_names (hK : K.Legal) {flags : BitVec 8} {name : List Byte}
    (h : flagName flags = true → (0 : Byte) ∈ name ∧ (nameField name).length ≤ K.nameMax) :
    RxM.ReadsTo K (nameWhole K) (getNameField K flags) (nameBits flags name) () (Rx.named flags name) := by
  unfold Rx.named
  by_cases hflag : flagName flags = true
  · obtain ⟨h0, hlen⟩ := h hflag
    simp only [getNameField, nameBits, hflag, if_true]
    refine ((getName_reads hK name 0 K.nameMax h0 hlen).weaken fun r hr => ?_).congr rfl rfl fun r _ => by simp
    rw [Nat.zero_add]
    exact hr.ge
  · simp only [getNameField, nameBits, hflag]
    exact RxM.ReadsTo.pure ()

/-- `NAME` or the stream ends before the name does (R271). -/
theorem getNameField_open (hK : K.Legal) {flags : BitVec 8} (hflag : flagName flags = true) {bs : List Byte}
    (h0 : (0 : Byte) ∉ bs) :
    (bs.length < K.nameMax → RxM.Fails K (nameWhole K) (shortOf 8) (getNameField K flags) (byteBits bs)
      (endBehind (byteBits bs)) (fun r => { r with name := bs ++ r.name.drop bs.length })) ∧
    (bs.length = K.nameMax → RxM.Fails K (nameWhole K) anyRest (getNameField K flags) (byteBits bs)
      (fun _ => ⟨.corruptStream, K.nameMax, 0⟩) (fun r => { r with name := bs })) := by
  have hroom : ∀ r : Rx, nameWhole K r → 0 + K.nameMax ≤ r.name.length := fun r hr => by rw [Nat.zero_add]; exact hr.ge
  obtain ⟨hends, hmeets⟩ := getName_open hK bs 0 K.nameMax h0
  rw [getNameField, if_pos hflag]
  refine ⟨fun hlt => ?_, fun heq => ?_⟩
  · exact ((hends hlt).weaken hroom).congr rfl (fun _ => rfl) fun r _ => by simp
  · refine ((hmeets heq).weaken hroom).congr rfl (fun _ => rfl) fun r hr => ?_
    have hall : r.name.drop bs.length = [] := List.drop_eq_nil_of_le (by rw [heq]; exact hr.le)
    simp [hall]

section Optional

variable (hK : K.Legal) (mtime : U32) {flags : BitVec 8} (hfl : flagsUnsupported flags = false) {bits : List Bool}
  {e : Nat → Raise} {f : Rx → Rx} (hf : Rx.Aside f)
include hK hfl hf

/-- The raw size fails. -/
theorem getFileHeader_sizeFails (h : RxM.Fails K (nameWhole K) Q (getRawSize K flags) bits e f) :
    RxM.Fails K (nameWhole K) Q (getFileHeader K) (headerFront K mtime flags ++ bits)
      (fun p => e (p + (headerFront K mtime flags).length)) (f ∘ Rx.flagged mtime flags) := by
  refine (getFileHeader_behindFlags hK mtime hfl hf (h.bind _)).congr ?_ (fun p => ?_) fun _ _ => rfl
  · simp only [headerFront, List.append_assoc]
  · simp only [headerFront, List.length_append, Nat.add_assoc]

/-- Behind the raw size the name fails. -/
theorem getFileHeader_nameFails (size : U32) (h : RxM.Fails K (nameWhole K) Q (getNameField K flags) bits e f) :
    RxM.Fails K (nameWhole K) Q (getFileHeader K) (headerFront K mtime flags ++ sizeBits flags size ++ bits)
      (fun p => e (p + (headerFront K mtime flags ++ sizeBits flags size).length))
      (f ∘ Rx.sized flags size ∘ Rx.flagged mtime flags) := by
  have hbehind := (getRawSize_sizes (P := nameWhole K) hK flags size).seqFails
    (h.bind fun _ => getXtra K flags) (fun r hr => (congrArg List.length (r.sized_name flags size)).trans hr)
    (fun _ _ h => h) hf
  refine (getFileHeader_behindFlags hK mtime hfl ((Rx.sized_aside flags size).comp hf) hbehind).congr ?_ (fun p => ?_)
    fun _ _ => rfl
  · simp only [headerFront, List.append_assoc]
  · simp only [headerFront, List.length_append, Nat.add_assoc]

/-- Behind the name the extra field fails. -/
theorem getFileHeader_xtraFails (size : U32) {name : List Byte}
    (hname : flagName flags = true → (0 : Byte) ∈ name ∧ (nameField name).length ≤ K.nameMax)
    (h : RxM.Fails K (fun _ => True) Q (getXtra K flags) bits e f) :
    RxM.Fails K (nameWhole K) Q (getFileHeader K)
      (headerFront K mtime flags ++ sizeBits flags size ++ nameBits flags name ++ bits)
      (fun p => e (p + (headerFront K mtime flags ++ sizeBits flags size ++ nameBits flags name).length))
      (f ∘ Rx.named flags name ∘ Rx.sized flags size ∘ Rx.flagged mtime flags) := by
  have hbehindName := (getNameField_names hK hname).seqFails h (fun _ _ => trivial) Rx.asideProp_true hf
  have hbehindSize := (getRawSize_sizes (P := nameWhole K) hK flags size).seqFails hbehindName
    (fun r hr => (congrArg List.length (r.sized_name flags size)).trans hr) (fun _ _ h => h)
    ((Rx.named_aside flags name).comp hf)
  refine (getFileHeader_behindFlags hK mtime hfl
    ((Rx.sized_aside flags size).comp ((Rx.named_aside flags name).comp hf)) hbehindSize).congr ?_ (fun p => ?_)
    fun _ _ => rfl
  · simp only [headerFront, List.append_assoc]
  · simp only [headerFront, List.length_append, Nat.add_assoc]

end Optional

/-- Settles O53: each clause is the failure of one field behind those in front of it. -/
theorem headerRefused : Obligations.HeaderRefused := by
  intro s hinv hf
  have hK := hinv.cfg
  refine ⟨fun hp => ?_, fun hp => ?_⟩
  · show execPHeader s = _
    rw [execPHeader, onRx_next, Rx.command_refused hf (refuseIf_pos hp _)]
    rfl
  obtain ⟨hmagic0, hmagic1⟩ := getFileHeader_magic_ends hK
  obtain ⟨hmtime, hflags⟩ := getMtimeFlags_ends (P := nameWhole s.cfg) hK
  refine ⟨fun m0 m1 hm => exec_pHeader_meets hinv hf hp rfl (getFileHeader_magic_wrong hK hm),
    exec_pHeader_ends hinv hf hp hmagic0, fun m0 => exec_pHeader_ends hinv hf hp (hmagic1 m0), ?_,
    fun mtime => ⟨?_, fun flags => ⟨fun hbad => ?_, fun htoc hres => ?_⟩⟩⟩
  · have h := getFileHeader_behindMagic_ends hK Rx.aside_id hmtime
    rw [List.append_nil] at h
    exact exec_pHeader_ends hinv hf hp h
  · exact exec_pHeader_ends hinv hf hp
      (getFileHeader_behindMagic_ends (f := fun r => { r with mtime := mtime }) hK (fun _ _ => rfl) (hflags mtime))
  · have hsup : flagsUnsupported flags = true := by rwa [flagsUnsupported, Bool.or_eq_true]
    have h := getFileHeader_behindMagic hK (Rx.flagged_aside mtime flags)
      (getMtimeFlags_unsupported (P := nameWhole s.cfg) hK mtime hsup)
    rw [← List.append_assoc] at h
    exact exec_pHeader_meets hinv hf hp rfl h
  have hfl : flagsUnsupported flags = false := flagsUnsupported_eq_false htoc hres
  refine ⟨fun hsize => ?_, fun size => ⟨fun hflag bs h0 => ?_, fun hflag name hname => ⟨?_, fun x hx => ?_⟩⟩⟩
  · have h := (getFileHeader_sizeFails hK mtime hfl Rx.aside_id (getRawSize_ends hK hsize)).congr rfl
      (endBehind_append _ _) fun _ _ => rfl
    rw [List.append_nil] at h
    exact exec_pHeader_ends hinv hf hp h
  · obtain ⟨hends, hmeets⟩ := getNameField_open hK hflag h0
    refine ⟨fun hlt => ?_, fun heq => ?_⟩
    · have h := (getFileHeader_nameFails hK mtime hfl (fun _ _ => rfl) size (hends hlt)).congr rfl
        (endBehind_append _ _) (g := fun r => { (r.flagged mtime flags).sized flags size with
          name := bs ++ r.name.drop bs.length }) fun r _ => by simp only [Function.comp, Rx.flagged_sized_name]
      exact exec_pHeader_ends hinv hf hp h
    · exact exec_pHeader_meets hinv hf hp rfl
        (getFileHeader_nameFails hK mtime hfl (fun _ _ => rfl) size (hmeets heq))
  · have h := (getFileHeader_xtraFails hK mtime hfl Rx.aside_id size hname (getXtra_ends hK hflag)).congr rfl
      (endBehind_append _ _) (g := fun r => _) fun r _ => by
        simp only [Function.comp, Rx.named, Rx.flagged_sized_name]; rfl
    rw [List.append_nil] at h
    exact exec_pHeader_ends hinv hf hp h
  · have h := (getFileHeader_xtraFails hK mtime hfl (f := fun r => { r with xtraLen := x }) (fun _ _ => rfl) size hname
      (getXtra_refused hK hflag hx)).congr rfl (fun _ => rfl) (g := fun r => _) fun r _ => by
        simp only [Function.comp, Rx.named, Rx.flagged_sized_name]; rfl
    exact exec_pHeader_meets hinv hf hp rfl h

end Sys2Proof.Machine
end

section
/-! PROOFS. `P.SECTION` in a section header (46_container_parser.md R276, R277, R283): the field each refusal names. -/

namespace Sys2Proof.Machine

variable {K : Config} {Q : List Bool → Prop}

/-! ## The command -/

/-- A fault raised in the work of `P.SECTION` is the one reported, an underrun as `TruncatedFile` (R275, R283). -/
theorem exec_pSection_reported {s : State} {r' : Rx} {e : Raise} (hinv : s.Inv) (hf : s.rx.flt.fault = 0)
    (hp : s.rx.pstate = .headerRead) (h : getSection s.cfg s.rx = .error e r') :
    ∃ s', exec .pSection s = .next s' ∧ s'.rx.Reported (inContainer e) := by
  have hbroken := (getSection_ends hinv.cfg).error ⟨hinv.rx.going hf, by rw [hp]; decide⟩ h
  have hlive : r'.flt.fault = 0 := by rw [hbroken.flt, hf]
  refine ⟨_, exec_pSection_headerRead hf hp, ?_⟩
  rw [h]
  exact Rx.raise_reported (r := r'.forgetSection s.cfg) hlive (inContainer e)

section Fails

variable {s : State} {pad bits front : List Bool} {f : Rx → Rx} (hinv : s.Inv) (hf : s.rx.flt.fault = 0)
  (hp : s.rx.pstate = .headerRead) (hpad : pad.length = (8 - s.rx.bitpos % 8) % 8) (hfront : front = pad ++ bits)
include hinv hf hp hpad hfront

theorem exec_pSection_fieldsFail {e : Nat → Raise}
    (h : RxM.Fails s.cfg (fun r => r.flags = s.rx.flags) Q (getSectionFields s.cfg) bits e f) {rest : List Bool}
    (hq : Q rest) (ha : s.rx.ahead s.cfg = front ++ rest) :
    ∃ s', exec .pSection s = .next s' ∧ s'.rx.Reported (inContainer (e (s.rx.bitpos + pad.length))) := by
  rw [hfront, List.append_assoc] at ha
  obtain ⟨r', hx⟩ := getSection_fieldsFail hinv.cfg (hinv.rx.reader hf) hpad h hq ha
  exact exec_pSection_reported hinv hf hp hx

theorem exec_pSection_fieldsMeet {e : Raise} (he : inContainer e = e)
    (h : RxM.Fails s.cfg (fun r => r.flags = s.rx.flags) anyRest (getSectionFields s.cfg) bits (fun _ => e) f)
    (rest : List Bool) (ha : s.rx.ahead s.cfg = front ++ rest) :
    ∃ s', exec .pSection s = .next s' ∧ s'.rx.Reported e := by
  have hx := exec_pSection_fieldsFail hinv hf hp hpad hfront h trivial ha
  rwa [he] at hx

theorem exec_pSection_fieldsEnd {n : Nat}
    (h : RxM.Fails s.cfg (fun r => r.flags = s.rx.flags) (shortOf n) (getSectionFields s.cfg) bits (endBehind bits) f)
    (rest : List Bool) (hn : rest.length < n) (ha : s.rx.ahead s.cfg = front ++ rest) :
    ∃ s', exec .pSection s = .next s' ∧ s'.rx.Reported (truncatedAt (s.rx.bitpos + front.length)) := by
  have hx := exec_pSection_fieldsFail hinv hf hp hpad hfront h hn ha
  rw [endBehind_append, ← hfront] at hx
  exact hx

end Fails

/-! ## The channels -/

/-- A section header up to the channel behind `chans` (R118). -/
def sectionFront (K : Config) (flags : BitVec 8) (size n : Nat) (chans : List Channel) : List Bool :=
  fieldBits K.sectSizeBits size ++ ((if flagOneChan flags then [] else fieldBits K.numChanBits n) ++
    chans.flatMap (chanHeaderBits K (repsPresent flags n)))

/-- Behind a size, a number of channels and whole channels that are taken, one channel fails (R276). -/
theorem getSectionFields_channelFails (hK : K.Legal) {flags : BitVec 8} {size n : Nat} {chans : List Channel}
    (h0 : 0 < size) (hsize : size ≤ K.maxSectionLength) (hlen : chans.length < n) (hn : n ≤ K.maxChannels)
    (hone : flagOneChan flags = true → n = 1)
    (hch : ∀ ch ∈ chans, ch.Ok ∧ ch.Codable ∧
      if repsPresent flags n then ch.reps.toNat < 2 ^ K.repsBits else ch.reps = 1)
    {bits : List Bool} {e : Nat → Raise}
    (h : RxM.Fails K (fun _ => True) Q (getChannel K (repsPresent flags n) chans.length) bits e id) :
    RxM.Fails K (fun r => r.flags = flags) Q (getSectionFields K) (sectionFront K flags size n chans ++ bits)
      (fun p => e (p + (sectionFront K flags size n chans).length))
      (fun r => { r with chans := [] ++ chans.map Channel.parsed }) := by
  have hreps : if repsPresent flags n then ∀ ch ∈ chans, ch.reps.toNat < 2 ^ K.repsBits
      else ∀ ch ∈ chans, ch.reps = 1 := by
    split
    · rename_i hr
      exact fun ch hmem => by simpa [hr] using (hch ch hmem).2.2
    · rename_i hr
      exact fun ch hmem => by simpa [hr] using (hch ch hmem).2.2
  have hchans := getChannels_fails hK chans (fun ch hmem => ⟨(hch ch hmem).1, (hch ch hmem).2.1⟩) hreps hlen h
  refine (getSectionFields_channels hK h0 hsize (by omega) hn hone (fun _ _ => rfl) hchans).congr ?_ (fun p => ?_)
    fun _ _ => rfl
  · simp only [sectionFront, List.append_assoc]
  · simp only [sectionFront, List.length_append, Nat.add_assoc]

theorem chanFieldsCheck_reps (c rot alg type : Nat) :
    chanFieldsCheck c 0 rot alg type = some ⟨.corruptStream, c, 2⟩ := rfl

theorem chanFieldsCheck_reserved {c reps rot alg type : Nat} (hr : reps ≠ 0) (ht : type = 6 ∨ type = 7) :
    chanFieldsCheck c reps rot alg type = some ⟨.unsupportedFeature, type, c⟩ := by
  simp [chanFieldsCheck, refuseIf, hr, ht]

theorem chanFieldsCheck_type {c reps rot alg type : Nat} (hr : reps ≠ 0) (ht : 8 ≤ type) :
    chanFieldsCheck c reps rot alg type = some ⟨.corruptStream, type, 3⟩ := by
  have h67 : ¬ (type = 6 ∨ type = 7) := by omega
  simp [chanFieldsCheck, refuseIf, hr, h67, ht]

theorem chanFieldsCheck_alg {c reps rot alg : Nat} (d : DType) (hr : reps ≠ 0) (ha : 4 ≤ alg) :
    chanFieldsCheck c reps rot alg d.code = some ⟨.corruptStream, alg, 4⟩ := by
  have hd := d.code_lt
  have h67 : ¬ (d.code = 6 ∨ d.code = 7) := by omega
  have h8 : ¬ 8 ≤ d.code := by omega
  simp [chanFieldsCheck, refuseIf, hr, h67, h8, ha]

theorem chanFieldsCheck_rot {c reps rot alg : Nat} (d : DType) (hr : reps ≠ 0) (ha : alg < 4) (hrot : d.width ≤ rot) :
    chanFieldsCheck c reps rot alg d.code = some ⟨.corruptStream, rot, 5⟩ := by
  have hd := d.code_lt
  have h67 : ¬ (d.code = 6 ∨ d.code = 7) := by omega
  have h8 : ¬ 8 ≤ d.code := by omega
  have h4 : ¬ 4 ≤ alg := by omega
  simp [chanFieldsCheck, refuseIf, hr, h67, h8, h4, DType.ofCode_code, hrot]

/-- `P.SECTION` has a section header in front of it, whole up to the channel behind `chans` (R276). -/
structure State.ChannelNext (s : State) (pad : List Bool) (size n : Nat) (chans : List Channel) : Prop where
  inv : s.Inv
  live : s.rx.flt.fault = 0
  state : s.rx.pstate = .headerRead
  pad : pad.length = (8 - s.rx.bitpos % 8) % 8
  some : 0 < size
  fits : size ≤ s.cfg.maxSectionLength
  more : chans.length < n
  count : n ≤ s.cfg.maxChannels
  one : flagOneChan s.rx.flags = true → n = 1
  each : ∀ ch ∈ chans, ch.Ok ∧ ch.Codable ∧
    if repsPresent s.rx.flags n then ch.reps.toNat < 2 ^ s.cfg.repsBits else ch.reps = 1

section Channel

variable {s : State} {pad bits front : List Bool} {size n : Nat} {chans : List Channel}
  (hnext : s.ChannelNext pad size n chans)
  (hfront : front = pad ++ (sectionFront s.cfg s.rx.flags size n chans ++ bits))
include hnext hfront

theorem State.ChannelNext.meets {e : Raise} (he : inContainer e = e)
    (h : RxM.Fails s.cfg (fun _ => True) anyRest (getChannel s.cfg (repsPresent s.rx.flags n) chans.length) bits
      (fun _ => e) id) (rest : List Bool) (ha : s.rx.ahead s.cfg = front ++ rest) :
    ∃ s', exec .pSection s = .next s' ∧ s'.rx.Reported e := by
  obtain ⟨hinv, hf, hp, hpad, h0, hsize, hlen, hn, hone, hch⟩ := hnext
  exact exec_pSection_fieldsMeet hinv hf hp hpad hfront he
    (getSectionFields_channelFails hinv.cfg h0 hsize hlen hn hone hch h) rest ha

theorem State.ChannelNext.ends {k : Nat}
    (h : RxM.Fails s.cfg (fun _ => True) (shortOf k) (getChannel s.cfg (repsPresent s.rx.flags n) chans.length) bits
      (endBehind bits) id) (rest : List Bool) (hk : rest.length < k) (ha : s.rx.ahead s.cfg = front ++ rest) :
    ∃ s', exec .pSection s = .next s' ∧ s'.rx.Reported (truncatedAt (s.rx.bitpos + front.length)) := by
  obtain ⟨hinv, hf, hp, hpad, h0, hsize, hlen, hn, hone, hch⟩ := hnext
  exact exec_pSection_fieldsEnd hinv hf hp hpad hfront
    ((getSectionFields_channelFails hinv.cfg h0 hsize hlen hn hone hch h).congr rfl (endBehind_append _ _)
      fun _ _ => rfl) rest hk ha

end Channel

/-- Behind a channel's fields the parameters end (R276). -/
theorem getChannel_paramsEnd (hK : K.Legal) {withReps : Bool} {c reps delta rot : Nat} {alg : Alg} {d : DType}
    (hreps : reps < 2 ^ K.repsBits) (h1 : withReps = false → reps = 1) (h0 : reps ≠ 0) (hdelta : delta < 2)
    (hrot : rot < d.width) {bits : List Bool}
    (h : RxM.Fails K (fun _ => True) Q (getParams K alg d.width) bits (endBehind bits) id) :
    RxM.Fails K (fun _ => True) Q (getChannel K withReps c)
      (chanFieldBits K withReps reps delta rot alg.code d.code ++ bits)
      (endBehind (chanFieldBits K withReps reps delta rot alg.code d.code ++ bits)) id :=
  (getChannel_behindFields hK hreps h1 h0 hdelta hrot rfl h).congr rfl (endBehind_append _ _) fun _ _ => rfl

/-- Settles O60: each clause is the failure of one field behind those in front of it. -/
theorem sectionHeaderRefused : Obligations.SectionHeaderRefused := by
  intro s pad hinv hf hp hpad
  have hK := hinv.cfg
  refine ⟨?_, ?_, fun size hmax hsize => ?_, fun size h0 hsize => ⟨fun hone => ⟨?_, ?_, fun n hmax hn => ?_⟩,
    fun n chans hlen hn hone hch => ?_⟩⟩
  · exact exec_pSection_fieldsEnd hinv hf hp hpad (List.append_nil pad).symm ((getSectionSize_ends hK).bind _)
  · exact exec_pSection_fieldsMeet hinv hf hp hpad rfl rfl
      ((getSectionSize_refused hK (Nat.two_pow_pos _) rfl).bind _)
  · exact exec_pSection_fieldsMeet hinv hf hp hpad rfl rfl
      ((getSectionSize_refused hK hsize (by rw [refuseIf_neg (by omega), refuseIf_pos hmax]; rfl)).bind _)
  · have h := getSectionFields_count hK h0 hsize (getChannelCount_ends hK hone)
    rw [List.append_nil] at h
    exact exec_pSection_fieldsEnd hinv hf hp hpad rfl h
  · exact exec_pSection_fieldsMeet hinv hf hp hpad (List.append_assoc ..) rfl
      (getSectionFields_count hK h0 hsize (getChannelCount_refused hK hone (Nat.two_pow_pos _) rfl))
  · exact exec_pSection_fieldsMeet hinv hf hp hpad (List.append_assoc ..) rfl
      (getSectionFields_count hK h0 hsize
        (getChannelCount_refused hK hone hn (by rw [refuseIf_neg (by omega), refuseIf_pos hmax]; rfl)))
  have hnext : s.ChannelNext pad size n chans := ⟨hinv, hf, hp, hpad, h0, hsize, hlen, hn, hone, hch⟩
  dsimp only
  refine ⟨fun i bits hi hbits => ?_, fun reps delta rot alg type hreps hone1 hdelta hrot halg htype => ?_⟩
  · exact hnext.ends (bits := bits) (by simp only [sectionFront, List.append_assoc])
      (getChannel_fieldsEnd hK _ _ i bits hi hbits)
  have hrefused := fun (e : Raise) (h : chanFieldsCheck chans.length reps rot alg type = some e) =>
    getChannel_refused (P := fun _ => True) hK hreps hone1 hdelta hrot halg htype h
  have hfields : ∀ bits, pad ++ fieldBits s.cfg.sectSizeBits size ++
      (if flagOneChan s.rx.flags then [] else fieldBits s.cfg.numChanBits n) ++
      chans.flatMap (chanHeaderBits s.cfg (repsPresent s.rx.flags n)) ++
      (if repsPresent s.rx.flags n then fieldBits s.cfg.repsBits reps else []) ++ fieldBits 1 delta ++
      fieldBits s.cfg.nbitsBits rot ++ fieldBits s.cfg.algBits alg ++ fieldBits s.cfg.typeBits type ++ bits =
      pad ++ (sectionFront s.cfg s.rx.flags size n chans ++
        (chanFieldBits s.cfg (repsPresent s.rx.flags n) reps delta rot alg type ++ bits)) := fun bits => by
    simp only [sectionFront, chanFieldBits, List.append_assoc]
  have hfields0 := hfields []
  simp only [List.append_nil] at hfields0
  refine ⟨fun hr => ?_, fun hr => ⟨fun ht => ?_, fun ht => ?_, ?_⟩⟩
  · subst hr
    exact hnext.meets hfields0 rfl (hrefused _ (chanFieldsCheck_reps ..))
  · exact hnext.meets hfields0 rfl (hrefused _ (chanFieldsCheck_reserved hr ht))
  · exact hnext.meets hfields0 rfl (hrefused _ (chanFieldsCheck_type hr ht))
  rintro d rfl
  refine ⟨fun ha => ?_, fun ha hwide => ?_, fun hok => ⟨?_, ?_⟩⟩
  · exact hnext.meets hfields0 rfl (hrefused _ (chanFieldsCheck_alg d hr ha))
  · exact hnext.meets hfields0 rfl (hrefused _ (chanFieldsCheck_rot d hr ha hwide))
  · rintro (rfl | rfl)
    · have h := getChannel_paramsEnd (c := chans.length) hK hreps hone1 hr hdelta hok
        ((getParams_ends hK).1 .reducedBinary (.inl rfl))
      rw [List.append_nil] at h
      exact hnext.ends hfields0 h
    · have h := getChannel_paramsEnd (c := chans.length) hK hreps hone1 hr hdelta hok
        ((getParams_ends hK).1 .constant (.inr rfl))
      rw [List.append_nil] at h
      exact hnext.ends hfields0 h
  · rintro rfl offset
    refine ⟨?_, fun nb hnb hlt => ?_⟩
    · exact hnext.ends (hfields _) (getChannel_paramsEnd (alg := .reducedBinary) hK hreps hone1 hr hdelta hok
        ((getParams_ends hK).2 offset))
    · refine hnext.meets ?_ rfl (getChannel_behindFields (alg := .reducedBinary) hK hreps hone1 hr hdelta hok rfl
        (getParams_nbits (offset := offset) hK hlt hnb))
      rw [List.append_assoc, hfields]
      rfl

end Sys2Proof.Machine
end

section
/-! PROOFS. `P.SECTION` past a section header (46_container_parser.md R278 to R284): the section it takes, whatever its padding,
codes and ghost bytes, and its CRC. -/

namespace Sys2Proof.Machine

variable {K : Config} {P : Rx → Prop}

/-- `P.SECTION` is in front of a section of `len` bytes of `src`, coded as `bits` up to its CRC (R275, R125). -/
structure State.SectionNext (s : State) (chans : List Channel) (src : RawMem) (words : WordsAt) (len : Nat)
    (bits : List Bool) : Prop where
  inv : s.Inv
  live : s.rx.flt.fault = 0
  state : s.rx.pstate = .headerRead
  layout : LayoutOk s.cfg s.rx.flags chans
  some : 0 < len
  fits : len ≤ s.cfg.maxSectionLength
  carries : ∀ v ∈ sectionVectors chans len, (channelAt chans v.1).Carries src v.2.1 v.2.2
  decodes : WordsOf src words
  coded : SectionCoded s.cfg s.rx.flags chans words len s.rx.bitpos bits

/-- What decoding a section leaves in the channels and in raw memory (R278, R279). -/
def Rx.sectionDecoded (words : WordsAt) (chans : List Channel) (len : Nat) (r : Rx) : Rx :=
  let cs := chans.map Channel.parsed
  { r with
    chans := vectorsAfter words cs (sectionVectors cs len)
    raw := vectorsStored words cs (sectionVectors cs len) r.raw }

/-! ## A section that is taken -/

/-- Settles O54. -/
theorem sectionParsed : Obligations.SectionParsed := by
  intro s chans src words len last bits rest hinv hf hp hl h0 hlen hcar hwo hb whole ha
  have hK := hinv.cfg
  obtain ⟨r', hx, hcons, hrest⟩ := getSection_reads hK (hinv.rx.reader hf) hl h0 hlen hwo hinv.rx.raw hcar last hb
    (by rw [ha, List.append_assoc])
  have hraw : r'.raw = _ := hcons.touched.raw_eq
  have htick : r'.freeTick = s.rx.freeTick + 1 := (congrArg Rx.freeTick hcons.withReader_eq).symm
  have hbytes := section_bytes hwo hl hinv.rx.raw hcar
  rw [← sectionVectors_parsed] at hbytes
  refine ⟨r', by rw [exec_pSection_headerRead hf hp, hx], ?_, hrest, fun a ha => ?_, fun a ha => ?_⟩
  · rw [hraw, htick]
    exact hcons
  · rw [hraw, Rx.forgetGhost_raw, RawMem.readByte_forget_outside _ _ (.inl ha), hbytes, if_pos ha]
  · have hclip := clipLen_le s.cfg len s.cfg.maxGhostBytes
    rw [hraw, Rx.forgetGhost_raw, RawMem.readByte_forget_outside _ _ (.inr (by omega)), hbytes, if_neg (by omega)]

/-! ## What is done behind the decoded section -/

/-- The rest of `P.SECTION` once the section is decoded (R280, R281, R284). -/
def getSectionEnd (K : Config) (len : Nat) : RxM Nat := do
  getCrc K len
  getFootTag K
  modify (Rx.finishSection K len)
  pure len

theorem getSectionEnd_crcFails {len : Nat} {r r' : Rx} {e : Raise} (h : getCrc K len r = .error e r') :
    getSectionEnd K len r = .error e r' := by
  simp only [getSectionEnd, bind, EStateM.bind, h]

theorem getSectionEnd_crcTaken {len : Nat} {r r' : Rx} (h : getCrc K len r = .ok () r') :
    getSectionEnd K len r =
      (getFootTag K >>= fun _ => modify (Rx.finishSection K len) >>= fun _ => (pure len : RxM Nat)) r' := by
  simp only [getSectionEnd, bind, EStateM.bind, h]

/-- A section is decoded, its CRC is next. -/
theorem State.SectionNext.decode {s : State} {chans : List Channel} {src : RawMem} {words : WordsAt} {len : Nat}
    {bits rest : List Bool} (h : s.SectionNext chans src words len bits) (ha : s.rx.ahead s.cfg = bits ++ rest) :
    ∃ r, getSection s.cfg s.rx = getSectionEnd s.cfg len r ∧
      (s.rx.sectionDecoded words chans len).Consumed s.cfg r bits ∧ r.ahead s.cfg = rest ∧
      ∀ a < len, r.raw.readByte a = src.readByte a := by
  obtain ⟨hinv, hf, hp, hl, h0, hlen, hcar, hwo, head, data, hh, hd, rfl⟩ := h
  have hK := hinv.cfg
  rw [List.append_assoc] at ha
  obtain ⟨r1, hx1, c1, ha1⟩ := getSectionHeader_reads hK (hinv.rx.reader hf) hl h0 hlen hh ha
  have e1 := c1.withReader_eq
  have hchans : r1.chans = chans.map Channel.parsed := by rw [← e1]; rfl
  have hraw : r1.raw = s.rx.raw := by rw [← e1]; rfl
  rw [← vectorsCoded_parsed words fun v hv => (sectionVectors_mem hv).1, ← sectionVectors_parsed] at hd
  obtain ⟨r2, hx2, c2, ha2⟩ := (decSection_reads hK hwo (parsed_each hl) (sectionLength_lt hK hlen) hd).takes r1 c1.inv
    hchans rest ha1
  refine ⟨r2, ?_, ?_, ha2, fun a ha => ?_⟩
  · simp only [getSection, getSectionEnd, bind, EStateM.bind, hx1, hx2]
  · have hs := (c1.rebase (s.rx.sectionDecoded words chans len)).trans (c2.rebase (s.rx.sectionDecoded words chans len))
    have hr2 : (s.rx.sectionDecoded words chans len).withReader r2 = r2 := by
      conv_rhs => rw [← c2.withReader_eq, ← e1]
      rfl
    rw [hr2] at hs
    exact hs
  · have hraw2 : r2.raw = _ := c2.touched.raw_eq
    rw [hraw2, hraw, sectionVectors_parsed, section_bytes hwo hl hinv.rx.raw hcar, if_pos ha]

theorem RawMem.bytes_congr {m m' : RawMem} {len : Nat} (h : ∀ a < len, m.readByte a = m'.readByte a) :
    m.bytes 0 len = m'.bytes 0 len :=
  List.map_congr_left fun j hj => h _ (by have := List.mem_range.1 hj; omega)

/-! ## The CRC (R280) -/

/-- The CRC registers once the stored word is read. -/
def Rx.crcLoaded (computed stored : U32) (r : Rx) : Rx := { r with storedCrc := stored, sectCrc := computed }

theorem Rx.crcLoaded_aside (computed stored : U32) : Rx.Aside (Rx.crcLoaded computed stored) := fun _ _ => rfl

/-- A CRC word is read, both registers are loaded, then they are compared (R280). -/
theorem getCrc_compares (hK : K.Legal) {r : Rx} (hr : r.ReaderInv K) (hflag : flagCrc r.flags = true) {len : Nat}
    {stored : U32} {rest : List Bool} (ha : r.ahead K = fieldBits 32 stored.toNat ++ rest) :
    ∃ r', (r.crcLoaded (crc32 K (r.raw.bytes 0 len)) stored).Consumed K r' (fieldBits 32 stored.toNat) ∧
      r'.ahead K = rest ∧
      getCrc K len r = raiseIf (refuseIf (crc32 K (r.raw.bytes 0 len) ≠ stored ∧ r.ignoreCrc = false)
        ⟨.crcMismatch, (crc32 K (r.raw.bytes 0 len)).toNat, stored.toNat⟩) r' := by
  obtain ⟨r1, hx, hc, hrest⟩ := (getBits_reads_lt hK hK.wordBits_ge stored.isLt).takes r hr rest ha
  have e := hc.withReader_eq
  have hraw : r1.raw = r.raw := hc.touched.raw_eq
  have hign : r1.ignoreCrc = r.ignoreCrc := (congrArg Rx.ignoreCrc e).symm
  refine ⟨r1.crcLoaded (crc32 K (r.raw.bytes 0 len)) stored, ?_, hrest, ?_⟩
  · have hs := hc.rebase (r.crcLoaded (crc32 K (r.raw.bytes 0 len)) stored)
    rwa [← Rx.crcLoaded_aside, ← Rx.crcLoaded_aside, Rx.withReader_self, e] at hs
  · simp only [getCrc, bind, EStateM.bind, get, MonadState.get, getThe, MonadStateOf.get, EStateM.get, hflag, if_true, hx,
      modify, modifyGet, MonadStateOf.modifyGet, EStateM.modifyGet, hraw, hign, BitVec.ofNat_toNat, BitVec.setWidth_eq,
      Rx.crcLoaded]

theorem getCrc_ends (hK : K.Legal) (len : Nat) :
    RxM.Fails K (fun r => flagCrc r.flags = true) (shortOf 32) (getCrc K len) [] (endBehind []) id := by
  rw [getCrc]
  exact RxM.Fails.getBind (fun r hr => if_pos hr) ((RxM.Fails.getBits hK hK.wordBits_ge).bind _)

/-- The foot tag and what follows it (R281, R284). -/
theorem getFootTag_finishes (hK : K.Legal) (last : Bool) (len : Nat) :
    RxM.ReadsTo K P (getFootTag K >>= fun _ => modify (Rx.finishSection K len) >>= fun _ => (pure len : RxM Nat))
      (fieldBits 4 (if last then 0xF else 0x8)) len
      (fun r => Rx.finishSection K len { r with pstate := if last then .exhausted else r.pstate }) := by
  have hfinish : Rx.Aside (Rx.finishSection K len) := fun _ _ => rfl
  have hend := (RxM.ReadsTo.modify (K := K) (P := fun _ => True) hfinish).seq
    (RxM.ReadsTo.pure (P := fun _ => True) len) (fun _ _ => trivial) Rx.asideProp_true Rx.aside_id
  exact ((getFootTag_reads (P := P) hK last).seq hend (fun _ _ => trivial) Rx.asideProp_true hfinish).congr
    (List.append_nil _) rfl fun _ _ => rfl

/-- Settles O57. -/
theorem crcChecked : Obligations.CrcChecked := by
  intro s chans src words len stored bits rest hinv hf hp hflag hl h0 hlen hcar hne hwo hb ha
  have hK := hinv.cfg
  have hnext : s.SectionNext chans src words len bits := ⟨hinv, hf, hp, hl, h0, hlen, hcar, hwo, hb⟩
  obtain ⟨r2, hx2, c2, ha2, hbytes⟩ := hnext.decode ha
  have e2 := c2.withReader_eq
  have hflag2 : flagCrc r2.flags = true := by rw [← e2]; exact hflag
  have hign2 : r2.ignoreCrc = s.rx.ignoreCrc := by rw [← e2]; rfl
  obtain ⟨r3, c3, ha3, hx3⟩ := getCrc_compares hK c2.inv hflag2 (len := len) ha2
  rw [RawMem.bytes_congr hbytes] at hx3 c3
  rw [hign2] at hx3
  have e3 := c3.withReader_eq
  refine ⟨fun hign => ?_, fun hign last behind hrest => ?_⟩
  · rw [refuseIf_pos ⟨hne.symm, hign⟩] at hx3
    obtain ⟨s', hs', hst, hv, hflt⟩ := exec_pSection_reported hinv hf hp (hx2.trans (getSectionEnd_crcFails hx3))
    refine ⟨s', hs', hst, hv, hflt.trans ?_⟩
    simp [inContainer, FaultCode.code]
  · rw [refuseIf_neg fun h => by rw [hign] at h; cases h.2] at hx3
    obtain ⟨r4, hx4, c4, ha4⟩ := (getFootTag_finishes (P := fun _ => True) hK last len).takes r3 c3.inv trivial behind
      (by rw [ha3, hrest])
    have e4 := c4.withReader_eq
    have hx : getSection s.cfg s.rx = .ok len r4 := hx2.trans ((getSectionEnd_crcTaken hx3).trans hx4)
    refine ⟨_, exec_pSection_headerRead hf hp, ?_⟩
    rw [hx]
    refine ⟨rfl, sectionLength_answered hK hlen _, ?_, ?_, ?_, ?_, ha4, fun a ha => ?_⟩
    · exact (congrArg Rx.storedCrc e4).symm.trans (congrArg Rx.storedCrc e3).symm
    · exact (congrArg Rx.sectCrc e4).symm.trans (congrArg Rx.sectCrc e3).symm
    · have hflt : r4.flt = s.rx.flt := c4.touched.flt_eq.trans (c3.touched.flt_eq.trans c2.touched.flt_eq)
      exact (congrArg FaultRecord.fault hflt).trans hf
    · have hstate : r3.pstate = .headerRead :=
        (congrArg Rx.pstate e3).symm.trans ((congrArg Rx.pstate e2).symm.trans hp)
      exact (congrArg Rx.pstate e4).symm.trans (hstate ▸ rfl)
    · have hraw4 : r4.raw = _ := c4.touched.raw_eq
      have hraw3 : r3.raw = r2.raw := c3.touched.raw_eq
      rw [Rx.respond_raw, hraw4, Rx.finishSection, Rx.forgetGhost_raw,
        RawMem.readByte_forget_outside _ _ (.inl ha), ← hbytes a ha, ← hraw3]

end Sys2Proof.Machine
end

section
/-! PROOFS. The faults of `P.SECTION` (46_container_parser.md R275, R283): what any of them leaves as it was, and which one is
reported behind the section header. -/

namespace Sys2Proof.Machine

variable {K : Config} {α : Type}

/-! ## What `P.SECTION` may change before its foot tag -/

/-- `q` with what `P.SECTION` may have changed when it faults taken from `r` (R275). -/
def Rx.withSection (q r : Rx) : Rx :=
  { q with
    rbuf := r.rbuf, rcount := r.rcount, rptr := r.rptr, roff := r.roff, srcEof := r.srcEof, pulled := r.pulled,
    bitpos := r.bitpos, srcpos := r.srcpos, freeTick := r.freeTick, port := r.port, flt := r.flt, chans := r.chans,
    raw := r.raw, sectCrc := r.sectCrc, storedCrc := r.storedCrc }

/-- `r` differs from `q` in nothing else. -/
def Rx.InSection (q r : Rx) : Prop := q.withSection r = r

/-- `f` changes nothing else. -/
def Rx.SectionMove (f : Rx → Rx) : Prop := ∀ q r : Rx, q.withSection (f r) = f (q.withSection r)

theorem Rx.InSection.move {q r : Rx} (h : q.InSection r) {f : Rx → Rx} (hf : Rx.SectionMove f) : q.InSection (f r) :=
  (hf q r).trans (congrArg f h)

theorem Rx.InSection.touched {q r r' : Rx} (h : q.InSection r) (ht : r.Touched K r') : q.InSection r' := by
  have hreader := congrArg (fun x : Rx => { x with
    rbuf := r'.rbuf, rcount := r'.rcount, rptr := r'.rptr, roff := r'.roff, srcEof := r'.srcEof, pulled := r'.pulled,
    bitpos := r'.bitpos, srcpos := r'.srcpos }) h
  exact (congrArg q.withSection ht.frame).trans (hreader.trans ht.frame.symm)

/-- Started in a section `x` stays in it, fault or not. -/
abbrev RxM.KeepsSection (q : Rx) (x : RxM α) : Prop := x.Ends q.InSection (fun _ => q.InSection) q.InSection

variable {q : Rx}

theorem RxM.Touches.keepsSection {x : RxM α} (h : x.Touches K) : x.KeepsSection q := by
  intro r hr
  cases hx : x r with
  | ok a r' => exact hr.touched (h.ok hx)
  | error e r' => exact hr.touched (h.error hx)

theorem RxM.keepsSection_modify {f : Rx → Rx} (hf : Rx.SectionMove f) : (modify f : RxM PUnit).KeepsSection q :=
  RxM.Ends.modify fun _ hr => hr.move hf

theorem RxM.keepsSection_pure (a : α) : (pure a : RxM α).KeepsSection q := RxM.Ends.pure fun _ hr => hr

theorem RxM.keepsSection_throw (e : Raise) : (throw e : RxM α).KeepsSection q := RxM.Ends.throw fun _ hr => hr

theorem RxM.keepsSection_raiseIf (c : Option Raise) : (raiseIf c).KeepsSection q :=
  RxM.Ends.raiseIf (fun _ _ hr => hr) fun _ hr => hr

theorem RxM.keepsSection_get : (get : RxM Rx).KeepsSection q := RxM.Ends.get fun _ hr => hr

theorem getBits_keepsSection (hK : K.Legal) (n : Nat) : (getBits K n).KeepsSection q :=
  (getBits_touches hK n).keepsSection

theorem Rx.sectionMove_nextWord : Rx.SectionMove Rx.nextWord := by
  intro q r
  have hptr : (q.withSection r).rptr = r.rptr := rfl
  have hcount : (q.withSection r).rcount = r.rcount := rfl
  simp only [Rx.nextWord, hptr, hcount]
  split <;> rfl

theorem Rx.sectionMove_windup (K : Config) : Rx.SectionMove (Rx.windup K) := by
  intro q r
  have hroff : (q.withSection r).roff = r.roff := rfl
  simp only [Rx.windup, hroff]
  split
  · rfl
  · split
    · exact Rx.sectionMove_nextWord q _
    · rfl

theorem getWindup_keepsSection : (getWindup K).KeepsSection q := RxM.keepsSection_modify (Rx.sectionMove_windup K)

/-! ### The section header -/

theorem getParams_keepsSection (hK : K.Legal) (alg : Alg) (w : Nat) : (getParams K alg w).KeepsSection q := by
  cases alg with
  | default => exact RxM.keepsSection_pure _
  | runLength => exact RxM.keepsSection_pure _
  | constant => exact (getBits_keepsSection hK _).bind fun _ => RxM.keepsSection_pure _
  | reducedBinary =>
    exact (getBits_keepsSection hK _).bind fun _ => (getBits_keepsSection hK _).bind fun _ =>
      (RxM.keepsSection_raiseIf _).bind fun _ => RxM.keepsSection_pure _

theorem getChannel_keepsSection (hK : K.Legal) (withReps : Bool) (c : Nat) : (getChannel K withReps c).KeepsSection q := by
  have hreps : (if withReps then getBits K K.repsBits else pure 1).KeepsSection q :=
    RxM.Ends.ite (fun _ => getBits_keepsSection hK _) fun _ => RxM.keepsSection_pure _
  exact hreps.bind fun _ => (getBits_keepsSection hK _).bind fun _ => (getBits_keepsSection hK _).bind fun _ =>
    (getBits_keepsSection hK _).bind fun _ => (getBits_keepsSection hK _).bind fun _ =>
      (RxM.keepsSection_raiseIf _).bind fun _ => (getParams_keepsSection hK _ _).bind fun _ =>
        RxM.keepsSection_modify fun _ _ => rfl

theorem getChannels_keepsSection (hK : K.Legal) (withReps : Bool) (c n : Nat) :
    (getChannels K withReps c n).KeepsSection q := by
  induction n generalizing c with
  | zero => exact RxM.keepsSection_pure _
  | succ n ih => exact (getChannel_keepsSection hK withReps c).bind fun _ => ih (c + 1)

theorem getSectionHeader_keepsSection (hK : K.Legal) : (getSectionHeader K).KeepsSection q := by
  have hsize : (getSectionSize K).KeepsSection q :=
    (getBits_keepsSection hK _).bind fun _ => (RxM.keepsSection_raiseIf _).bind fun _ => RxM.keepsSection_pure _
  have hcount : ∀ flags, (getChannelCount K flags).KeepsSection q := fun flags =>
    (RxM.Ends.ite (fun _ => RxM.keepsSection_pure _) fun _ => getBits_keepsSection hK _).bind fun _ =>
      (RxM.keepsSection_raiseIf _).bind fun _ => RxM.keepsSection_pure _
  have hfields : (getSectionFields K).KeepsSection q :=
    hsize.bind fun _ => RxM.keepsSection_get.bind fun r => (hcount r.flags).bind fun _ =>
      (RxM.keepsSection_modify fun _ _ => rfl).bind fun _ => (getChannels_keepsSection hK _ _ _).bind fun _ =>
        RxM.keepsSection_pure _
  exact getWindup_keepsSection.bind fun _ => hfields.bind fun _ => getWindup_keepsSection.bind fun _ =>
    RxM.keepsSection_pure _

/-! ### The frame data -/

theorem decWords_keepsSection (hK : K.Legal) (c m : Nat) : (decWords K c m).KeepsSection q :=
  RxM.keepsSection_get.bind fun _ => RxM.Ends.ite (fun _ => RxM.keepsSection_pure _) fun _ =>
    (codecGet_touches hK _ m).keepsSection.bind fun _ => (RxM.keepsSection_modify fun _ _ => rfl).bind fun _ =>
      RxM.keepsSection_pure _

theorem decVec_keepsSection (hK : K.Legal) (c addr n : Nat) : (decVec K c addr n).KeepsSection q :=
  RxM.keepsSection_get.bind fun _ => (decWords_keepsSection hK c _).bind fun _ =>
    RxM.keepsSection_modify fun _ _ => rfl

theorem decFrame_keepsSection (hK : K.Legal) (base : Nat) (cs : List Nat) : (decFrame K base cs).KeepsSection q := by
  induction cs with
  | nil => exact RxM.keepsSection_pure _
  | cons c cs ih => exact RxM.keepsSection_get.bind fun _ => (decVec_keepsSection hK _ _ _).bind fun _ => ih

theorem decFrames_keepsSection (hK : K.Legal) (f n : Nat) : (decFrames K f n).KeepsSection q := by
  induction n generalizing f with
  | zero => exact RxM.keepsSection_pure _
  | succ n ih => exact RxM.keepsSection_get.bind fun _ => (decFrame_keepsSection hK _ _).bind fun _ => ih (f + 1)

theorem decPartial_keepsSection (hK : K.Legal) (base : Nat) (cs : List Nat) (rem : Nat) :
    (decPartial K base cs rem).KeepsSection q := by
  induction cs generalizing rem with
  | nil => exact RxM.keepsSection_pure _
  | cons c cs ih =>
    rw [decPartial]
    exact RxM.Ends.ite (fun _ => RxM.keepsSection_pure _) fun _ => RxM.keepsSection_get.bind fun _ =>
      (decVec_keepsSection hK _ _ _).bind fun _ => ih _

theorem decSection_keepsSection (hK : K.Legal) (size : Nat) : (decSection K size).KeepsSection q :=
  RxM.keepsSection_get.bind fun _ => (decFrames_keepsSection hK _ _).bind fun _ => decPartial_keepsSection hK _ _ _

/-! ### The whole command -/

theorem getCrc_keepsSection (hK : K.Legal) (size : Nat) : (getCrc K size).KeepsSection q :=
  RxM.keepsSection_get.bind fun _ => RxM.Ends.ite
    (fun _ => (getBits_keepsSection hK _).bind fun _ => (RxM.keepsSection_modify fun _ _ => rfl).bind fun _ =>
      RxM.keepsSection_get.bind fun _ => RxM.keepsSection_raiseIf _)
    fun _ => RxM.keepsSection_pure _

/-- A foot tag that is refused or cut short changes nothing else; one that is taken ends the section (R281). -/
theorem getFootTag_fault (hK : K.Legal) : (getFootTag K).Ends q.InSection (fun _ _ => True) q.InSection :=
  (getBits_keepsSection hK _).bind fun _ => RxM.Ends.ite (fun _ => RxM.Ends.pure fun _ _ => trivial) fun _ =>
    RxM.Ends.ite (fun _ => RxM.Ends.modify fun _ _ => trivial) fun _ => RxM.Ends.throw fun _ hr => hr

/-- What a fault of `P.SECTION` has changed by then (R275). -/
theorem getSection_fault (hK : K.Legal) : (getSection K).Ends q.InSection (fun _ _ => True) q.InSection :=
  (getSectionHeader_keepsSection hK).bind fun size => (decSection_keepsSection hK size).bind fun _ =>
    (getCrc_keepsSection hK size).bind fun _ => (getFootTag_fault hK).bind fun _ =>
      RxM.Ends.bind (Q := fun _ _ => True) (RxM.Ends.modify fun _ _ => trivial) fun _ => RxM.Ends.pure fun _ _ => trivial

theorem Rx.sectionMove_lost (K : Config) (e : Raise) : Rx.SectionMove (sectionLost K e) := fun _ _ => rfl

theorem inContainer_code_ne (e : Raise) : (inContainer e).code.code ≠ 3 := by
  obtain ⟨code, i0, i1⟩ := e
  cases code <;> simp [inContainer, FaultCode.code]

/-- After any fault of `P.SECTION` nothing else has changed, and it is no `EndOfStream` (R275, R283). -/
theorem exec_pSection_fault {s s' : State} (hinv : s.Inv) (hf : s.rx.flt.fault = 0) (hx : exec .pSection s = .next s')
    (hst : s'.rx.port.st ≠ 0) : s'.tx = s.tx ∧ s'.rx.port.st ≠ 3 ∧ s.rx.InSection s'.rx := by
  cases hp : s.rx.pstate with
  | noHeader =>
    rw [exec_pSection_noHeader hf hp] at hx
    cases hx
    exact ⟨rfl, inContainer_code_ne ⟨.illegalState, 0xB1, s.rx.status⟩, rfl⟩
  | exhausted =>
    rw [exec_pSection_exhausted hf hp] at hx
    cases hx
    exact absurd rfl hst
  | headerRead =>
    rw [exec_pSection_headerRead hf hp] at hx
    cases hx
    cases hget : getSection s.cfg s.rx with
    | ok len r =>
      simp only [hget] at hst
      exact absurd rfl hst
    | error e r =>
      have hr : s.rx.InSection r := (getSection_fault hinv.cfg).error (show s.rx.InSection s.rx from rfl) hget
      exact ⟨rfl, inContainer_code_ne e, hr.move (Rx.sectionMove_lost s.cfg e)⟩

/-! ## Which fault is reported -/

/-- A codec's refusal is none of the reader's underruns. -/
theorem MexpgRefused.inContainer_eq {k : Nat} {bits : List Bool} {e : Raise} (h : MexpgRefused K k bits e) :
    inContainer e = e := by cases h <;> rfl

theorem PairRefused.inContainer_eq {w left : Nat} {bits : List Bool} {e : Raise} (h : PairRefused K w left bits e) :
    inContainer e = e := by
  cases h with
  | value h => exact h.inContainer_eq
  | wide => rfl
  | count _ h => exact h.inContainer_eq
  | run => rfl

theorem getFootTag_refused (hK : K.Legal) {P : Rx → Prop} {tag : Nat} (hlt : tag < 16) (h8 : tag ≠ 0x8) (hF : tag ≠ 0xF) :
    RxM.Fails K P anyRest (getFootTag K) (fieldBits 4 tag) (fun _ => ⟨.corruptStream, tag, 7⟩) id := by
  have hW : 4 ≤ K.wordBits := by have := hK.wordBits_ge; omega
  rw [← List.append_nil (fieldBits 4 tag)]
  refine ((getBits_reads_lt hK hW hlt).thenFails (P := fun _ => True) (e := fun _ => ⟨.corruptStream, tag, 7⟩) ?_
    Rx.asideProp_true Rx.aside_id).weaken fun _ _ => trivial
  rw [if_neg h8, if_neg hF]
  exact RxM.Fails.throw _

theorem getFootTag_ends (hK : K.Legal) {P : Rx → Prop} :
    RxM.Fails K P (shortOf 4) (getFootTag K) [] (endBehind []) id :=
  (RxM.Fails.getBits hK (by have := hK.wordBits_ge; omega)).bind _

section Section

variable {s : State} {chans : List Channel} {src : RawMem} {words : WordsAt} {len : Nat} {bits rest : List Bool}
  (h : s.SectionNext chans src words len bits)
include h

/-- Behind the CRC the foot tag fails (R281). -/
theorem State.SectionNext.tagFails {u : List Bool} {e : Nat → Raise} {Q : List Bool → Prop} {f : Rx → Rx}
    (hfails : RxM.Fails s.cfg (fun _ => True) Q (getFootTag s.cfg) u e f) (hq : Q rest)
    (ha : s.rx.ahead s.cfg = bits ++ crcBits s.cfg s.rx.flags src len ++ (u ++ rest)) :
    ∃ s', exec .pSection s = .next s' ∧ s'.rx.Reported
      (inContainer (e (s.rx.bitpos + (bits ++ crcBits s.cfg s.rx.flags src len).length))) := by
  obtain ⟨hinv, hf, hp, hl, h0, hlen, hcar, hwo, hb⟩ := h
  obtain ⟨r1, hx1, c1, ha1⟩ := getSectionBody_reads hinv.cfg (hinv.rx.reader hf) hl h0 hlen hwo hinv.rx.raw hcar hb ha
  have hpos : r1.bitpos = s.rx.bitpos + (bits ++ crcBits s.cfg s.rx.flags src len).length := c1.bitpos_eq
  obtain ⟨r2, hx2, -⟩ := hfails r1 c1.inv trivial rest hq ha1
  rw [← hpos]
  refine exec_pSection_reported (r' := r2) hinv hf hp ?_
  rw [getSection_eq]
  simp only [bind, EStateM.bind, hx1, hx2]

/-- The stream ends in front of the CRC (R280, R283). -/
theorem State.SectionNext.crcEnds (hflag : flagCrc s.rx.flags = true) (hrest : rest.length < 32)
    (ha : s.rx.ahead s.cfg = bits ++ rest) :
    ∃ s', exec .pSection s = .next s' ∧ s'.rx.Reported (truncatedAt (s.rx.bitpos + bits.length)) := by
  obtain ⟨r1, hx1, c1, ha1, -⟩ := h.decode ha
  have hpos : r1.bitpos = s.rx.bitpos + bits.length := c1.bitpos_eq
  have hflag1 : flagCrc r1.flags = true := by rw [← c1.withReader_eq]; exact hflag
  obtain ⟨r2, hx2, -⟩ := getCrc_ends h.inv.cfg len r1 c1.inv hflag1 rest hrest ha1
  rw [← hpos]
  exact exec_pSection_reported h.inv h.live h.state (hx1.trans (getSectionEnd_crcFails hx2))

/-- The stream ends inside the section (R283). -/
theorem State.SectionNext.cut {more : List Bool} (hm : more ≠ [])
    (he : bits ++ crcBits s.cfg s.rx.flags src len = s.rx.ahead s.cfg ++ more) :
    ∃ p, (∃ s', exec .pSection s = .next s' ∧ s'.rx.Reported (truncatedAt p)) ∧ s.rx.bitpos ≤ p ∧
      p ≤ s.rx.bitpos + (s.rx.ahead s.cfg).length ∧ s.rx.bitpos + (s.rx.ahead s.cfg).length < p + s.cfg.wordBits := by
  obtain ⟨hinv, hf, hp, hl, h0, hlen, hcar, hwo, hb⟩ := h
  have hcut := getSectionBody_cut hinv.cfg (hinv.rx.reader hf) hl h0 hlen hwo hinv.rx.raw hcar hb hm he
  obtain ⟨r', p, hx, hbounds⟩ := hcut.bind fun size => getFootTag s.cfg >>= fun _ =>
    modify (Rx.finishSection s.cfg size) >>= fun _ => (pure size : RxM Nat)
  rw [← getSection_eq] at hx
  exact ⟨p, exec_pSection_reported hinv hf hp hx, hbounds⟩

end Section

/-- Settles O56. -/
theorem sectionFaultFrame : Obligations.SectionFaultFrame := by
  intro s hinv hf
  refine ⟨fun s' hx hst => ?_, fun chans src words len hp hl h0 hlen hwo => ⟨?_, fun hcar bits hb => ?_⟩⟩
  · obtain ⟨htx, hcode, hframe⟩ := exec_pSection_fault hinv hf hx hst
    exact ⟨htx, hcode, hframe.symm⟩
  · intro vs us c addr nbytes head data ps bits rest e hv ch count done halg hps hdone hhead hdata hpair ha
    have hK := hinv.cfg
    have hcount : count < 2 ^ s.cfg.wordBits := by
      have hmem : (c, addr, nbytes) ∈ sectionVectors chans len := by rw [hv]; simp
      have hle := (sectionVectors_mem hmem).2
      have hceil : count ≤ nbytes := ceilDiv_le_self ch.size_pos
      have hlt := sectionLength_lt hK hlen
      simp only at hle
      omega
    have hrefused := rlGet_refused hK (Channel.width_le_wordBits hK ch) hps hdone hcount hpair
    obtain ⟨r', hx⟩ := getSection_codecFails hK (hinv.rx.reader hf) hl h0 hlen hwo hv halg hhead hdata hrefused ha
    exact hpair.inContainer_eq ▸ exec_pSection_reported hinv hf hp hx
  · have hnext : s.SectionNext chans src words len bits := ⟨hinv, hf, hp, hl, h0, hlen, hcar, hwo, hb⟩
    refine ⟨fun tag rest hlt h8 hF ha => ?_, fun rest hrest ha => ?_, fun hflag rest hrest ha => ?_, fun more hm he => ?_⟩
    · exact hnext.tagFails (getFootTag_refused hinv.cfg hlt h8 hF) trivial ha
    · exact hnext.tagFails (getFootTag_ends hinv.cfg) hrest ha
    · exact hnext.crcEnds hflag hrest ha
    · exact hnext.cut hm he

end Sys2Proof.Machine
end
